-- ==== Sys2Proof/Word.lean ====
section
/-! DEFINITION. The words of the part: bytes, 32-bit register words, and the index types of its tables. -/

namespace Sys2Proof

/-- A byte: a field of a ring frame, a byte of DRAM, a generation. -/
abbrev Byte := BitVec 8

/-- A 32-bit register or processor data bus word (spec 10, opening). -/
abbrev Word := BitVec 32

/-- A station number, 0 to 15 (spec 00, 1.6). -/
abbrev Station := Fin 16

/-- A claim index, 0 to 31 (spec 03, 3.1). -/
abbrev ClaimIdx := Fin 32

/-- A window entry number, 0 to 31 (R140). -/
abbrev EntryIdx := Fin 32

/-- A chunk index, 0 to 31 (R2). -/
abbrev ChunkIdx := Fin 32

/-- A use number, counted modulo 16 (R45). -/
abbrev UseNum := BitVec 4

end Sys2Proof
end

