-- ==== Sys2Proof/Config.lean ====
section
/-! DEFINITION. What one implementation fixes: the capacities and limits the spec states, and the free values: constants
without a body for what the spec leaves open, so that a claim holds whatever they are. -/

namespace Sys2Proof.Config

/-- FREE VALUE (R14; log 1). What DRAM byte `addr` holds while nothing has written it, keyed by the number of times
the band of frames it lies in has come into reach with undefined content. -/
opaque undefinedByte (epoch addr : Nat) : Byte

/-- FREE VALUE (R14; log 2). Whether byte `addr` of a chunk write interrupted by reset number `n` took its new value. -/
opaque interruptedByteIsNew (n addr : Nat) : Bool

/-- FREE VALUE (R11; log 3). Whether a granted window write interrupted by reset number `n` reached DRAM, in all its bytes. -/
opaque interruptedWriteLanded (n : Nat) : Bool

/-- FREE VALUE (R11; log 3). What the data bus carries at the end of a window read interrupted by reset number `n`. -/
opaque interruptedReadData (n : Nat) : Word

/-- FREE VALUE (R190; log 11). Which station, if any, the part reads from a source byte above 15. -/
opaque sourceAbove15 (b : Byte) : Option Station

/-- FREE VALUE (R190; log 12). Which of the response codes 0 to 3 the part reads from a response byte above 3. -/
opaque responseAbove3 (b : Byte) : Fin 4

/-- The straps sampled in `State.reset` (DESIGN CHOICE, log 4: the pins decide). -/
def powerOnStraps : BitVec 2 := 0

/-- Entries of the transmit queue (R101). -/
def txCapacity : Nat := 16
/-- Frames the hand-over list holds (R101). -/
def handoverCapacity : Nat := 64
/-- Entries of the receive queue (R108). -/
def rxCapacity : Nat := 8
/-- Bytes of the forward buffer (R99). -/
def forwardCapacity : Nat := 540
/-- Slots of the request pool (R17). -/
def poolCapacity : Nat := 24
/-- Records of the command queue (R158), and of the in-flight and completion places together (R160). -/
def commandCapacity : Nat := 16
/-- Retries after BUSY outcomes (R106). -/
def busyLimit : Nat := 32
/-- The return-timer expiry of one entry that stalls the port (R107, R110). -/
def expiryLimit : Nat := 8
/-- The return timer's limit in µs (R107). -/
def returnLimit : Nat := 2000
/-- Sends of one recall (R33). -/
def recallSends : Nat := 4
/-- Bytes of a DRAM frame (R2). -/
def frameBytes : Nat := 8192
/-- Bytes of a chunk (R2). -/
def chunkBytes : Nat := 256
/-- How many internal exchanges one event may carry out before the rest wait for the next event (log 17). -/
def exchangeFuel : Nat := 4096
/-- How many rounds of teardown one event may carry out (R42, R72; log 18). -/
def teardownFuel : Nat := 64

end Sys2Proof.Config
end

