-- ==== Sys2Proof/Syntax.lean ====
section
/-! DEFINITION. The commands: one constructor for each row of spec/opcode_table.json, with the row's operands as the rules
give them. Bus operands keep the signal names of spec 00, 1.7. -/

namespace Sys2Proof

/-- Where a station reset comes from (R139, R198). -/
inductive ResetCause where
  | pin       -- RST# asserted
  | control   -- a RESET_CONTROL write whose bus cycle has ended
deriving DecidableEq, Repr

/-- The commands and events the part acts on. -/
inductive Instr where
  -- resets; `fsel` is what the strap pins show at that moment (R1)
  /-- Power is applied (R139). -/
  | powerOnReset (fsel : BitVec 2)
  /-- RST# is asserted, or a requested reset is taken (R139, R198). -/
  | stationReset (cause : ResetCause) (fsel : BitVec 2)
  /-- RST# is released (R198). -/
  | rstReleased (fsel : BitVec 2)
  -- writes in the register window (R196)
  | post (lbe : BitVec 4)
  | pop (lbe : BitVec 4)
  | ack (ld : Word) (lbe : BitVec 4)
  | resetControl (ld : Word) (lbe : BitVec 4)
  | intEnable (ld : Word) (lbe : BitVec 4)
  | cmdStage (reg : Fin 4) (ld : Word) (lbe : BitVec 4)
  | startRecordWrite (field : Fin 8) (ld : Word) (lbe : BitVec 4)
  /-- `la` is LA[7:2], the register's offset divided by 4. -/
  | registerWriteIgnored (la : BitVec 6) (ld : Word) (lbe : BitVec 4)
  -- the head of the command queue is taken (R160, R161); its record holds the arguments
  | start
  | attach
  | detach
  | resume
  | acquire
  | upgrade
  | release
  | cancel
  | map
  | unmap
  | restore
  | inspectBlock
  | inspectClaim
  | unknownCommand
  -- the memory window and the DRAM arbiter
  /-- An access through the memory window; `la` is LA[17:2], `lwr` is LWR (R141). -/
  | windowAccess (la : BitVec 16) (lbe : BitVec 4) (ld : Word) (lwr : Bool)
  | windowGrant
  | chunkReadMoveEnd
  | chunkWriteMoveEnd
  -- the ring segments
  /-- A frame received whole, as its bytes (R93). -/
  | frameReceived (bytes : List Byte)
  /-- The outbound segment offers a start; `outIdle` says whether it is idle (R99). -/
  | forwardSend (outIdle : Bool)
  /-- The segments offer a start; `outIdle`: outbound idle, `inIdle`: no frame being received (R100). -/
  | ownFrameSend (outIdle inIdle : Bool)
  /-- Timer of the transmit queue entry that stands at place `entry`, counted from 0 in the order held. -/
  | returnTimerExpiry (entry : Fin 16)
  | retryTimerExpiry (entry : Fin 16)
  | handoverAccept
  | chunkOfferAccept
  -- the other timers
  | recallTimerExpiry (block : Byte)
  | waitTimerExpiry (claim : ClaimIdx)
  | reaskTimerExpiry (claim : ClaimIdx)
  | holdTimerExpiry (claim : ClaimIdx)
  -- the head of the receive queue, of this kind, is handed onward (R109, R88)
  | ask
  | withdraw
  | withdrawn
  | grant
  | deny
  | chunkAtHome
  | chunkAtClaim
  | recallCopy
  | dropped
  | returned
  | notHeld
  | announce
  | unknownKindFrame
deriving DecidableEq, Repr

end Sys2Proof
end

