-- ==== Sys2Proof/Decode.lean ====
section
/-! DEFINITION. The command a word of the table's bits spells. No row of spec/opcode_table.json gives bits ("fields" is
empty in every row), so no word spells a command. -/

namespace Sys2Proof

/-- The command that the word `w` of `nbits` bits spells by the table: none, as no row gives bits (log 30). -/
def decodeTableWord (_nbits _w : Nat) : Option Instr := none

end Sys2Proof
end

