-- ==== Sys2Proof/Machine/State.lean ====
section
/-! DEFINITION. The state of the part as plain data: everything the spec gives its eight blocks (spec 00, 1.3), the model's
own queue of commands, and the state right after power-on reset. -/

namespace Sys2Proof.Machine

/-! ### Names shared by the blocks -/

/-- SHARED or EXCLUSIVE (spec 00, 1.6). -/
inductive Mode where
  | shared
  | exclusive
deriving DecidableEq, Repr

/-- A block name S:n (R6). -/
structure Block where
  home : Station
  index : Byte
deriving DecidableEq, Repr

/-- A claim index with its use number (R45). -/
structure Tag where
  claim : ClaimIdx
  use : UseNum
deriving DecidableEq, Repr

/-- Why the home refuses a request (R82). -/
inductive DenyReason where
  | full
  | noBlock
  | damaged
  | leaving
  | already
deriving DecidableEq, Repr

/-- What a recall demands; as the kind of a record's recall, `drop` is DROP_READERS (R31, R76). -/
inductive RecallKind where
  | drop
  | surrender
  | demote
deriving DecidableEq, Repr

/-- A timer of the 1 µs time base: whether it runs, and its count in µs. -/
inductive TimerMode where
  | running
  | paused
  | stopped
deriving DecidableEq, Repr

structure Timer where
  mode : TimerMode
  count : Nat
deriving DecidableEq, Repr

/-- A stopped timer. A hold timer in this mode is EXPIRED (R58). -/
def Timer.off : Timer := { mode := .stopped, count := 0 }

/-- A set of chunk indices, in strictly ascending order. -/
abbrev ChunkSet := List ChunkIdx

/-! ### Lease frames (R75 to R89) -/

/-- The eleven kinds with the fields each uses (R75, R76). A tag stands for its two parts, `data` for the data indication. -/
inductive Lease where
  | announce
  | ask (b : Block) (mode : Mode) (tag : Tag)
  | withdraw (b : Block) (tag : Tag)
  | withdrawn (b : Block) (tag : Tag)
  | grant (b : Block) (gen : Byte) (mode : Mode) (data : Bool) (tag : Tag)
  | deny (b : Block) (reason : DenyReason) (tag : Tag)
  | chunk (b : Block) (gen : Byte) (index : ChunkIdx)
  | recallCopy (b : Block) (gen : Byte) (kind : RecallKind)
  | dropped (b : Block) (gen : Byte)
  | returned (b : Block) (gen : Byte) (kept : Bool) (count : Fin 33)
  | notHeld (b : Block) (gen : Byte)
deriving DecidableEq, Repr

/-- A ring frame as its fields (R92, R190); the payload is empty where there is none. The check value is not held: it is
computed as the frame leaves (R93). -/
structure Frame where
  dest : Byte
  src : Byte
  kind : Byte
  hop : Byte
  resp : Byte
  inc : Byte
  home : Byte
  index : Byte
  gen : Byte
  arg1 : Byte
  arg2 : Byte
  len : Byte
  payload : List Byte
deriving DecidableEq, Repr

/-! ### Memory and the DRAM arbiter (R1 to R14) -/

/-- The DRAM: the bytes written so far, addresses strictly rising. -/
abbrev Memory := List Host.Cell

/-- The two clients of the arbiter (R10). -/
inductive Client where
  | window
  | ring
deriving DecidableEq, Repr

/-- Which block a chunk write is for, and what it will be counted into (R12, R13): a home record's holder or lost holder, or a claim. -/
inductive Asker where
  | home (n : Byte) (station : Station) (gen : Byte)
  | claim (c : ClaimIdx) (use : UseNum) (gen : Byte)
deriving DecidableEq, Repr

/-- A chunk move (R12). `report` is no for a write whose records and claims were removed by NUMBER_CONFLICT (R114). -/
inductive Move where
  | read (buf : Fin 4) (frame : Nat) (chunk : ChunkIdx)
  | write (buf : Fin 4) (frame : Nat) (chunk : ChunkIdx) (asker : Asker) (report : Bool)
deriving DecidableEq, Repr

/-! ### The home directory (R15 to R43) -/

/-- A RETURNED held while chunk writes are outstanding (R29). -/
structure HeldReturn where
  kept : Bool
  count : Fin 33
deriving DecidableEq, Repr

/-- The holder part, and the lost part (spec 02, 2.1). -/
structure Holder where
  station : Station
  gen : Byte
  returned : ChunkSet
  writes : Nat
  held : Option HeldReturn
deriving DecidableEq, Repr

structure Reader where
  station : Station
  gen : Byte
deriving DecidableEq, Repr

/-- A request, which is also a slot of the request pool (R17). -/
structure Request where
  station : Station
  mode : Mode
  tag : Tag
deriving DecidableEq, Repr

structure Transfer where
  target : Station
  mode : Mode
  tag : Tag
  next : Nat
deriving DecidableEq, Repr

structure Recall where
  kind : RecallKind
  awaiting : List Station
  sends : Nat
  timer : Timer
deriving DecidableEq, Repr

/-- A directory record (spec 02, 2.1). Its state follows from its content (R16). -/
structure DirRecord where
  gen : Byte
  holder : Option Holder
  readers : List Reader
  queue : List Request
  transfer : Option Transfer
  recalling : Option Recall
  lost : Option Holder
deriving DecidableEq, Repr

/-- The record as START creates it (R15). -/
def DirRecord.initial : DirRecord :=
  { gen := 0, holder := none, readers := [], queue := [], transfer := none, recalling := none, lost := none }

/-- The states of a record. -/
inductive RecordState where
  | atHome
  | shared
  | lent
  | sending
  | recalling
  | damaged
deriving DecidableEq, Repr

/-- A turn among offers (R24, R102): those still to be served in this round, and those served, each in the order they joined. -/
structure Turn where
  todo : List Nat
  done : List Nat
deriving DecidableEq, Repr

def Turn.empty : Turn := { todo := [], done := [] }

/-! ### The claim table (R44 to R74) -/

inductive ClaimState where
  | free
  | asking
  | withdrawing
  | filling
  | held
  | dropping
  | returning
  | demoting
  | ended
deriving DecidableEq, Repr

inductive EndReason where
  | released
  | revoked
  | lost
  | homeAbsent
  | cancelled
  | timedOut
  | denied
deriving DecidableEq, Repr

/-- The cause recorded for a withdrawal (R52, R54). -/
inductive WithdrawCause where
  | cancelled
  | timedOut
deriving DecidableEq, Repr

/-- Why a claim gives its copy up: a RELEASE, a recall, or the teardown of a detach (R59 to R61, R65, R72). -/
inductive GiveCause where
  | release
  | recalled
  | teardown
deriving DecidableEq, Repr

/-- A return in progress (R62): `fixed` once the dirty set is fixed, `todo` the chunks the port has not yet accepted. -/
structure Return where
  kept : Bool
  fixed : Bool
  count : Nat
  todo : ChunkSet
deriving DecidableEq, Repr

/-- A command in flight: its sequence number, and the code and software tag its completion returns (R177). -/
structure Ticket where
  seq : Byte
  code : BitVec 5
  tag : BitVec 16
deriving DecidableEq, Repr

/-- A claim record (spec 03, 3.1). -/
structure Claim where
  state : ClaimState
  block : Option Block
  held : Option Mode
  sought : Option Mode
  frame : Option Nat
  gen : Option Byte
  use : UseNum
  received : ChunkSet
  dirty : ChunkSet
  hold : Timer
  deferred : Option (RecallKind × Byte)
  wait : Timer
  reask : Timer
  askStanding : Bool
  pendingCmd : Option Ticket
  pendingCancel : Option Ticket
  endReason : Option EndReason
  cause : Option WithdrawCause
  giving : Option GiveCause
  ret : Option Return
deriving DecidableEq, Repr

/-- A FREE claim whose last use was `use`. -/
def Claim.free (use : UseNum) : Claim :=
  { state := .free, block := none, held := none, sought := none, frame := none, gen := none, use := use,
    received := [], dirty := [], hold := .off, deferred := none, wait := .off, reask := .off, askStanding := false,
    pendingCmd := none, pendingCancel := none, endReason := none, cause := none, giving := none, ret := none }

/-! ### The ring port (R91 to R116) -/

inductive PortState where
  | bypass
  | active
  | stalled
deriving DecidableEq, Repr

/-- The block that handed a frame over (R101); the claim table's with the claim and use it was sent for, if any. -/
inductive Owner where
  | directory
  | claims (who : Option (ClaimIdx × UseNum))
  | station
deriving DecidableEq, Repr

/-- The state of a transmit queue entry (R101). `due true`: its return timer expired, so a copy may still return (R97). -/
inductive TxState where
  | reading
  | waiting
  | circulating
  | retry
  | due (afterReturnTimer : Bool)
deriving DecidableEq, Repr

structure TxEntry where
  dest : Station
  msg : Lease
  owner : Owner
  buf : Option (Fin 4)
  st : TxState
  busy : Nat
  expiry : Nat
  returnTimer : Timer
  retryTimer : Timer
deriving DecidableEq, Repr

/-- A frame on the hand-over list (R101). -/
structure Handed where
  dest : Station
  msg : Lease
  owner : Owner
deriving DecidableEq, Repr

/-- An outgoing payload buffer: free, reserved for a read move, reserved for a read move whose result is discarded, or filled. -/
inductive OutBuf where
  | free
  | reading
  | discarding
  | full (payload : List Byte)
deriving DecidableEq, Repr

/-- A receive queue entry: the frame's fields (payload left out) and its payload buffer (R108). -/
structure RxEntry where
  frame : Frame
  buf : Option (Fin 4)
deriving DecidableEq, Repr

/-- The two blocks that offer chunks (R102). -/
inductive Offerer where
  | directory
  | claims
deriving DecidableEq, Repr

/-- The two kinds of delivery failure (R105). -/
inductive FailureKind where
  | absent
  | unresponsive
deriving DecidableEq, Repr

/-- A frame that failed: its block, its fields, and whether it had been sent at least once. -/
structure FailedFrame where
  owner : Owner
  msg : Lease
  sent : Bool
deriving DecidableEq, Repr

/-- One report of a delivery failure to `dest`, with every frame that failed (R105). -/
structure Failure where
  dest : Station
  kind : FailureKind
  frames : List FailedFrame
deriving DecidableEq, Repr

/-- What the blocks pass to each other inside one event (R40, R71, R105). -/
inductive Mail where
  | toDirectory (m : Lease)
  | toClaims (m : Lease)
  | failed (f : Failure)
deriving DecidableEq, Repr

/-! ### The station controller (R117 to R139) -/

inductive StationState where
  | unconfigured
  | joining
  | attached
  | detaching
  | detached
deriving DecidableEq, Repr

inductive Presence where
  | unknown
  | present
  | absent
deriving DecidableEq, Repr

structure Peer where
  presence : Presence
  inc : Option Byte
deriving DecidableEq, Repr

def Peer.initial : Peer := { presence := .unknown, inc := none }

/-! ### The window unit (R140 to R156) -/

inductive Target where
  | privateFrame (frame : Nat)
  | claim (c : ClaimIdx)
deriving DecidableEq, Repr

inductive Limit where
  | readOnly
  | readWrite
deriving DecidableEq, Repr

inductive FaultKind where
  | unmapped
  | writeLimit
  | notReady
  | leaseEnded
  | sharedOnly
  | leaseBusy
deriving DecidableEq, Repr

/-- R150. -/
structure FaultRecord where
  kind : FaultKind
  offset : Nat
  write : Bool
  width : Nat
deriving DecidableEq, Repr

/-- A window entry (R140): EMPTY without target and fault record, FAULTED with a fault record, else ACTIVE. -/
structure Entry where
  mapping : Option (Target × Limit)
  fault : Option FaultRecord
deriving DecidableEq, Repr

def Entry.empty : Entry := { mapping := none, fault := none }

inductive EntryState where
  | empty
  | active
  | faulted
deriving DecidableEq, Repr

/-- The window access that waits for or holds the arbiter, bound to its frame and, for a claim, to its use (R146). -/
structure Access where
  frame : Nat
  owner : Option (ClaimIdx × UseNum)
  word : Nat
  lbe : BitVec 4
  data : Option Word
deriving DecidableEq, Repr

/-! ### The command unit (R157 to R179) -/

/-- The four words of a command record (R192). -/
abbrev CommandRecord := Vector Word 4

structure Queued where
  record : CommandRecord
  seq : Byte
deriving DecidableEq, Repr

inductive PostResult where
  | none
  | accepted (seq : Byte)
  | queueFull
deriving DecidableEq, Repr

/-- The statuses of R177. -/
inductive Status where
  | ok
  | cancelled
  | timedOut
  | tooLate
  | homeAbsent
  | lost
  | damaged
  | noBlock
  | leaving
  | already
  | noClaim
  | noFrame
  | duplicate
  | badArgument
  | badState
  | notStarted
  | notAttached
  | badConfig
  | numberConflict
  | stalled
deriving DecidableEq, Repr

/-- A completion record (R177); `none` is an absent field, the summary bytes are 0 where unused (R193). -/
structure Completion where
  ticket : Ticket
  status : Status
  claim : Option ClaimIdx
  gen : Option Byte
  byteA : Byte
  byteB : Byte
  word1 : Option Word
  word2 : Option Word
deriving DecidableEq, Repr

/-! ### The attention unit (R180 to R189) -/

inductive Subject where
  | entry (e : EntryIdx)
  | claim (c : ClaimIdx)
  | peer (p : Station)
  | station
deriving DecidableEq, Repr

inductive ClaimReason where
  | revoked
  | demoted
  | copyDropped
  | lost
deriving DecidableEq, Repr

inductive PeerReason where
  | restarted
  | absent
  | present
deriving DecidableEq, Repr

inductive StationReason where
  | stalled
  | numberConflict
deriving DecidableEq, Repr

/-- Reason and other contents of an item (R181). -/
inductive Notice where
  | entry (f : FaultRecord)
  | claim (r : ClaimReason) (use : UseNum) (block : Option Block)
  | peer (r : PeerReason) (inc : Option Byte)
  | station (r : StationReason) (inc : Option Byte)
deriving DecidableEq, Repr

structure Item where
  subject : Subject
  notice : Notice
  replaced : Bool
deriving DecidableEq, Repr

/-! ### The whole part -/

/-- The state of the part. INVENTORY.md names each field's rule and reset value. -/
structure State where
  /-- The commands waiting, first in first out (the host's queue). -/
  pending : List Instr
  /-- The model's own: what the blocks still carry to each other inside the present event (log 17). -/
  mail : List Mail
  /-- The model's own: how many free values of the resets have been drawn (log 1, 2, 3). -/
  freeCount : Nat
  -- pins and buses
  rstHeld : Bool
  resetRequested : Bool
  busRead : Option Word
  rout : List Byte
  -- memory organization
  straps : BitVec 2
  dram : Memory
  dramEpoch : Vector Nat 4
  homeCount : Nat
  borrowCount : Nat
  borrow : List (Option ClaimIdx)
  arbPort : Option Client
  arbTurn : Client
  moves : List Move
  -- home directory
  records : List DirRecord
  dirTurn : Turn
  -- claim table
  claims : Vector Claim 32
  claimTurn : Turn
  -- ring port
  port : PortState
  txq : List TxEntry
  handover : List Handed
  outBuf : Vector OutBuf 4
  fwd : List Frame
  rx : List RxEntry
  inBuf : Vector (Option (List Byte)) 4
  chunkTurn : Offerer
  -- station controller
  station : StationState
  startRec : Vector (BitVec 16) 8
  prevInc : Option Byte
  probeOutstanding : Bool
  announceAwaited : Nat
  lifeCmd : Option Ticket
  peers : Vector Peer 16
  heldFrame : Option RxEntry
  -- window unit
  window : Vector Entry 32
  access : Option Access
  -- command unit
  staging : CommandRecord
  cmdq : List Queued
  seqNext : Byte
  postResult : PostResult
  inFlight : Nat
  cplq : List Completion
  -- attention unit
  attention : List Item
  cplEnable : Bool
  attEnable : Bool
deriving DecidableEq, Repr

/-- The part right after power-on reset (R14, R74, R116, R139, R156, R179, R189), with the straps sampled at
`Config.powerOnStraps` (log 4). -/
def State.reset : State :=
  { pending := [], mail := [], freeCount := 0,
    rstHeld := false, resetRequested := false, busRead := none, rout := [],
    straps := Config.powerOnStraps, dram := [], dramEpoch := Vector.replicate 4 0,
    homeCount := 0, borrowCount := 0, borrow := [], arbPort := none, arbTurn := .window, moves := [],
    records := [], dirTurn := .empty,
    claims := Vector.replicate 32 (.free 0), claimTurn := .empty,
    port := .bypass, txq := [], handover := [], outBuf := Vector.replicate 4 .free, fwd := [], rx := [],
    inBuf := Vector.replicate 4 none, chunkTurn := .directory,
    station := .unconfigured, startRec := Vector.replicate 8 0, prevInc := none, probeOutstanding := false,
    announceAwaited := 0, lifeCmd := none, peers := Vector.replicate 16 .initial, heldFrame := none,
    window := Vector.replicate 32 .empty, access := none,
    staging := Vector.replicate 4 0, cmdq := [], seqNext := 0, postResult := .none, inFlight := 0, cplq := [],
    attention := [], cplEnable := false, attEnable := false }

/-- Why the machine stops with a fault. -/
inductive Fault where
  /-- Raised by WINDOW_GRANT, CHUNK_READ_MOVE_END and CHUNK_WRITE_MOVE_END when the granted move or access names a frame
  outside 0 to F−1, which the DRAM port never addresses (R1; log 27). Safe: no such move or access is raised by the rules. -/
  | dramBeyondReach
deriving DecidableEq, Repr

/-- Why the machine refuses a command. -/
inductive Refusal where
  /-- Raised by an arm of `exec` whose command has no meaning yet. Safe: nothing can be proved of a next state. -/
  | notModelled (mnemonic : String)
deriving DecidableEq, Repr

end Sys2Proof.Machine
end

