-- ==== Sys2Proof/Machine/Operands.lean ====
section
/-! DEFINITION. Operand forms: byte enables and lanes of the processor bus, the decoding of a window access, the arguments of
a command record, and the numbers that name a subject or a tag. -/

namespace Sys2Proof.Machine

/-! ### Bytes of a word (R141, R196) -/

/-- Byte lane `k` of a word: LD[8k+7:8k]. -/
def lane (w : Word) (k : Nat) : Byte := w.extractLsb' (8 * k) 8

/-- The word whose lanes are `b0` (lowest) to `b3`. -/
def ofLanes (b0 b1 b2 b3 : Byte) : Word := b3 ++ b2 ++ b1 ++ b0

/-- Lane `k` of a register after a write: the written byte where LBE[k] is asserted, else as it was (R196). -/
def mergeLane (old new : Word) (lbe : BitVec 4) (k : Nat) : Byte :=
  if lbe.getLsbD k then lane new k else lane old k

/-- A register's content after a write with byte enables (R196). -/
def mergeWord (old new : Word) (lbe : BitVec 4) : Word :=
  ofLanes (mergeLane old new lbe 0) (mergeLane old new lbe 1) (mergeLane old new lbe 2) (mergeLane old new lbe 3)

/-- A start record field after a write: the enabled bytes of bits 15:0, bits 31:16 ignored (R197). -/
def mergeHalf (old : BitVec 16) (new : Word) (lbe : BitVec 4) : BitVec 16 :=
  (mergeWord (old.setWidth 32) new lbe).setWidth 16

/-- The lanes, lowest first. -/
def lanes : List (Fin 4) := [0, 1, 2, 3]

/-- The enabled lanes, lowest first. -/
def enabledLanes (lbe : BitVec 4) : List (Fin 4) := lanes.filter fun k => lbe.getLsbD k

/-- The number of enabled bytes: the width of an access (R141). -/
def accessWidth (lbe : BitVec 4) : Nat := (enabledLanes lbe).length

/-- The lane of the lowest enabled byte. -/
def lowestLane (lbe : BitVec 4) : Nat := ((enabledLanes lbe).head?.map (·.val)).getD 0

/-- All ones on every lane: what a refused or dropped read returns (R148). -/
def allOnes : Word := BitVec.allOnes 32

/-! ### Decoding a window access (R141); `la` is LA[17:2] -/

/-- LA[17:13]. -/
def accessEntry (la : BitVec 16) : EntryIdx := (la.extractLsb' 11 5).toFin

/-- LA[12:2]: the word within the slot, 0 to 2047. -/
def accessWord (la : BitVec 16) : Nat := (la.extractLsb' 0 11).toNat

/-- The offset of the lowest enabled byte, 0 to 8191. -/
def accessOffset (la : BitVec 16) (lbe : BitVec 4) : Nat := accessWord la * 4 + lowestLane lbe

/-- The chunk that byte offset `b` of a block lies in (R2). -/
def chunkOfOffset (b : Nat) : ChunkIdx := Fin.ofNat 32 (b / Config.chunkBytes)

/-! ### Tags (R45, R191) -/

/-- Claim index × 16 plus the use number. -/
def Tag.toNat (t : Tag) : Nat := t.claim.val * 16 + t.use.toNat

/-- The tag rebuilt from its high part (argument 1 bit 7) and argument 2 (R191). -/
def Tag.ofParts (high : Bool) (low : Byte) : Tag :=
  { claim := Fin.ofNat 32 ((if high then 16 else 0) + low.toNat / 16), use := BitVec.ofNat 4 (low.toNat % 16) }

/-- The tag's high part: the tag divided by 256. -/
def Tag.high (t : Tag) : Bool := t.toNat / 256 == 1

/-- The tag modulo 256. -/
def Tag.low (t : Tag) : Byte := BitVec.ofNat 8 t.toNat

/-! ### Command arguments (R192) -/

def CommandRecord.code (r : CommandRecord) : BitVec 5 := (r.get 0).extractLsb' 0 5
def CommandRecord.softwareTag (r : CommandRecord) : BitVec 16 := (r.get 0).extractLsb' 16 16
def CommandRecord.argA (r : CommandRecord) : Nat := (r.get 1).toNat
def CommandRecord.argB (r : CommandRecord) : Nat := (r.get 2).toNat
def CommandRecord.argC (r : CommandRecord) : Nat := (r.get 3).toNat

/-- An index 0 to 31 of a claim or an entry, if the argument is one. -/
def argIndex32 (a : Nat) : Option (Fin 32) := if h : a < 32 then some ⟨a, h⟩ else none

/-- A station number, if the argument is one. -/
def argStation (a : Nat) : Option Station := if h : a < 16 then some ⟨a, h⟩ else none

/-- A block index, if the argument is one. -/
def argBlockIndex (a : Nat) : Option Byte := if a < 256 then some (BitVec.ofNat 8 a) else none

/-- 1 SHARED, 2 EXCLUSIVE. -/
def argMode (a : Nat) : Option Mode := if a = 1 then some .shared else if a = 2 then some .exclusive else none

/-- The limit in bits 31:16 of MAP's argument B. -/
def argLimit (b : Nat) : Option Limit :=
  if b / 65536 = 1 then some .readOnly else if b / 65536 = 2 then some .readWrite else none

/-- The target kind in bits 15:0 of MAP's argument B: `true` for CLAIM. -/
def argTargetIsClaim (b : Nat) : Option Bool :=
  if b % 65536 = 1 then some false else if b % 65536 = 2 then some true else none

/-! ### Subject codes (R195) -/

/-- The number that names a subject in ATT_HEAD0 and in ACK. -/
def Subject.code : Subject → Nat
  | .entry e => e.val
  | .claim c => 32 + c.val
  | .peer p => 64 + p.val
  | .station => 80

/-! ### Index lists, ascending -/

def claimIdxs : List ClaimIdx := List.finRange 32
def entryIdxs : List EntryIdx := List.finRange 32
def stations : List Station := List.finRange 16
def bufIdxs : List (Fin 4) := [0, 1, 2, 3]

/-- Chunk `c` added to a set kept in ascending order. -/
def ChunkSet.insert (c : ChunkIdx) : ChunkSet → ChunkSet
  | [] => [c]
  | d :: ds => if c < d then c :: d :: ds else if c = d then d :: ds else d :: ChunkSet.insert c ds

end Sys2Proof.Machine
end

