-- ==== Sys2Proof/Machine/Flags.lean ====
section
/-! DEFINITION. Indications that follow from the state: numbers in force, pin outputs, the states of records, entries and
claims, and the flags that status registers show. -/

namespace Sys2Proof.Machine

/-! ### The start record and the numbers in force (R117, R118) -/

def State.startNumber (s : State) : Nat := (s.startRec.get 0).toNat
def State.startIncarnation (s : State) : Nat := (s.startRec.get 1).toNat
def State.startHome (s : State) : Nat := (s.startRec.get 2).toNat
def State.startBorrow (s : State) : Nat := (s.startRec.get 3).toNat
def State.startHold (s : State) : Nat := (s.startRec.get 4).toNat
def State.startRecall (s : State) : Nat := (s.startRec.get 5).toNat
def State.startWait (s : State) : Nat := (s.startRec.get 6).toNat
def State.startRetry (s : State) : Nat := (s.startRec.get 7).toNat

/-- The station number in force. -/
def State.own (s : State) : Station := Fin.ofNat 16 s.startNumber

/-- The incarnation in force. -/
def State.inc (s : State) : Byte := (s.startRec.get 1).setWidth 8

/-- The programmed limits of the timers in µs (R33, R49, R52, R58, R106). -/
def State.holdLimit (s : State) : Nat := s.startHold * 100
def State.recallLimit (s : State) : Nat := s.startRecall * 1000
def State.waitLimit (s : State) : Nat := s.startWait * 10000
def State.retryLimit (s : State) : Nat := s.startRetry * 10

/-- The installed frame count a strap value selects (R1). -/
def frameCountOf (straps : BitVec 2) : Nat := 64 * 2 ^ straps.toNat

/-- The installed frame count F (R1). -/
def State.frames (s : State) : Nat := frameCountOf s.straps

/-! ### Records (spec 02, 2.1; R16) -/

/-- The state that follows from a record's content. -/
def DirRecord.state (r : DirRecord) : RecordState :=
  if r.lost.isSome then .damaged
  else if r.recalling.isSome then .recalling
  else if r.transfer.isSome then .sending
  else if r.holder.isSome then .lent
  else if r.readers.isEmpty then .atHome
  else .shared

/-- AT_HOME, SHARED or LENT: the states in which a record serves its head (R21). -/
def DirRecord.settled (r : DirRecord) : Bool :=
  r.state == .atHome || r.state == .shared || r.state == .lent

def DirRecord.hasReader (r : DirRecord) (p : Station) : Bool := r.readers.any (·.station == p)
def DirRecord.holderIs (r : DirRecord) (p : Station) : Bool := r.holder.any (·.station == p)

/-- The record names a station other than `own` as a reader or the holder (R42, R135). -/
def DirRecord.namesPeer (r : DirRecord) (own : Station) : Bool :=
  r.readers.any (·.station != own) || r.holder.any (·.station != own)

/-- The used slots of the request pool (R17). -/
def State.poolUsed (s : State) : Nat := (s.records.map (·.queue.length)).sum

/-! ### Claims (R44, R70) -/

/-- Live: any state but FREE and ENDED. -/
def Claim.live (c : Claim) : Bool := c.state != .free && c.state != .ended

/-- The claim names a block of the station `own`. -/
def Claim.homedAt (c : Claim) (p : Station) : Bool := c.block.any (·.home == p)

/-- A live claim whose block is homed at another station. -/
def Claim.remote (c : Claim) (own : Station) : Bool := c.live && !c.homedAt own

def Claim.holdRunning (c : Claim) : Bool := c.hold.mode == .running

def Entry.state (e : Entry) : EntryState :=
  if e.fault.isSome then .faulted else if e.mapping.isSome then .active else .empty

/-- The claim the entry refers to, if its target is one (R140). -/
def Entry.claim (e : Entry) : Option ClaimIdx :=
  match e.mapping with
  | some (.claim c, _) => some c
  | _ => none

/-- The number of window entries that refer to the claim (R70). -/
def State.refCount (s : State) (c : ClaimIdx) : Nat :=
  (entryIdxs.filter fun e => (s.window.get e).claim == some c).length

/-! ### The ring port -/

/-- The outstanding mark of station `p` is set (R103). -/
def State.marked (s : State) (p : Station) : Bool :=
  s.txq.any fun e => e.dest == p && (e.st == .circulating || e.st == .retry || e.st == .due true || e.st == .due false)

/-- The bypass relay drive BYP is asserted (R91). -/
def State.byp (s : State) : Bool := s.port == .bypass

/-! ### Interrupts and the bus (R187, R188, R11) -/

def State.completionPending (s : State) : Bool := !s.cplq.isEmpty
def State.attentionPending (s : State) : Bool := !s.attention.isEmpty

/-- INT# is asserted. -/
def State.intAsserted (s : State) : Bool :=
  (s.completionPending && s.cplEnable) || (s.attentionPending && s.attEnable)

/-- LRDY is high: no window access waits. -/
def State.lrdy (s : State) : Bool := s.access.isNone

/-- Room in the reservation (R160). -/
def State.reservationOpen (s : State) : Bool := s.inFlight + s.cplq.length < Config.commandCapacity

/-! ### The end condition of a detach (R135) -/

def State.directoryClear (s : State) : Bool :=
  s.records.all fun r => !r.namesPeer s.own && r.state != .sending && r.state != .recalling

def State.claimsClear (s : State) : Bool := claimIdxs.all fun c => !(s.claims.get c).remote s.own

def State.portClear (s : State) : Bool := s.txq.isEmpty && s.handover.isEmpty && s.rx.isEmpty

/-- All three parts of the condition hold. -/
def State.detachDone (s : State) : Bool := s.directoryClear && s.claimsClear && s.portClear

end Sys2Proof.Machine
end

