-- ==== Sys2Proof/Machine/Frames.lean ====
section
/-! DEFINITION. The ring frame: its bytes and check value (R93, R190), the frame that carries a lease message (R75, R191) and
the validation that reads the message back (R89). -/

namespace Sys2Proof.Machine

/-! ### The check value (R93) -/

/-- One bit into the check register, generator x^16 + x^12 + x^5 + 1. -/
def crcBit (crc : BitVec 16) (b : Bool) : BitVec 16 :=
  if (crc.getLsbD 15) != b then (crc <<< 1) ^^^ 0x1021#16 else crc <<< 1

/-- One byte, MSB first. -/
def crcByte (crc : BitVec 16) (b : Byte) : BitVec 16 :=
  [7, 6, 5, 4, 3, 2, 1, 0].foldl (fun c k => crcBit c (b.getLsbD k)) crc

/-- The check value over the bytes, the register preset to all ones. -/
def crc16 (bytes : List Byte) : BitVec 16 := bytes.foldl crcByte 0xFFFF#16

/-! ### Bytes of a frame (R190) -/

/-- The bytes before the check value. -/
def Frame.body (f : Frame) : List Byte :=
  [f.dest, f.src, f.kind, f.hop, f.resp, f.inc, f.home, f.index, f.gen, f.arg1, f.arg2, f.len] ++ f.payload

/-- The frame as sent: the body and its check value, high byte first. -/
def Frame.bytes (f : Frame) : List Byte :=
  let c := crc16 f.body
  f.body ++ [c.extractLsb' 8 8, c.extractLsb' 0 8]

/-- The frame's length on a segment: 14 or 270 bytes. -/
def Frame.size (f : Frame) : Nat := 14 + f.payload.length

/-- The frame's fields from its bytes, without any check. -/
def Frame.ofBytes (bs : List Byte) : Frame :=
  let b := fun i => bs.getD i 0
  { dest := b 0, src := b 1, kind := b 2, hop := b 3, resp := b 4, inc := b 5, home := b 6, index := b 7, gen := b 8,
    arg1 := b 9, arg2 := b 10, len := b 11, payload := (bs.drop 12).take (bs.length - 14) }

/-- Length and length code agree, and so does the check value (R93). -/
def intact (bs : List Byte) : Bool :=
  ((bs.length == 14 && bs.getD 11 0 == 0) || (bs.length == 270 && bs.getD 11 0 == 1)) &&
    (crc16 (bs.take (bs.length - 2)) ==
      (bs.getD (bs.length - 2) 0 ++ bs.getD (bs.length - 1) 0 : BitVec 16))

/-- The frame received, if it is intact. -/
def parseFrame (bs : List Byte) : Option Frame := if intact bs then some (Frame.ofBytes bs) else none

/-! ### Codes (R190, R191) -/

def Mode.code : Mode → Nat
  | .shared => 1
  | .exclusive => 2

def DenyReason.code : DenyReason → Nat
  | .full => 1
  | .noBlock => 2
  | .damaged => 3
  | .leaving => 4
  | .already => 5

def RecallKind.code : RecallKind → Nat
  | .drop => 1
  | .surrender => 2
  | .demote => 3

/-- The kind byte. -/
def Lease.kindCode : Lease → Byte
  | .announce => 1
  | .ask _ _ _ => 2
  | .withdraw _ _ => 3
  | .withdrawn _ _ => 4
  | .grant _ _ _ _ _ => 5
  | .deny _ _ _ => 6
  | .chunk _ _ _ => 7
  | .recallCopy _ _ _ => 8
  | .dropped _ _ => 9
  | .returned _ _ _ _ => 10
  | .notHeld _ _ => 11

/-- The block a message names; absent in ANNOUNCE. -/
def Lease.block? : Lease → Option Block
  | .announce => none
  | .ask b _ _ => some b
  | .withdraw b _ => some b
  | .withdrawn b _ => some b
  | .grant b _ _ _ _ => some b
  | .deny b _ _ => some b
  | .chunk b _ _ => some b
  | .recallCopy b _ _ => some b
  | .dropped b _ => some b
  | .returned b _ _ _ => some b
  | .notHeld b _ => some b

/-- The generation byte: 0 where the kind carries none. -/
def Lease.genByte : Lease → Byte
  | .grant _ g _ _ _ => g
  | .chunk _ g _ => g
  | .recallCopy _ g _ => g
  | .dropped _ g => g
  | .returned _ g _ _ => g
  | .notHeld _ g => g
  | _ => 0

/-- The tag a message carries. -/
def Lease.tag? : Lease → Option Tag
  | .ask _ _ t => some t
  | .withdraw _ t => some t
  | .withdrawn _ t => some t
  | .grant _ _ _ _ t => some t
  | .deny _ _ t => some t
  | _ => none

/-- Argument 1, bits 6:0. -/
def Lease.arg1Value : Lease → Nat
  | .ask _ m _ => m.code
  | .grant _ _ m data _ => m.code + (if data then 0 else 4)
  | .deny _ r _ => r.code
  | .chunk _ _ c => c.val
  | .recallCopy _ _ k => k.code
  | .returned _ _ kept _ => if kept then 1 else 0
  | _ => 0

/-- Argument 1: its own value, with the tag's high part in bit 7. -/
def Lease.arg1 (m : Lease) : Byte :=
  BitVec.ofNat 8 (m.arg1Value + (if m.tag?.any Tag.high then 128 else 0))

/-- Argument 2: the tag's low part, or the count of a RETURNED. -/
def Lease.arg2 (m : Lease) : Byte :=
  match m with
  | .returned _ _ _ n => BitVec.ofNat 8 n.val
  | _ => (m.tag?.map Tag.low).getD 0

/-- Whether the message has a payload of 256 bytes. -/
def Lease.hasPayload : Lease → Bool
  | .chunk _ _ _ => true
  | _ => false

/-- The frame that carries message `m` from station `own` with incarnation `inc` to `dest`, as the originator sends it: hop
count 0, response NONE (R75, R92). -/
def encodeLease (own : Station) (inc : Byte) (dest : Station) (m : Lease) (payload : List Byte) : Frame :=
  { dest := BitVec.ofNat 8 dest.val, src := BitVec.ofNat 8 own.val, kind := m.kindCode, hop := 0, resp := 0, inc := inc,
    home := BitVec.ofNat 8 ((m.block?.map (·.home.val)).getD 0), index := (m.block?.map (·.index)).getD 0,
    gen := m.genByte, arg1 := m.arg1, arg2 := m.arg2, len := if m.hasPayload then 1 else 0,
    payload := if m.hasPayload then payload else [] }

/-! ### Validation (R89) -/

/-- A station number held by a byte. -/
def byteStation (b : Byte) : Option Station := if h : b.toNat < 16 then some ⟨b.toNat, h⟩ else none

def modeOfCode (v : Nat) : Option Mode := if v = 1 then some .shared else if v = 2 then some .exclusive else none

def denyOfCode (v : Nat) : Option DenyReason :=
  if v = 1 then some .full else if v = 2 then some .noBlock else if v = 3 then some .damaged
  else if v = 4 then some .leaving else if v = 5 then some .already else none

def recallOfCode (v : Nat) : Option RecallKind :=
  if v = 1 then some .drop else if v = 2 then some .surrender else if v = 3 then some .demote else none

/-- The grants that pass: SHARED with data, EXCLUSIVE with data, EXCLUSIVE without data (R76). -/
def grantOfCode (v : Nat) : Option (Mode × Bool) :=
  if v = 1 then some (.shared, true) else if v = 2 then some (.exclusive, true)
  else if v = 6 then some (.exclusive, false) else none

/-- The message of a frame whose block home station is in range, by its kind. -/
def decodeBody (f : Frame) (b : Block) : Option Lease :=
  let high := f.arg1.getLsbD 7
  let v := f.arg1.toNat % 128
  let t := Tag.ofParts high f.arg2
  match f.kind.toNat with
  | 2 => (modeOfCode v).map fun m => .ask b m t
  | 3 => if v = 0 then some (.withdraw b t) else none
  | 4 => if v = 0 then some (.withdrawn b t) else none
  | 5 => (grantOfCode v).map fun p => .grant b f.gen p.1 p.2 t
  | 6 => (denyOfCode v).map fun r => .deny b r t
  | 7 => if h : f.arg1.toNat < 32 then some (.chunk b f.gen ⟨f.arg1.toNat, h⟩) else none
  | 8 => (recallOfCode f.arg1.toNat).map fun k => .recallCopy b f.gen k
  | 9 => some (.dropped b f.gen)
  | 10 =>
    if h : f.arg1.toNat < 2 ∧ f.arg2.toNat < 33 then some (.returned b f.gen (f.arg1.toNat == 1) ⟨f.arg2.toNat, h.2⟩)
    else none
  | 11 => some (.notHeld b f.gen)
  | _ => none

/-- The message of a frame that passes validation; none if it fails (R89). -/
def decodeLease (f : Frame) : Option Lease :=
  if f.kind = 1 then (if f.len = 0 then some .announce else none)
  else if (f.len = 1) ↔ (f.kind = 7) then
    match byteStation f.home with
    | some home => decodeBody f { home := home, index := f.index }
    | none => none
  else none

/-- The messages the part may put on the ring: a GRANT of SHARED without data stays inside it (R76). -/
def Lease.onRing : Lease → Bool
  | .grant _ _ .shared false _ => false
  | _ => true

/-! ### What the part reads from a received frame -/

/-- The four things a response byte may say: 0 NONE, 1 TAKEN, 2 BUSY, 3 not produced by the part (R190). -/
def respCode (b : Byte) : Fin 4 := if h : b.toNat < 4 then ⟨b.toNat, h⟩ else Config.responseAbove3 b

/-- The peer a received frame comes from. A source above 15 is a free value (log 11); this station is no peer of its own. -/
def sourceOf (own : Station) (b : Byte) : Option Station :=
  let p := match byteStation b with
    | some p => some p
    | none => Config.sourceAbove15 b
  if p = some own then none else p

end Sys2Proof.Machine
end

