-- ==== Sys2Proof/Machine/Ops.lean ====
section
/-! DEFINITION. The named operations the blocks share: the DRAM, the parts of State, timers, the DRAM arbiter, completions,
attention items, and handing a frame to the ring port. -/

namespace Sys2Proof.Machine

/-! ### The DRAM (R1, R2, R14) -/

/-- Addresses strictly rising. No entry can equal what an unlisted address reads as: that is no value of the list's. -/
def Memory.wf : Memory → Bool
  | [] => true
  | [_] => true
  | c :: d :: rest => c.1 < d.1 && Memory.wf (d :: rest)

/-- The byte written at an address, if any was. -/
def Memory.get : Memory → Nat → Option Byte
  | [], _ => none
  | (x, v) :: rest, a => if a = x then some v else Memory.get rest a

/-- A byte written at an address. -/
def Memory.set : Memory → Nat → Byte → Memory
  | [], a, b => [(a, b)]
  | (x, v) :: rest, a, b =>
    if a < x then (a, b) :: (x, v) :: rest
    else if a = x then (a, b) :: rest
    else (x, v) :: Memory.set rest a b

/-- Bytes written from an address upwards. -/
def Memory.setBytes (m : Memory) (a : Nat) : List Byte → Memory
  | [] => m
  | b :: bs => Memory.setBytes (m.set a b) (a + 1) bs

/-- Only the addresses below `limit` kept. -/
def Memory.below (m : Memory) (limit : Nat) : Memory := m.filter fun c => c.1 < limit

/-- The band of frames a DRAM address lies in, by the strap value that first brings it into reach. -/
def bandOf (addr : Nat) : Fin 4 :=
  if addr < 64 * Config.frameBytes then 0
  else if addr < 128 * Config.frameBytes then 1
  else if addr < 256 * Config.frameBytes then 2
  else 3

/-- What one byte of DRAM reads as: the byte last written, else a free value (R14; log 1). -/
def State.readByte (s : State) (a : Nat) : Byte :=
  (s.dram.get a).getD (Config.undefinedByte (s.dramEpoch.get (bandOf a)) a)

/-- The DRAM address of byte offset `b` of frame `f` (R2). -/
def dramAddr (f b : Nat) : Nat := f * Config.frameBytes + b

/-- The DRAM address of the first byte of chunk `c` of frame `f` (R2). -/
def chunkAddr (f : Nat) (c : ChunkIdx) : Nat := dramAddr f (c.val * Config.chunkBytes)

/-- The 256 bytes of a chunk (R2, R13). -/
def State.readChunk (s : State) (f : Nat) (c : ChunkIdx) : List Byte :=
  (List.range Config.chunkBytes).map fun i => s.readByte (chunkAddr f c + i)

/-- A chunk's bytes replaced by the payload's (R13). -/
def State.writeChunk (s : State) (f : Nat) (c : ChunkIdx) (payload : List Byte) : State :=
  { s with dram := s.dram.setBytes (chunkAddr f c) (payload.take Config.chunkBytes) }

/-! ### The parts of State -/

def State.setRecord (s : State) (n : Byte) (r : DirRecord) : State :=
  { s with records := s.records.set n.toNat r }

/-- Record `n`, if there is one: its index is below H (R15). -/
def State.record? (s : State) (n : Byte) : Option DirRecord := s.records[n.toNat]?

/-- The record changed, where there is one. -/
def State.modRecord (s : State) (n : Byte) (f : DirRecord → DirRecord) : State :=
  match s.record? n with
  | some r => s.setRecord n (f r)
  | none => s

def State.claim (s : State) (c : ClaimIdx) : Claim := s.claims.get c

def State.setClaim (s : State) (c : ClaimIdx) (cl : Claim) : State :=
  { s with claims := s.claims.set c.val cl c.isLt }

def State.modClaim (s : State) (c : ClaimIdx) (f : Claim → Claim) : State := s.setClaim c (f (s.claim c))

def State.setPeer (s : State) (p : Station) (v : Peer) : State :=
  { s with peers := s.peers.set p.val v p.isLt }

def State.setEntry (s : State) (e : EntryIdx) (v : Entry) : State :=
  { s with window := s.window.set e.val v e.isLt }

def State.setOutBuf (s : State) (b : Fin 4) (v : OutBuf) : State :=
  { s with outBuf := s.outBuf.set b.val v b.isLt }

def State.setInBuf (s : State) (b : Fin 4) (v : Option (List Byte)) : State :=
  { s with inBuf := s.inBuf.set b.val v b.isLt }

/-- The inbound payload buffer of a frame that is not to be written is released (R108). -/
def State.releaseIn (s : State) : Option (Fin 4) → State
  | some b => s.setInBuf b none
  | none => s

/-- Something passed between the blocks of the part inside this event (R40, R71). -/
def State.pushMail (s : State) (m : Mail) : State := { s with mail := s.mail ++ [m] }

/-- The record indices, ascending. -/
def State.recordIdxs (s : State) : List Byte := (List.range s.records.length).map (BitVec.ofNat 8)

/-! ### Turns (R24, R102) -/

/-- A newcomer joins at the end of the round. -/
def Turn.join (t : Turn) (x : Nat) : Turn := { t with todo := t.todo ++ [x] }

/-- It drops out. -/
def Turn.leave (t : Turn) (x : Nat) : Turn :=
  { todo := t.todo.filter (· != x), done := t.done.filter (· != x) }

/-- The next that offers: of this round, else of the round that follows. -/
def Turn.next (t : Turn) (offers : Nat → Bool) : Option Nat :=
  match t.todo.find? offers with
  | some x => some x
  | none => t.done.find? offers

/-- It has been served: a member already served opens a new round. -/
def Turn.serve (t : Turn) (x : Nat) : Turn :=
  if t.todo.contains x then { todo := t.todo.filter (· != x), done := t.done ++ [x] }
  else { todo := (t.done ++ t.todo).filter (· != x), done := [x] }

def State.setDirTurn (s : State) (t : Turn) : State := { s with dirTurn := t }

def State.setClaimTurn (s : State) (t : Turn) : State := { s with claimTurn := t }

/-! ### Timers -/

/-- A timer that starts from zero, paused while the port is STALLED (R33, R49, R52, R110). -/
def State.startPausable (s : State) : Timer :=
  { mode := if s.port = .stalled then .paused else .running, count := 0 }

/-- A timer that starts from zero and is not paused (R58, R106, R107). -/
def Timer.start : Timer := { mode := .running, count := 0 }

/-- The hold timer as it starts: a hold period of 0 makes it EXPIRED at once (R58). -/
def State.startHoldTimer (s : State) : Timer := if s.startHold = 0 then .off else .start

/-- The wait timer as it starts: a wait limit of 0 means no timer (R46, R52). -/
def State.startWaitTimer (s : State) : Timer := if s.startWait = 0 then .off else s.startPausable

def Timer.pause (t : Timer) : Timer := if t.mode = .running then { t with mode := .paused } else t
def Timer.runOn (t : Timer) : Timer := if t.mode = .paused then { t with mode := .running } else t

/-- A running timer counts one µs, up to its limit. -/
def Timer.tick (limit : Nat) (t : Timer) : Timer :=
  if t.mode = .running then { t with count := min (t.count + 1) limit } else t

/-- The recall timers, wait timers and re-ask timers changed together (R110, R112). -/
def State.mapPausable (s : State) (f : Timer → Timer) : State :=
  { s with
    records := s.records.map fun r => { r with recalling := r.recalling.map fun k => { k with timer := f k.timer } },
    claims := s.claims.map fun c => { c with wait := f c.wait, reask := f c.reask } }

/-! ### The DRAM arbiter (R10) -/

def Client.other : Client → Client
  | .window => .ring
  | .ring => .window

/-- The client has something to present. -/
def State.waiting (s : State) : Client → Bool
  | .window => s.access.isSome
  | .ring => !s.moves.isEmpty

/-- A client has started waiting: granted at once if the port is IDLE, by the turn marker if both wait. -/
def State.arbStart (s : State) : State :=
  match s.arbPort with
  | some _ => s
  | none =>
    if s.waiting s.arbTurn then { s with arbPort := some s.arbTurn }
    else if s.waiting s.arbTurn.other then { s with arbPort := some s.arbTurn.other }
    else s

/-- The grant of client `c` has ended, and what it carried has been removed. -/
def State.arbEnd (s : State) (c : Client) : State :=
  { s with
    arbTurn := c.other,
    arbPort := if s.waiting c.other then some c.other else if s.waiting c then some c else none }

/-- A move raised at the end of the move list (R12). -/
def State.raiseMove (s : State) (m : Move) : State := State.arbStart { s with moves := s.moves ++ [m] }

/-! ### Completions (R162, R177) -/

/-- The completion record is written and the in-flight count falls by one. -/
def State.writeCompletion (s : State) (c : Completion) : State :=
  { s with cplq := s.cplq ++ [c], inFlight := s.inFlight - 1 }

/-- A completion with every optional field absent but those given. -/
def Completion.plain (t : Ticket) (status : Status) (claim : Option ClaimIdx) (gen : Option Byte) (word1 : Option Word) :
    Completion :=
  { ticket := t, status := status, claim := claim, gen := gen, byteA := 0, byteB := 0, word1 := word1, word2 := none }

def State.complete (s : State) (t : Ticket) (status : Status) (claim : Option ClaimIdx) (gen : Option Byte)
    (word1 : Option Word) : State :=
  s.writeCompletion (.plain t status claim gen word1)

/-! ### The order of one event's completions (R163; log 32) -/

/-- The place of a completion among those of one event: by claim index, and those that name no claim last. -/
def Completion.rank (c : Completion) : Nat := (c.claim.map (·.val)).getD 32

/-- A completion put before the first of a higher or the same rank, all of which came after it. -/
def insertByClaim (c : Completion) : List Completion → List Completion
  | [] => [c]
  | d :: rest => if c.rank ≤ d.rank then c :: d :: rest else d :: insertByClaim c rest

/-- Completions in ascending claim index, those of one claim in the order they came. -/
def orderByClaim (l : List Completion) : List Completion := l.foldr insertByClaim []

/-- The completions written after the first `n` stand in ascending claim index, those that name no claim last. -/
def State.orderFrom (s : State) (n : Nat) : State :=
  { s with cplq := s.cplq.take n ++ orderByClaim (s.cplq.drop n) }

/-- Of the completions written after the first `n`, those of `mine` come first. -/
def State.bringForward (s : State) (n : Nat) (mine : Completion → Bool) : State :=
  let new := s.cplq.drop n
  { s with cplq := s.cplq.take n ++ (new.filter mine ++ new.filter fun c => !mine c) }

/-! ### The attention list (R182 to R186) -/

/-- A notice for a subject: a new item at the end, or the subject's item replaced in place (R182). -/
def State.notice (s : State) (subject : Subject) (n : Notice) : State :=
  if s.attention.any (·.subject == subject) then
    { s with attention := s.attention.map fun i =>
        if i.subject = subject then { subject := subject, notice := n, replaced := true } else i }
  else { s with attention := s.attention ++ [{ subject := subject, notice := n, replaced := false }] }

/-- The subject's item removed, if one is present (R186). -/
def State.removeItem (s : State) (subject : Subject) : State :=
  { s with attention := s.attention.filter fun i => i.subject != subject }

/-! ### Payload buffers and the transmit queue (R101 to R108) -/

/-- The lowest free outgoing payload buffer. -/
def State.freeOutBuf (s : State) : Option (Fin 4) := bufIdxs.find? fun b => s.outBuf.get b == .free

/-- The lowest free inbound payload buffer. -/
def State.freeInBuf (s : State) : Option (Fin 4) := bufIdxs.find? fun b => (s.inBuf.get b).isNone

/-- The payload an entry sends: the snapshot in its buffer (R13). -/
def State.entryPayload (s : State) (e : TxEntry) : List Byte :=
  match e.buf with
  | some b => match s.outBuf.get b with
    | .full p => p
    | _ => []
  | none => []

/-- The frame an entry sends (R92). -/
def State.entryFrame (s : State) (e : TxEntry) : Frame := encodeLease s.own s.inc e.dest e.msg (s.entryPayload e)

/-- An entry as it is accepted. -/
def TxEntry.fresh (dest : Station) (msg : Lease) (owner : Owner) (buf : Option (Fin 4)) (st : TxState) : TxEntry :=
  { dest := dest, msg := msg, owner := owner, buf := buf, st := st, busy := 0, expiry := 0, returnTimer := .off,
    retryTimer := .off }

/-- The entry has been sent at least once, and its delivery has not ended. -/
def TxEntry.outstanding (e : TxEntry) : Bool :=
  e.st == .circulating || e.st == .retry || e.st == .due true || e.st == .due false

/-- An entry is free, and no CHUNK to the destination is READING (R101). -/
def State.canAccept (s : State) (dest : Station) : Bool :=
  s.txq.length < Config.txCapacity && !(s.txq.any fun e => e.dest == dest && e.st == .reading)

/-- An entry leaves: its outgoing payload buffer is released; that of a READING entry stays reserved until its read move
ends, so that no move list holds more reads than buffers (R12, R105; log 13). -/
def State.releaseOut (s : State) (e : TxEntry) : State :=
  match e.buf with
  | none => s
  | some b => if e.st = .reading then s.setOutBuf b .discarding else s.setOutBuf b .free

/-- Delivery to `dest` has failed: every frame to it leaves, `extra` first, and one report goes out (R105). -/
def State.failAll (s : State) (dest : Station) (kind : FailureKind) (extra : List FailedFrame) : State :=
  let gone := s.txq.filter (·.dest == dest)
  let listed := s.handover.filter (·.dest == dest)
  let frames := extra ++ gone.map (fun e => { owner := e.owner, msg := e.msg, sent := e.outstanding })
    ++ listed.map (fun h => { owner := h.owner, msg := h.msg, sent := false })
  let s := gone.foldl State.releaseOut s
  State.pushMail
    { s with txq := s.txq.filter (·.dest != dest), handover := s.handover.filter (·.dest != dest) }
    (.failed { dest := dest, kind := kind, frames := frames })

/-- A frame without payload handed to the ring port (R101): discarded in BYPASS, accepted, listed, or failed when the list
is full. -/
def State.handOver (s : State) (dest : Station) (msg : Lease) (owner : Owner) : State :=
  if s.port = .bypass then s
  else if s.handover.isEmpty && s.canAccept dest then
    { s with txq := s.txq ++ [TxEntry.fresh dest msg owner none .waiting] }
  else if s.handover.length < Config.handoverCapacity then
    { s with handover := s.handover ++ [{ dest := dest, msg := msg, owner := owner }] }
  else s.failAll dest .unresponsive [{ owner := owner, msg := msg, sent := false }]

/-- The head of the receive queue may be handed onward (R109). -/
def State.canHandOnward (s : State) : Bool := s.txq.length < Config.txCapacity && s.handover.isEmpty

end Sys2Proof.Machine
end

