-- ==== Sys2Proof/Machine/ClaimTable.lean ====
section
/-! DEFINITION. The claim table: asking, grants, fills, recalls, returns, releases, the end of a lease, and what it does with each
outcome, timer expiry, purge and teardown that reaches a claim (R44 to R74). -/

namespace Sys2Proof.Machine

/-! ### Sending to a home -/

/-- The tag of the claim's present use (R45). -/
def State.tagOf (s : State) (c : ClaimIdx) : Tag := { claim := c, use := (s.claim c).use }

/-- A message of claim `c` to its home: to this part's directory without a frame (R71), else to the ring port. -/
def State.sendHome (s : State) (c : ClaimIdx) (m : Lease) : State :=
  match (s.claim c).block with
  | some b =>
    if b.home = s.own then s.pushMail (.toDirectory m)
    else s.handOver b.home m (.claims (some (c, (s.claim c).use)))
  | none => s

/-- An answer that stands for no claim, whose outcome is ignored (R51, R57, R68). -/
def State.answerHome (s : State) (home : Station) (m : Lease) : State :=
  if home = s.own then s.pushMail (.toDirectory m) else s.handOver home m (.claims none)

/-! ### Completions of a claim's commands (R162, R163, R177) -/

/-- The pending ACQUIRE, UPGRADE or RELEASE completes, if there is one. -/
def State.completePending (s : State) (c : ClaimIdx) (status : Status) (gen : Option Byte) (word1 : Option Word) : State :=
  match (s.claim c).pendingCmd with
  | some t => (s.modClaim c fun cl => { cl with pendingCmd := none }).complete t status (some c) gen word1
  | none => s

/-- The pending cancel completes, if there is one. -/
def State.completeCancel (s : State) (c : ClaimIdx) (status : Status) : State :=
  match (s.claim c).pendingCancel with
  | some t => (s.modClaim c fun cl => { cl with pendingCancel := none }).complete t status (some c) none none
  | none => s

/-- The pending ACQUIRE or UPGRADE completes OK: both carry the generation, an ACQUIRE the frame number too (R169, R170). -/
def State.completeLease (s : State) (c : ClaimIdx) : State :=
  let cl := s.claim c
  match cl.pendingCmd with
  | some t => s.completePending c .ok cl.gen (if t.code = 5 then cl.frame.map (BitVec.ofNat 32) else none)
  | none => s

/-- A CLAIM notice about the use that `cl` shows (R181). Where the lease has ended, `cl` is the claim as it was just before, so
that the item names the block also on a claim that is FREE by then (log 40). -/
def State.claimNotice (s : State) (c : ClaimIdx) (cl : Claim) (r : ClaimReason) : State :=
  s.notice (.claim c) (.claim r cl.use cl.block)

/-! ### The end of a lease (R67) -/

/-- The borrow frame of claim `c`, if it has one, returns to the pool (R9). -/
def State.freeBorrow (s : State) (c : ClaimIdx) : State :=
  { s with borrow := s.borrow.map fun o => if o = some c then none else o }

/-- The frame is claim `c`'s no longer. -/
def Owner.without (c : ClaimIdx) : Owner → Owner
  | .claims (some (d, use)) => if d = c then .claims none else .claims (some (d, use))
  | o => o

/-- The frames that claim `c` has handed over stay where they are, and their outcomes are ignored from now on (R68). -/
def State.disown (s : State) (c : ClaimIdx) : State :=
  { s with
    txq := s.txq.map fun e => { e with owner := e.owner.without c },
    handover := s.handover.map fun h => { h with owner := h.owner.without c } }

/-- The lease of `c` ends: the commands complete, the frame returns, the outcomes of its frames count no more, and the claim
becomes FREE, or ENDED while window entries name it (R67, R68, R70, R183). -/
def State.endLease (s : State) (c : ClaimIdx) (reason : EndReason) (cmd cancel : Status) : State :=
  let s := (((s.completePending c cmd none none).completeCancel c cancel).freeBorrow c).disown c
  let s := s.setClaimTurn (s.claimTurn.leave c.val)
  let cl := s.claim c
  if s.refCount c = 0 then (s.setClaim c (.free cl.use)).removeItem (.claim c)
  else s.setClaim c { Claim.free cl.use with state := .ended, block := cl.block, endReason := some reason }

/-- The status and end reason of a request given up (R55). -/
def WithdrawCause.status : WithdrawCause → Status
  | .cancelled => .cancelled
  | .timedOut => .timedOut

def WithdrawCause.reason : WithdrawCause → EndReason
  | .cancelled => .cancelled
  | .timedOut => .timedOut

/-- An upgrading claim returns to HELD SHARED with its copy (R50, R55). -/
def Claim.backToShared (cl : Claim) : Claim :=
  { cl with state := .held, sought := none, askStanding := false, wait := .off, reask := .off, cause := none }

/-- A request is given up (R55). -/
def State.giveUp (s : State) (c : ClaimIdx) (cause : WithdrawCause) : State :=
  match (s.claim c).held with
  | none => s.endLease c cause.reason cause.status .ok
  | some _ =>
    ((s.modClaim c Claim.backToShared).completePending c cause.status none none).completeCancel c .ok

/-! ### Asking (R45, R46, R49) -/

/-- The claim asks for `mode`; `first` on the first ask of an ACQUIRE or UPGRADE (R46). -/
def State.claimAsk (s : State) (c : ClaimIdx) (mode : Mode) (first : Bool) : State :=
  let wait := s.startWaitTimer
  let s := s.modClaim c fun cl =>
    { cl with
      state := .asking, sought := some mode, askStanding := true, wait := if first then wait else cl.wait, reask := .off }
  match (s.claim c).block with
  | some b => s.sendHome c (.ask b mode (s.tagOf c))
  | none => s

/-- Claim `c` is taken into use for an ACQUIRE that passed its checks, and asks (R45). -/
def State.takeClaim (s : State) (c : ClaimIdx) (b : Block) (mode : Mode) (frame : Nat) (t : Ticket) : State :=
  (s.setClaim c
    { Claim.free ((s.claim c).use + 1) with block := some b, frame := some frame, pendingCmd := some t }).claimAsk c mode true

/-- Ask standing becomes no and the re-ask timer starts from zero (R49). -/
def State.waitToReask (s : State) (c : ClaimIdx) : State :=
  let t := s.startPausable
  s.modClaim c fun cl => { cl with askStanding := false, reask := t }

/-- The re-ask timer expires: the same block, mode and tag are asked again (R49). -/
def State.reaskExpired (s : State) (c : ClaimIdx) : State :=
  let cl := s.claim c
  if cl.state = .asking ∧ cl.reask.mode = .running then
    match cl.sought with
    | some mode => s.claimAsk c mode false
    | none => s
  else s

/-! ### Withdrawal (R52, R54) -/

/-- A standing request is withdrawn (R54, first row). -/
def State.withdrawAsk (s : State) (c : ClaimIdx) (cause : WithdrawCause) : State :=
  let s := s.modClaim c fun cl => { cl with state := .withdrawing, wait := .off, cause := some cause }
  match (s.claim c).block with
  | some b => s.sendHome c (.withdraw b (s.tagOf c))
  | none => s

/-- An ASKING claim gives its request up: withdrawn if it stands, else at once (R54, first two rows). -/
def State.giveUpAsk (s : State) (c : ClaimIdx) (cause : WithdrawCause) : State :=
  if (s.claim c).askStanding then s.withdrawAsk c cause
  else (s.modClaim c fun cl => { cl with reask := .off }).giveUp c cause

/-- The wait timer expires (R52). -/
def State.waitExpired (s : State) (c : ClaimIdx) : State :=
  let cl := s.claim c
  if cl.state = .asking ∧ cl.wait.mode = .running then
    (s.modClaim c fun cl => { cl with wait := .off }).giveUpAsk c .timedOut
  else s

/-! ### Giving a copy up (R59 to R62, R65, R71) -/

/-- The home has taken the DROPPED or RETURNED: a demote goes on as HELD SHARED, any other giving up ends the lease. -/
def State.finishGive (s : State) (c : ClaimIdx) : State :=
  let cl := s.claim c
  match cl.state, cl.giving with
  | .demoting, _ =>
    ((s.setClaimTurn (s.claimTurn.leave c.val)).modClaim c fun cl =>
      { cl with state := .held, held := some .shared, sought := none, dirty := [], giving := none, ret := none }).claimNotice
        c cl .demoted
  | _, some .release => s.endLease c .released .ok .ok
  | _, _ => (s.endLease c .revoked .ok .ok).claimNotice c cl .revoked

/-- The claim, HELD SHARED, hands its home a DROPPED (R59, R65, R72); that of an own claim is taken at once (R71). -/
def State.startDrop (s : State) (c : ClaimIdx) (cause : GiveCause) : State :=
  let s := s.modClaim c fun cl => { cl with state := .dropping, deferred := none, giving := some cause }
  let cl := s.claim c
  match cl.block, cl.gen with
  | some b, some g =>
    let s := s.sendHome c (.dropped b g)
    if b.home = s.own then s.finishGive c else s
  | _, _ => s

/-- The RETURNED of a return whose chunks have all been accepted (R62, step 3). -/
def State.sendReturned (s : State) (c : ClaimIdx) : State :=
  let cl := s.claim c
  match cl.block, cl.gen, cl.ret with
  | some b, some g, some r =>
    (s.setClaimTurn (s.claimTurn.leave c.val)).sendHome c (.returned b g r.kept (Fin.ofNat 33 r.count))
  | _, _, _ => s

/-- A window write to this use of the claim has been allowed and waits for or holds the arbiter's grant (R62, step 1). -/
def State.writeWaits (s : State) (c : ClaimIdx) : Bool :=
  s.access.any fun a => a.data.isSome && a.owner == some (c, (s.claim c).use)

/-- The dirty set is fixed: the chunks go out, or the RETURNED at once if there are none (R62). -/
def State.fixReturn (s : State) (c : ClaimIdx) (kept : Bool) : State :=
  let s := s.modClaim c fun cl =>
    { cl with ret := some { kept := kept, fixed := true, count := cl.dirty.length, todo := cl.dirty } }
  if (s.claim c).dirty.isEmpty then s.sendReturned c else s

/-- The claim as it enters RETURNING or DEMOTING; a deferred recall is satisfied (R66). -/
def Claim.givingBack (cl : Claim) (kept : Bool) (cause : GiveCause) : Claim :=
  { cl with state := if kept then .demoting else .returning, deferred := none, giving := some cause }

/-- The claim, HELD EXCLUSIVE, begins its return (R60, R61, R65, R72). An own claim returns count 0, taken at once (R71). -/
def State.startReturn (s : State) (c : ClaimIdx) (kept : Bool) (cause : GiveCause) : State :=
  let s := s.modClaim c (·.givingBack kept cause)
  let cl := s.claim c
  match cl.block, cl.gen with
  | some b, some g =>
    if b.home = s.own then (s.sendHome c (.returned b g kept 0)).finishGive c
    else
      let s := s.setClaimTurn (s.claimTurn.join c.val)
      if s.writeWaits c then
        s.modClaim c fun cl => { cl with ret := some { kept := kept, fixed := false, count := 0, todo := [] } }
      else s.fixReturn c kept
  | _, _ => s

/-- A HELD claim gives its copy up for good: a DROPPED, or a return with kept no (R65, R72). -/
def State.letGo (s : State) (c : ClaimIdx) (cause : GiveCause) : State :=
  if (s.claim c).held = some .shared then s.startDrop c cause else s.startReturn c false cause

/-! ### Recalls (R57 to R61, R64) -/

/-- The kind of a recall fits the copy, or the fill (R57; log 31). -/
def Claim.fits (cl : Claim) (kind : RecallKind) : Bool :=
  match (if cl.state = .filling then cl.sought else cl.held), kind with
  | some .shared, .drop => true
  | some .exclusive, .surrender => true
  | some .exclusive, .demote => true
  | _, _ => false

/-- An upgrading claim drops its SHARED copy and keeps its request (R64). -/
def State.dropCopy (s : State) (c : ClaimIdx) : State :=
  let cl := s.claim c
  match cl.block, cl.gen with
  | some b, some g =>
    ((s.modClaim c fun cl => { cl with held := none }).sendHome c (.dropped b g)).claimNotice c cl .copyDropped
  | _, _ => s

/-- A recall is acted on (R59, R60, R61, R64). -/
def State.actRecall (s : State) (c : ClaimIdx) (kind : RecallKind) : State :=
  let cl := s.claim c
  if cl.fits kind then
    match cl.state with
    | .held =>
      match kind with
      | .drop => s.startDrop c .recalled
      | .surrender => s.startReturn c false .recalled
      | .demote => s.startReturn c true .recalled
    | .asking => s.dropCopy c
    | .withdrawing => s.dropCopy c
    | _ => s
  else s

/-- The deferred recall, if any, is acted on once the claim is neither FILLING nor in its hold period (R58). -/
def State.actDeferred (s : State) (c : ClaimIdx) : State :=
  let cl := s.claim c
  match cl.deferred with
  | some (kind, _) =>
    if cl.state = .filling ∨ cl.holdRunning then s
    else (s.modClaim c fun cl => { cl with deferred := none }).actRecall c kind
  | none => s

/-- The hold timer expires (R58). -/
def State.holdExpired (s : State) (c : ClaimIdx) : State :=
  if (s.claim c).holdRunning then (s.modClaim c fun cl => { cl with hold := .off }).actDeferred c else s

/-- The claim a RECALL matches (R57). -/
def State.recalled (s : State) (b : Block) (gen : Byte) : Option ClaimIdx :=
  claimIdxs.find? fun c =>
    let cl := s.claim c
    cl.block == some b && (cl.state == .filling || cl.held.isSome) && cl.gen == some gen

/-- A RECALL (R57, R58). -/
def State.claimRecall (s : State) (b : Block) (gen : Byte) (kind : RecallKind) : State :=
  match s.recalled b gen with
  | none => s.answerHome b.home (.notHeld b gen)
  | some c =>
    let cl := s.claim c
    if cl.state = .dropping ∨ cl.state = .returning ∨ cl.state = .demoting then s
    else if !cl.fits kind then s
    else if cl.state = .filling ∨ cl.holdRunning then
      if cl.deferred.isSome then s else s.modClaim c fun cl => { cl with deferred := some (kind, gen) }
    else s.actRecall c kind

/-! ### Answers of a home (R47, R48, R50, R51, R55, R56) -/

/-- The tag names the present use of a live claim homed at the message's home (R44; log 14). -/
def State.tagged (s : State) (b : Block) (t : Tag) : Bool :=
  let cl := s.claim t.claim
  cl.live && cl.use == t.use && cl.homedAt b.home

/-- A grant that no claim takes is given back (R51). -/
def State.giveBack (s : State) (b : Block) (gen : Byte) (mode : Mode) : State :=
  match mode with
  | .shared => s.answerHome b.home (.dropped b gen)
  | .exclusive => s.answerHome b.home (.returned b gen false 0)

/-- A GRANT taken by claim `c`, ASKING or WITHDRAWING (R47, R56, R71). -/
def State.takeGrant (s : State) (c : ClaimIdx) (b : Block) (gen : Byte) (mode : Mode) (data : Bool) : State :=
  let cl := s.claim c
  if !data && b.home != s.own && cl.held.isNone then
    let s := s.giveBack b gen mode
    if cl.state = .withdrawing then s.giveUp c (cl.cause.getD .cancelled) else s.waitToReask c
  else
    let s := s.modClaim c fun cl =>
      { cl with
        wait := .off, reask := .off, askStanding := false, gen := some gen, deferred := none, cause := none }
    if data then
      (s.modClaim c fun cl =>
        { cl with state := .filling, held := none, sought := some mode, received := [] }).completeCancel c .tooLate
    else
      let hold := s.startHoldTimer
      ((s.modClaim c fun cl =>
        { cl with state := .held, held := some mode, sought := none, dirty := [], hold := hold }).completeLease c).completeCancel
          c .tooLate

/-- A GRANT: taken, a repeat, or unclaimed (R47, R51). -/
def State.claimGrant (s : State) (b : Block) (gen : Byte) (mode : Mode) (data : Bool) (tag : Tag) : State :=
  let cl := s.claim tag.claim
  if s.tagged b tag then
    if cl.state = .asking ∨ cl.state = .withdrawing then s.takeGrant tag.claim b gen mode data
    else if cl.gen = some gen then s
    else s.giveBack b gen mode
  else s.giveBack b gen mode

/-- The status a DENY other than FULL reports (R50). FULL reports none: the claim asks again. -/
def DenyReason.status : DenyReason → Status
  | .full => .noBlock
  | .noBlock => .noBlock
  | .damaged => .damaged
  | .leaving => .leaving
  | .already => .already

/-- A DENY other than FULL ends the attempt (R50). -/
def State.denied (s : State) (c : ClaimIdx) (reason : DenyReason) : State :=
  match (s.claim c).held with
  | none => s.endLease c .denied reason.status .ok
  | some _ => (s.modClaim c Claim.backToShared).completePending c reason.status none none

/-- A DENY in FILLING: the home abandoned the transfer, and the claim asks again (R48). -/
def State.fillAbandoned (s : State) (c : ClaimIdx) : State :=
  let wait := s.startWaitTimer
  (s.modClaim c fun cl =>
    { cl with state := .asking, held := none, received := [], gen := none, deferred := none, wait := wait }).waitToReask c

/-- A DENY (R48 to R51, R55). -/
def State.claimDeny (s : State) (b : Block) (reason : DenyReason) (tag : Tag) : State :=
  let c := tag.claim
  if s.tagged b tag then
    match (s.claim c).state with
    | .asking => if reason = .full then s.waitToReask c else s.denied c reason
    | .withdrawing => s.giveUp c ((s.claim c).cause.getD .cancelled)
    | .filling => s.fillAbandoned c
    | _ => s
  else s

/-- A WITHDRAWN (R51, R55). -/
def State.claimWithdrawn (s : State) (b : Block) (tag : Tag) : State :=
  if s.tagged b tag ∧ (s.claim tag.claim).state = .withdrawing then
    s.giveUp tag.claim ((s.claim tag.claim).cause.getD .cancelled)
  else s

/-! ### Fills (R48) -/

/-- The claim that takes a CHUNK of the block at the generation. -/
def State.filler (s : State) (b : Block) (gen : Byte) : Option ClaimIdx :=
  claimIdxs.find? fun c =>
    let cl := s.claim c
    cl.state == .filling && cl.block == some b && cl.gen == some gen

/-- A CHUNK: its write is raised, or it is stale and its buffer released. -/
def State.claimChunk (s : State) (b : Block) (gen : Byte) (i : ChunkIdx) (buf : Option (Fin 4)) : State :=
  match s.filler b gen, buf with
  | some c, some k =>
    match (s.claim c).frame with
    | some f => s.raiseMove (.write k f i (.claim c (s.claim c).use gen) true)
    | none => s.releaseIn buf
  | _, _ => s.releaseIn buf

/-- The fill ends: HELD in the mode granted, the command completes, and a deferred recall waits on the hold timer (R48, R58).
The received set keeps its 32 chunks, and INSPECT of the HELD claim shows them (DESIGN CHOICE, log 35). -/
def State.fillEnd (s : State) (c : ClaimIdx) : State :=
  let hold := s.startHoldTimer
  ((s.modClaim c fun cl =>
    { cl with state := .held, held := cl.sought, sought := none, dirty := [], hold := hold }).completeLease c).actDeferred c

/-- The ring port reports that chunk `i` of the fill has been written. -/
def State.claimWritten (s : State) (c : ClaimIdx) (use : UseNum) (gen : Byte) (i : ChunkIdx) : State :=
  let cl := s.claim c
  if cl.state = .filling ∧ cl.use = use ∧ cl.gen = some gen then
    let received := ChunkSet.insert i cl.received
    let s := s.modClaim c fun cl => { cl with received := received }
    if received.length = 32 then s.fillEnd c else s
  else s

/-- A message of a home that has reached the claim table. -/
def State.claimTake (s : State) (m : Lease) (buf : Option (Fin 4)) : State :=
  match m with
  | .grant b gen mode data tag => s.claimGrant b gen mode data tag
  | .deny b reason tag => s.claimDeny b reason tag
  | .withdrawn b tag => s.claimWithdrawn b tag
  | .recallCopy b gen kind => s.claimRecall b gen kind
  | .chunk b gen i => s.claimChunk b gen i buf
  | _ => s.releaseIn buf

/-! ### Returns on offer (R62, R102) -/

def State.claimOffers (s : State) (n : Nat) : Bool :=
  if h : n < 32 then
    let cl := s.claim ⟨n, h⟩
    (cl.state == .returning || cl.state == .demoting) && cl.ret.any fun r => r.fixed && !r.todo.isEmpty
  else false

/-- The claim whose chunk the claim table offers next. -/
def State.claimOffer (s : State) : Option Nat := s.claimTurn.next s.claimOffers

/-- The port has accepted the offered chunk of claim `c`; the RETURNED follows the last. -/
def State.claimAccepted (s : State) (c : ClaimIdx) : State :=
  let s := s.modClaim c fun cl => { cl with ret := cl.ret.map fun r => { r with todo := r.todo.tail } }
  if (s.claim c).ret.any (·.todo.isEmpty) then s.sendReturned c
  else s.setClaimTurn (s.claimTurn.serve c.val)

/-- The write that the return of `c` waited for has ended, and the dirty set is fixed (R62). -/
def State.writeEnded (s : State) (c : ClaimIdx) : State :=
  match (s.claim c).ret with
  | some r => if r.fixed then s else s.fixReturn c r.kept
  | none => s

/-! ### Outcomes, purges and teardown (R68, R69, R72) -/

/-- The TAKEN outcome of a frame of use `use` of claim `c`: that of the DROPPED or RETURNED of a copy being given up. -/
def State.claimTaken (s : State) (c : ClaimIdx) (use : UseNum) (m : Lease) : State :=
  let cl := s.claim c
  if cl.use = use then
    match m with
    | .dropped _ g => if cl.state = .dropping ∧ cl.gen = some g then s.finishGive c else s
    | .returned _ g _ _ => if (cl.state = .returning ∨ cl.state = .demoting) ∧ cl.gen = some g then s.finishGive c else s
    | _ => s
  else s

/-- A frame of a live claim to its home has failed delivery (R68). -/
def State.homeAbsent (s : State) (c : ClaimIdx) : State :=
  let cl := s.claim c
  let s := s.endLease c .homeAbsent .homeAbsent .ok
  if (cl.state = .dropping ∨ cl.state = .returning ∨ cl.state = .demoting) ∧ cl.giving = some .recalled then
    s.claimNotice c cl .revoked
  else s

/-- The failed frames end the claims that handed them over, in ascending index (R68, R182). -/
def State.failClaims (s : State) (frames : List FailedFrame) : State :=
  claimIdxs.foldl (fun s c =>
    let cl := s.claim c
    if cl.live && frames.any (fun f => f.owner == .claims (some (c, cl.use))) then s.homeAbsent c else s) s

/-- The claim of a purged home ends LOST (R69). -/
def State.loseClaim (s : State) (c : ClaimIdx) : State :=
  let cl := s.claim c
  (s.endLease c .lost .lost .lost).claimNotice c cl .lost

/-- The purge of station `p` (R69). -/
def State.purgeClaims (s : State) (p : Station) : State :=
  claimIdxs.foldl (fun s c => if (s.claim c).live && (s.claim c).homedAt p then s.loseClaim c else s) s

/-- A remote claim is in a state that teardown acts on (R72). -/
def Claim.tearable (cl : Claim) (own : Station) : Bool :=
  cl.remote own && (cl.state == .asking || cl.state == .held)

/-- The teardown of one remote claim. An upgrading claim given up at once is HELD SHARED, and released in its turn (R55). -/
def State.tearClaim (s : State) (c : ClaimIdx) : State :=
  let cl := s.claim c
  if cl.tearable s.own then
    if cl.state = .asking then
      let s := s.giveUpAsk c .cancelled
      if (s.claim c).state = .held then s.letGo c .teardown else s
    else s.letGo c .teardown
  else s

def State.tearClaims (s : State) : State := claimIdxs.foldl State.tearClaim s

/-- A claim in ENDED that no window entry names becomes FREE, and its item is removed (R70). -/
def State.dropReference (s : State) (c : ClaimIdx) : State :=
  if (s.claim c).state = .ended ∧ s.refCount c = 0 then
    (s.setClaim c (.free (s.claim c).use)).removeItem (.claim c)
  else s

end Sys2Proof.Machine
end

