-- ==== Sys2Proof/Machine/Directory.lean ====
section
/-! DEFINITION. The home directory: what it does with each request, answer, completed write, timer expiry, lost peer and
command that reaches a record (R15 to R43). -/

namespace Sys2Proof.Machine

/-- A message of the directory: to this station's claim table without a frame (R40), else to the ring port (R24). -/
def State.dirSend (s : State) (dest : Station) (m : Lease) : State :=
  if dest = s.own then s.pushMail (.toClaims m) else s.handOver dest m .directory

/-- The block of own record `n`. -/
def State.ownBlock (s : State) (n : Byte) : Block := { home := s.own, index := n }

/-! ### Recalls (R31 to R33) -/

/-- The stations still awaited, with the generation each RECALL carries, in reader-list order (R31, R33). -/
def DirRecord.recallTargets (r : DirRecord) : List Reader :=
  match r.recalling with
  | none => []
  | some k =>
    match k.kind with
    | .drop => r.readers.filter fun d => k.awaiting.contains d.station
    | _ => match r.holder with
      | some h => if k.awaiting.contains h.station then [{ station := h.station, gen := h.gen }] else []
      | none => []

/-- One RECALL to each station still awaited. -/
def State.sendRecalls (s : State) (n : Byte) : State :=
  match s.record? n with
  | some r => match r.recalling with
    | some k => r.recallTargets.foldl (fun s d => s.dirSend d.station (.recallCopy (s.ownBlock n) d.gen k.kind)) s
    | none => s
  | none => s

/-- A recall begins: the recall part is created and its frames are handed over (R31). The timer runs from then on, also where
the holder's RETURNED is already held for its last writes (DESIGN CHOICE, log 34). -/
def State.beginRecall (s : State) (n : Byte) (kind : RecallKind) (awaiting : List Station) : State :=
  let timer := s.startPausable
  (s.modRecord n fun r =>
    { r with recalling := some { kind := kind, awaiting := awaiting, sends := 1, timer := timer } }).sendRecalls n

/-! ### Serving the head (R21 to R24) -/

/-- The grant of request `q` at the head of record `r`: the record after it (R22 to R24). `data` says that a transfer follows. -/
def DirRecord.granted (r : DirRecord) (q : Request) (data : Bool) : DirRecord :=
  let gen := r.gen + 1
  { r with
    gen := gen,
    queue := r.queue.tail,
    readers := match q.mode with
      | .shared => r.readers ++ [{ station := q.station, gen := gen }]
      | .exclusive => [],
    holder := match q.mode with
      | .shared => r.holder
      | .exclusive => some { station := q.station, gen := gen, returned := [], writes := 0, held := none },
    transfer := if data then some { target := q.station, mode := q.mode, tag := q.tag, next := 0 } else none }

/-- The head is granted: the record changes, joins the turn of the transfers if data follow, and the GRANT is sent. -/
def State.grantHead (s : State) (n : Byte) (r : DirRecord) (q : Request) (data : Bool) : State :=
  let s := s.setRecord n (r.granted q data)
  let s := if data then s.setDirTurn (s.dirTurn.join n.toNat) else s
  s.dirSend q.station (.grant (s.ownBlock n) (r.gen + 1) q.mode data q.tag)

/-- The head is answered DENY(ALREADY). -/
def State.denyHead (s : State) (n : Byte) (r : DirRecord) (q : Request) : State :=
  (s.setRecord n { r with queue := r.queue.tail }).dirSend q.station (.deny (s.ownBlock n) .already q.tag)

/-- The head request `q` of the settled record `r` is served (R22 for SHARED, R23 for EXCLUSIVE). A grant to this station
carries no data (R40). -/
def State.serveHead (s : State) (n : Byte) (r : DirRecord) (q : Request) : State :=
  match r.holder with
  | some h =>
    if h.station = q.station then s.denyHead n r q
    else match q.mode with
      | .shared => s.beginRecall n .demote [h.station]
      | .exclusive => s.beginRecall n .surrender [h.station]
  | none =>
    match q.mode with
    | .shared => if r.hasReader q.station then s.denyHead n r q else s.grantHead n r q (q.station != s.own)
    | .exclusive =>
      if r.readers.isEmpty then s.grantHead n r q (q.station != s.own)
      else
        match (r.readers.map (·.station)).filter (· != q.station) with
        | [] => s.grantHead n r q false
        | others => s.beginRecall n .drop others

/-- The record serves its head for as long as it is settled and has one (R21). -/
def State.serveLoop : Nat → Byte → State → State
  | 0, _, s => s
  | k + 1, n, s =>
    match s.record? n with
    | none => s
    | some r =>
      if r.settled then
        match r.queue with
        | [] => s
        | q :: _ => State.serveLoop k n (s.serveHead n r q)
      else s

/-- Service within one event: at most one round for each queued request, since a round grants, denies or begins a recall. -/
def State.serve (s : State) (n : Byte) : State :=
  match s.record? n with
  | some r => State.serveLoop (r.queue.length + 1) n s
  | none => s

/-- The transfer part, if any, is removed, and the record drops out of the turn (R24, R25). -/
def State.endTransfer (s : State) (n : Byte) : State :=
  let s := s.modRecord n fun r => { r with transfer := none }
  s.setDirTurn (s.dirTurn.leave n.toNat)

/-- The record settles: its transfer and recall parts are removed and its head is served (R21). -/
def State.settle (s : State) (n : Byte) : State :=
  ((s.endTransfer n).modRecord n fun r => { r with recalling := none }).serve n

/-! ### Requests (R20, R37) -/

/-- The first request of station `p` replaced in its place. -/
def replaceRequest (p : Station) (q : Request) : List Request → List Request
  | [] => []
  | x :: xs => if x.station = p then q :: xs else x :: replaceRequest p q xs

/-- An ASK (R19, R20). -/
def State.dirAsk (s : State) (src : Station) (b : Block) (mode : Mode) (tag : Tag) : State :=
  let n := b.index
  let q : Request := { station := src, mode := mode, tag := tag }
  match s.record? n with
  | none => s.dirSend src (.deny b .noBlock tag)
  | some r =>
    if r.state = .damaged then s.dirSend src (.deny b .damaged tag)
    else if s.station = .detaching && src != s.own then s.dirSend src (.deny b .leaving tag)
    else
      match r.queue.find? (·.station == src) with
      | some old =>
        if old.tag = tag then s
        else (s.setRecord n { r with queue := replaceRequest src q r.queue }).serve n
      | none =>
        if s.poolUsed ≥ Config.poolCapacity then s.dirSend src (.deny b .full tag)
        else (s.setRecord n { r with queue := r.queue ++ [q] }).serve n

/-- A WITHDRAW (R37). -/
def State.dirWithdraw (s : State) (src : Station) (b : Block) (tag : Tag) : State :=
  match s.record? b.index with
  | none => s
  | some r =>
    if r.queue.any (fun q => q.station == src && q.tag == tag) then
      (s.setRecord b.index { r with queue := r.queue.filter fun q => !(q.station == src && q.tag == tag) }).dirSend src
        (.withdrawn b tag)
    else s

/-! ### Damage (R34) -/

/-- The record becomes DAMAGED with its holder as the lost holder, and its queue is denied, head first. -/
def State.damage (s : State) (n : Byte) : State :=
  match s.record? n with
  | none => s
  | some r =>
    let s := s.setRecord n
      { r with lost := r.holder, holder := none, transfer := none, recalling := none, queue := [] }
    let s := s.setDirTurn (s.dirTurn.leave n.toNat)
    r.queue.foldl (fun s q => s.dirSend q.station (.deny (s.ownBlock n) .damaged q.tag)) s

/-! ### Answers (R26 to R30, R35) -/

/-- The four answers of a claimant (R19). -/
inductive Answer where
  | dropped
  | notHeld
  | chunk (index : ChunkIdx)
  | returned (kept : Bool) (count : Fin 33)
deriving DecidableEq, Repr

/-- Reader `p` leaves the list (R27); the awaiting set of a recall loses it too. -/
def DirRecord.dropReader (r : DirRecord) (p : Station) : DirRecord :=
  { r with
    readers := r.readers.filter (·.station != p),
    recalling := r.recalling.map fun k => { k with awaiting := k.awaiting.filter (· != p) } }

/-- The recall runs and its awaiting set is empty (R32). -/
def DirRecord.recallOver (r : DirRecord) : Bool := r.recalling.any (·.awaiting.isEmpty)

/-- What follows a change of the readers, the holder or the awaiting set: a recall left with nobody awaited ends (R32), a
transfer whose target answered ends (R26), and a settled record serves its head (R21). -/
def State.afterAnswer (s : State) (n : Byte) : State :=
  match s.record? n with
  | none => s
  | some r => if r.recallOver then s.settle n else s.serve n

/-- A DROPPED or NOT_HELD that matches reader `p` (R26, R27). -/
def State.readerLeaves (s : State) (n : Byte) (r : DirRecord) (p : Station) : State :=
  let s := if r.transfer.any (·.target == p) then s.endTransfer n else s
  (s.modRecord n (·.dropReader p)).afterAnswer n

/-- The RETURNED of the holder is handled (R29): the counts are compared. -/
def State.handleReturned (s : State) (n : Byte) (kept : Bool) (count : Fin 33) : State :=
  match s.record? n with
  | none => s
  | some r => match r.holder with
    | none => s
    | some h =>
      if count.val = h.returned.length then
        (s.setRecord n
          { r with
            holder := none,
            readers := if kept then [{ station := h.station, gen := h.gen }] else r.readers,
            recalling := r.recalling.map fun k => { k with awaiting := k.awaiting.filter (· != h.station) } }).afterAnswer n
      else s.damage n

/-- The RETURNED of the lost holder is handled (R35): an agreeing count heals the record. -/
def State.handleLostReturned (s : State) (n : Byte) (kept : Bool) (count : Fin 33) : State :=
  match s.record? n with
  | none => s
  | some r => match r.lost with
    | none => s
    | some h =>
      if count.val = h.returned.length then
        (s.setRecord n
          { r with lost := none, readers := if kept then [{ station := h.station, gen := h.gen }] else r.readers }).afterAnswer n
      else s.setRecord n { r with lost := some { h with held := none } }

/-- A holder part with one more write outstanding. -/
def Holder.accepted (h : Holder) : Holder := { h with writes := h.writes + 1 }

/-- The recall timer starts again from zero, if a recall runs (R28). -/
def DirRecord.restartTimer (r : DirRecord) (t : Timer) : DirRecord :=
  { r with recalling := r.recalling.map fun k => { k with timer := t } }

/-- The write of an accepted CHUNK into home frame `n` is raised (R12, R28). -/
def State.raiseHomeWrite (s : State) (n : Byte) (c : ChunkIdx) (h : Holder) (buf : Option (Fin 4)) : State :=
  match buf with
  | some b => s.raiseMove (.write b n.toNat c (.home n h.station h.gen) true)
  | none => s

/-- An answer of `p` that matches a copy and is itself ignored still ends a transfer to `p` (R26): a CHUNK or RETURNED of a
reader (R90; log 20), and any answer of a holder whose RETURNED is held (R28, R29). -/
def State.answerIgnored (s : State) (n : Byte) (r : DirRecord) (p : Station) (buf : Option (Fin 4)) : State :=
  let s := s.releaseIn buf
  if r.transfer.any (·.target == p) then (s.endTransfer n).serve n else s

/-- An answer that matches the holder, in LENT, RECALLING or, after its transfer has ended, SENDING (R26, R28 to R30). -/
def State.holderAnswers (s : State) (n : Byte) (r : DirRecord) (h : Holder) (a : Answer) (buf : Option (Fin 4)) : State :=
  match h.held with
  | some _ => s.answerIgnored n r h.station buf
  | none =>
    let s := if r.transfer.isSome then s.endTransfer n else s
    match a with
    | .dropped => s.damage n
    | .notHeld => s.damage n
    | .chunk c =>
      let timer := s.startPausable
      ((s.modRecord n fun r => { r.restartTimer timer with holder := some h.accepted }).raiseHomeWrite n c h buf).serve n
    | .returned kept count =>
      if h.writes = 0 then s.handleReturned n kept count
      else
        (s.modRecord n fun r =>
          { r with
            holder := some { h with held := some { kept := kept, count := count } },
            recalling := r.recalling.map fun k => { k with timer := { k.timer with mode := .stopped } } }).serve n

/-- An answer that matches the lost holder (R35). -/
def State.lostAnswers (s : State) (n : Byte) (h : Holder) (a : Answer) (buf : Option (Fin 4)) : State :=
  match h.held with
  | some _ => s.releaseIn buf
  | none =>
    match a with
    | .dropped => s
    | .notHeld => s
    | .chunk c => (s.modRecord n fun r => { r with lost := some h.accepted }).raiseHomeWrite n c h buf
    | .returned kept count =>
      if h.writes = 0 then s.handleLostReturned n kept count
      else s.modRecord n fun r => { r with lost := some { h with held := some { kept := kept, count := count } } }

def Holder.isFrom (h : Holder) (p : Station) (gen : Byte) : Bool := h.station == p && h.gen == gen

/-- An answer is matched against the record: a reader, the holder, the lost holder, or stale (R19). -/
def State.dirAnswer (s : State) (src : Station) (n gen : Byte) (a : Answer) (buf : Option (Fin 4)) : State :=
  match s.record? n with
  | none => s.releaseIn buf
  | some r =>
    if r.readers.any (fun d => d.station == src && d.gen == gen) then
      match a with
      | .dropped => s.readerLeaves n r src
      | .notHeld => s.readerLeaves n r src
      | _ => s.answerIgnored n r src buf
    else
      match r.holder with
      | some h => if h.isFrom src gen then s.holderAnswers n r h a buf else s.releaseIn buf
      | none =>
        match r.lost with
        | some h => if h.isFrom src gen then s.lostAnswers n h a buf else s.releaseIn buf
        | none => s.releaseIn buf

/-- A message that has reached the directory (R19). Kinds that go to a claim table are not the directory's. -/
def State.dirTake (s : State) (src : Station) (m : Lease) (buf : Option (Fin 4)) : State :=
  match m with
  | .ask b mode tag => s.dirAsk src b mode tag
  | .withdraw b tag => s.dirWithdraw src b tag
  | .dropped b gen => s.dirAnswer src b.index gen .dropped buf
  | .notHeld b gen => s.dirAnswer src b.index gen .notHeld buf
  | .chunk b gen c => s.dirAnswer src b.index gen (.chunk c) buf
  | .returned b gen kept count => s.dirAnswer src b.index gen (.returned kept count) buf
  | _ => s.releaseIn buf

/-! ### Completed writes (R28, R29, R35) -/

/-- A holder part with one write of chunk `c` completed. -/
def Holder.written (h : Holder) (c : ChunkIdx) : Holder :=
  { h with returned := ChunkSet.insert c h.returned, writes := h.writes - 1 }

/-- The ring port reports that the write of chunk `c` from (`p`, `gen`) into home frame `n` has completed. -/
def State.homeWritten (s : State) (n : Byte) (p : Station) (gen : Byte) (c : ChunkIdx) : State :=
  match s.record? n with
  | none => s
  | some r =>
    match r.holder, r.lost with
    | some h, _ =>
      if h.isFrom p gen then
        let h' := h.written c
        match h'.held with
        | some k =>
          if h'.writes = 0 then
            (s.setRecord n { r with holder := some { h' with held := none } }).handleReturned n k.kept k.count
          else s.setRecord n { r with holder := some h' }
        | none => s.setRecord n { r with holder := some h' }
      else s
    | none, some h =>
      if h.isFrom p gen then
        let h' := h.written c
        match h'.held with
        | some k =>
          if h'.writes = 0 then
            (s.setRecord n { r with lost := some { h' with held := none } }).handleLostReturned n k.kept k.count
          else s.setRecord n { r with lost := some h' }
        | none => s.setRecord n { r with lost := some h' }
      else s
    | none, none => s

/-! ### Transfers (R24, R25) -/

/-- The directory has a chunk on offer: the next of record `n`'s transfer. -/
def State.dirOffers (s : State) (n : Nat) : Bool :=
  match s.records[n]? with
  | some r => r.transfer.any (·.next < 32)
  | none => false

/-- The record whose chunk the directory offers next. -/
def State.dirOffer (s : State) : Option Nat := s.dirTurn.next s.dirOffers

/-- The port has accepted the offered chunk of record `n` (R24). -/
def State.dirAccepted (s : State) (n : Nat) : State :=
  let s := s.modRecord (BitVec.ofNat 8 n) fun r =>
    { r with transfer := r.transfer.map fun t => { t with next := t.next + 1 } }
  if s.dirOffers n then s.setDirTurn (s.dirTurn.serve n) else s.setDirTurn (s.dirTurn.leave n)

/-- The TAKEN outcome of a frame the directory queued: that of chunk 31 of a running transfer ends it (R25, R39). -/
def State.dirTaken (s : State) (dest : Station) (m : Lease) : State :=
  match m with
  | .chunk b gen c =>
    match s.record? b.index with
    | some r =>
      if c = 31 && r.gen == gen && r.transfer.any (·.target == dest) then s.settle b.index else s
    | none => s
  | _ => s

/-! ### The recall timer (R33) -/

/-- Expiry of the recall timer of record `n`: a resend, or after four sends the recall is exhausted. -/
def State.recallExpired (s : State) (n : Byte) : State :=
  match s.record? n with
  | none => s
  | some r =>
    match r.recalling with
    | none => s
    | some k =>
      if k.timer.mode = .running then
        if k.sends < Config.recallSends then
          (s.setRecord n { r with recalling := some { k with sends := k.sends + 1, timer := s.startPausable } }).sendRecalls n
        else if r.holder.any (fun h => k.awaiting.contains h.station) then s.damage n
        else
          (s.setRecord n
            { r with
              readers := r.readers.filter fun d => !k.awaiting.contains d.station,
              recalling := some { k with awaiting := [] } }).afterAnswer n
      else s

/-! ### Loss of a peer (R38) -/

/-- The failed frames include chunk 31 of the transfer of record `n` at generation `gen`, sent at least once (log 19). -/
def lastChunkFailed (frames : List FailedFrame) (b : Block) (gen : Byte) : Bool :=
  frames.any fun f => f.sent && f.owner == .directory && f.msg == .chunk b gen 31

/-- The failed frames include the GRANT of `b` at generation `gen`. -/
def grantFailed (frames : List FailedFrame) (b : Block) (gen : Byte) : Bool :=
  frames.any fun f => f.owner == .directory && match f.msg with
    | .grant b' g _ _ _ => b' == b && g == gen
    | _ => false

/-- Holder `p` is removed without damage; the awaiting set of a recall loses it too (R32, R81). -/
def DirRecord.dropHolder (r : DirRecord) (p : Station) : DirRecord :=
  { r with
    holder := none,
    recalling := r.recalling.map fun k => { k with awaiting := k.awaiting.filter (· != p) } }

/-- Step 1: the request of `p` is removed; after a delivery failure `p` is handed DENY(FULL). -/
def State.loseRequest (s : State) (p : Station) (purge : Bool) (n : Byte) : State :=
  match s.record? n with
  | none => s
  | some r =>
    match r.queue.find? (·.station == p) with
    | none => s
    | some q =>
      let s := s.setRecord n { r with queue := r.queue.filter (·.station != p) }
      if purge then s else s.dirSend p (.deny (s.ownBlock n) .full q.tag)

/-- Step 2: a transfer to `p` is abandoned. -/
def State.loseTransfer (s : State) (p : Station) (purge : Bool) (frames : List FailedFrame) (n : Byte) : State :=
  match s.record? n with
  | none => s
  | some r =>
    match r.transfer with
    | none => s
    | some t =>
      if t.target = p then
        if t.mode = .exclusive && !purge && lastChunkFailed frames (s.ownBlock n) r.gen then s.endTransfer n
        else
          let s := (s.endTransfer n).modRecord n fun r =>
            match t.mode with
            | .shared => r.dropReader p
            | .exclusive => { r with holder := none }
          let s := if purge then s else s.dirSend p (.deny (s.ownBlock n) .full t.tag)
          s.settle n
      else s

/-- Steps 3 and 4: `p` leaves the readers and the awaiting set; a holder whose GRANT has failed is removed without damage
(R81; log 36); a record that `p` still holds becomes DAMAGED. -/
def State.loseCopy (s : State) (p : Station) (purge : Bool) (frames : List FailedFrame) (n : Byte) : State :=
  match s.record? n with
  | none => s
  | some r =>
    if r.holderIs p then
      if !purge && r.holder.any (fun h => grantFailed frames (s.ownBlock n) h.gen) then
        (s.modRecord n (·.dropHolder p)).afterAnswer n
      else s.damage n
    else if r.hasReader p then (s.modRecord n (·.dropReader p)).afterAnswer n
    else s

/-- The loss of `p` applied to one record. -/
def State.loseInRecord (s : State) (p : Station) (purge : Bool) (frames : List FailedFrame) (n : Byte) : State :=
  ((s.loseRequest p purge n).loseTransfer p purge frames n).loseCopy p purge frames n

/-- The loss of `p`, to every record in ascending block index (R38). -/
def State.losePeer (s : State) (p : Station) (purge : Bool) (frames : List FailedFrame) : State :=
  s.recordIdxs.foldl (fun s n => s.loseInRecord p purge frames n) s

/-! ### Detaching (R42) -/

/-- Entry into DETACHING: the peers' requests of one record are denied LEAVING, head first. -/
def State.denyPeers (s : State) (n : Byte) : State :=
  match s.record? n with
  | none => s
  | some r =>
    let s' := s.setRecord n { r with queue := r.queue.filter (·.station == s.own) }
    (r.queue.filter (·.station != s.own)).foldl
      (fun t q => t.dirSend q.station (.deny (t.ownBlock n) .leaving q.tag)) s'

def State.denyAllPeers (s : State) : State := s.recordIdxs.foldl State.denyPeers s

/-- The record has reached the condition for a teardown recall. -/
def DirRecord.tearable (r : DirRecord) (own : Station) : Bool :=
  (r.state == .shared || r.state == .lent) && r.queue.isEmpty && r.namesPeer own

/-- The teardown recall of a record that has reached the condition. -/
def State.tearRecord (s : State) (n : Byte) : State :=
  match s.record? n with
  | none => s
  | some r =>
    if r.tearable s.own then
      match r.holder with
      | some h => s.beginRecall n .surrender [h.station]
      | none => s.beginRecall n .drop ((r.readers.map (·.station)).filter (· != s.own))
    else s

def State.tearRecords (s : State) : State := s.recordIdxs.foldl State.tearRecord s

/-! ### RESTORE (R36) -/

/-- A DAMAGED record repaired. -/
def DirRecord.restored (r : DirRecord) : DirRecord := { r with gen := r.gen + 1, lost := none }

end Sys2Proof.Machine
end

