-- ==== Sys2Proof/Machine/Life.lean ====
section
/-! DEFINITION. The station controller: the START checks, joining, the peer table, the leaving order and the end of a detach
(R117 to R139), and the ring port's entry into BYPASS (R114). -/

namespace Sys2Proof.Machine

/-! ### START (R120, R121) -/

/-- The order number of the first START check that fails (R120). -/
def State.startFailure (s : State) : Option Nat :=
  if s.startNumber > 15 then some 1
  else if s.startIncarnation < 1 ∨ s.startIncarnation > 255 ∨ s.prevInc = some s.inc then some 2
  else if s.startHome > 256 ∨ s.startHome > s.frames then some 3
  else if s.startBorrow > 64 ∨ s.startHome + s.startBorrow > s.frames then some 4
  else if s.startHold > 255 then some 5
  else if s.startRecall < 1 ∨ s.startRecall > 255 ∨ s.startRecall * 10 ≤ s.startHold then some 6
  else if s.startWait > 255 then some 7
  else if s.startRetry < 1 ∨ s.startRetry > 255 then some 8
  else none

/-- The station enters JOINING for life command `t`: the port leaves BYPASS and the self probe is handed over (R113, R122). -/
def State.enterJoining (s : State) (t : Ticket) : State :=
  State.handOver
    { s with station := .joining, port := .active, probeOutstanding := true, announceAwaited := 0, lifeCmd := some t }
    s.own .announce .station

/-- START takes effect (R121). -/
def State.startEffect (s : State) (t : Ticket) : State :=
  State.enterJoining
    { s with
      homeCount := s.startHome, borrowCount := s.startBorrow,
      records := List.replicate s.startHome .initial, borrow := List.replicate s.startBorrow none,
      dirTurn := .empty, claimTurn := .empty } t

/-- The pending life command completes. -/
def State.completeLife (s : State) (status : Status) : State :=
  match s.lifeCmd with
  | some t => ({ s with lifeCmd := none }).complete t status none none none
  | none => s

/-! ### The port enters BYPASS (R114) -/

/-- The buffers of the frames still in the receive queue, and of the held frame, are released. -/
def State.releaseReceived (s : State) : State :=
  (s.rx ++ s.heldFrame.toList).foldl (fun s e => s.releaseIn e.buf) s

/-- The moves that stay: chunk writes, and a read already granted, whose result is then discarded. A read not yet granted goes
also where its READING entry has already failed (R105): DESIGN CHOICE, log 37. -/
def State.movesKept (s : State) : List Move :=
  let keep : Move → Bool := fun m => match m with
    | .write _ _ _ _ _ => true
    | .read _ _ _ => false
  match s.arbPort, s.moves with
  | some .ring, m :: rest => m :: rest.filter keep
  | _, ms => ms.filter keep

/-- A chunk write's completion is reported no more. -/
def Move.silent : Move → Move
  | .write b f c a _ => .write b f c a false
  | .read b f c => .read b f c

/-- The port enters BYPASS; `report` is no when the records and claims of the moves are removed too. -/
def State.enterBypass (s : State) (report : Bool) : State :=
  let s := s.releaseReceived
  let kept := s.movesKept
  let free : Vector OutBuf 4 := Vector.replicate 4 .free
  let bufs := match kept with
    | .read b _ _ :: _ => free.set b.val .discarding b.isLt
    | _ => free
  let s := s.mapPausable .runOn
  { s with
    port := .bypass, fwd := [], rx := [], heldFrame := none, txq := [], handover := [], outBuf := bufs,
    moves := if report then kept else kept.map .silent }

/-! ### The leaving order (R124) -/

/-- Step 2: the window entries become EMPTY and their items go. -/
def State.emptyWindow (s : State) : State :=
  { s with
    window := Vector.replicate 32 .empty,
    attention := s.attention.filter fun i => match i.subject with
      | .entry _ => false
      | _ => true }

/-- Step 3: live own claims end CANCELLED, every claim is FREE with its use number, and its item goes. -/
def State.cancelClaims (s : State) : State :=
  let s := claimIdxs.foldl
    (fun s c => if (s.claim c).live then s.endLease c .cancelled .cancelled .ok else s) s
  { s with
    claims := s.claims.map fun c => .free c.use,
    attention := s.attention.filter fun i => match i.subject with
      | .claim _ => false
      | _ => true }

/-- Step 4: records, pool and partition are removed. -/
def State.removePartition (s : State) : State :=
  { s with
    records := [], borrow := [], homeCount := 0, borrowCount := 0, dirTurn := .empty, claimTurn := .empty }

/-- Step 5: peer records return to UNKNOWN without incarnation, and the PEER items go (R186). -/
def State.forgetPeers (s : State) : State :=
  { s with
    peers := Vector.replicate 16 .initial,
    attention := s.attention.filter fun i => match i.subject with
      | .peer _ => false
      | _ => true }

/-- Step 6: UNCONFIGURED, the life command completes, and the station subject gets its item. -/
def State.leaveJoining (s : State) : State :=
  (State.completeLife { s with station := .unconfigured, probeOutstanding := false, announceAwaited := 0 }
    .numberConflict).notice .station (.station .numberConflict none)

/-- The self probe was taken by another station (R124). -/
def State.leaveRing (s : State) : State :=
  (s.enterBypass false).emptyWindow.cancelClaims.removePartition.forgetPeers.leaveJoining

/-! ### Joining (R123, R125) -/

/-- The other fifteen station numbers, ascending from the number above this station's, wrapping (R125). -/
def State.announceOrder (s : State) : List Station :=
  (List.range 15).map fun i => Fin.ofNat 16 (s.own.val + 1 + i)

/-- The self probe has outcome NONE (R123): the announcements are handed over. -/
def State.probeNone (s : State) : State :=
  if s.probeOutstanding then
    s.announceOrder.foldl (fun s p => s.handOver p .announce .station)
      { s with probeOutstanding := false, announceAwaited := 15 }
  else s

/-- The last announcement has its outcome: joining ends (R125). -/
def State.endJoining (s : State) : State :=
  let byStart := s.lifeCmd.any (·.code == 1)
  State.completeLife
    { s with station := .attached, prevInc := if byStart then some s.inc else s.prevInc } .ok

/-- One announcement has its outcome (R125). -/
def State.announceDone (s : State) : State :=
  if s.station = .joining ∧ 0 < s.announceAwaited then
    if s.announceAwaited = 1 then State.endJoining { s with announceAwaited := 0 }
    else { s with announceAwaited := s.announceAwaited - 1 }
  else s

/-- Another station has probed this number (R126). -/
def State.conflictReport (s : State) (inc : Byte) : State :=
  s.notice .station (.station .numberConflict (some inc))

/-! ### Peers (R129, R130, R132) -/

/-- The checks on a frame from `p` with incarnation `inc` (R129), and the purge they may find (R130). An incarnation of 0, which
no station has (R128), is recorded like any other (DESIGN CHOICE, log 38). -/
def State.peerChecks (s : State) (p : Station) (inc : Byte) : State :=
  let old := s.peers.get p
  let purge := old.inc.any (· != inc)
  let s := if purge then (s.losePeer p true []).purgeClaims p else s
  let s := s.setPeer p { presence := .present, inc := some inc }
  if purge then s.notice (.peer p) (.peer .restarted (some inc))
  else if old.presence = .present then s
  else s.notice (.peer p) (.peer .present (some inc))

/-- A frame to `p` was taken (R132). -/
def State.peerTaken (s : State) (p : Station) : State :=
  let old := s.peers.get p
  if p = s.own ∨ old.presence = .present then s
  else (s.setPeer p { old with presence := .present }).notice (.peer p) (.peer .present old.inc)

/-- Delivery to `p` has failed (R132). -/
def State.peerFailed (s : State) (p : Station) (frames : List FailedFrame) : State :=
  let old := s.peers.get p
  let s := if old.presence = .absent then s
    else (s.setPeer p { old with presence := .absent }).notice (.peer p) (.peer .absent old.inc)
  s.losePeer p false frames

/-! ### Detaching (R134 to R136) -/

/-- The detach ends (R136). -/
def State.endDetach (s : State) : State :=
  let s := s.enterBypass true
  State.completeLife
    { s with station := .detached, peers := s.peers.map fun p => { p with presence := .unknown } } .ok

/-- The end condition is tested (R135). -/
def State.testDetach (s : State) : State :=
  if s.station = .detaching ∧ s.detachDone then s.endDetach else s

end Sys2Proof.Machine
end

