-- ==== Sys2Proof/Machine/Exchange.lean ====
section
/-! DEFINITION. What one event carries between the blocks: messages inside the part (R40, R71), delivery failures (R105), the
teardown of a detach (R42, R72), and the handling of a frame handed onward (R88, R109, R122). -/

namespace Sys2Proof.Machine

/-! ### Mail between the blocks -/

/-- An announcement among the frames that failed is that destination's outcome (R125). -/
def State.announceFailed (s : State) (f : Failure) : State :=
  if f.frames.any (fun x => x.owner == .station && x.msg == .announce) then s.announceDone else s

/-- A report of a delivery failure (R105): the claims that handed frames over, the announcement, then the station controller.
That of the self probe is the probe's outcome alone (R123). -/
def State.handleFailure (s : State) (f : Failure) : State :=
  if f.dest = s.own then s.probeNone
  else ((s.failClaims f.frames).peerFailed f.dest f.frames).announceFailed f

def State.handleMail (s : State) : Mail → State
  | .toDirectory m => s.dirTake s.own m none
  | .toClaims m => s.claimTake m none
  | .failed f => s.handleFailure f

/-- The mail is handled, oldest first, with what it brings (log 17). -/
def State.drainLoop : Nat → State → State
  | 0, s => s
  | k + 1, s =>
    match s.mail with
    | [] => s
    | m :: rest => State.drainLoop k (State.handleMail { s with mail := rest } m)

def State.drain (s : State) : State := State.drainLoop Config.exchangeFuel s

/-! ### Handling a frame (R88, R129) -/

/-- A validated frame goes on by its kind and block home station (R88). -/
def State.dispatch (s : State) (src : Station) (m : Lease) (buf : Option (Fin 4)) : State :=
  match m, m.block? with
  | .announce, _ => s
  | .ask _ _ _, some b => if b.home = s.own then s.dirTake src m buf else s
  | .withdraw _ _, some b => if b.home = s.own then s.dirTake src m buf else s
  | .dropped _ _, some b => if b.home = s.own then s.dirTake src m buf else s
  | .returned _ _ _ _, some b => if b.home = s.own then s.dirTake src m buf else s
  | .notHeld _ _, some b => if b.home = s.own then s.dirTake src m buf else s
  | .grant _ _ _ _ _, some b => if b.home = src then s.claimTake m buf else s
  | .deny _ _ _, some b => if b.home = src then s.claimTake m buf else s
  | .withdrawn _ _, some b => if b.home = src then s.claimTake m buf else s
  | .recallCopy _ _ _, some b => if b.home = src then s.claimTake m buf else s
  | .chunk _ _ _, some b =>
    if b.home = s.own then s.dirTake src m buf
    else if b.home = src then s.claimTake m buf
    else s.releaseIn buf
  | _, none => s.releaseIn buf

/-- The peer checks with what they bring, their completions in the order of R163 (R88, R129). -/
def State.checked (s : State) (p : Station) (inc : Byte) : State := (s.peerChecks p inc).drain.orderFrom s.cplq.length

/-- A frame handed onward: the peer checks, then validation and dispatch (R88, R89, R129). -/
def State.handleFrame (s : State) (e : RxEntry) : State :=
  match sourceOf s.own e.frame.src with
  | none => s.releaseIn e.buf
  | some p =>
    let s := s.checked p e.frame.inc
    match decodeLease e.frame with
    | none => s.releaseIn e.buf
    | some m => s.dispatch p m e.buf

/-- The held frame goes on once the self probe has its outcome (R122; log 21). -/
def State.releaseHeld (s : State) : State :=
  match s.heldFrame with
  | some e => if s.probeOutstanding then s else State.handleFrame { s with heldFrame := none } e
  | none => s

/-! ### The teardown of a detach (R42, R72) -/

/-- A record or a remote claim has reached a state on which the teardown acts. -/
def State.teardownDue (s : State) : Bool :=
  s.station == .detaching &&
    (s.records.any (·.tearable s.own) || claimIdxs.any fun c => (s.claim c).tearable s.own)

/-- The directory's teardown comes before the claim table's (R134). -/
def State.teardownRound (s : State) : State := s.tearRecords.tearClaims.drain

def State.teardownLoop : Nat → State → State
  | 0, s => s
  | k + 1, s => if s.teardownDue then State.teardownLoop k s.teardownRound else s

def State.teardown (s : State) : State := State.teardownLoop Config.teardownFuel s

/-- The end of an event that touched the directory, the claims or the ring port: what the blocks still owe each other is
handled, then the teardown, then the test of the end condition (log 17, 18). The completions this brings stand in the order
of R163 (log 32). -/
def State.settleEvent (s : State) : State :=
  s.drain.releaseHeld.drain.teardown.testDetach.orderFrom s.cplq.length

end Sys2Proof.Machine
end

