-- ==== Sys2Proof/Machine/Commands.lean ====
section
/-! DEFINITION. The command unit: taking the head of the command queue, and what each of the twelve commands does when it is
taken (R160 to R177). -/

namespace Sys2Proof.Machine

/-! ### Taking (R160, R161) -/

/-- What a completion returns of the command (R177). -/
def Queued.ticket (q : Queued) : Ticket := { seq := q.seq, code := q.record.code, tag := q.record.softwareTag }

/-- The head of the command queue, if the reservation lets it be taken (R160). -/
def State.takeable (s : State) : Option Queued := if s.reservationOpen then s.cmdq.head? else none

/-- The head leaves the queue and is in flight (R161, step 1). -/
def State.removeHead (s : State) : State := { s with cmdq := s.cmdq.tail, inFlight := s.inFlight + 1 }

/-- The command completes in the event it is taken, with a status alone. -/
def State.answer (s : State) (q : Queued) (status : Status) : State := s.complete q.ticket status none none none

/-- The same, naming the claim concerned. -/
def State.answerClaim (s : State) (q : Queued) (status : Status) (c : ClaimIdx) : State :=
  s.complete q.ticket status (some c) none none

/-- The command unit's own check: every command but START needs a started station (R161, step 3). -/
def State.ifStarted (s : State) (q : Queued) (act : State → Queued → State) : State :=
  if s.station = .unconfigured then s.answer q .notStarted else act s q

/-! ### Station commands (R165 to R167) -/

/-- START (R119, R165). -/
def State.doStart (s : State) (q : Queued) : State :=
  if s.station = .unconfigured then
    match s.startFailure with
    | some k => s.complete q.ticket .badConfig none none (some (BitVec.ofNat 32 k))
    | none => s.startEffect q.ticket
  else s.answer q .badState

/-- ATTACH (R138). -/
def State.doAttach (s : State) (q : Queued) : State :=
  if s.station = .detached then s.enterJoining q.ticket else s.answer q .badState

/-- Of the completions written after the first `n`, that of command `seq` comes first (R163). -/
def State.takenFirst (s : State) (n : Nat) (seq : Byte) : State := s.bringForward n (·.ticket.seq == seq)

/-- Of the completions written after the first `n`, those on claim `c` come first (R163). -/
def State.claimFirst (s : State) (n : Nat) (c : ClaimIdx) : State := s.bringForward n (·.claim == some c)

/-- The command taken in `s` has acted on claim `c`, and the event goes to its end: what completes on that claim stands before
what the command causes elsewhere (R163; log 32). -/
def State.endTaken (t s : State) (c : ClaimIdx) : State := t.settleEvent.claimFirst s.cplq.length c

/-- DETACH (R133, R134): the directory is told, then the claim table, and the end condition is tested in the same event. -/
def State.doDetach (s : State) (q : Queued) : State :=
  if s.station = .attached then
    if s.port = .stalled then s.answer q .stalled
    else
      ((State.denyAllPeers { s with station := .detaching, lifeCmd := some q.ticket }).settleEvent).takenFirst
        s.cplq.length q.seq
  else s.answer q .badState

/-- An entry after RESUME: counts 0, and DUE if it was RETRY (R112). -/
def TxEntry.resumed (e : TxEntry) : TxEntry :=
  if e.st = .retry then { e with busy := 0, expiry := 0, st := .due false, retryTimer := .off }
  else { e with busy := 0, expiry := 0 }

/-- RESUME (R112, R167). -/
def State.doResume (s : State) (q : Queued) : State :=
  if s.port = .stalled then
    (State.mapPausable { s with port := .active, txq := s.txq.map TxEntry.resumed } .runOn).answer q .ok
  else s.answer q .badState

/-! ### Lease commands (R168 to R172) -/

/-- A claim other than FREE names the block (R44, R168). -/
def State.blockClaimed (s : State) (b : Block) : Bool :=
  claimIdxs.any fun c => (s.claim c).state != .free && (s.claim c).block == some b

/-- The lowest-numbered FREE claim. -/
def State.freeClaim (s : State) : Option ClaimIdx := claimIdxs.find? fun c => (s.claim c).state == .free

/-- The place in the pool of the lowest-numbered free borrow frame (R8). -/
def State.freeBorrowPlace (s : State) : Option Nat := s.borrow.findIdx? Option.isNone

/-- ACQUIRE of a block with a valid name and mode: checks 2 to 6, then the claim is taken (R168, R169). -/
def State.acquireBlock (s : State) (q : Queued) (b : Block) (mode : Mode) : State :=
  if b.home ≠ s.own ∧ s.station ≠ .attached then s.answer q .notAttached
  else if b.home = s.own ∧ s.homeCount ≤ b.index.toNat then s.answer q .noBlock
  else if s.blockClaimed b then s.answer q .duplicate
  else
    match s.freeClaim with
    | none => s.answer q .noClaim
    | some c =>
      if b.home = s.own then (s.takeClaim c b mode b.index.toNat q.ticket).endTaken s c
      else
        match s.freeBorrowPlace with
        | none => s.answer q .noFrame
        | some k =>
          (({ s with borrow := s.borrow.set k (some c) }).takeClaim c b mode (s.homeCount + k) q.ticket).endTaken s c

/-- ACQUIRE (R168). -/
def State.doAcquire (s : State) (q : Queued) : State :=
  match argStation q.record.argA, argBlockIndex q.record.argB, argMode q.record.argC with
  | some home, some n, some mode => s.acquireBlock q { home := home, index := n } mode
  | _, _, _ => s.answer q .badArgument

/-- UPGRADE (R53, R170). -/
def State.doUpgrade (s : State) (q : Queued) : State :=
  match argIndex32 q.record.argA with
  | none => s.answer q .badArgument
  | some c =>
    let cl := s.claim c
    if cl.state ≠ .held ∨ cl.held ≠ some .shared then s.answerClaim q .badState c
    else if !cl.homedAt s.own ∧ s.station ≠ .attached then s.answerClaim q .notAttached c
    else ((s.modClaim c fun cl => { cl with pendingCmd := some q.ticket }).claimAsk c .exclusive true).endTaken s c

/-- RELEASE (R65, R171). -/
def State.doRelease (s : State) (q : Queued) : State :=
  match argIndex32 q.record.argA with
  | none => s.answer q .badArgument
  | some c =>
    if (s.claim c).state = .held then
      ((s.modClaim c fun cl => { cl with pendingCmd := some q.ticket }).letGo c .release).endTaken s c
    else s.answerClaim q .badState c

/-- CANCEL (R54, R172). -/
def State.doCancel (s : State) (q : Queued) : State :=
  match argIndex32 q.record.argA with
  | none => s.answer q .badArgument
  | some c =>
    match (s.claim c).state with
    | .asking =>
      ((s.modClaim c fun cl => { cl with pendingCancel := some q.ticket }).giveUpAsk c .cancelled).endTaken s c
    | .filling => s.answerClaim q .tooLate c
    | _ => s.answerClaim q .badState c

/-! ### Window commands (R151, R152, R173, R174) -/

/-- The entry takes a new target and limit, or none; its fault record and item go, and the claim it referred to loses a
reference (R151, R152). -/
def State.setMapping (s : State) (e : EntryIdx) (m : Option (Target × Limit)) : State :=
  let old := s.window.get e
  let s := (s.setEntry e { mapping := m, fault := none }).removeItem (.entry e)
  match old.claim with
  | some c => s.dropReference c
  | none => s

/-- MAP (R151, R173). Refused BAD_STATE it carries the claim index its argument names; refused BAD_ARGUMENT it carries none, also
where that index is in range and the entry or the limit is not (DEDUCED, log 32). -/
def State.doMap (s : State) (q : Queued) : State :=
  match argIndex32 q.record.argA, argTargetIsClaim q.record.argB, argLimit q.record.argB with
  | some e, some false, some limit =>
    let f := q.record.argC
    if s.homeCount + s.borrowCount ≤ f ∧ f < s.frames then
      (s.setMapping e (some (.privateFrame f, limit))).answer q .ok
    else s.answer q .badArgument
  | some e, some true, some limit =>
    match argIndex32 q.record.argC with
    | none => s.answer q .badArgument
    | some c =>
      if (s.claim c).state = .free then s.answerClaim q .badState c
      else (s.setMapping e (some (.claim c, limit))).answerClaim q .ok c
  | _, _, _ => s.answer q .badArgument

/-- UNMAP (R152, R174). -/
def State.doUnmap (s : State) (q : Queued) : State :=
  match argIndex32 q.record.argA with
  | none => s.answer q .badArgument
  | some e => (s.setMapping e none).complete q.ticket .ok (s.window.get e).claim none none

/-! ### RESTORE and INSPECT (R36, R43, R73, R175, R176, R194) -/

/-- RESTORE (R36, R175). -/
def State.doRestore (s : State) (q : Queued) : State :=
  match argBlockIndex q.record.argA with
  | none => s.answer q .noBlock
  | some n =>
    match s.record? n with
    | none => s.answer q .noBlock
    | some r =>
      if r.state = .damaged then
        (s.setRecord n r.restored).complete q.ticket .ok none (some r.restored.gen) none
      else s.answer q .badState

def RecordState.code : RecordState → Nat
  | .atHome => 0
  | .shared => 1
  | .lent => 2
  | .sending => 3
  | .recalling => 4
  | .damaged => 5

/-- Summary byte A of a record (R194). -/
def DirRecord.byteA (r : DirRecord) : Byte := BitVec.ofNat 8 (r.state.code + 8 * r.queue.length)

/-- Summary byte B of a record (R194). -/
def DirRecord.byteB (r : DirRecord) : Byte :=
  match r.state, r.transfer, r.recalling with
  | .sending, some t, _ => BitVec.ofNat 8 (t.next + 64 * t.mode.code)
  | .recalling, _, some k => BitVec.ofNat 8 (k.awaiting.length + 16 * (k.sends - 1) + 64 * k.kind.code)
  | _, _, _ => 0

/-- Four bits for each station, the first lowest. -/
def packStations : List Station → Nat
  | [] => 0
  | p :: ps => p.val + 16 * packStations ps

/-- Result words 1 and 2 of a record: reader form, holder form, or 0 (R194). -/
def DirRecord.words (r : DirRecord) : Word × Word :=
  if r.readers.isEmpty then
    match r.holder, r.lost with
    | some h, _ => (BitVec.ofNat 32 (h.station.val + 256 * h.gen.toNat), 0)
    | none, some h => (BitVec.ofNat 32 (h.station.val + 256 * h.gen.toNat), 0)
    | none, none => (0, 0)
  else
    let names := (r.readers.map (·.station)).take 15
    (BitVec.ofNat 32 (packStations (names.take 8)),
      BitVec.ofNat 32 (packStations (names.drop 8) + 2 ^ 28 * (r.readers.length - 1)))

/-- INSPECT with selector BLOCK (R43); any other selector but CLAIM is refused (R176). -/
def State.doInspectBlock (s : State) (q : Queued) : State :=
  if q.record.argA = 1 then
    match (argBlockIndex q.record.argB).bind s.record? with
    | none => s.answer q .noBlock
    | some r =>
      s.writeCompletion
        { ticket := q.ticket, status := .ok, claim := none, gen := some r.gen, byteA := r.byteA, byteB := r.byteB,
          word1 := some r.words.1, word2 := some r.words.2 }
  else s.answer q .badArgument

def ClaimState.code : ClaimState → Nat
  | .free => 0
  | .asking => 1
  | .withdrawing => 2
  | .filling => 3
  | .held => 4
  | .dropping => 5
  | .returning => 6
  | .demoting => 7
  | .ended => 8

def EndReason.code : EndReason → Nat
  | .released => 1
  | .revoked => 2
  | .lost => 3
  | .homeAbsent => 4
  | .cancelled => 5
  | .timedOut => 6
  | .denied => 7

def modeCode (m : Option Mode) : Nat := (m.map Mode.code).getD 0

/-- 1 or 0. -/
def bit (b : Bool) : Nat := if b then 1 else 0

/-- Summary byte A of a claim (R194). -/
def Claim.byteA (c : Claim) : Byte := BitVec.ofNat 8 (c.state.code + 16 * c.use.toNat)

/-- Summary byte B of a claim (R194). -/
def Claim.byteB (c : Claim) : Byte :=
  BitVec.ofNat 8 (modeCode c.held + 4 * modeCode c.sought + 16 * bit c.holdRunning
    + 32 * ((c.deferred.map (·.1.code)).getD 0) + 128 * bit c.askStanding)

/-- Result word 1 of a claim (R194). -/
def Claim.word1 (c : Claim) : Word :=
  BitVec.ofNat 32 (((c.block.map fun b => b.index.toNat + 256 * b.home.val).getD 0)
    + 2 ^ 12 * bit c.block.isSome + 2 ^ 13 * bit c.gen.isSome + 2 ^ 14 * bit c.frame.isSome
    + 2 ^ 16 * c.frame.getD 0 + 2 ^ 28 * ((c.endReason.map EndReason.code).getD 0))

/-- Result word 2 of a claim whose reference count is `refs` (R194). -/
def Claim.word2 (c : Claim) (refs : Nat) : Word :=
  BitVec.ofNat 32 (c.received.length + 2 ^ 8 * c.dirty.length + 2 ^ 16 * refs)

/-- INSPECT with selector CLAIM (R73, R176). -/
def State.doInspectClaim (s : State) (q : Queued) : State :=
  match argIndex32 q.record.argB with
  | none => s.answer q .badArgument
  | some c =>
    let cl := s.claim c
    s.writeCompletion
      { ticket := q.ticket, status := .ok, claim := some c, gen := cl.gen, byteA := cl.byteA, byteB := cl.byteB,
        word1 := some cl.word1, word2 := some (cl.word2 (s.refCount c)) }

/-- A code that is none of the twelve (R161, step 2). -/
def State.doUnknown (s : State) (q : Queued) : State := s.answer q .badArgument

/-! ### The rows and the taking of whatever stands at the head -/

/-- The head has code `k` (R192). -/
def isCode (k : Nat) (r : CommandRecord) : Bool := r.code.toNat == k

/-- INSPECT whose selector is not CLAIM, and whose selector is CLAIM (log 23). -/
def isInspectBlock (r : CommandRecord) : Bool := isCode 12 r && r.argA != 2
def isInspectClaim (r : CommandRecord) : Bool := isCode 12 r && r.argA == 2

/-- The code is none of the twelve. -/
def isUnknown (r : CommandRecord) : Bool := isCode 0 r || 12 < r.code.toNat

/-- A command already removed from the queue is acted on (R161). -/
def State.runCommand (s : State) (q : Queued) : State :=
  match q.record.code.toNat with
  | 1 => s.doStart q
  | 2 => s.ifStarted q State.doAttach
  | 3 => s.ifStarted q State.doDetach
  | 4 => s.ifStarted q State.doResume
  | 5 => s.ifStarted q State.doAcquire
  | 6 => s.ifStarted q State.doUpgrade
  | 7 => s.ifStarted q State.doRelease
  | 8 => s.ifStarted q State.doCancel
  | 9 => s.ifStarted q State.doMap
  | 10 => s.ifStarted q State.doUnmap
  | 11 => s.ifStarted q State.doRestore
  | 12 => s.ifStarted q (if isInspectClaim q.record then State.doInspectClaim else State.doInspectBlock)
  | _ => s.doUnknown q

/-- Commands are taken for as long as the reservation lets them (R160; log 9). -/
def State.takeLoop : Nat → State → State
  | 0, s => s
  | k + 1, s =>
    match s.takeable with
    | some q => State.takeLoop k (s.removeHead.runCommand q).settleEvent
    | none => s

/-- Each taking empties a place of a queue of at most 16. -/
def State.takeAll (s : State) : State := State.takeLoop s.cmdq.length s

/-- The row of one command: the head is taken if it is that command and can be taken, else nothing happens (log 8, 9). -/
def State.takeRow (s : State) (row : CommandRecord → Bool) (act : State → Queued → State) : State :=
  match s.takeable with
  | some q => if row q.record then (act s.removeHead q).settleEvent else s
  | none => s

/-- START at the head of the queue is taken. -/
def execStart (s : State) : Host.Outcome State Fault Refusal := .next (s.takeRow (isCode 1) State.doStart)

/-- ATTACH at the head of the queue is taken. -/
def execAttach (s : State) : Host.Outcome State Fault Refusal :=
  .next (s.takeRow (isCode 2) fun s q => s.ifStarted q State.doAttach)

/-- DETACH at the head of the queue is taken. -/
def execDetach (s : State) : Host.Outcome State Fault Refusal :=
  .next (s.takeRow (isCode 3) fun s q => s.ifStarted q State.doDetach)

/-- RESUME at the head of the queue is taken. -/
def execResume (s : State) : Host.Outcome State Fault Refusal :=
  .next (s.takeRow (isCode 4) fun s q => s.ifStarted q State.doResume)

/-- ACQUIRE at the head of the queue is taken. -/
def execAcquire (s : State) : Host.Outcome State Fault Refusal :=
  .next (s.takeRow (isCode 5) fun s q => s.ifStarted q State.doAcquire)

/-- UPGRADE at the head of the queue is taken. -/
def execUpgrade (s : State) : Host.Outcome State Fault Refusal :=
  .next (s.takeRow (isCode 6) fun s q => s.ifStarted q State.doUpgrade)

/-- RELEASE at the head of the queue is taken. -/
def execRelease (s : State) : Host.Outcome State Fault Refusal :=
  .next (s.takeRow (isCode 7) fun s q => s.ifStarted q State.doRelease)

/-- CANCEL at the head of the queue is taken. -/
def execCancel (s : State) : Host.Outcome State Fault Refusal :=
  .next (s.takeRow (isCode 8) fun s q => s.ifStarted q State.doCancel)

/-- MAP at the head of the queue is taken. -/
def execMap (s : State) : Host.Outcome State Fault Refusal :=
  .next (s.takeRow (isCode 9) fun s q => s.ifStarted q State.doMap)

/-- UNMAP at the head of the queue is taken. -/
def execUnmap (s : State) : Host.Outcome State Fault Refusal :=
  .next (s.takeRow (isCode 10) fun s q => s.ifStarted q State.doUnmap)

/-- RESTORE at the head of the queue is taken. -/
def execRestore (s : State) : Host.Outcome State Fault Refusal :=
  .next (s.takeRow (isCode 11) fun s q => s.ifStarted q State.doRestore)

/-- INSPECT with selector BLOCK, or with a selector that names nothing, at the head of the queue is taken. -/
def execInspectBlock (s : State) : Host.Outcome State Fault Refusal :=
  .next (s.takeRow isInspectBlock fun s q => s.ifStarted q State.doInspectBlock)

/-- INSPECT with selector CLAIM at the head of the queue is taken. -/
def execInspectClaim (s : State) : Host.Outcome State Fault Refusal :=
  .next (s.takeRow isInspectClaim fun s q => s.ifStarted q State.doInspectClaim)

/-- An unknown code at the head of the queue is taken. -/
def execUnknownCommand (s : State) : Host.Outcome State Fault Refusal := .next (s.takeRow isUnknown State.doUnknown)

end Sys2Proof.Machine
end

