-- ==== Sys2Proof/Machine/Expiries.lean ====
section
/-! DEFINITION. The expiries of the timers (R33, R49, R52, R58, R106, R107, R110). An expiry may come whenever its timer
runs (log 7). -/

namespace Sys2Proof.Machine

/-- The port enters STALLED (R110). -/
def State.enterStalled (s : State) : State :=
  (State.mapPausable { s with port := .stalled } .pause).notice .station (.station .stalled none)

/-- The return timer of entry `i` expires: DUE, and the eighth expiry in ACTIVE stalls the port (R107, R111). -/
def State.returnExpired (s : State) (i : Nat) (e : TxEntry) : State :=
  if s.port = .active then
    let s := { s with txq := s.txq.set i { e with st := .due true, expiry := e.expiry + 1, returnTimer := .off } }
    if Config.expiryLimit ≤ e.expiry + 1 then s.enterStalled else s
  else { s with txq := s.txq.set i { e with st := .due true, returnTimer := .off } }

/-- RETURN_TIMER_EXPIRY of the entry at place `entry` (R107). -/
def execReturnTimerExpiry (entry : Fin 16) (s : State) : Host.Outcome State Fault Refusal :=
  .next (match s.txq[entry.val]? with
    | some e => if e.st = .circulating ∧ e.returnTimer.mode = .running then s.returnExpired entry.val e else s
    | none => s)

/-- RETRY_TIMER_EXPIRY of the entry at place `entry`: DUE (R106). -/
def execRetryTimerExpiry (entry : Fin 16) (s : State) : Host.Outcome State Fault Refusal :=
  .next (match s.txq[entry.val]? with
    | some e =>
      if e.st = .retry ∧ e.retryTimer.mode = .running then
        { s with txq := s.txq.set entry.val { e with st := .due false, retryTimer := .off } }
      else s
    | none => s)

/-- RECALL_TIMER_EXPIRY of record `block` (R33). -/
def execRecallTimerExpiry (block : Byte) (s : State) : Host.Outcome State Fault Refusal :=
  .next (s.recallExpired block).settleEvent

/-- WAIT_TIMER_EXPIRY of a claim (R52). -/
def execWaitTimerExpiry (claim : ClaimIdx) (s : State) : Host.Outcome State Fault Refusal :=
  .next (s.waitExpired claim).settleEvent

/-- REASK_TIMER_EXPIRY of a claim (R49). -/
def execReaskTimerExpiry (claim : ClaimIdx) (s : State) : Host.Outcome State Fault Refusal :=
  .next (s.reaskExpired claim).settleEvent

/-- HOLD_TIMER_EXPIRY of a claim (R58). -/
def execHoldTimerExpiry (claim : ClaimIdx) (s : State) : Host.Outcome State Fault Refusal :=
  .next (s.holdExpired claim).settleEvent

/-! ### The 1 µs time base -/

/-- One µs passes: every running timer counts (log 7). -/
def State.tick (s : State) : State :=
  { s with
    records := s.records.map fun r =>
      { r with recalling := r.recalling.map fun k => { k with timer := k.timer.tick s.recallLimit } },
    claims := s.claims.map fun c =>
      { c with hold := c.hold.tick s.holdLimit, wait := c.wait.tick s.waitLimit, reask := c.reask.tick s.retryLimit },
    txq := s.txq.map fun e =>
      { e with returnTimer := e.returnTimer.tick Config.returnLimit, retryTimer := e.retryTimer.tick s.retryLimit } }

end Sys2Proof.Machine
end

