-- ==== Sys2Proof/Machine/FrameRows.lean ====
section
/-! DEFINITION. The head of the receive queue handed onward (R88, R109, R129), one row for each kind of frame. -/

namespace Sys2Proof.Machine

/-- The head of the receive queue, if it may be handed onward: an entry is free, the hand-over list is empty, and no frame
is held for the self probe (R109, R122). -/
def State.handable (s : State) : Option RxEntry :=
  if s.canHandOnward && s.heldFrame.isNone then s.rx.head? else none

/-- The head leaves the queue; it is held while the self probe has no outcome, else handled (R109, R122). -/
def State.handOnward (s : State) (e : RxEntry) : State :=
  let s := { s with rx := s.rx.tail }
  if s.probeOutstanding then { s with heldFrame := some e } else (s.handleFrame e).settleEvent

/-- The row of one kind: the head is handed onward if it is of that kind, else nothing happens (log 8). -/
def State.handRow (s : State) (row : Frame → Bool) : State :=
  match s.handable with
  | some e => if row e.frame then s.handOnward e else s
  | none => s

/-- The kind byte is `k` (R190). -/
def isKind (k : Byte) (f : Frame) : Bool := f.kind == k

/-- The block home byte names this station (R88; log 23). -/
def State.isHomeHere (s : State) (f : Frame) : Bool := f.home.toNat == s.own.val

/-- ANNOUNCE (R131): no effect after its peer checks. -/
def execAnnounce (s : State) : Host.Outcome State Fault Refusal := .next (s.handRow (isKind 1))

/-- ASK (R20). -/
def execAsk (s : State) : Host.Outcome State Fault Refusal := .next (s.handRow (isKind 2))

/-- WITHDRAW (R37). -/
def execWithdraw (s : State) : Host.Outcome State Fault Refusal := .next (s.handRow (isKind 3))

/-- WITHDRAWN (R55). -/
def execWithdrawn (s : State) : Host.Outcome State Fault Refusal := .next (s.handRow (isKind 4))

/-- GRANT (R47). -/
def execGrant (s : State) : Host.Outcome State Fault Refusal := .next (s.handRow (isKind 5))

/-- DENY (R50). -/
def execDeny (s : State) : Host.Outcome State Fault Refusal := .next (s.handRow (isKind 6))

/-- CHUNK of a block of this station (R28). -/
def execChunkAtHome (s : State) : Host.Outcome State Fault Refusal :=
  .next (s.handRow fun f => isKind 7 f && s.isHomeHere f)

/-- CHUNK of any other block (R48). -/
def execChunkAtClaim (s : State) : Host.Outcome State Fault Refusal :=
  .next (s.handRow fun f => isKind 7 f && !s.isHomeHere f)

/-- RECALL (R57). -/
def execRecall (s : State) : Host.Outcome State Fault Refusal := .next (s.handRow (isKind 8))

/-- DROPPED (R27). -/
def execDropped (s : State) : Host.Outcome State Fault Refusal := .next (s.handRow (isKind 9))

/-- RETURNED (R29). -/
def execReturned (s : State) : Host.Outcome State Fault Refusal := .next (s.handRow (isKind 10))

/-- NOT_HELD (R87). -/
def execNotHeld (s : State) : Host.Outcome State Fault Refusal := .next (s.handRow (isKind 11))

/-- A frame whose kind byte is 0 or above 11: the peer checks, then discarded at validation (R190). -/
def execUnknownKindFrame (s : State) : Host.Outcome State Fault Refusal :=
  .next (s.handRow fun f => f.kind == 0 || 11 < f.kind.toNat)

end Sys2Proof.Machine
end

