-- ==== Sys2Proof/Machine/RegisterWrites.lean ====
section
/-! DEFINITION. Writes in the register window (R118, R157, R158, R178, R185, R188, R196 to R198). While RST# is held every
write is dropped (R198); a write with no byte enabled is ignored (R196). -/

namespace Sys2Proof.Machine

/-- The write has an effect: RST# is released and some byte is enabled. -/
def State.writeTaken (s : State) (lbe : BitVec 4) : Bool := !s.rstHeld && lbe != 0

/-! ### The command that a write spells (R196) -/

/-- The command of a write at register offset `4 × la` with some byte enabled. -/
def registerCommand (la : BitVec 6) (ld : Word) (lbe : BitVec 4) : Instr :=
  match la.toNat with
  | 0 => .cmdStage 0 ld lbe
  | 1 => .cmdStage 1 ld lbe
  | 2 => .cmdStage 2 ld lbe
  | 3 => .cmdStage 3 ld lbe
  | 4 => .post lbe
  | 12 => .pop lbe
  | 19 => .ack ld lbe
  | 20 => .intEnable ld lbe
  | 24 => .startRecordWrite 0 ld lbe
  | 25 => .startRecordWrite 1 ld lbe
  | 26 => .startRecordWrite 2 ld lbe
  | 27 => .startRecordWrite 3 ld lbe
  | 28 => .startRecordWrite 4 ld lbe
  | 29 => .startRecordWrite 5 ld lbe
  | 30 => .startRecordWrite 6 ld lbe
  | 31 => .startRecordWrite 7 ld lbe
  | 34 => .resetControl ld lbe
  | _ => .registerWriteIgnored la ld lbe

/-- The command that a write of `ld` with byte enables `lbe` spells, `la` being LA[7:2]: with no byte enabled it is ignored at
every offset. -/
def registerWrite (la : BitVec 6) (ld : Word) (lbe : BitVec 4) : Instr :=
  if lbe = 0 then .registerWriteIgnored la ld lbe else registerCommand la ld lbe

/-! ### The rows -/

/-- The staged record is appended, or refused when the queue is full (R158). -/
def State.post (s : State) : State :=
  if s.cmdq.length < Config.commandCapacity then
    { s with
      cmdq := s.cmdq ++ [{ record := s.staging, seq := s.seqNext }],
      seqNext := s.seqNext + 1,
      postResult := .accepted s.seqNext }
  else { s with postResult := .queueFull }

/-- POST (R158), and the taking it allows (R160). -/
def execPost (lbe : BitVec 4) (s : State) : Host.Outcome State Fault Refusal :=
  .next (if s.writeTaken lbe then s.post.takeAll else s)

/-- POP (R178), and the taking it allows (R160). -/
def execPop (lbe : BitVec 4) (s : State) : Host.Outcome State Fault Refusal :=
  .next (if s.writeTaken lbe then ({ s with cplq := s.cplq.tail }).takeAll else s)

/-- The head item, if the subject code names it, is removed; an ENTRY item re-arms its entry (R150, R185). -/
def State.ackSubject (s : State) (code : Nat) : State :=
  match s.attention with
  | [] => s
  | i :: rest =>
    if i.subject.code = code then
      let s := { s with attention := rest }
      match i.subject with
      | .entry e => s.setEntry e { s.window.get e with fault := none }
      | _ => s
    else s

/-- ACK: the subject is in bits 7:0, taken only with LBE[0] (R185, R196). -/
def execAck (ld : Word) (lbe : BitVec 4) (s : State) : Host.Outcome State Fault Refusal :=
  .next (if !s.rstHeld && lbe.getLsbD 0 then s.ackSubject (ld.extractLsb' 0 8).toNat else s)

/-- RESET_CONTROL: bit 0 requests a station reset, which is taken when the bus cycle ends (R198; log 26). -/
def execResetControl (ld : Word) (lbe : BitVec 4) (s : State) : Host.Outcome State Fault Refusal :=
  .next (if s.writeTaken lbe && ld.getLsbD 0 then { s with resetRequested := true } else s)

/-- INT_ENABLE: bit 0 the completion enable, bit 1 the attention enable (R188, R196). -/
def execIntEnable (ld : Word) (lbe : BitVec 4) (s : State) : Host.Outcome State Fault Refusal :=
  .next (if !s.rstHeld && lbe.getLsbD 0 then { s with cplEnable := ld.getLsbD 0, attEnable := ld.getLsbD 1 } else s)

/-- CMD_STAGE: the enabled bytes of one staging register are replaced (R157, R196). -/
def execCmdStage (reg : Fin 4) (ld : Word) (lbe : BitVec 4) (s : State) : Host.Outcome State Fault Refusal :=
  .next (if s.rstHeld then s
    else { s with staging := s.staging.set reg.val (mergeWord (s.staging.get reg) ld lbe) reg.isLt })

/-- START_RECORD_WRITE: the enabled bytes of bits 15:0 of one field are replaced, in UNCONFIGURED alone (R118, R197). -/
def execStartRecordWrite (field : Fin 8) (ld : Word) (lbe : BitVec 4) (s : State) : Host.Outcome State Fault Refusal :=
  .next (if !s.rstHeld && s.station == .unconfigured then
      { s with startRec := s.startRec.set field.val (mergeHalf (s.startRec.get field) ld lbe) field.isLt }
    else s)

/-- REGISTER_WRITE_IGNORED (R196). -/
def execRegisterWriteIgnored (_la : BitVec 6) (_ld : Word) (_lbe : BitVec 4) (s : State) :
    Host.Outcome State Fault Refusal :=
  .next s

end Sys2Proof.Machine
end

