-- ==== Sys2Proof/Machine/Resets.lean ====
section
/-! DEFINITION. The resets: power-on reset, station reset from RST# or from RESET_CONTROL, and the release of RST# (R1, R14,
R139, R198). -/

namespace Sys2Proof.Machine

/-! ### The frame-count straps (R1, R14) -/

/-- The straps are sampled: frames that leave the DRAM port's reach lose their content for good, frames that come into
reach have undefined content (log 6). -/
def State.sampleStraps (s : State) (fsel : BitVec 2) : State :=
  let epoch := fun b : Fin 4 => if s.straps.toNat < b.val then s.freeCount + 1 else s.dramEpoch.get b
  { s with
    straps := fsel,
    dram := s.dram.below (frameCountOf fsel * Config.frameBytes),
    dramEpoch := #v[epoch 0, epoch 1, epoch 2, epoch 3],
    freeCount := s.freeCount + 1 }

/-! ### What a station reset interrupts (R11, R14) -/

/-- One byte of a chunk write in progress: its new value, or as it was. -/
def interruptedByte (n : Nat) (m : Memory) (p : Nat × Byte) : Memory :=
  if Config.interruptedByteIsNew n p.1 then m.set p.1 p.2 else m

/-- The bytes of a payload with the addresses they go to. -/
def chunkCells (f : Nat) (c : ChunkIdx) (payload : List Byte) : List (Nat × Byte) :=
  (payload.take Config.chunkBytes).zipIdx.map fun p => (chunkAddr f c + p.2, p.1)

/-- The cells a window write stores: its enabled bytes at their offsets (R141). -/
def Access.cells (a : Access) (w : Word) : List (Nat × Byte) :=
  (enabledLanes a.lbe).map fun k => (dramAddr a.frame (a.word * 4 + k.val), lane w k.val)

def Memory.setCells (m : Memory) (cells : List (Nat × Byte)) : Memory := cells.foldl (fun m p => m.set p.1 p.2) m

/-- The lease an access is bound to has not ended since its check; an access to a private frame has none (R146). -/
def State.accessAlive (s : State) (a : Access) : Bool :=
  match a.owner with
  | none => true
  | some (c, use) => (s.claim c).live && (s.claim c).use == use

/-- DRAM after a reset numbered `n`: a chunk write in progress leaves each byte old or new (log 2), a granted window write
has happened in all its bytes or in none (log 3). -/
def State.interruptedDram (s : State) (n : Nat) : Memory :=
  match s.arbPort, s.moves, s.access with
  | some .ring, .write b f c _ _ :: _, _ =>
    (chunkCells f c ((s.inBuf.get b).getD [])).foldl (interruptedByte n) s.dram
  | some .window, _, some a =>
    match a.data with
    | some w =>
      if s.accessAlive a && Config.interruptedWriteLanded n then s.dram.setCells (a.cells w) else s.dram
    | none => s.dram
  | _, _, _ => s.dram

/-- The bus at the end of the access that the reset cut short: a read ends with free data (R11; log 3). -/
def State.interruptedBus (s : State) (n : Nat) : Option Word :=
  match s.access with
  | some a => match a.data with
    | none => some (Config.interruptedReadData n)
    | some _ => none
  | none => s.busRead

/-- Every block at its station reset value; DRAM, straps and the previous incarnation kept (R139, R198). -/
def State.stationResetValues (s : State) : State :=
  let n := s.freeCount + 1
  { State.reset with
    pending := s.pending, freeCount := n, busRead := s.interruptedBus n, straps := s.straps,
    dram := s.interruptedDram n, dramEpoch := s.dramEpoch, prevInc := s.prevInc }

/-! ### The rows -/

/-- POWER_ON_RESET: everything at its reset value, DRAM undefined anew, the straps sampled (R139). -/
def execPowerOnReset (fsel : BitVec 2) (s : State) : Host.Outcome State Fault Refusal :=
  .next { State.reset with
    pending := s.pending, straps := fsel, freeCount := s.freeCount + 1, dramEpoch := Vector.replicate 4 (s.freeCount + 1) }

/-- STATION_RESET: from RST# at its assertion, the straps to be sampled at its release (log 5); from RESET_CONTROL when the
write's bus cycle has ended, the straps sampled (log 26). -/
def execStationReset (cause : ResetCause) (fsel : BitVec 2) (s : State) : Host.Outcome State Fault Refusal :=
  match cause with
  | .pin => .next { s.stationResetValues with rstHeld := true }
  | .control => .next (if s.resetRequested then s.stationResetValues.sampleStraps fsel else s)

/-- RST_RELEASED: the straps are sampled and the station is UNCONFIGURED (R198). -/
def execRstReleased (fsel : BitVec 2) (s : State) : Host.Outcome State Fault Refusal :=
  .next (if s.rstHeld then { s.sampleStraps fsel with rstHeld := false } else s)

end Sys2Proof.Machine
end

