-- ==== Sys2Proof/Machine/RingPort.lean ====
section
/-! DEFINITION. The ring port's own events: a frame received, frames sent, the hand-over list and chunk offers (R93 to R105). -/

namespace Sys2Proof.Machine

/-! ### Forwarding (R95, R99) -/

/-- The bytes the forward buffer holds. -/
def State.forwardBytes (s : State) : Nat := (s.fwd.map Frame.size).sum

/-- A frame to be forwarded: its hop count rises by one, and it is discarded past 15 or for want of room. -/
def State.forward (s : State) (f : Frame) : State :=
  if 15 < f.hop.toNat + 1 ∨ Config.forwardCapacity < s.forwardBytes + f.size then s
  else { s with fwd := s.fwd ++ [{ f with hop := f.hop + 1 }] }

/-! ### Taking (R96, R108) -/

/-- A frame for this station with response NONE: taken into the receive queue, or answered BUSY. Either way it is forwarded. -/
def State.takeFrame (s : State) (f : Frame) : State :=
  let taken := { f with resp := 1 }
  if s.rx.length < Config.rxCapacity then
    if f.len = 1 then
      match s.freeInBuf with
      | some b =>
        State.forward
          { s.setInBuf b (some f.payload) with rx := s.rx ++ [{ frame := { f with payload := [] }, buf := some b }] } taken
      | none => s.forward { f with resp := 2 }
    else State.forward { s with rx := s.rx ++ [{ frame := f, buf := none }] } taken
  else s.forward { f with resp := 2 }

/-! ### Delivery outcomes (R104 to R106) -/

/-- Entry `i` leaves the queue with its buffer. -/
def State.removeEntry (s : State) (i : Nat) (e : TxEntry) : State :=
  State.releaseOut { s with txq := s.txq.eraseIdx i } e

/-- The block that handed the frame over learns that it was taken (R104). -/
def State.reportTaken (s : State) (e : TxEntry) : State :=
  match e.owner with
  | .directory => s.dirTaken e.dest e.msg
  | .claims (some (c, use)) => s.claimTaken c use e.msg
  | .claims none => s
  | .station => s.announceDone

/-- TAKEN: the block that handed the frame over learns of it, then the station controller (R104, R182). That of the self
probe sends the station off the ring (R124). -/
def State.outcomeTaken (s : State) (i : Nat) (e : TxEntry) : State :=
  let s := s.removeEntry i e
  if e.dest = s.own then s.leaveRing
  else (s.reportTaken e).peerTaken e.dest

/-- BUSY (R106). -/
def State.outcomeBusy (s : State) (i : Nat) (e : TxEntry) : State :=
  if e.busy < Config.busyLimit then
    { s with
      txq := s.txq.set i { e with st := .retry, busy := e.busy + 1, returnTimer := .off, retryTimer := .start } }
  else s.failAll e.dest .unresponsive []

/-- The response of the stripped copy is the outcome of entry `i` (R97). Response 3 counts as BUSY (R190). -/
def State.outcome (s : State) (i : Nat) (e : TxEntry) (resp : Fin 4) : State :=
  match resp with
  | 0 => s.failAll e.dest .absent []
  | 1 => s.outcomeTaken i e
  | _ => s.outcomeBusy i e

/-! ### Sorting (R94, R97, R98) -/

/-- An entry that waits for a copy equal to the returned frame (R97). -/
def State.awaits (s : State) (f : Frame) (e : TxEntry) : Bool :=
  (e.st == .circulating || e.st == .due true) && s.entryFrame e == { f with hop := 0, resp := 0 }

/-- An ANNOUNCE to this station's own number. -/
def State.isProbe (s : State) (f : Frame) : Bool := f.kind == 1 && f.dest.toNat == s.own.val

/-- A self probe of another station using this number: taken without entering the receive queue, and reported (R98). -/
def State.takeProbe (s : State) (f : Frame) : State := (s.forward { f with resp := 1 }).conflictReport f.inc

/-- This station's own probe is CIRCULATING or DUE (R98). -/
def State.probeOut (s : State) : Bool :=
  s.txq.any fun e => e.dest == s.own &&
    (e.st == .circulating || e.st == .due true || e.st == .due false)

/-- A frame that bears this station's number and incarnation: stripped, or another station's probe (R97, R98). -/
def State.strip (s : State) (f : Frame) : State :=
  match s.txq.findIdx? (s.awaits f) with
  | some i =>
    match s.txq[i]? with
    | some e => s.outcome i e (respCode f.resp)
    | none => s
  | none => if s.isProbe f && !s.probeOut then s.takeProbe f else s

/-- An intact frame is sorted (R94). -/
def State.sortFrame (s : State) (f : Frame) : State :=
  if f.src.toNat = s.own.val then
    if f.inc = s.inc then s.strip f
    else if s.isProbe f then s.takeProbe f
    else s.forward f
  else if f.dest.toNat = s.own.val then
    if respCode f.resp = 0 then s.takeFrame f else s.forward f
  else s.forward f

/-- FRAME_RECEIVED: a frame received whole is discarded if it is not intact, else sorted; in BYPASS it is not seen (R91, R93). -/
def execFrameReceived (bytes : List Byte) (s : State) : Host.Outcome State Fault Refusal :=
  .next (if s.port = .bypass then s
    else match parseFrame bytes with
      | some f => (s.sortFrame f).settleEvent
      | none => s)

/-! ### Sending (R99, R100, R103) -/

/-- FORWARD_SEND: the head of the forward buffer goes onto the idle outbound segment (R99). -/
def execForwardSend (outIdle : Bool) (s : State) : Host.Outcome State Fault Refusal :=
  .next (match s.fwd with
    | f :: rest => if outIdle && s.port != .bypass then { s with fwd := rest, rout := f.bytes } else s
    | [] => s)

/-- The entry is ready to send (R103). -/
def State.ready (s : State) (e : TxEntry) : Bool :=
  (e.st == .waiting && !s.marked e.dest) || e.st == .due true || e.st == .due false

/-- R100, the segments as the command gives them. -/
def State.mayStart (s : State) (outIdle inIdle : Bool) : Bool :=
  s.port == .active && s.fwd.isEmpty && outIdle && inIdle

/-- Entry `i` is sent: CIRCULATING, its return timer from zero (R103, R107). -/
def State.sendEntry (s : State) (i : Nat) : State :=
  match s.txq[i]? with
  | some e =>
    { s with
      txq := s.txq.set i { e with st := .circulating, returnTimer := .start, retryTimer := .off },
      rout := (s.entryFrame e).bytes }
  | none => s

/-- OWN_FRAME_SEND: the first ready entry in queue order is sent (R100, R103). -/
def execOwnFrameSend (outIdle inIdle : Bool) (s : State) : Host.Outcome State Fault Refusal :=
  .next (if s.mayStart outIdle inIdle then
      match s.txq.findIdx? s.ready with
      | some i => s.sendEntry i
      | none => s
    else s)

/-! ### The hand-over list and chunk offers (R101, R102) -/

/-- HANDOVER_ACCEPT: the head of the hand-over list becomes a WAITING entry (R101). -/
def execHandoverAccept (s : State) : Host.Outcome State Fault Refusal :=
  .next (match s.handover with
    | h :: rest =>
      if s.canAccept h.dest then
        State.settleEvent
          { s with handover := rest, txq := s.txq ++ [TxEntry.fresh h.dest h.msg h.owner none .waiting] }
      else s
    | [] => s)

/-- The port accepts a chunk: entry and buffer are reserved and the read move is raised (R102). The marker passes to the
block not served (log 15). -/
def State.acceptChunk (s : State) (dest : Station) (msg : Lease) (owner : Owner) (b : Fin 4) (frame : Nat) (c : ChunkIdx)
    (next : Offerer) : State :=
  let s := s.setOutBuf b .reading
  State.raiseMove
    { s with txq := s.txq ++ [TxEntry.fresh dest msg owner (some b) .reading], chunkTurn := next } (.read b frame c)

/-- The directory's chunk of record `n` is accepted (R24). -/
def State.acceptDirChunk (s : State) (n : Nat) (b : Fin 4) : State :=
  match s.records[n]? with
  | some r =>
    match r.transfer with
    | some t =>
      let c : ChunkIdx := Fin.ofNat 32 t.next
      (s.acceptChunk t.target (.chunk (s.ownBlock (BitVec.ofNat 8 n)) r.gen c) .directory b n c .claims).dirAccepted n
    | none => s
  | none => s

/-- The claim table's chunk of claim `c` is accepted (R62). -/
def State.acceptClaimChunk (s : State) (c : ClaimIdx) (b : Fin 4) : State :=
  let cl := s.claim c
  match cl.block, cl.gen, cl.frame, cl.ret with
  | some blk, some g, some f, some r =>
    match r.todo with
    | i :: _ =>
      (s.acceptChunk blk.home (.chunk blk g i) (.claims (some (c, cl.use))) b f i .directory).claimAccepted c
    | [] => s
  | _, _, _, _ => s

/-- The block whose offer is accepted: by the turn marker if both offer (R102). -/
def State.servedOfferer (s : State) : Option Offerer :=
  match s.dirOffer, s.claimOffer with
  | some _, some _ => some s.chunkTurn
  | some _, none => some .directory
  | none, some _ => some .claims
  | none, none => none

/-- The conditions on which the port accepts an offer (R102), with the buffer it reserves. -/
def State.chunkRoom (s : State) : Option (Fin 4) :=
  if s.handover.isEmpty && s.txq.length < Config.txCapacity && s.port != .bypass then s.freeOutBuf else none

/-- CHUNK_OFFER_ACCEPT (R102). -/
def execChunkOfferAccept (s : State) : Host.Outcome State Fault Refusal :=
  .next (match s.chunkRoom, s.servedOfferer with
    | some b, some .directory => ((s.dirOffer.map fun n => s.acceptDirChunk n b).getD s).settleEvent
    | some b, some .claims => ((s.claimOffer.map fun n => s.acceptClaimChunk (Fin.ofNat 32 n) b).getD s).settleEvent
    | _, _ => s)

end Sys2Proof.Machine
end

