-- ==== Sys2Proof/Machine/WindowUnit.lean ====
section
/-! DEFINITION. The processor window and the DRAM grants: the check of an access, the grant that carries it out, and the ends of
chunk moves (R10 to R13, R141 to R149). -/

namespace Sys2Proof.Machine

/-! ### The access check (R142 to R144) -/

/-- A READ through an entry that names the claim: the fault, or none if it is allowed (R143). -/
def Claim.readFault (c : Claim) : Option FaultKind :=
  match c.state, c.held with
  | .held, _ => none
  | .demoting, _ => none
  | .asking, some _ => none
  | .withdrawing, some _ => none
  | .asking, none => some .notReady
  | .withdrawing, none => some .notReady
  | .filling, _ => some .notReady
  | .dropping, _ => some .leaseEnded
  | .returning, _ => some .leaseEnded
  | .ended, _ => some .leaseEnded
  | .free, _ => some .leaseEnded

/-- A WRITE through a READ_WRITE entry that names the claim: the fault, or none if it is allowed (R144). -/
def Claim.writeFault (c : Claim) : Option FaultKind :=
  match c.state, c.held with
  | .held, some .exclusive => none
  | .held, _ => some .sharedOnly
  | .asking, some _ => some .sharedOnly
  | .withdrawing, some _ => some .sharedOnly
  | .demoting, _ => some .leaseBusy
  | .asking, none => some .notReady
  | .withdrawing, none => some .notReady
  | .filling, _ => some .notReady
  | .dropping, _ => some .leaseEnded
  | .returning, _ => some .leaseEnded
  | .ended, _ => some .leaseEnded
  | .free, _ => some .leaseEnded

/-- What the check of an access at an entry that is not FAULTED answers: a fault kind, or the frame and the use it is bound
to (R142, R145, R146). -/
def State.checkAccess (s : State) (e : Entry) (write : Bool) : FaultKind ⊕ (Nat × Option (ClaimIdx × UseNum)) :=
  match e.mapping with
  | none => .inl .unmapped
  | some (target, limit) =>
    if write && limit == .readOnly then .inl .writeLimit
    else
      match target with
      | .privateFrame f => .inr (f, none)
      | .claim c =>
        let cl := s.claim c
        match (if write then cl.writeFault else cl.readFault) with
        | some k => .inl k
        | none => .inr (cl.frame.getD 0, some (c, cl.use))

/-- A refused or dropped access ends at once: a read returns all ones, a write is dropped (R148). -/
def State.endAtOnce (s : State) (lwr : Bool) : State := { s with busRead := if lwr then none else some allOnes }

/-- The first refusal of an entry: it enters FAULTED and its item is appended (R148, R150). -/
def State.refuseAccess (s : State) (e : EntryIdx) (f : FaultRecord) : State :=
  ((s.setEntry e { s.window.get e with fault := some f }).notice (.entry e) (.entry f)).endAtOnce f.write

/-- An allowed access waits on the arbiter, bound to its frame and its claim's use (R146). -/
def State.startAccess (s : State) (a : Access) : State := State.arbStart { s with access := some a }

/-- An access with some byte enabled is checked and refused, or left waiting (R142, R149). -/
def State.takeAccess (s : State) (la : BitVec 16) (lbe : BitVec 4) (ld : Word) (lwr : Bool) : State :=
  let e := accessEntry la
  let entry := s.window.get e
  if entry.fault.isSome then s.endAtOnce lwr
  else
    match s.checkAccess entry lwr with
    | .inl kind =>
      s.refuseAccess e { kind := kind, offset := accessOffset la lbe, write := lwr, width := accessWidth lbe }
    | .inr (frame, owner) =>
      s.startAccess
        { frame := frame, owner := owner, word := accessWord la, lbe := lbe, data := if lwr then some ld else none }

/-- WINDOW_ACCESS (R141, R142). An access with no byte enabled, or while RST# is held, ends at once (R141, R198); none can
be taken while another waits (R155; log 22). -/
def execWindowAccess (la : BitVec 16) (lbe : BitVec 4) (ld : Word) (lwr : Bool) (s : State) :
    Host.Outcome State Fault Refusal :=
  .next (if s.access.isSome then s
    else if s.rstHeld || lbe == 0 then s.endAtOnce lwr
    else s.takeAccess la lbe ld lwr)

/-! ### The grant of an access (R11, R146, R147) -/

/-- Lane `k` of a read: its DRAM byte if enabled, else all ones (R141). -/
def State.readLane (s : State) (a : Access) (k : Nat) : Byte :=
  if a.lbe.getLsbD k then s.readByte (dramAddr a.frame (a.word * 4 + k)) else BitVec.allOnes 8

/-- What a granted read returns. -/
def State.readAccess (s : State) (a : Access) : Word :=
  ofLanes (s.readLane a 0) (s.readLane a 1) (s.readLane a 2) (s.readLane a 3)

/-- The chunk the access lies in (R2). -/
def Access.chunk (a : Access) : ChunkIdx := chunkOfOffset (a.word * 4)

/-- The claim records the chunk it has been written in: HELD EXCLUSIVE, or a return that waits for this write (R147). -/
def Claim.marked (cl : Claim) (own : Station) (c : ChunkIdx) : Claim :=
  if !cl.homedAt own &&
      ((cl.state == .held && cl.held == some .exclusive)
        || ((cl.state == .returning || cl.state == .demoting) && cl.ret.any (!·.fixed))) then
    { cl with dirty := ChunkSet.insert c cl.dirty }
  else cl

/-- A granted write: its bytes go to DRAM, its chunk is marked, and a return that waited for it goes on (R62, R146, R147). -/
def State.writeAccess (s : State) (a : Access) (w : Word) : State :=
  let s := { s with dram := s.dram.setCells (a.cells w) }
  match a.owner with
  | none => s
  | some (c, _) => s.modClaim c fun cl => cl.marked s.own a.chunk

/-- The access is carried out, or dropped because its lease has ended (R146). -/
def State.carryOut (s : State) (a : Access) : State :=
  match a.data with
  | none => { s with busRead := some (if s.accessAlive a then s.readAccess a else allOnes) }
  | some w => State.endAtOnce (if s.accessAlive a then s.writeAccess a w else s) true

/-- The bus cycle ends and the arbiter goes on (R10, R11); a return that waited for the write fixes its dirty set (R62). -/
def State.endAccess (s : State) (a : Access) : State :=
  let s := State.arbEnd { s with access := none } .window
  match a.owner, a.data with
  | some (c, use), some _ => if (s.claim c).use = use then s.writeEnded c else s
  | _, _ => s

/-- WINDOW_GRANT: the grant of the window's access ends (R146). -/
def execWindowGrant (s : State) : Host.Outcome State Fault Refusal :=
  match s.arbPort, s.access with
  | some .window, some a =>
    if s.frames ≤ a.frame then .fault .dramBeyondReach else .next ((s.carryOut a).endAccess a).settleEvent
  | _, _ => .next s

/-! ### The ends of chunk moves (R12, R13) -/

/-- The head move leaves the list and the arbiter goes on. -/
def State.endMove (s : State) : State := State.arbEnd { s with moves := s.moves.tail } .ring

/-- The entry whose payload has been read becomes WAITING at the end of the queue order (R13, R102). -/
def State.entryRead (s : State) (b : Fin 4) : State :=
  let mine : TxEntry → Bool := fun e => e.st == .reading && e.buf == some b
  { s with
    txq := s.txq.filter (fun e => !mine e) ++ (s.txq.filter mine).map fun e => { e with st := .waiting } }

/-- The chunk is in its outgoing buffer; a read whose entry is gone has no effect (R105, R114). -/
def State.payloadRead (s : State) (b : Fin 4) (payload : List Byte) : State :=
  match s.outBuf.get b with
  | .reading => (s.setOutBuf b (.full payload)).entryRead b
  | .discarding => s.setOutBuf b .free
  | _ => s

/-- CHUNK_READ_MOVE_END: the granted chunk read ends. -/
def execChunkReadMoveEnd (s : State) : Host.Outcome State Fault Refusal :=
  match s.arbPort, s.moves with
  | some .ring, .read b f c :: _ =>
    if s.frames ≤ f then .fault .dramBeyondReach
    else .next ((s.payloadRead b (s.readChunk f c)).endMove).settleEvent
  | _, _ => .next s

/-- The completion of a chunk write is reported to the block that asked for it (R13). -/
def State.reportWrite (s : State) (asker : Asker) (c : ChunkIdx) : State :=
  match asker with
  | .home n p gen => s.homeWritten n p gen c
  | .claim k use gen => s.claimWritten k use gen c

/-- CHUNK_WRITE_MOVE_END: the granted chunk write ends. -/
def execChunkWriteMoveEnd (s : State) : Host.Outcome State Fault Refusal :=
  match s.arbPort, s.moves with
  | some .ring, .write b f c asker report :: _ =>
    if s.frames ≤ f then .fault .dramBeyondReach
    else
      let s := (((s.writeChunk f c ((s.inBuf.get b).getD [])).setInBuf b none)).endMove
      .next (if report then s.reportWrite asker c else s).settleEvent
  | _, _ => .next s

end Sys2Proof.Machine
end

