-- ==== Sys2Proof/Machine/Dispatch.lean ====
section
/-! DEFINITION. The meaning of every command: one arm for each constructor. -/

namespace Sys2Proof.Machine

def exec (i : Instr) (s : State) : Host.Outcome State Fault Refusal :=
  match i with
  | .powerOnReset fsel => Sys2Proof.Machine.execPowerOnReset fsel s
  | .stationReset cause fsel => Sys2Proof.Machine.execStationReset cause fsel s
  | .rstReleased fsel => Sys2Proof.Machine.execRstReleased fsel s
  | .post lbe => Sys2Proof.Machine.execPost lbe s
  | .pop lbe => Sys2Proof.Machine.execPop lbe s
  | .ack ld lbe => Sys2Proof.Machine.execAck ld lbe s
  | .resetControl ld lbe => Sys2Proof.Machine.execResetControl ld lbe s
  | .intEnable ld lbe => Sys2Proof.Machine.execIntEnable ld lbe s
  | .cmdStage reg ld lbe => Sys2Proof.Machine.execCmdStage reg ld lbe s
  | .startRecordWrite field ld lbe => Sys2Proof.Machine.execStartRecordWrite field ld lbe s
  | .registerWriteIgnored la ld lbe => Sys2Proof.Machine.execRegisterWriteIgnored la ld lbe s
  | .start => Sys2Proof.Machine.execStart s
  | .attach => Sys2Proof.Machine.execAttach s
  | .detach => Sys2Proof.Machine.execDetach s
  | .resume => Sys2Proof.Machine.execResume s
  | .acquire => Sys2Proof.Machine.execAcquire s
  | .upgrade => Sys2Proof.Machine.execUpgrade s
  | .release => Sys2Proof.Machine.execRelease s
  | .cancel => Sys2Proof.Machine.execCancel s
  | .map => Sys2Proof.Machine.execMap s
  | .unmap => Sys2Proof.Machine.execUnmap s
  | .restore => Sys2Proof.Machine.execRestore s
  | .inspectBlock => Sys2Proof.Machine.execInspectBlock s
  | .inspectClaim => Sys2Proof.Machine.execInspectClaim s
  | .unknownCommand => Sys2Proof.Machine.execUnknownCommand s
  | .windowAccess la lbe ld lwr => Sys2Proof.Machine.execWindowAccess la lbe ld lwr s
  | .windowGrant => Sys2Proof.Machine.execWindowGrant s
  | .chunkReadMoveEnd => Sys2Proof.Machine.execChunkReadMoveEnd s
  | .chunkWriteMoveEnd => Sys2Proof.Machine.execChunkWriteMoveEnd s
  | .frameReceived bytes => Sys2Proof.Machine.execFrameReceived bytes s
  | .forwardSend outIdle => Sys2Proof.Machine.execForwardSend outIdle s
  | .ownFrameSend outIdle inIdle => Sys2Proof.Machine.execOwnFrameSend outIdle inIdle s
  | .returnTimerExpiry entry => Sys2Proof.Machine.execReturnTimerExpiry entry s
  | .retryTimerExpiry entry => Sys2Proof.Machine.execRetryTimerExpiry entry s
  | .handoverAccept => Sys2Proof.Machine.execHandoverAccept s
  | .chunkOfferAccept => Sys2Proof.Machine.execChunkOfferAccept s
  | .recallTimerExpiry block => Sys2Proof.Machine.execRecallTimerExpiry block s
  | .waitTimerExpiry claim => Sys2Proof.Machine.execWaitTimerExpiry claim s
  | .reaskTimerExpiry claim => Sys2Proof.Machine.execReaskTimerExpiry claim s
  | .holdTimerExpiry claim => Sys2Proof.Machine.execHoldTimerExpiry claim s
  | .ask => Sys2Proof.Machine.execAsk s
  | .withdraw => Sys2Proof.Machine.execWithdraw s
  | .withdrawn => Sys2Proof.Machine.execWithdrawn s
  | .grant => Sys2Proof.Machine.execGrant s
  | .deny => Sys2Proof.Machine.execDeny s
  | .chunkAtHome => Sys2Proof.Machine.execChunkAtHome s
  | .chunkAtClaim => Sys2Proof.Machine.execChunkAtClaim s
  | .recallCopy => Sys2Proof.Machine.execRecall s
  | .dropped => Sys2Proof.Machine.execDropped s
  | .returned => Sys2Proof.Machine.execReturned s
  | .notHeld => Sys2Proof.Machine.execNotHeld s
  | .announce => Sys2Proof.Machine.execAnnounce s
  | .unknownKindFrame => Sys2Proof.Machine.execUnknownKindFrame s

end Sys2Proof.Machine
end

