-- ==== Sys2Proof/Machine/Registers.lean ====
section
/-! DEFINITION. What the register window shows: the word that a read of each register returns (R157, R178, R184, R188, R193 to
R198). A read changes nothing, so it is a view of the state and no command (log 22). -/

namespace Sys2Proof.Machine

/-! ### Codes -/

/-- R193. -/
def Status.code : Status → Nat
  | .ok => 0
  | .cancelled => 1
  | .timedOut => 2
  | .tooLate => 3
  | .homeAbsent => 4
  | .lost => 5
  | .damaged => 6
  | .noBlock => 7
  | .leaving => 8
  | .already => 9
  | .noClaim => 10
  | .noFrame => 11
  | .duplicate => 12
  | .badArgument => 13
  | .badState => 14
  | .notStarted => 15
  | .notAttached => 16
  | .badConfig => 17
  | .numberConflict => 18
  | .stalled => 19

/-- The status code that the head registers show with the queue empty (R193). -/
def emptyStatus : Nat := 31

/-- The subject code that the head registers show with the list empty (R195). -/
def emptySubject : Nat := 255

/-- R195. -/
def FaultKind.code : FaultKind → Nat
  | .unmapped => 1
  | .writeLimit => 2
  | .notReady => 3
  | .leaseEnded => 4
  | .sharedOnly => 5
  | .leaseBusy => 6

def ClaimReason.code : ClaimReason → Nat
  | .revoked => 1
  | .demoted => 2
  | .copyDropped => 3
  | .lost => 4

def PeerReason.code : PeerReason → Nat
  | .restarted => 1
  | .absent => 2
  | .present => 3

def StationReason.code : StationReason → Nat
  | .stalled => 1
  | .numberConflict => 2

def Notice.reasonCode : Notice → Nat
  | .entry f => f.kind.code
  | .claim r _ _ => r.code
  | .peer r _ => r.code
  | .station r _ => r.code

/-- R197. -/
def StationState.code : StationState → Nat
  | .unconfigured => 0
  | .joining => 1
  | .attached => 2
  | .detaching => 3
  | .detached => 4

def PortState.code : PortState → Nat
  | .bypass => 0
  | .active => 1
  | .stalled => 2

/-! ### The completion record (R193) -/

def Completion.word0 (c : Completion) : Word :=
  BitVec.ofNat 32 (c.ticket.seq.toNat + 2 ^ 8 * c.ticket.code.toNat + 2 ^ 13 * c.status.code
    + 2 ^ 18 * ((c.claim.map (·.val)).getD 63) + 2 ^ 24 * c.byteA.toNat)

def Completion.headWord1 (c : Completion) : Word :=
  BitVec.ofNat 32 (c.ticket.tag.toNat + 2 ^ 16 * ((c.gen.map (·.toNat)).getD 0) + 2 ^ 24 * c.byteB.toNat)

/-- CPL_HEAD0 to CPL_HEAD3. -/
def State.completionHead (s : State) (k : Nat) : Word :=
  match s.cplq with
  | [] => if k = 0 then BitVec.ofNat 32 (2 ^ 13 * emptyStatus) else 0
  | c :: _ =>
    match k with
    | 0 => c.word0
    | 1 => c.headWord1
    | 2 => c.word1.getD allOnes
    | _ => c.word2.getD allOnes

/-! ### The attention item (R195) -/

def Item.word0 (i : Item) : Word :=
  BitVec.ofNat 32 (i.subject.code + 2 ^ 8 * i.notice.reasonCode + 2 ^ 16 * bit i.replaced)

/-- Bits 7:0 incarnation, bit 8 incarnation present. -/
def incWord (inc : Option Byte) : Nat := ((inc.map (·.toNat)).getD 0) + 2 ^ 8 * bit inc.isSome

def Item.word1 (i : Item) : Word :=
  BitVec.ofNat 32 (match i.notice with
    | .entry f => f.offset
    | .claim _ use _ => use.toNat
    | .peer _ inc => incWord inc
    | .station _ inc => incWord inc)

def Item.word2 (i : Item) : Word :=
  BitVec.ofNat 32 (match i.notice with
    | .entry f => bit f.write + 2 ^ 8 * f.width
    | .claim _ _ b => (b.map fun b => b.index.toNat + 2 ^ 8 * b.home.val).getD 0
    | .peer _ _ => 0
    | .station _ _ => 0)

/-- ATT_HEAD0 to ATT_HEAD2. -/
def State.attentionHead (s : State) (k : Nat) : Word :=
  match s.attention with
  | [] => if k = 0 then BitVec.ofNat 32 emptySubject else 0
  | i :: _ =>
    match k with
    | 0 => i.word0
    | 1 => i.word1
    | _ => i.word2

/-! ### The other registers (R196, R197) -/

/-- POST_RESULT. -/
def State.postResultWord (s : State) : Word :=
  match s.postResult with
  | .none => 0
  | .accepted seq => BitVec.ofNat 32 (1 + 2 ^ 8 * seq.toNat)
  | .queueFull => 2

/-- INT_ENABLE. -/
def State.intEnableWord (s : State) : Word := BitVec.ofNat 32 (bit s.cplEnable + 2 * bit s.attEnable)

/-- INT_STATUS. -/
def State.intStatusWord (s : State) : Word :=
  BitVec.ofNat 32 (bit s.completionPending + 2 * bit s.attentionPending + 4 * bit s.intAsserted)

/-- STATION_STATUS. -/
def State.stationStatusWord (s : State) : Word := BitVec.ofNat 32 (s.station.code + 16 * s.port.code)

/-- PREV_INCARNATION. -/
def State.prevIncWord (s : State) : Word := BitVec.ofNat 32 (incWord s.prevInc)

/-- STRAPS. -/
def State.strapsWord (s : State) : Word := BitVec.ofNat 32 (s.straps.toNat + 2 ^ 16 * s.frames)

/-- The word at register offset `4 × la` (R196). -/
def State.registerWord (s : State) (la : BitVec 6) : Word :=
  match la.toNat with
  | 0 => s.staging.get 0
  | 1 => s.staging.get 1
  | 2 => s.staging.get 2
  | 3 => s.staging.get 3
  | 5 => s.postResultWord
  | 8 => s.completionHead 0
  | 9 => s.completionHead 1
  | 10 => s.completionHead 2
  | 11 => s.completionHead 3
  | 16 => s.attentionHead 0
  | 17 => s.attentionHead 1
  | 18 => s.attentionHead 2
  | 20 => s.intEnableWord
  | 21 => s.intStatusWord
  | 22 => s.stationStatusWord
  | 24 => (s.startRec.get 0).setWidth 32
  | 25 => (s.startRec.get 1).setWidth 32
  | 26 => (s.startRec.get 2).setWidth 32
  | 27 => (s.startRec.get 3).setWidth 32
  | 28 => (s.startRec.get 4).setWidth 32
  | 29 => (s.startRec.get 5).setWidth 32
  | 30 => (s.startRec.get 6).setWidth 32
  | 31 => (s.startRec.get 7).setWidth 32
  | 32 => s.prevIncWord
  | 33 => s.strapsWord
  | _ => 0

/-- What a read in the register window returns: all ones while RST# is held (R198). The whole word stands on the bus, also on
lanes whose byte enable is not asserted (DESIGN CHOICE, log 39). -/
def State.readRegister (s : State) (la : BitVec 6) : Word := if s.rstHeld then allOnes else s.registerWord la

end Sys2Proof.Machine
end

