-- ==== Sys2Proof/Safety.lean ====
section
/-! DEFINITION. What claims are made of: the part of the state that the exchanges between the blocks never touch, and the
properties of a state that every step keeps. -/

namespace Sys2Proof.Machine

/-! ### What the exchanges inside an event leave alone -/

/-- The state outside the exchanges between directory, claim table, ring port and station controller: buses and pins,
memory, the partition, the start record, the window, the software side of the command unit, and the enables. -/
structure Outside where
  pending : List Instr
  freeCount : Nat
  rstHeld : Bool
  resetRequested : Bool
  busRead : Option Word
  rout : List Byte
  straps : BitVec 2
  dram : Memory
  dramEpoch : Vector Nat 4
  homeCount : Nat
  borrowCount : Nat
  startRec : Vector (BitVec 16) 8
  window : Vector Entry 32
  access : Option Access
  staging : CommandRecord
  cmdq : List Queued
  seqNext : Byte
  postResult : PostResult
  cplEnable : Bool
  attEnable : Bool
deriving DecidableEq, Repr

def State.outside (s : State) : Outside :=
  { pending := s.pending, freeCount := s.freeCount, rstHeld := s.rstHeld, resetRequested := s.resetRequested,
    busRead := s.busRead, rout := s.rout, straps := s.straps, dram := s.dram, dramEpoch := s.dramEpoch,
    homeCount := s.homeCount, borrowCount := s.borrowCount, startRec := s.startRec, window := s.window,
    access := s.access, staging := s.staging, cmdq := s.cmdq, seqNext := s.seqNext, postResult := s.postResult,
    cplEnable := s.cplEnable, attEnable := s.attEnable }

/-! ### Properties that every step keeps -/

/-- No queue of the ring port or of the command unit holds more than it has room for (R99, R101, R108, R158). -/
def State.QueuesFit (s : State) : Prop :=
  s.txq.length ≤ Config.txCapacity ∧ s.handover.length ≤ Config.handoverCapacity ∧ s.rx.length ≤ Config.rxCapacity ∧
    s.cmdq.length ≤ Config.commandCapacity ∧ s.forwardBytes ≤ Config.forwardCapacity

/-- The attention list holds at most one item for each subject (R180). -/
def State.ItemsDistinct (s : State) : Prop := (s.attention.map (·.subject)).Nodup

/-- The attention list holds an item of the entry. -/
def State.entryListed (s : State) (e : EntryIdx) : Bool := s.attention.any fun i => i.subject == .entry e

/-- An entry is FAULTED exactly while the attention list holds an ENTRY item for it (R140). -/
def State.FaultsListed (s : State) : Prop := ∀ e : EntryIdx, (s.window.get e).fault.isSome = s.entryListed e

/-- The commands in flight that a claim has yet to complete (R45, R53, R54, R65). -/
def Claim.tickets (c : Claim) : Nat := bit c.pendingCmd.isSome + bit c.pendingCancel.isSome

/-- The commands in flight that a block has yet to complete: those of the claims and the life command (R161). -/
def State.tickets (s : State) : Nat := (claimIdxs.map fun c => (s.claim c).tickets).sum + bit s.lifeCmd.isSome

/-- The in-flight count covers what the blocks have yet to complete and `k` commands more, and with the completions it
stays within the reservation (R160). -/
def State.Reserved (s : State) (k : Nat) : Prop :=
  s.tickets + k ≤ s.inFlight ∧ s.inFlight + s.cplq.length ≤ Config.commandCapacity

/-- The outgoing buffer that a chunk read fills. -/
def Move.readBuf : Move → Option (Fin 4)
  | .read b _ _ => some b
  | .write _ _ _ _ _ => none

/-- The inbound buffer that a chunk write empties. -/
def Move.writeBuf : Move → Option (Fin 4)
  | .write b _ _ _ _ => some b
  | .read _ _ _ => none

/-- Each chunk read has an outgoing buffer of its own, reserved for it, and each transmit queue entry with a payload one of
its own, reserved while it is READING and full after (R12, R101, R102). -/
structure State.Outgoing (s : State) : Prop where
  reads : (s.moves.filterMap Move.readBuf).Nodup
  reserved : ∀ b ∈ s.moves.filterMap Move.readBuf, s.outBuf.get b = .reading ∨ s.outBuf.get b = .discarding
  entries : (s.txq.filterMap (·.buf)).Nodup
  reading : ∀ e ∈ s.txq, ∀ b, e.buf = some b → e.st = .reading → s.outBuf.get b = .reading
  filled : ∀ e ∈ s.txq, ∀ b, e.buf = some b → e.st ≠ .reading → ∃ p, s.outBuf.get b = .full p

/-- The inbound buffers in use: by chunk writes, by the frame held for the self probe, and by the receive queue. -/
def State.inUsers (s : State) : List (Fin 4) :=
  s.moves.filterMap Move.writeBuf ++ (s.heldFrame.toList ++ s.rx).filterMap (·.buf)

/-- Each inbound payload, those of `loose` included, has an inbound buffer of its own, and it is full (R12, R108). -/
structure State.Inbound (s : State) (loose : List (Fin 4)) : Prop where
  distinct : (loose ++ s.inUsers).Nodup
  occupied : ∀ b ∈ loose ++ s.inUsers, (s.inBuf.get b).isSome = true

/-- A sound state: the DRAM in its canonical form; no queue beyond its room, with the commands in flight and the completions
within the reservation (R160) and at most eight chunk moves on the list (R12); no subject listed twice; every FAULTED entry
listed and no other; and every payload in a buffer of its own. -/
structure State.Sound (s : State) : Prop where
  memory : Memory.wf s.dram = true
  queues : s.QueuesFit
  commands : s.Reserved 0
  moves : s.moves.length ≤ 8
  items : s.ItemsDistinct
  faults : s.FaultsListed
  outgoing : s.Outgoing
  inbound : s.Inbound []

/-- Nothing is left for the end of an event to do: no mail, no frame whose hold has ended, no teardown due and no detach
whose end condition holds. -/
def State.Quiet (s : State) : Prop :=
  s.mail = [] ∧ (s.heldFrame = none ∨ s.probeOutstanding = true) ∧ s.teardownDue = false ∧
    ¬ (s.station = .detaching ∧ s.detachDone = true)

/-- Every block but the processor buses, the straps, the DRAM and the previous incarnation at its reset value (R10, R12,
R15, R74, R116, R139, R156, R179, R189). -/
structure State.BlocksReset (t : State) : Prop where
  arbiter : t.arbPort = none ∧ t.arbTurn = .window ∧ t.moves = []
  partition : t.homeCount = 0 ∧ t.borrowCount = 0 ∧ t.borrow = []
  directory : t.records = []
  claims : ∀ c : ClaimIdx, t.claim c = .free 0
  port : t.port = .bypass ∧ t.byp = true ∧ t.txq = [] ∧ t.handover = [] ∧ t.fwd = [] ∧ t.rx = [] ∧
    t.chunkTurn = .directory
  buffers : ∀ b : Fin 4, t.outBuf.get b = .free ∧ t.inBuf.get b = none
  station : t.station = .unconfigured ∧ t.probeOutstanding = false ∧ t.announceAwaited = 0 ∧ t.lifeCmd = none ∧
    t.heldFrame = none
  startRecord : ∀ i : Fin 8, t.startRec.get i = 0
  peers : ∀ p : Station, t.peers.get p = .initial
  window : (∀ e : EntryIdx, t.window.get e = .empty) ∧ t.access = none
  commands : t.cmdq = [] ∧ t.cplq = [] ∧ t.inFlight = 0 ∧ t.seqNext = 0 ∧ t.postResult = .none
  staging : ∀ i : Fin 4, t.staging.get i = 0
  attention : t.attention = [] ∧ t.cplEnable = false ∧ t.attEnable = false ∧ t.intAsserted = false

/-! ### What is sent -/

/-- The sending side of `x` is that of `u`: the transmit queue, the hand-over list, the outgoing buffers, and what the blocks
still pass to each other (R40, R71, R101). -/
def State.SentAs (x u : State) : Prop :=
  x.txq = u.txq ∧ x.handover = u.handover ∧ x.outBuf = u.outBuf ∧ x.mail = u.mail

/-- One RECALL of kind `k` to each of `copies` in turn, with the generation of that copy (R31, R33). -/
def State.recallsTo (s : State) (n : Byte) (k : RecallKind) (copies : List Reader) : State :=
  copies.foldl (fun t d => t.dirSend d.station (.recallCopy (s.ownBlock n) d.gen k)) s

/-- The copies of record `r` that a recall of kind `k` demands back of the stations awaited (R31). -/
def DirRecord.copiesOf (r : DirRecord) (k : RecallKind) (awaiting : List Station) : List Reader :=
  (match k with
    | .drop => r.readers
    | _ => r.holder.toList.map fun h : Holder => { station := h.station, gen := h.gen }).filter fun d => awaiting.contains d.station

/-- Record `n` of `u` has been given the content `r`, what `sent` sends has been sent, and in `x` its head has been served, for as
long as the record is settled and has one (R21). -/
def State.ServedAs (u x : State) (n : Byte) (r : DirRecord) (sent : State) : Prop :=
  ∃ y : State, x = y.serve n ∧ y.record? n = some r ∧ (∀ m, m ≠ n → y.record? m = u.record? m) ∧ y.SentAs sent ∧
    y.claims = u.claims ∧ y.outside = u.outside

/-- A recall that awaits nobody is over, and with it the transfer part goes (R32). -/
def DirRecord.overIfDone (r : DirRecord) : DirRecord :=
  if r.recalling.any (·.awaiting.isEmpty) then { r with transfer := none, recalling := none } else r

/-- Record `r` once reader `p` has answered: out of the list and of the awaiting set, a transfer to it ended (R26, R27, R32). -/
def DirRecord.withoutReader (r : DirRecord) (p : Station) : DirRecord :=
  DirRecord.overIfDone { r with
    readers := r.readers.filter (·.station != p),
    transfer := r.transfer.filter (·.target != p),
    recalling := r.recalling.map fun k => { k with awaiting := k.awaiting.filter (· != p) } }

/-- The requests of a queue denied for one reason, head first (R34, R42). -/
def State.denials (s : State) (n : Byte) (reason : DenyReason) (queue : List Request) : State :=
  queue.foldl (fun t q => t.dirSend q.station (.deny (s.ownBlock n) reason q.tag)) s

/-- Record `r` as DAMAGED: its holder, if any, is the lost holder, and nothing waits or runs (R34). -/
def DirRecord.damaged (r : DirRecord) : DirRecord :=
  { r with lost := r.holder, holder := none, transfer := none, recalling := none, queue := [] }

/-- A claim that stood as `v` gives its EXCLUSIVE copy back in return `r` (R60, R61, R65, R66). -/
def Claim.returningAs (v : Claim) (kept : Bool) (cause : GiveCause) (r : Return) : Claim :=
  { v with state := if kept then .demoting else .returning, deferred := none, giving := some cause, ret := some r }

/-- Claim `c`, which stood as `v` in `s`, gives its SHARED copy up: a DROPPED to the home of `b`, another station (R59). -/
structure State.DropBegun (s x : State) (c : ClaimIdx) (v : Claim) (b : Block) (g : Byte) (cause : GiveCause) : Prop where
  claim : x.claim c = { v with state := .dropping, deferred := none, giving := some cause }
  sent : x.SentAs (s.handOver b.home (.dropped b g) (.claims (some (c, v.use))))

/-- Claim `c`, which stood as `v` in `s`, has begun its return to the home of `b`, another station (R62). While a write to it
that was allowed waits for its grant the dirty set stays open; else its chunks go on offer, or the RETURNED goes at once. -/
structure State.ReturnBegun (s x : State) (c : ClaimIdx) (v : Claim) (b : Block) (g : Byte) (kept : Bool)
    (cause : GiveCause) : Prop where
  waiting : (∃ a, s.access = some a ∧ a.data ≠ none ∧ a.owner = some (c, v.use)) →
    x.claim c = v.returningAs kept cause { kept := kept, fixed := false, count := 0, todo := [] } ∧ x.SentAs s ∧
      x.claimTurn = s.claimTurn.join c.val
  fixed : (¬ ∃ a, s.access = some a ∧ a.data ≠ none ∧ a.owner = some (c, v.use)) →
    x.claim c = v.returningAs kept cause { kept := kept, fixed := true, count := v.dirty.length, todo := v.dirty }
  offered : (¬ ∃ a, s.access = some a ∧ a.data ≠ none ∧ a.owner = some (c, v.use)) → v.dirty ≠ [] →
    x.SentAs s ∧ x.claimTurn = s.claimTurn.join c.val
  finished : (¬ ∃ a, s.access = some a ∧ a.data ≠ none ∧ a.owner = some (c, v.use)) → v.dirty = [] →
    x.SentAs (s.handOver b.home (.returned b g kept 0) (.claims (some (c, v.use))))

/-! ### Commands of the queue -/

/-- The rows that take the head of the command queue, with the commands that are theirs (R161, R192; log 23). -/
def commandRows : List (Instr × (CommandRecord → Bool)) :=
  [(.start, isCode 1), (.attach, isCode 2), (.detach, isCode 3), (.resume, isCode 4), (.acquire, isCode 5),
    (.upgrade, isCode 6), (.release, isCode 7), (.cancel, isCode 8), (.map, isCode 9), (.unmap, isCode 10),
    (.restore, isCode 11), (.inspectBlock, isInspectBlock), (.inspectClaim, isInspectClaim),
    (.unknownCommand, isUnknown)]

/-- What makes START check number `k` fail (R120). -/
def State.StartCheckFails (s : State) : Nat → Prop
  | 1 => 15 < s.startNumber
  | 2 => s.startIncarnation < 1 ∨ 255 < s.startIncarnation ∨ s.prevInc = some s.inc
  | 3 => 256 < s.startHome ∨ s.frames < s.startHome
  | 4 => 64 < s.startBorrow ∨ s.frames < s.startHome + s.startBorrow
  | 5 => 255 < s.startHold
  | 6 => s.startRecall < 1 ∨ 255 < s.startRecall ∨ s.startRecall * 10 ≤ s.startHold
  | 7 => 255 < s.startWait
  | 8 => s.startRetry < 1 ∨ 255 < s.startRetry
  | _ => False

/-! ### A frame handed onward -/

/-- The head `e` of the receive queue can be handed onward, no self probe is outstanding, and the frame, taken from `p`,
carries the message `m` (R88, R89, R109, R122). -/
structure State.Handing (s : State) (e : RxEntry) (p : Station) (m : Lease) : Prop where
  head : s.handable = some e
  probed : s.probeOutstanding = false
  source : sourceOf s.own e.frame.src = some p
  kind : e.frame.kind = m.kindCode
  message : decodeLease e.frame = some m

/-- The state in which the message is dispatched: the frame has left the queue, and the peer checks are made (R88, R129). -/
def State.afterChecks (s : State) (e : RxEntry) (p : Station) : State :=
  State.checked { s with rx := s.rx.tail } p e.frame.inc

end Sys2Proof.Machine
end

