-- ==== Sys2Proof/Certificates/Slice0/Obligations.lean ====
section
/-! DEFINITION. The statements for the provers. OBLIGATIONS.json lists them with the rules they rest on. An event's own effect
is a state `x`; the event then ends with `x.settleEvent`, which keeps everything in `x.outside`. -/

open Sys2Proof Sys2Proof.Machine

/-! ### The machine -/

/-- Step takes the command at the front of the queue and carries it out on the state with the queue's rest. -/
def Obligations.StepRunsFrontCommand : Prop :=
  ∀ (s : State) (c : Instr) (rest : List Instr), s.pending = c :: rest → step s = exec c { s with pending := rest }

/-- The model's choice (log 7): on an empty queue one µs passes, every running timer counts up to its limit, and nothing
else changes. -/
def Obligations.EmptyQueueStepCountsOneMicrosecond : Prop :=
  ∀ s : State, s.pending = [] → ∃ t : State, step s = .next t ∧
    (∀ c, t.claim c = { s.claim c with
      hold := (s.claim c).hold.tick s.holdLimit, wait := (s.claim c).wait.tick s.waitLimit,
      reask := (s.claim c).reask.tick s.retryLimit }) ∧
    t.txq = s.txq.map (fun e => { e with
      returnTimer := e.returnTimer.tick Config.returnLimit, retryTimer := e.retryTimer.tick s.retryLimit }) ∧
    t.records = s.records.map (fun r =>
      { r with recalling := r.recalling.map fun k => { k with timer := k.timer.tick s.recallLimit } }) ∧
    t = { s with claims := t.claims, txq := t.txq, records := t.records }

/-- The reset state is sound. -/
def Obligations.ResetStateIsSound : Prop := State.reset.Sound

/-- Soundness is kept by every step: the DRAM list stays canonical; the transmit queue, the hand-over list, the receive queue,
the command queue and the forward buffer hold no more than they have room for; the commands in flight cover what the blocks
have yet to complete, and with the completions stay within 16; at most eight chunk moves are listed; each payload has a buffer
of its own; no subject has two attention items; and an entry is FAULTED exactly while it is listed. -/
def Obligations.EveryStepKeepsSoundness : Prop := ∀ s t : State, s.Sound → step s = .next t → t.Sound

/-- No command is refused, and the one fault is a grant of the arbiter to a frame the DRAM port never addresses. -/
def Obligations.OnlyGrantsBeyondReachStop : Prop :=
  ∀ (i : Instr) (s : State),
    (∃ t : State, exec i s = .next t) ∨
      (exec i s = .fault .dramBeyondReach ∧
        ((i = .windowGrant ∧ s.arbPort = some .window ∧ ∃ a, s.access = some a ∧ s.frames ≤ a.frame) ∨
          (i = .chunkReadMoveEnd ∧ s.arbPort = some .ring ∧
            ∃ b f c rest, s.moves = .read b f c :: rest ∧ s.frames ≤ f) ∨
          (i = .chunkWriteMoveEnd ∧ s.arbPort = some .ring ∧
            ∃ b f c k r rest, s.moves = .write b f c k r :: rest ∧ s.frames ≤ f)))

/-- What the blocks still owe each other at the end of an event changes nothing in `outside`: no byte of DRAM, no register that
software writes, no window entry, no waiting access, and none of the inputs and buses listed there. The queues, the lists and
the outputs that show them may change. -/
def Obligations.EndOfEventKeepsOutside : Prop := ∀ s : State, s.settleEvent.outside = s.outside

/-- Every byte of DRAM reads as before unless the command is a reset or a grant of the arbiter that writes; each register that
software writes changes by its own write and by resets alone. -/
def Obligations.MemoryAndRegistersChangeByTheirCommandsAlone : Prop :=
  ∀ (i : Instr) (s t : State), exec i s = .next t →
    (∀ f, i ≠ .powerOnReset f) → (∀ c f, i ≠ .stationReset c f) → (∀ f, i ≠ .rstReleased f) →
    (i ≠ .windowGrant → i ≠ .chunkWriteMoveEnd → ∀ a, t.readByte a = s.readByte a) ∧
    ((∀ r d l, i ≠ .cmdStage r d l) → t.staging = s.staging) ∧
    ((∀ r d l, i ≠ .startRecordWrite r d l) → t.startRec = s.startRec) ∧
    ((∀ d l, i ≠ .intEnable d l) → t.cplEnable = s.cplEnable ∧ t.attEnable = s.attEnable) ∧
    ((∀ l, i ≠ .post l) → t.seqNext = s.seqNext ∧ t.postResult = s.postResult) ∧
    ((∀ d l, i ≠ .resetControl d l) → t.resetRequested = s.resetRequested) ∧
    t.straps = s.straps ∧ t.rstHeld = s.rstHeld

/-! ### Resets -/

/-- The reset state has every block at its reset value; a power-on reset reaches such a state from any other, samples the
straps, records no previous incarnation, and leaves every DRAM byte undefined: a free value (log 1). That RST# is not held and no
station reset is requested after it is the model's choice (log 24). -/
def Obligations.PowerOnResetRestoresResetValues : Prop :=
  (State.reset.BlocksReset ∧ State.reset.prevInc = none ∧ State.reset.dram = [] ∧ State.reset.pending = []) ∧
  ∀ (fsel : BitVec 2) (s : State), ∃ t : State, exec (.powerOnReset fsel) s = .next t ∧ t.BlocksReset ∧ t.prevInc = none ∧
    t.straps = fsel ∧ t.rstHeld = false ∧ t.resetRequested = false ∧ t.dram = [] ∧ t.pending = s.pending ∧
    ∀ a, t.readByte a = Config.undefinedByte (t.dramEpoch.get (bandOf a)) a

/-- A station reset puts every block at its reset value and keeps the previous incarnation; from RST# the straps wait for
the release, from a requested RESET_CONTROL they are sampled; unrequested, nothing happens (log 5, 26). After a RESET_CONTROL
reset the registers read 0 or EMPTY, but for PREV_INCARNATION, as before, and STRAPS, as sampled. -/
def Obligations.StationResetRestoresBlocks : Prop :=
  ∀ (fsel : BitVec 2) (s : State),
    (∃ t : State, exec (.stationReset .pin fsel) s = .next t ∧ t.BlocksReset ∧ t.prevInc = s.prevInc ∧ t.straps = s.straps ∧
      t.rstHeld = true ∧ t.pending = s.pending) ∧
    (s.resetRequested = true → ∃ t : State, exec (.stationReset .control fsel) s = .next t ∧ t.BlocksReset ∧
      t.prevInc = s.prevInc ∧ t.straps = fsel ∧ t.rstHeld = false ∧ t.resetRequested = false ∧ t.pending = s.pending ∧
      (∀ la ∈ ([0, 1, 2, 3, 5, 9, 10, 11, 17, 18, 20, 21, 22, 24, 25, 26, 27, 28, 29, 30, 31] : List (BitVec 6)),
        t.readRegister la = 0) ∧
      t.readRegister 8 = 0x3E000 ∧ t.readRegister 16 = 0xFF ∧
      (t.readRegister 32).extractLsb' 0 8 = s.prevInc.getD 0 ∧ (t.readRegister 32).getLsbD 8 = s.prevInc.isSome ∧
      (t.readRegister 33).extractLsb' 0 2 = fsel ∧ ((t.readRegister 33).extractLsb' 16 10).toNat = t.frames) ∧
    (s.resetRequested = false → exec (.stationReset .control fsel) s = .next s)

/-- A station reset keeps every DRAM byte within reach before and after it, unless it cuts a grant that writes: the arbiter is
idle, the granted window access is a read or has lost its lease, or the granted chunk move is a read. A window access that
waits or is granted leaves the bus, a read with data the model leaves free (log 3). -/
def Obligations.StationResetKeepsMemory : Prop :=
  ∀ (cause : ResetCause) (fsel : BitVec 2) (s t : State),
    exec (.stationReset cause fsel) s = .next t →
    (s.arbPort = none ∨ (s.arbPort = some .window ∧ ∀ a, s.access = some a → a.data = none ∨ s.accessAlive a = false) ∨
      (s.arbPort = some .ring ∧ ∀ b f c k r rest, s.moves ≠ .write b f c k r :: rest)) →
    (∀ a, a < s.frames * Config.frameBytes → a < t.frames * Config.frameBytes → t.readByte a = s.readByte a) ∧
    (cause = .pin ∨ s.resetRequested = true → t.access = none ∧ t.moves = [] ∧
      (∀ a, s.access = some a → t.busRead.isSome = a.data.isNone))

/-- A chunk write in progress at a station reset leaves every byte outside the chunk, and each byte of the chunk at its
old or its new value (log 2). A window write in progress whose lease stands has reached DRAM in all its enabled bytes or in
none, and no other byte changes (log 3). After a RESET_CONTROL reset this holds of the bytes within reach before and after. -/
def Obligations.InterruptedChunkWriteLeavesOldOrNewBytes : Prop :=
  (∀ (fsel : BitVec 2) (s t : State) (b : Fin 4) (f : Nat) (c : ChunkIdx) (k : Asker) (r : Bool) (rest : List Move)
    (payload : List Byte),
    s.arbPort = some .ring → s.moves = .write b f c k r :: rest → s.inBuf.get b = some payload →
    payload.length = Config.chunkBytes →
    (exec (.stationReset .pin fsel) s = .next t →
      (∀ a, a < chunkAddr f c ∨ chunkAddr f c + Config.chunkBytes ≤ a → t.readByte a = s.readByte a) ∧
      ∀ j, j < Config.chunkBytes → t.readByte (chunkAddr f c + j) = s.readByte (chunkAddr f c + j) ∨
        t.readByte (chunkAddr f c + j) = payload.getD j 0) ∧
    (exec (.stationReset .control fsel) s = .next t →
      ∀ a, a < s.frames * Config.frameBytes → a < t.frames * Config.frameBytes →
        (a < chunkAddr f c ∨ chunkAddr f c + Config.chunkBytes ≤ a → t.readByte a = s.readByte a) ∧
        ∀ j, j < Config.chunkBytes → a = chunkAddr f c + j →
          t.readByte a = s.readByte a ∨ t.readByte a = payload.getD j 0)) ∧
  ∀ (cause : ResetCause) (fsel : BitVec 2) (s t : State) (a : Access) (w : Word),
    s.arbPort = some .window → s.access = some a → a.data = some w → s.accessAlive a = true →
    exec (.stationReset cause fsel) s = .next t →
    (∀ d, d < s.frames * Config.frameBytes → d < t.frames * Config.frameBytes → t.readByte d = s.readByte d) ∨
    ∀ d, d < s.frames * Config.frameBytes → d < t.frames * Config.frameBytes →
      (∀ k, k < 4 → a.lbe.getLsbD k = true → d = dramAddr a.frame (a.word * 4 + k) → t.readByte d = lane w k) ∧
      ((∀ k, k < 4 → a.lbe.getLsbD k = true → d ≠ dramAddr a.frame (a.word * 4 + k)) → t.readByte d = s.readByte d)

/-- Release of RST# samples the straps: F is 64, 128, 256 or 512, and bytes within reach before and after are kept; STRAPS
then shows both. While RST# is held every register reads all ones (log 5). -/
def Obligations.RstReleaseSamplesStraps : Prop :=
  ∀ (fsel : BitVec 2) (s : State),
    (s.rstHeld = true → (∀ la, s.readRegister la = allOnes) ∧
      ∃ t : State, exec (.rstReleased fsel) s = .next t ∧ t.rstHeld = false ∧ t.straps = fsel ∧
      t.frames = (if fsel = 0 then 64 else if fsel = 1 then 128 else if fsel = 2 then 256 else 512) ∧
      t.station = s.station ∧ t.prevInc = s.prevInc ∧
      (∀ a, a < s.frames * Config.frameBytes → a < t.frames * Config.frameBytes → t.readByte a = s.readByte a) ∧
      (t.readRegister 33).extractLsb' 0 2 = fsel ∧ ((t.readRegister 33).extractLsb' 16 10).toNat = t.frames ∧
      t = { s with
        rstHeld := false, straps := fsel, dram := t.dram, dramEpoch := t.dramEpoch, freeCount := t.freeCount }) ∧
    (s.rstHeld = false → exec (.rstReleased fsel) s = .next s)

/-! ### Writes in the register window -/

/-- POST appends the staged record with the sequence counter's value, or answers QUEUE_FULL, and POST_RESULT reads so; the
post result, the counter and the staging registers stay as the POST left them. Commands are then taken while the reservation
lets them be: every command is one row's, and a head that can be taken is carried out as its row does, and the taking goes on
from there (all in the POST's event: log 9). -/
def Obligations.PostAppendsStagedRecord : Prop :=
  (∀ (lbe : BitVec 4) (s : State), s.rstHeld = false → lbe ≠ 0 →
    ∃ x : State, exec (.post lbe) s = .next x.takeAll ∧
      (s.cmdq.length < 16 → x = { s with
        cmdq := s.cmdq ++ [{ record := s.staging, seq := s.seqNext }], seqNext := s.seqNext + 1,
        postResult := .accepted s.seqNext }) ∧
      (16 ≤ s.cmdq.length → x = { s with postResult := .queueFull }) ∧
      x.takeAll.postResult = x.postResult ∧ x.takeAll.seqNext = x.seqNext ∧ x.takeAll.staging = s.staging ∧
      (s.cmdq.length < 16 → x.takeAll.readRegister 5 = BitVec.ofNat 32 (1 + 256 * s.seqNext.toNat)) ∧
      (16 ≤ s.cmdq.length → x.takeAll.readRegister 5 = 2) ∧
      (x.reservationOpen = false → x.takeAll = x)) ∧
  (∀ q : Queued, ∃ row ∈ commandRows, row.2 q.record = true) ∧
  ∀ x : State, (x.takeable = none → x.takeAll = x) ∧
    ∀ q, x.takeable = some q → ∀ row ∈ commandRows, row.2 q.record = true →
      ∃ y : State, exec row.1 x = .next y ∧ x.takeAll = y.takeAll

/-- POP removes the head completion and nothing else; commands are then taken while the reservation lets them be, each as its
row does (log 9). CPL_HEAD0 to CPL_HEAD3 show the head completion, an absent field as its absent code, and EMPTY with the
queue empty. -/
def Obligations.PopRemovesHeadCompletion : Prop :=
  (∀ (lbe : BitVec 4) (s : State), s.rstHeld = false → lbe ≠ 0 →
    ∃ x : State, exec (.pop lbe) s = .next x.takeAll ∧ x = { s with cplq := s.cplq.tail } ∧
      (s.cmdq = [] → x.takeAll = x) ∧ (x.reservationOpen = false → x.takeAll = x) ∧
      ∀ q, x.takeable = some q → ∀ row ∈ commandRows, row.2 q.record = true →
        ∃ y : State, exec row.1 x = .next y ∧ x.takeAll = y.takeAll) ∧
  (∀ s : State, s.rstHeld = false →
    (∀ c rest, s.cplq = c :: rest →
      (s.readRegister 8).extractLsb' 0 8 = c.ticket.seq ∧ (s.readRegister 8).extractLsb' 8 5 = c.ticket.code ∧
      ((s.readRegister 8).extractLsb' 13 5).toNat = c.status.code ∧
      ((s.readRegister 8).extractLsb' 18 6).toNat = ((c.claim.map (·.val)).getD 0x3F) ∧
      (s.readRegister 8).extractLsb' 24 8 = c.byteA ∧ (s.readRegister 9).extractLsb' 0 16 = c.ticket.tag ∧
      (s.readRegister 9).extractLsb' 16 8 = c.gen.getD 0 ∧ (s.readRegister 9).extractLsb' 24 8 = c.byteB ∧
      s.readRegister 10 = c.word1.getD 0xFFFFFFFF ∧ s.readRegister 11 = c.word2.getD 0xFFFFFFFF) ∧
    (s.cplq = [] → s.readRegister 8 = 0x3E000 ∧ s.readRegister 9 = 0 ∧ s.readRegister 10 = 0 ∧ s.readRegister 11 = 0)) ∧
  [Status.ok, .cancelled, .timedOut, .tooLate, .homeAbsent, .lost, .damaged, .noBlock, .leaving, .already, .noClaim, .noFrame,
    .duplicate, .badArgument, .badState, .notStarted, .notAttached, .badConfig, .numberConflict, .stalled].map Status.code =
    List.range 20

/-- A write to ACK removes the head item exactly when its subject is the one written; an ENTRY item re-arms its entry to
ACTIVE, or EMPTY if it has no target; every other item's removal affects nothing outside the list. -/
def Obligations.AckRemovesOnlyTheMatchingHead : Prop :=
  ∀ (ld : Word) (lbe : BitVec 4) (s : State), s.rstHeld = false → lbe.getLsbD 0 = true →
    (s.attention = [] → exec (.ack ld lbe) s = .next s) ∧
    ∀ i rest, s.attention = i :: rest →
      (i.subject.code ≠ (ld.extractLsb' 0 8).toNat → exec (.ack ld lbe) s = .next s) ∧
      (i.subject.code = (ld.extractLsb' 0 8).toNat →
        (∀ e, i.subject = .entry e → ∃ t : State, exec (.ack ld lbe) s = .next t ∧
          t = { s with attention := rest, window := t.window } ∧
          (t.window.get e).fault = none ∧ (t.window.get e).mapping = (s.window.get e).mapping ∧
          (t.window.get e).state = (if (s.window.get e).mapping.isSome then .active else .empty) ∧
          ∀ d, d ≠ e → t.window.get d = s.window.get d) ∧
        ((∀ e, i.subject ≠ .entry e) → exec (.ack ld lbe) s = .next { s with attention := rest }))

/-- A write to RESET_CONTROL requests a station reset exactly when bit 0 is set (log 26); a write to INT_ENABLE sets both
enables from bits 0 and 1 when its low byte is enabled; neither changes anything else. INT_ENABLE reads the enables,
INT_STATUS what is pending and the state of the line, and ATT_HEAD0 to ATT_HEAD2 the head item of the attention list. -/
def Obligations.ControlWritesSetTheirBits : Prop :=
  ∀ s : State, s.rstHeld = false →
    (∀ (ld : Word) (lbe : BitVec 4),
      (lbe ≠ 0 → ld.getLsbD 0 = true → exec (.resetControl ld lbe) s = .next { s with resetRequested := true }) ∧
      (lbe ≠ 0 → ld.getLsbD 0 = false → exec (.resetControl ld lbe) s = .next s) ∧
      (lbe.getLsbD 0 = true →
        exec (.intEnable ld lbe) s = .next { s with cplEnable := ld.getLsbD 0, attEnable := ld.getLsbD 1 }) ∧
      (lbe.getLsbD 0 = false → exec (.intEnable ld lbe) s = .next s)) ∧
    ((s.readRegister 20).getLsbD 0 = s.cplEnable ∧ (s.readRegister 20).getLsbD 1 = s.attEnable ∧
      (s.readRegister 20).extractLsb' 2 30 = 0) ∧
    ((s.readRegister 21).getLsbD 0 = !s.cplq.isEmpty ∧ (s.readRegister 21).getLsbD 1 = !s.attention.isEmpty ∧
      (s.readRegister 21).getLsbD 2 = s.intAsserted ∧ (s.readRegister 21).extractLsb' 3 29 = 0) ∧
    (s.attention = [] → s.readRegister 16 = 0xFF ∧ s.readRegister 17 = 0 ∧ s.readRegister 18 = 0) ∧
    ∀ i rest, s.attention = i :: rest →
      ((s.readRegister 16).extractLsb' 0 8).toNat = (match i.subject with
        | .entry e => e.val
        | .claim c => 32 + c.val
        | .peer p => 64 + p.val
        | .station => 80) ∧
      ((s.readRegister 16).extractLsb' 8 4).toNat = (match i.notice with
        | .entry f => match f.kind with
          | .unmapped => 1
          | .writeLimit => 2
          | .notReady => 3
          | .leaseEnded => 4
          | .sharedOnly => 5
          | .leaseBusy => 6
        | .claim r _ _ => match r with
          | .revoked => 1
          | .demoted => 2
          | .copyDropped => 3
          | .lost => 4
        | .peer r _ => match r with
          | .restarted => 1
          | .absent => 2
          | .present => 3
        | .station r _ => match r with
          | .stalled => 1
          | .numberConflict => 2) ∧
      (s.readRegister 16).getLsbD 16 = i.replaced ∧
      (∀ f, i.notice = .entry f → f.offset < 8192 → f.width ≤ 4 →
        ((s.readRegister 17).extractLsb' 0 13).toNat = f.offset ∧ (s.readRegister 18).getLsbD 0 = f.write ∧
        ((s.readRegister 18).extractLsb' 8 3).toNat = f.width) ∧
      (∀ r u b, i.notice = .claim r u b → (s.readRegister 17).extractLsb' 0 4 = u ∧
        ∀ blk, b = some blk → (s.readRegister 18).extractLsb' 0 8 = blk.index ∧
          ((s.readRegister 18).extractLsb' 8 4).toNat = blk.home.val) ∧
      ∀ inc, ((∃ r, i.notice = .peer r inc) ∨ ∃ r, i.notice = .station r inc) →
        (s.readRegister 17).extractLsb' 0 8 = inc.getD 0 ∧ (s.readRegister 17).getLsbD 8 = inc.isSome ∧
        s.readRegister 18 = 0

/-- INT# is asserted while the completion queue is not empty and the completion enable is set, or the attention list is
not empty and the attention enable is set, and it is released while neither holds. -/
def Obligations.InterruptLineFollowsQueuesAndEnables : Prop :=
  ∀ s : State, s.intAsserted = true ↔
    (s.cplq ≠ [] ∧ s.cplEnable = true) ∨ (s.attention ≠ [] ∧ s.attEnable = true)

/-- A write to a staging register, and in UNCONFIGURED one to a start record register, replaces its enabled bytes (of bits
15:0 in a start record register) and nothing else; in any other station state a start record write is ignored. A staging
register and a start record register read back what they hold, with bits 31:16 of the latter 0. -/
def Obligations.FieldWritesReplaceEnabledBytes : Prop :=
  (∀ (ld : Word) (lbe : BitVec 4) (s : State), s.rstHeld = false →
    (∀ reg : Fin 4, ∃ t : State, exec (.cmdStage reg ld lbe) s = .next t ∧ t = { s with staging := t.staging } ∧
      (∀ k, k < 4 → lane (t.staging.get reg) k =
        if lbe.getLsbD k then lane ld k else lane (s.staging.get reg) k) ∧
      ∀ r, r ≠ reg → t.staging.get r = s.staging.get r) ∧
    ∀ field : Fin 8,
      (s.station = .unconfigured → ∃ t : State, exec (.startRecordWrite field ld lbe) s = .next t ∧
        t = { s with startRec := t.startRec } ∧
        (∀ k, k < 2 → (t.startRec.get field).extractLsb' (8 * k) 8 =
          if lbe.getLsbD k then lane ld k else (s.startRec.get field).extractLsb' (8 * k) 8) ∧
        ∀ f, f ≠ field → t.startRec.get f = s.startRec.get f) ∧
      (s.station ≠ .unconfigured → exec (.startRecordWrite field ld lbe) s = .next s)) ∧
  ∀ s : State, s.rstHeld = false →
    (∀ reg : Fin 4, s.readRegister (BitVec.ofNat 6 reg.val) = s.staging.get reg) ∧
    ∀ field : Fin 8, s.readRegister (BitVec.ofNat 6 (24 + field.val)) = (s.startRec.get field).setWidth 32

/-- A write in the register window spells the command of its offset, and none at a read-only or unassigned offset or with no
byte enabled: such a write, and any register write while RST# is held, changes nothing. STATION_STATUS and PREV_INCARNATION
read the states and the incarnation recorded; the write-only and the unassigned offsets read 0. -/
def Obligations.IgnoredRegisterWritesChangeNothing : Prop :=
  (∀ (s : State) (la : BitVec 6) (r : Fin 4) (f : Fin 8) (ld : Word) (lbe : BitVec 4),
    exec (.registerWriteIgnored la ld lbe) s = .next s ∧
    (lbe = 0 ∨ s.rstHeld = true →
      exec (.post lbe) s = .next s ∧ exec (.pop lbe) s = .next s ∧ exec (.ack ld lbe) s = .next s ∧
      exec (.resetControl ld lbe) s = .next s ∧ exec (.intEnable ld lbe) s = .next s ∧
      exec (.cmdStage r ld lbe) s = .next s ∧ exec (.startRecordWrite f ld lbe) s = .next s)) ∧
  (∀ (ld : Word) (lbe : BitVec 4), lbe ≠ 0 →
    (∀ r : Fin 4, registerWrite (BitVec.ofNat 6 r.val) ld lbe = .cmdStage r ld lbe) ∧
    (∀ f : Fin 8, registerWrite (BitVec.ofNat 6 (24 + f.val)) ld lbe = .startRecordWrite f ld lbe) ∧
    registerWrite 4 ld lbe = .post lbe ∧ registerWrite 12 ld lbe = .pop lbe ∧ registerWrite 19 ld lbe = .ack ld lbe ∧
    registerWrite 20 ld lbe = .intEnable ld lbe ∧ registerWrite 34 ld lbe = .resetControl ld lbe ∧
    ∀ la ∉ ([0, 1, 2, 3, 4, 12, 19, 20, 24, 25, 26, 27, 28, 29, 30, 31, 34] : List (BitVec 6)),
      registerWrite la ld lbe = .registerWriteIgnored la ld lbe) ∧
  (∀ (la : BitVec 6) (ld : Word), registerWrite la ld 0 = .registerWriteIgnored la ld 0) ∧
  ∀ s : State, s.rstHeld = false →
    ((s.readRegister 22).extractLsb' 0 3).toNat = (match s.station with
      | .unconfigured => 0
      | .joining => 1
      | .attached => 2
      | .detaching => 3
      | .detached => 4) ∧
    ((s.readRegister 22).extractLsb' 4 2).toNat = (match s.port with
      | .bypass => 0
      | .active => 1
      | .stalled => 2) ∧
    (s.readRegister 32).extractLsb' 0 8 = s.prevInc.getD 0 ∧ (s.readRegister 32).getLsbD 8 = s.prevInc.isSome ∧
    ∀ la ∉ ([0, 1, 2, 3, 5, 8, 9, 10, 11, 16, 17, 18, 20, 21, 22, 24, 25, 26, 27, 28, 29, 30, 31, 32, 33] : List (BitVec 6)),
      s.readRegister la = 0

/-! ### Commands taken from the head of the command queue -/

/-- In UNCONFIGURED every command but START whose code is one of the twelve completes NOT_STARTED, whatever its arguments. An
INSPECT whose selector is not CLAIM is the row of a block (log 23). -/
def Obligations.UnconfiguredCommandsCompleteNotStarted : Prop :=
  ∀ (s : State) (q : Queued), s.takeable = some q → s.station = .unconfigured →
    (∀ i ∈ [(Instr.attach, isCode 2), (.detach, isCode 3), (.resume, isCode 4), (.acquire, isCode 5), (.upgrade, isCode 6),
        (.release, isCode 7), (.cancel, isCode 8), (.map, isCode 9), (.unmap, isCode 10), (.restore, isCode 11),
        (.inspectBlock, isInspectBlock), (.inspectClaim, isInspectClaim)],
      i.2 q.record = true → exec i.1 s = .next (s.removeHead.answer q .notStarted).settleEvent)

/-- A code that is none of the twelve completes BAD_ARGUMENT in the event it is taken, with its sequence number, code and
software tag and every other field absent. -/
def Obligations.UnknownCodeCompletesBadArgument : Prop :=
  ∀ (s : State) (q : Queued), s.takeable = some q → isUnknown q.record = true →
    ∃ x : State, exec .unknownCommand s = .next x.settleEvent ∧ x.cmdq = s.cmdq.tail ∧ x.inFlight = s.inFlight ∧
      x.cplq = s.cplq ++ [{
        ticket := { seq := q.seq, code := q.record.code, tag := q.record.softwareTag }, status := .badArgument,
        claim := none, gen := none, byteA := 0, byteB := 0, word1 := none, word2 := none }] ∧
      x = { s with cmdq := x.cmdq, cplq := x.cplq }

/-- The START checks pass exactly when every field is in its range and the fields agree with each other, with F and with
the previous incarnation; and the field named is the one whose check fails while every check before it passes. -/
def Obligations.StartChecksAreTheTableOfRanges : Prop :=
  ∀ s : State,
    (s.startFailure = none ↔
      s.startNumber ≤ 15 ∧ 1 ≤ s.startIncarnation ∧ s.startIncarnation ≤ 255 ∧ s.prevInc ≠ some s.inc ∧
      s.startHome ≤ 256 ∧ s.startHome ≤ s.frames ∧ s.startBorrow ≤ 64 ∧ s.startHome + s.startBorrow ≤ s.frames ∧
      s.startHold ≤ 255 ∧ 1 ≤ s.startRecall ∧ s.startRecall ≤ 255 ∧ s.startHold < s.startRecall * 10 ∧
      s.startWait ≤ 255 ∧ 1 ≤ s.startRetry ∧ s.startRetry ≤ 255) ∧
    ∀ k, s.startFailure = some k ↔ s.StartCheckFails k ∧ ∀ j, j < k → ¬ s.StartCheckFails j

/-- START whose checks pass enters JOINING: the partition, the records and the borrow pool are made, the port is ACTIVE, and
the self probe is its first frame. A failing check is named by its order number, and any other station state refuses it. -/
def Obligations.StartTakesEffect : Prop :=
  ∀ (s : State) (q : Queued), s.takeable = some q → isCode 1 q.record = true →
    (s.station = .unconfigured → s.startFailure = none → s.txq = [] → s.handover = [] →
      ∃ x : State, exec .start s = .next x.settleEvent ∧ x.station = .joining ∧ x.port = .active ∧
        x.homeCount = s.startHome ∧ x.borrowCount = s.startBorrow ∧
        x.records = List.replicate s.startHome .initial ∧ x.borrow = List.replicate s.startBorrow none ∧
        x.probeOutstanding = true ∧ x.announceAwaited = 0 ∧ x.prevInc = s.prevInc ∧ x.peers = s.peers ∧
        x.lifeCmd = some q.ticket ∧ x.txq = [TxEntry.fresh s.own .announce .station none .waiting] ∧
        x.cplq = s.cplq ∧ x.claims = s.claims ∧
        x.outside = { s.outside with homeCount := s.startHome, borrowCount := s.startBorrow, cmdq := s.cmdq.tail }) ∧
    (∀ k, s.station = .unconfigured → s.startFailure = some k →
      exec .start s = .next
        (s.removeHead.complete q.ticket .badConfig none none (some (BitVec.ofNat 32 k))).settleEvent) ∧
    (s.station ≠ .unconfigured → exec .start s = .next (s.removeHead.answer q .badState).settleEvent)

/-- ATTACH in DETACHED enters JOINING with the numbers in force and hands over the self probe; elsewhere past START it is
refused. -/
def Obligations.AttachEntersJoining : Prop :=
  ∀ (s : State) (q : Queued), s.takeable = some q → isCode 2 q.record = true → s.station ≠ .unconfigured →
    (s.station = .detached → s.txq = [] → s.handover = [] →
      ∃ x : State, exec .attach s = .next x.settleEvent ∧ x.station = .joining ∧ x.port = .active ∧
        x.probeOutstanding = true ∧ x.announceAwaited = 0 ∧ x.lifeCmd = some q.ticket ∧
        x.txq = [TxEntry.fresh s.own .announce .station none .waiting] ∧ x.records = s.records ∧ x.claims = s.claims ∧
        x.borrow = s.borrow ∧ x.prevInc = s.prevInc ∧ x.peers = s.peers ∧ x.cplq = s.cplq ∧
        x.outside = { s.outside with cmdq := s.cmdq.tail }) ∧
    (s.station ≠ .detached → exec .attach s = .next (s.removeHead.answer q .badState).settleEvent)

/-- DETACH in ATTACHED with the port not STALLED enters DETACHING: every peer's queued request is denied LEAVING and gone, and
the completions come in the order of log 32; with the port STALLED it completes STALLED, before START NOT_STARTED, elsewhere
BAD_STATE. In DETACHING the end of an event recalls each SHARED or LENT record that names a peer and has no request, then gives
up each remote claim ASKING or HELD, for as long as there is one (log 18): an upgrading claim with nothing standing is released
in its own turn. With none left and the end condition met, the detach ends: DETACHED, the port in BYPASS, every presence UNKNOWN,
the paused timers running on (log 16), and the life command OK. -/
def Obligations.DetachEntersDetaching : Prop :=
  (∀ (s : State) (q : Queued), s.takeable = some q → isCode 3 q.record = true →
    (s.station = .attached → s.port ≠ .stalled →
      ∃ x : State, exec .detach s = .next (x.settleEvent.takenFirst s.cplq.length q.seq).settleEvent ∧
        x.station = .detaching ∧ x.lifeCmd = some q.ticket ∧ x.claims = s.claims ∧ x.peers = s.peers ∧
        x.cplq = s.cplq ∧ x.outside = { s.outside with cmdq := s.cmdq.tail } ∧
        x.records.length = s.records.length ∧
        (∀ n r, x.record? n = some r → ∃ o : DirRecord, s.record? n = some o ∧
          r = { o with queue := o.queue.filter (·.station == s.own) }) ∧
        (s.records.length ≤ 256 → x.SentAs (s.recordIdxs.foldl (fun (t : State) (n : Byte) =>
          ((s.record? n).toList.flatMap fun r : DirRecord => r.queue.filter (·.station != s.own)).foldl
            (fun (t : State) (d : Request) => t.dirSend d.station (.deny (s.ownBlock n) .leaving d.tag)) t) s))) ∧
    (s.station = .attached → s.port = .stalled → exec .detach s = .next (s.removeHead.answer q .stalled).settleEvent) ∧
    (s.station ∈ [.joining, .detaching, .detached] →
      exec .detach s = .next (s.removeHead.answer q .badState).settleEvent) ∧
    (s.station = .unconfigured → exec .detach s = .next (s.removeHead.answer q .notStarted).settleEvent)) ∧
  (∀ (u : State) (n : Byte) (r : DirRecord), u.record? n = some r →
    (∀ h, r.state = .lent → r.queue = [] → r.holder = some h → h.station ≠ u.own →
      u.tearRecord n = u.beginRecall n .surrender [h.station]) ∧
    (r.state = .shared → r.queue = [] → (∃ d ∈ r.readers, d.station ≠ u.own) →
      u.tearRecord n = u.beginRecall n .drop ((r.readers.map (·.station)).filter (· != u.own))) ∧
    ((r.state ≠ .shared ∧ r.state ≠ .lent) ∨ r.queue ≠ [] ∨ r.namesPeer u.own = false → u.tearRecord n = u)) ∧
  (∀ (u : State) (c : ClaimIdx) (b : Block), (u.claim c).block = some b → b.home ≠ u.own →
    ((u.claim c).state = .asking → (u.claim c).askStanding = true →
      (u.tearClaim c).claim c = { u.claim c with state := .withdrawing, wait := .off, cause := some .cancelled } ∧
      (u.tearClaim c).SentAs (u.handOver b.home (.withdraw b { claim := c, use := (u.claim c).use })
        (.claims (some (c, (u.claim c).use))))) ∧
    (∀ k, (u.claim c).state = .asking → (u.claim c).askStanding = false → (u.claim c).pendingCmd = some k →
      (u.claim c).pendingCancel = none →
      (u.tearClaim c).cplq = u.cplq ++ [.plain k .cancelled (some c) none none] ∧
      ((u.claim c).held = none → ((u.tearClaim c).claim c).state = if u.refCount c = 0 then .free else .ended) ∧
      (∀ g, (u.claim c).held = some .shared → (u.claim c).gen = some g →
        u.DropBegun (u.tearClaim c) c { u.claim c with
          state := .held, sought := none, askStanding := false, wait := .off, reask := .off, cause := none,
          pendingCmd := none } b g .teardown)) ∧
    (∀ g, (u.claim c).state = .held → (u.claim c).gen = some g →
      ((u.claim c).held = some .shared → u.DropBegun (u.tearClaim c) c (u.claim c) b g .teardown) ∧
      ((u.claim c).held = some .exclusive → u.ReturnBegun (u.tearClaim c) c (u.claim c) b g false .teardown)) ∧
    ((u.claim c).state ≠ .asking → (u.claim c).state ≠ .held → u.tearClaim c = u)) ∧
  (∀ u : State, u.station = .detaching →
    (u.teardownDue = true ↔
      (∃ r ∈ u.records, (r.state = .shared ∨ r.state = .lent) ∧ r.queue = [] ∧ r.namesPeer u.own = true) ∨
      ∃ c, (u.claim c).homedAt u.own = false ∧ ((u.claim c).state = .asking ∨ (u.claim c).state = .held)) ∧
    (u.detachDone = true ↔
      (∀ r ∈ u.records, r.namesPeer u.own = false ∧ r.state ≠ .sending ∧ r.state ≠ .recalling) ∧
      (∀ c, (u.claim c).live = false ∨ (u.claim c).homedAt u.own = true) ∧
      u.txq = [] ∧ u.handover = [] ∧ u.rx = []) ∧
    (u.mail = [] → u.heldFrame = none →
      (u.teardownDue = true → u.settleEvent =
        ((State.teardownLoop 63 u.tearRecords.tearClaims.drain).testDetach).orderFrom u.cplq.length) ∧
      (u.teardownDue = false → u.detachDone = false → u.settleEvent = u) ∧
      (u.teardownDue = false → u.detachDone = true →
        u.settleEvent.station = .detached ∧ u.settleEvent.port = .bypass ∧ u.settleEvent.lifeCmd = none ∧
        u.settleEvent.txq = [] ∧ u.settleEvent.handover = [] ∧ u.settleEvent.rx = [] ∧ u.settleEvent.fwd = [] ∧
        (∀ p, u.settleEvent.peers.get p = { presence := .unknown, inc := (u.peers.get p).inc }) ∧
        u.settleEvent.records = (u.mapPausable .runOn).records ∧ u.settleEvent.claims = (u.mapPausable .runOn).claims ∧
        u.settleEvent.attention = u.attention ∧
        u.settleEvent.cplq = u.cplq ++ (u.lifeCmd.toList.map fun k => .plain k .ok none none none))))

/-- RESUME of a STALLED port: ACTIVE, counts 0, RETRY entries DUE, the paused timers running, completion OK; else BAD_STATE. -/
def Obligations.ResumeRestartsStalledPort : Prop :=
  ∀ (s : State) (q : Queued), s.takeable = some q → isCode 4 q.record = true → s.station ≠ .unconfigured →
    (s.port = .stalled → ∃ x : State, exec .resume s = .next x.settleEvent ∧ x.port = .active ∧
      x.txq.length = s.txq.length ∧
      (∀ (j : Nat) (e : TxEntry), s.txq[j]? = some e → ∃ d, x.txq[j]? = some d ∧ d.busy = 0 ∧ d.expiry = 0 ∧
        d.st = (if e.st = .retry then .due false else e.st) ∧ d.returnTimer = e.returnTimer ∧ d.msg = e.msg ∧
        d.dest = e.dest ∧ d.owner = e.owner ∧ d.buf = e.buf) ∧
      (∀ c, x.claim c = { s.claim c with wait := (s.claim c).wait.runOn, reask := (s.claim c).reask.runOn }) ∧
      x.records = s.records.map (fun r =>
        { r with recalling := r.recalling.map fun k => { k with timer := k.timer.runOn } }) ∧
      x.cplq = s.cplq ++ [.plain q.ticket .ok none none none] ∧ x.attention = s.attention ∧
      x.outside = { s.outside with cmdq := s.cmdq.tail }) ∧
    (s.port ≠ .stalled → exec .resume s = .next (s.removeHead.answer q .badState).settleEvent)

/-- ACQUIRE stops at the first of its six checks that fails, and completes with that check's status, naming no claim. -/
def Obligations.AcquireChecksInOrder : Prop :=
  ∀ (s : State) (q : Queued) (st : Status), s.takeable = some q → isCode 5 q.record = true → s.station ≠ .unconfigured →
    (((argStation q.record.argA = none ∨ argBlockIndex q.record.argB = none ∨ argMode q.record.argC = none) ∧
        st = .badArgument) ∨
      ∃ home n mode, argStation q.record.argA = some home ∧ argBlockIndex q.record.argB = some n ∧
        argMode q.record.argC = some mode ∧
        ((home ≠ s.own ∧ s.station ≠ .attached ∧ st = .notAttached) ∨
          (home = s.own ∧ s.homeCount ≤ n.toNat ∧ st = .noBlock) ∨
          ((home = s.own ∨ s.station = .attached) ∧ (home = s.own → n.toNat < s.homeCount) ∧
            ((s.blockClaimed { home := home, index := n } = true ∧ st = .duplicate) ∨
              (s.blockClaimed { home := home, index := n } = false ∧
                ((s.freeClaim = none ∧ st = .noClaim) ∨
                  (s.freeClaim ≠ none ∧ home ≠ s.own ∧ s.freeBorrowPlace = none ∧ st = .noFrame))))))) →
    exec .acquire s = .next (s.removeHead.answer q st).settleEvent

/-- ACQUIRE that passes its checks takes the lowest FREE claim at its next use number, with the home frame of an own block
or the lowest free borrow frame, and hands its home an ASK with the claim's tag; no other claim changes. What completes on the
claim in that event comes first (log 32). -/
def Obligations.AcquireTakesClaimAndAsks : Prop :=
  ∀ (s : State) (q : Queued) (home : Station) (n : Byte) (mode : Mode) (c : ClaimIdx),
    s.takeable = some q → isCode 5 q.record = true → s.station ≠ .unconfigured →
    argStation q.record.argA = some home → argBlockIndex q.record.argB = some n → argMode q.record.argC = some mode →
    s.blockClaimed { home := home, index := n } = false → s.freeClaim = some c →
    (home = s.own → n.toNat < s.homeCount) → (home ≠ s.own → s.station = .attached ∧ s.freeBorrowPlace ≠ none) →
    ∃ x : State, exec .acquire s = .next (x.settleEvent.claimFirst s.cplq.length c).settleEvent ∧
      (∃ frame, (home = s.own → frame = n.toNat ∧ x.borrow = s.borrow) ∧
        (home ≠ s.own → ∃ k, s.freeBorrowPlace = some k ∧ frame = s.homeCount + k ∧
          x.borrow = s.borrow.set k (some c)) ∧
        x.claim c = { Claim.free ((s.claim c).use + 1) with
          state := .asking, block := some { home := home, index := n }, sought := some mode, frame := some frame,
          askStanding := true, wait := s.startWaitTimer, pendingCmd := some q.ticket }) ∧
      (∀ d, d ≠ c → x.claim d = s.claim d) ∧ x.records = s.records ∧ x.cplq = s.cplq ∧
      x.inFlight = s.inFlight + 1 ∧
      (home = s.own → x.mail = s.mail ++
        [.toDirectory (.ask { home := home, index := n } mode { claim := c, use := (s.claim c).use + 1 })]) ∧
      (home ≠ s.own → x.SentAs (s.handOver home
        (.ask { home := home, index := n } mode { claim := c, use := (s.claim c).use + 1 })
        (.claims (some (c, (s.claim c).use + 1))))) ∧
      (home ≠ s.own → s.port ≠ .bypass → s.handover = [] → s.canAccept home = true →
        x.txq = s.txq ++ [TxEntry.fresh home
          (.ask { home := home, index := n } mode { claim := c, use := (s.claim c).use + 1 })
          (.claims (some (c, (s.claim c).use + 1))) none .waiting]) ∧
      x.outside = { s.outside with cmdq := s.cmdq.tail }

/-- UPGRADE of a claim HELD SHARED, remote ones in ATTACHED alone, sends its home an ASK for EXCLUSIVE with the claim's present
tag and keeps the copy; its checks fail in order with BAD_ARGUMENT, BAD_STATE and NOT_ATTACHED. -/
def Obligations.UpgradeAsksForExclusive : Prop :=
  ∀ (s : State) (q : Queued), s.takeable = some q → isCode 6 q.record = true → s.station ≠ .unconfigured →
    (argIndex32 q.record.argA = none → exec .upgrade s = .next (s.removeHead.answer q .badArgument).settleEvent) ∧
    ∀ c, argIndex32 q.record.argA = some c →
      ((s.claim c).state ≠ .held ∨ (s.claim c).held ≠ some .shared →
        exec .upgrade s = .next (s.removeHead.answerClaim q .badState c).settleEvent) ∧
      ((s.claim c).state = .held → (s.claim c).held = some .shared → (s.claim c).homedAt s.own = false →
        s.station ≠ .attached → exec .upgrade s = .next (s.removeHead.answerClaim q .notAttached c).settleEvent) ∧
      ((s.claim c).state = .held → (s.claim c).held = some .shared →
        ((s.claim c).homedAt s.own = true ∨ s.station = .attached) →
        ∃ x : State, exec .upgrade s = .next (x.settleEvent.claimFirst s.cplq.length c).settleEvent ∧
          x.claim c = { s.claim c with
            state := .asking, sought := some .exclusive, askStanding := true, wait := s.startWaitTimer, reask := .off,
            pendingCmd := some q.ticket } ∧
          (∀ d, d ≠ c → x.claim d = s.claim d) ∧ x.records = s.records ∧ x.cplq = s.cplq ∧
          (∀ b, (s.claim c).block = some b → b.home = s.own →
            x.mail = s.mail ++ [.toDirectory (.ask b .exclusive { claim := c, use := (s.claim c).use })]) ∧
          (∀ b, (s.claim c).block = some b → b.home ≠ s.own →
            x.SentAs (s.handOver b.home (.ask b .exclusive { claim := c, use := (s.claim c).use })
              (.claims (some (c, (s.claim c).use)))) ∧
            (s.port ≠ .bypass → s.handover = [] → s.canAccept b.home = true →
              x.txq = s.txq ++ [TxEntry.fresh b.home (.ask b .exclusive { claim := c, use := (s.claim c).use })
                (.claims (some (c, (s.claim c).use))) none .waiting])) ∧
          x.outside = { s.outside with cmdq := s.cmdq.tail })

/-- RELEASE of a HELD remote claim hands its home a DROPPED for a SHARED copy, or begins the return of an EXCLUSIVE one with
kept no, and a deferred recall is satisfied; of an own claim the directory is told, the lease ends in the event and RELEASE
completes OK; out of range and not HELD are refused. -/
def Obligations.ReleaseGivesTheCopyUp : Prop :=
  ∀ (s : State) (q : Queued), s.takeable = some q → isCode 7 q.record = true → s.station ≠ .unconfigured →
    (argIndex32 q.record.argA = none → exec .release s = .next (s.removeHead.answer q .badArgument).settleEvent) ∧
    ∀ c, argIndex32 q.record.argA = some c →
      ((s.claim c).state ≠ .held → exec .release s = .next (s.removeHead.answerClaim q .badState c).settleEvent) ∧
      (∀ b g m, (s.claim c).state = .held → (s.claim c).block = some b → (s.claim c).gen = some g →
        (s.claim c).held = some m →
        ∃ x : State, exec .release s = .next (x.settleEvent.claimFirst s.cplq.length c).settleEvent ∧ x.records = s.records ∧
          (∀ d, d ≠ c → x.claim d = s.claim d) ∧
          (b.home ≠ s.own →
            (m = .shared → s.DropBegun x c { s.claim c with pendingCmd := some q.ticket } b g .release) ∧
            (m = .exclusive → s.ReturnBegun x c { s.claim c with pendingCmd := some q.ticket } b g false .release) ∧
            x.cplq = s.cplq) ∧
          (b.home = s.own →
            (x.claim c).state = (if s.refCount c = 0 then .free else .ended) ∧
            (x.claim c).use = (s.claim c).use ∧ (x.claim c).held = none ∧
            (x.claim c).endReason = (if s.refCount c = 0 then none else some .released) ∧
            ((s.claim c).pendingCancel = none → x.cplq = s.cplq ++ [.plain q.ticket .ok (some c) none none]) ∧
            x.SentAs ((s.disown c).pushMail (.toDirectory (if m = .shared then .dropped b g else .returned b g false 0)))) ∧
          x.outside = { s.outside with cmdq := s.cmdq.tail })

/-- CANCEL by the state of the claim: a standing request is withdrawn by a WITHDRAW to its home, one waiting to be asked again
is given up at once, a fill is too late, and every other state is refused. -/
def Obligations.CancelActsByClaimState : Prop :=
  ∀ (s : State) (q : Queued), s.takeable = some q → isCode 8 q.record = true → s.station ≠ .unconfigured →
    (argIndex32 q.record.argA = none → exec .cancel s = .next (s.removeHead.answer q .badArgument).settleEvent) ∧
    ∀ c, argIndex32 q.record.argA = some c →
      ((s.claim c).state = .asking → (s.claim c).askStanding = true →
        ∃ x : State, exec .cancel s = .next (x.settleEvent.claimFirst s.cplq.length c).settleEvent ∧
          x.claim c = { s.claim c with
            state := .withdrawing, wait := .off, cause := some .cancelled, pendingCancel := some q.ticket } ∧
          (∀ b, (s.claim c).block = some b →
            (b.home ≠ s.own → x.SentAs (s.handOver b.home (.withdraw b { claim := c, use := (s.claim c).use })
              (.claims (some (c, (s.claim c).use))))) ∧
            (b.home = s.own →
              x.SentAs (s.pushMail (.toDirectory (.withdraw b { claim := c, use := (s.claim c).use }))))) ∧
          (∀ d, d ≠ c → x.claim d = s.claim d) ∧ x.records = s.records ∧ x.cplq = s.cplq ∧
          x.outside = { s.outside with cmdq := s.cmdq.tail }) ∧
      ((s.claim c).state = .asking → (s.claim c).askStanding = false →
        ∃ x : State, exec .cancel s = .next (x.settleEvent.claimFirst s.cplq.length c).settleEvent ∧
          (∀ d, d ≠ c → x.claim d = s.claim d) ∧ x.records = s.records ∧
          (∀ t, (s.claim c).pendingCmd = some t → x.cplq = s.cplq ++
            [.plain t .cancelled (some c) none none, .plain q.ticket .ok (some c) none none]) ∧
          ((s.claim c).held = none → (x.claim c).state = (if s.refCount c = 0 then .free else .ended) ∧
            x.SentAs (s.disown c)) ∧
          ((s.claim c).held ≠ none → (x.claim c).state = .held ∧ (x.claim c).held = (s.claim c).held ∧
            (x.claim c).sought = none ∧ (x.claim c).gen = (s.claim c).gen ∧ (x.claim c).hold = (s.claim c).hold ∧
            (x.claim c).deferred = (s.claim c).deferred ∧ x.SentAs s) ∧
          x.outside = { s.outside with cmdq := s.cmdq.tail }) ∧
      ((s.claim c).state = .filling → exec .cancel s = .next (s.removeHead.answerClaim q .tooLate c).settleEvent) ∧
      ((s.claim c).state ≠ .asking → (s.claim c).state ≠ .filling →
        exec .cancel s = .next (s.removeHead.answerClaim q .badState c).settleEvent)

/-- MAP that passes its checks makes the entry ACTIVE with the target and limit, without a fault record and without an ENTRY
item, completes OK with the claim it targets, and frees an ENDED claim that no entry names any more, with its CLAIM item; no
other entry and no other claim changes. A bad entry, limit, kind or claim index and a private frame that is not above the borrow
frames are BAD_ARGUMENT, without a claim; a FREE claim is BAD_STATE, with the claim (log 32). -/
def Obligations.MapSetsTheEntry : Prop :=
  ∀ (s : State) (q : Queued), s.takeable = some q → isCode 9 q.record = true → s.station ≠ .unconfigured →
    (∀ (e : EntryIdx) (limit : Limit) (g : Target), argIndex32 q.record.argA = some e →
      argLimit q.record.argB = some limit →
      ((∃ f, g = .privateFrame f ∧ argTargetIsClaim q.record.argB = some false ∧ q.record.argC = f ∧
          s.homeCount + s.borrowCount ≤ f ∧ f < s.frames) ∨
        ∃ c, g = .claim c ∧ argTargetIsClaim q.record.argB = some true ∧ argIndex32 q.record.argC = some c ∧
          (s.claim c).state ≠ .free) →
      ∃ x : State, exec .map s = .next x.settleEvent ∧
        x.outside = { s.outside with
          cmdq := s.cmdq.tail, window := s.window.set e.val { mapping := some (g, limit), fault := none } e.isLt } ∧
        x.cplq = s.cplq ++ [.plain q.ticket .ok
          (match g with
            | .claim c => some c
            | .privateFrame _ => none) none none] ∧
        (∀ i ∈ x.attention, i.subject ≠ .entry e) ∧
        (∀ c, (s.window.get e).claim = some c → (s.claim c).state = .ended → x.refCount c = 0 →
          x.claim c = .free (s.claim c).use ∧ ∀ i ∈ x.attention, i.subject ≠ .claim c) ∧
        (∀ c, (s.window.get e).claim ≠ some c ∨ (s.claim c).state ≠ .ended ∨ x.refCount c ≠ 0 →
          x.claim c = s.claim c)) ∧
    (argIndex32 q.record.argA = none ∨ argLimit q.record.argB = none ∨ argTargetIsClaim q.record.argB = none ∨
        (argTargetIsClaim q.record.argB = some false ∧
          (q.record.argC < s.homeCount + s.borrowCount ∨ s.frames ≤ q.record.argC)) ∨
        (argTargetIsClaim q.record.argB = some true ∧ argIndex32 q.record.argC = none) →
      exec .map s = .next (s.removeHead.answer q .badArgument).settleEvent) ∧
    ∀ c, argIndex32 q.record.argA ≠ none → argLimit q.record.argB ≠ none → argTargetIsClaim q.record.argB = some true →
      argIndex32 q.record.argC = some c → (s.claim c).state = .free →
      exec .map s = .next (s.removeHead.answerClaim q .badState c).settleEvent

/-- UNMAP of an entry outside 0 to 31 completes BAD_ARGUMENT; any other empties its entry whatever its state, completes OK
with the claim the entry named, and frees an ENDED claim that no other entry names, with its CLAIM item. -/
def Obligations.UnmapEmptiesTheEntry : Prop :=
  ∀ (s : State) (q : Queued), s.takeable = some q → isCode 10 q.record = true → s.station ≠ .unconfigured →
    (argIndex32 q.record.argA = none → exec .unmap s = .next (s.removeHead.answer q .badArgument).settleEvent) ∧
    ∀ e : EntryIdx, argIndex32 q.record.argA = some e →
    ∃ x : State, exec .unmap s = .next x.settleEvent ∧ x.window = s.window.set e.val .empty e.isLt ∧
      x.outside = { s.outside with cmdq := s.cmdq.tail, window := x.window } ∧
      x.cplq = s.cplq ++ [.plain q.ticket .ok (s.window.get e).claim none none] ∧
      (∀ i ∈ x.attention, i.subject ≠ .entry e) ∧
      (∀ c, (s.window.get e).claim ≠ some c → x.claim c = s.claim c) ∧
      (∀ c, (s.window.get e).claim = some c → (s.claim c).state = .ended → x.refCount c = 0 →
        x.claim c = .free (s.claim c).use ∧ ∀ i ∈ x.attention, i.subject ≠ .claim c) ∧
      (∀ c, (s.window.get e).claim = some c → (s.claim c).state ≠ .ended ∨ x.refCount c ≠ 0 → x.claim c = s.claim c)

/-- RESTORE of a DAMAGED record increments its generation, removes the lost holder and completes OK with the new
generation; an index of H or more is NO_BLOCK and any other state BAD_STATE. -/
def Obligations.RestoreRepairsDamagedRecord : Prop :=
  ∀ (s : State) (q : Queued), s.takeable = some q → isCode 11 q.record = true → s.station ≠ .unconfigured →
    ((argBlockIndex q.record.argA).bind s.record? = none →
      exec .restore s = .next (s.removeHead.answer q .noBlock).settleEvent) ∧
    ∀ n r, argBlockIndex q.record.argA = some n → s.record? n = some r →
      (r.state ≠ .damaged → exec .restore s = .next (s.removeHead.answer q .badState).settleEvent) ∧
      (r.state = .damaged → ∃ x : State, exec .restore s = .next x.settleEvent ∧
        x.records = s.records.set n.toNat { r with gen := r.gen + 1, lost := none } ∧
        x.cplq = s.cplq ++ [.plain q.ticket .ok none (some (r.gen + 1)) none] ∧ x.claims = s.claims ∧
        x.outside = { s.outside with cmdq := s.cmdq.tail })

/-- INSPECT of a block or a claim completes OK with the generation and the summary in its layout, and changes nothing else. A
block index of H or more is NO_BLOCK, a claim index above 31 BAD_ARGUMENT, and so is a selector that names neither, in the row
of a block (log 23). -/
def Obligations.InspectChangesNothing : Prop :=
  (∀ (s : State) (q : Queued), s.takeable = some q → s.station ≠ .unconfigured →
    (∀ n r, isInspectBlock q.record = true → q.record.argA = 1 → argBlockIndex q.record.argB = some n →
      s.record? n = some r →
      ∃ x : State, exec .inspectBlock s = .next x.settleEvent ∧ x = { s with cmdq := s.cmdq.tail, cplq := x.cplq } ∧
        x.cplq = s.cplq ++ [{
          ticket := q.ticket, status := .ok, claim := none, gen := some r.gen, byteA := r.byteA, byteB := r.byteB,
          word1 := some r.words.1, word2 := some r.words.2 }]) ∧
    (∀ c, isInspectClaim q.record = true → argIndex32 q.record.argB = some c →
      ∃ x : State, exec .inspectClaim s = .next x.settleEvent ∧ x = { s with cmdq := s.cmdq.tail, cplq := x.cplq } ∧
        x.cplq = s.cplq ++ [{
          ticket := q.ticket, status := .ok, claim := some c, gen := (s.claim c).gen, byteA := (s.claim c).byteA,
          byteB := (s.claim c).byteB, word1 := some (s.claim c).word1,
          word2 := some ((s.claim c).word2 (s.refCount c)) }]) ∧
    (isInspectBlock q.record = true → q.record.argA ≠ 1 →
      exec .inspectBlock s = .next (s.removeHead.answer q .badArgument).settleEvent) ∧
    (isInspectBlock q.record = true → q.record.argA = 1 → (argBlockIndex q.record.argB).bind s.record? = none →
      exec .inspectBlock s = .next (s.removeHead.answer q .noBlock).settleEvent) ∧
    (isInspectClaim q.record = true → argIndex32 q.record.argB = none →
      exec .inspectClaim s = .next (s.removeHead.answer q .badArgument).settleEvent)) ∧
  (∀ r : DirRecord, r.queue.length ≤ 16 →
    (r.byteA.extractLsb' 0 3).toNat = (match r.state with
      | .atHome => 0
      | .shared => 1
      | .lent => 2
      | .sending => 3
      | .recalling => 4
      | .damaged => 5) ∧
    (r.byteA.extractLsb' 3 5).toNat = r.queue.length ∧
    (∀ t, r.state = .sending → r.transfer = some t → t.next ≤ 32 →
      (r.byteB.extractLsb' 0 6).toNat = t.next ∧ (r.byteB.extractLsb' 6 2).toNat = t.mode.code) ∧
    (∀ k, r.state = .recalling → r.recalling = some k → k.awaiting.length ≤ 15 → k.sends ≤ 4 →
      (r.byteB.extractLsb' 0 4).toNat = k.awaiting.length ∧ (r.byteB.extractLsb' 4 2).toNat = k.sends - 1 ∧
      (r.byteB.extractLsb' 6 2).toNat = k.kind.code) ∧
    (r.state ≠ .sending → r.state ≠ .recalling → r.byteB = 0) ∧
    (r.readers ≠ [] → r.readers.length ≤ 16 →
      (r.words.2.extractLsb' 28 4).toNat = r.readers.length - 1 ∧
      (∀ k, k < 8 → (r.words.1.extractLsb' (4 * k) 4).toNat = ((r.readers[k]?.map (·.station.val)).getD 0)) ∧
      ∀ k, k < 7 → (r.words.2.extractLsb' (4 * k) 4).toNat = ((r.readers[k + 8]?.map (·.station.val)).getD 0)) ∧
    (∀ h, r.readers = [] → (r.holder = some h ∨ r.holder = none ∧ r.lost = some h) →
      (r.words.1.extractLsb' 0 4).toNat = h.station.val ∧ r.words.1.extractLsb' 8 8 = h.gen ∧ r.words.2 = 0) ∧
    (r.readers = [] → r.holder = none → r.lost = none → r.words = (0, 0))) ∧
  ∀ (c : Claim) (refs : Nat),
    (c.byteA.extractLsb' 0 4).toNat = (match c.state with
      | .free => 0
      | .asking => 1
      | .withdrawing => 2
      | .filling => 3
      | .held => 4
      | .dropping => 5
      | .returning => 6
      | .demoting => 7
      | .ended => 8) ∧
    c.byteA.extractLsb' 4 4 = c.use ∧
    (c.byteB.extractLsb' 0 2).toNat = (c.held.map Mode.code).getD 0 ∧
    (c.byteB.extractLsb' 2 2).toNat = (c.sought.map Mode.code).getD 0 ∧
    c.byteB.getLsbD 4 = (c.hold.mode == .running) ∧
    (c.byteB.extractLsb' 5 2).toNat = (c.deferred.map (·.1.code)).getD 0 ∧ c.byteB.getLsbD 7 = c.askStanding ∧
    (∀ f, c.frame = some f → f < 512 → (c.word1.extractLsb' 16 9).toNat = f) ∧
    (c.frame = none ∨ (∃ f, c.frame = some f ∧ f < 512) →
      (∀ b, c.block = some b → c.word1.extractLsb' 0 8 = b.index ∧ (c.word1.extractLsb' 8 4).toNat = b.home.val) ∧
      c.word1.getLsbD 12 = c.block.isSome ∧ c.word1.getLsbD 13 = c.gen.isSome ∧ c.word1.getLsbD 14 = c.frame.isSome ∧
      (c.word1.extractLsb' 28 3).toNat = (match c.endReason with
        | none => 0
        | some .released => 1
        | some .revoked => 2
        | some .lost => 3
        | some .homeAbsent => 4
        | some .cancelled => 5
        | some .timedOut => 6
        | some .denied => 7)) ∧
    (c.received.length ≤ 32 → c.dirty.length ≤ 32 → refs ≤ 32 →
      ((c.word2 refs).extractLsb' 0 6).toNat = c.received.length ∧
      ((c.word2 refs).extractLsb' 8 6).toNat = c.dirty.length ∧ ((c.word2 refs).extractLsb' 16 6).toNat = refs)

/-! ### The window and the DRAM port -/

/-- A refused window access returns all ones or is dropped, makes its entry FAULTED with the record of the access, appends
the ENTRY item, and changes nothing else; the refusals are those of the three check tables. -/
def Obligations.RefusedAccessFaultsTheEntry : Prop :=
  ∀ (s : State) (la : BitVec 16) (lbe : BitVec 4) (ld : Word) (lwr : Bool) (k : FaultKind),
    s.access = none → s.rstHeld = false → lbe ≠ 0 → (s.window.get (accessEntry la)).fault = none →
    s.entryListed (accessEntry la) = false →
    ((k = .unmapped ∧ (s.window.get (accessEntry la)).mapping = none) ∨
      (k = .writeLimit ∧ lwr = true ∧ ∃ g, (s.window.get (accessEntry la)).mapping = some (g, .readOnly)) ∨
      ∃ c l, (s.window.get (accessEntry la)).mapping = some (.claim c, l) ∧ (lwr = true → l = .readWrite) ∧
        ((k = .notReady ∧ ((s.claim c).state = .filling ∨
            ((s.claim c).state = .asking ∨ (s.claim c).state = .withdrawing) ∧ (s.claim c).held = none)) ∨
          (k = .leaseEnded ∧ (s.claim c).state ∈ [.dropping, .returning, .ended]) ∨
          (k = .sharedOnly ∧ lwr = true ∧ (s.claim c).state ∈ [.held, .asking, .withdrawing] ∧
            (s.claim c).held = some .shared) ∨
          (k = .leaseBusy ∧ lwr = true ∧ (s.claim c).state = .demoting))) →
    ∃ t f, exec (.windowAccess la lbe ld lwr) s = .next t ∧
      f = { kind := k, offset := accessWord la * 4 + lowestLane lbe, write := lwr, width := accessWidth lbe } ∧
      t = { s with
        busRead := if lwr then none else some allOnes,
        window := s.window.set (accessEntry la).val
          { mapping := (s.window.get (accessEntry la)).mapping, fault := some f } (accessEntry la).isLt,
        attention := s.attention ++ [{ subject := .entry (accessEntry la), notice := .entry f, replaced := false }] }

/-- An allowed window access waits on the arbiter, bound to its frame and to its claim's use. An access at a FAULTED entry,
with no byte enabled or while RST# is held ends at once and changes only what the bus returns; none is taken while another
waits (log 22). -/
def Obligations.AllowedAccessWaitsOthersEndAtOnce : Prop :=
  ∀ (s : State) (la : BitVec 16) (lbe : BitVec 4) (ld : Word) (lwr : Bool),
    (∀ (f : Nat) (owner : Option (ClaimIdx × UseNum)),
      s.access = none → s.rstHeld = false → lbe ≠ 0 → (s.window.get (accessEntry la)).fault = none →
      ((∃ l, (s.window.get (accessEntry la)).mapping = some (.privateFrame f, l) ∧ (lwr = true → l = .readWrite) ∧
          owner = none) ∨
        ∃ c l, (s.window.get (accessEntry la)).mapping = some (.claim c, l) ∧ (s.claim c).frame = some f ∧
          owner = some (c, (s.claim c).use) ∧
          ((lwr = false ∧ ((s.claim c).state = .held ∨ (s.claim c).state = .demoting ∨
              ((s.claim c).state = .asking ∨ (s.claim c).state = .withdrawing) ∧ (s.claim c).held = some .shared)) ∨
            (lwr = true ∧ l = .readWrite ∧ (s.claim c).state = .held ∧ (s.claim c).held = some .exclusive))) →
      ∃ t : State, exec (.windowAccess la lbe ld lwr) s = .next t ∧
        t = { s with
          access := some {
            frame := f, owner := owner, word := accessWord la, lbe := lbe, data := if lwr then some ld else none },
          arbPort := t.arbPort } ∧
        (s.arbPort = none → (s.arbTurn = .window ∨ s.moves = []) → t.arbPort = some .window) ∧
        ∀ c, s.arbPort = some c → t.arbPort = some c) ∧
    (s.access = none →
      (lbe = 0 ∨ s.rstHeld = true ∨ (s.window.get (accessEntry la)).fault.isSome = true) →
      exec (.windowAccess la lbe ld lwr) s = .next { s with busRead := if lwr then none else some allOnes }) ∧
    (s.access ≠ none → exec (.windowAccess la lbe ld lwr) s = .next s)

/-- The grant of a waiting read returns the enabled bytes of its word, or all ones if its lease has ended; the bus cycle
ends, the turn passes to the ring port, and a waiting chunk move is granted. -/
def Obligations.GrantedReadReturnsEnabledBytes : Prop :=
  ∀ (s : State) (a : Access),
    s.arbPort = some .window → s.access = some a → a.data = none → a.frame < s.frames →
    ∃ x : State, exec .windowGrant s = .next x.settleEvent ∧
      (s.accessAlive a = true → ∃ w, x.busRead = some w ∧ ∀ k, k < 4 → lane w k =
        if a.lbe.getLsbD k then s.readByte (dramAddr a.frame (a.word * 4 + k)) else 0xFF) ∧
      (s.accessAlive a = false → x.busRead = some allOnes) ∧
      x = { s with
        access := none, busRead := x.busRead, arbTurn := .ring, arbPort := if s.moves = [] then none else some .ring }

/-- The grant of a waiting write stores its enabled bytes and no others, unless its lease has ended; the chunk of a remote
claim HELD EXCLUSIVE is marked dirty, and a return that waited for the write is fixed with it. -/
def Obligations.GrantedWriteStoresEnabledBytes : Prop :=
  ∀ (s : State) (a : Access) (w : Word),
    s.arbPort = some .window → s.access = some a → a.data = some w → a.frame < s.frames →
    ∃ x : State, exec .windowGrant s = .next x.settleEvent ∧
      (s.accessAlive a = true →
        (∀ k, k < 4 → a.lbe.getLsbD k = true → x.readByte (dramAddr a.frame (a.word * 4 + k)) = lane w k) ∧
        ∀ d, (∀ k, k < 4 → a.lbe.getLsbD k = true → d ≠ dramAddr a.frame (a.word * 4 + k)) →
          x.readByte d = s.readByte d) ∧
      (s.accessAlive a = false → ∀ d, x.readByte d = s.readByte d) ∧
      (∀ c, a.owner = some (c, (s.claim c).use) → (s.claim c).homedAt s.own = false → (s.claim c).ret = none →
        (s.claim c).state = .held → (s.claim c).held = some .exclusive →
        x.claim c = { s.claim c with dirty := ChunkSet.insert a.chunk (s.claim c).dirty }) ∧
      (∀ c r, a.owner = some (c, (s.claim c).use) → (s.claim c).homedAt s.own = false → (s.claim c).ret = some r →
        r.fixed = false → ((s.claim c).state = .returning ∨ (s.claim c).state = .demoting) →
        x.claim c = { s.claim c with
          dirty := ChunkSet.insert a.chunk (s.claim c).dirty,
          ret := some { r with
            fixed := true, count := (ChunkSet.insert a.chunk (s.claim c).dirty).length,
            todo := ChunkSet.insert a.chunk (s.claim c).dirty } }) ∧
      (∀ d, (∀ u, a.owner ≠ some (d, u)) → x.claim d = s.claim d) ∧ x.records = s.records ∧
      x.arbTurn = .ring ∧ x.arbPort = (if s.moves = [] then none else some .ring) ∧
      x.outside = { s.outside with access := none, busRead := none, dram := x.dram }

/-- The end of a chunk read puts the chunk's 256 bytes into the outgoing buffer, and the entry waits at the end of the queue
order; the read of an entry that has left only frees the buffer. -/
def Obligations.ChunkReadTakesASnapshot : Prop :=
  ∀ (s : State) (b : Fin 4) (f : Nat) (c : ChunkIdx) (rest : List Move),
    s.arbPort = some .ring → s.moves = .read b f c :: rest → f < s.frames →
    ∃ x : State, exec .chunkReadMoveEnd s = .next x.settleEvent ∧
      (s.outBuf.get b = .reading → ∃ payload, x.outBuf = s.outBuf.set b.val (.full payload) b.isLt ∧
        payload.length = Config.chunkBytes ∧
        (∀ j, j < Config.chunkBytes → payload[j]? = some (s.readByte (chunkAddr f c + j))) ∧
        x.txq = s.txq.filter (fun e => !(e.st == .reading && e.buf == some b)) ++
          (s.txq.filter fun e => e.st == .reading && e.buf == some b).map fun e => { e with st := .waiting }) ∧
      (s.outBuf.get b = .discarding → x.outBuf = s.outBuf.set b.val .free b.isLt ∧ x.txq = s.txq) ∧
      x = { s with
        outBuf := x.outBuf, txq := x.txq, moves := rest, arbTurn := .window,
        arbPort := if s.access.isSome then some .window else if rest = [] then none else some .ring }

/-- The end of a chunk write stores the payload's 256 bytes and no others, releases the buffer, and passes the turn to the
window; a write whose records and claims are gone is reported to none. -/
def Obligations.ChunkWriteStoresItsPayload : Prop :=
  ∀ (s : State) (b : Fin 4) (f : Nat) (c : ChunkIdx) (k : Asker) (r : Bool) (rest : List Move) (payload : List Byte),
    s.arbPort = some .ring → s.moves = .write b f c k r :: rest → f < s.frames → s.inBuf.get b = some payload →
    payload.length = Config.chunkBytes →
    ∃ x : State, exec .chunkWriteMoveEnd s = .next x.settleEvent ∧
      (∀ j, j < Config.chunkBytes → x.readByte (chunkAddr f c + j) = payload.getD j 0) ∧
      (∀ a, a < chunkAddr f c ∨ chunkAddr f c + Config.chunkBytes ≤ a → x.readByte a = s.readByte a) ∧
      x.inBuf = s.inBuf.set b.val none b.isLt ∧ x.moves = rest ∧ x.arbTurn = .window ∧
      x.arbPort = (if s.access.isSome then some .window else if rest = [] then none else some .ring) ∧
      (r = false → x.records = s.records ∧ x.claims = s.claims ∧ x.cplq = s.cplq) ∧
      x.outside = { s.outside with dram := x.dram }

/-- The end of a chunk write counts the chunk as returned at the record that asked for it, of its holder or its lost holder, and
with the last write handles a RETURNED held for it: an agreeing count takes the holder out (or heals the record) and the head is
served; another makes the record DAMAGED and denies its queue (or leaves it DAMAGED). At a claim it counts the chunk as received:
with the 32nd the claim is HELD, with its received set kept (log 35), its command completes, and a deferred recall waits for the
hold period or, that being 0, is acted on. -/
def Obligations.CompletedWriteIsCounted : Prop :=
  ∀ (s : State) (b : Fin 4) (f : Nat) (i : ChunkIdx) (k : Asker) (rest : List Move),
    s.arbPort = some .ring → s.moves = .write b f i k true :: rest → f < s.frames →
    ∃ x : State, exec .chunkWriteMoveEnd s = .next x.settleEvent ∧
      (∀ n p g r h, k = .home n p g → s.record? n = some r → r.holder = some h → h.isFrom p g = true →
        (h.held = none ∨ 1 < h.writes → x.record? n = some { r with
          holder := some { h with returned := ChunkSet.insert i h.returned, writes := h.writes - 1 } }) ∧
        (∀ back, h.held = some back → h.writes = 1 →
          (back.count.val = (ChunkSet.insert i h.returned).length →
            State.ServedAs { s with dram := x.dram } x n
              (DirRecord.overIfDone { r with
                holder := none, readers := if back.kept then [{ station := p, gen := g }] else r.readers,
                recalling := r.recalling.map fun k => { k with awaiting := k.awaiting.filter (· != p) } }) s) ∧
          (back.count.val ≠ (ChunkSet.insert i h.returned).length →
            x.record? n = some { r with
              lost := some { h with returned := ChunkSet.insert i h.returned, writes := 0, held := none },
              holder := none, transfer := none, recalling := none, queue := [] } ∧
            x.SentAs (s.denials n .damaged r.queue)))) ∧
      (∀ n p g r h, k = .home n p g → s.record? n = some r → r.holder = none → r.lost = some h → h.isFrom p g = true →
        (h.held = none ∨ 1 < h.writes → x.record? n = some { r with
          lost := some { h with returned := ChunkSet.insert i h.returned, writes := h.writes - 1 } }) ∧
        (∀ back, h.held = some back → h.writes = 1 →
          (back.count.val = (ChunkSet.insert i h.returned).length →
            State.ServedAs { s with dram := x.dram } x n
              (DirRecord.overIfDone { r with
                lost := none, readers := if back.kept then [{ station := p, gen := g }] else r.readers }) s) ∧
          (back.count.val ≠ (ChunkSet.insert i h.returned).length → x.record? n = some { r with
            lost := some { h with returned := ChunkSet.insert i h.returned, writes := 0, held := none } }))) ∧
      (∀ c u g, k = .claim c u g → (s.claim c).state = .filling → (s.claim c).use = u → (s.claim c).gen = some g →
        ((ChunkSet.insert i (s.claim c).received).length ≠ 32 →
          x.claim c = { s.claim c with received := ChunkSet.insert i (s.claim c).received } ∧ x.cplq = s.cplq) ∧
        (∀ v t, (ChunkSet.insert i (s.claim c).received).length = 32 → (s.claim c).pendingCmd = some t →
          v = { s.claim c with
            received := ChunkSet.insert i (s.claim c).received, state := .held, held := (s.claim c).sought,
            sought := none, dirty := [], hold := s.startHoldTimer, pendingCmd := none } →
          ((s.claim c).deferred = none ∨ v.holdRunning = true ∨ v.homedAt s.own = false →
            x.cplq = s.cplq ++ [.plain t .ok (some c) (some g)
              (if t.code = 5 then (s.claim c).frame.map (BitVec.ofNat 32) else none)]) ∧
          ((s.claim c).deferred = none ∨ v.holdRunning = true → x.claim c = v) ∧
          ∀ blk kind gr, (s.claim c).deferred = some (kind, gr) → v.holdRunning = false → v.block = some blk →
            blk.home ≠ s.own →
            (kind = .drop → v.held = some .shared → s.DropBegun x c v blk g .recalled) ∧
            (kind ≠ .drop → v.held = some .exclusive →
              s.ReturnBegun x c v blk g (kind == .demote) .recalled))) ∧
      x.outside = { s.outside with dram := x.dram }

/-! ### The ring port -/

/-- In BYPASS no frame is seen, and a frame that is not intact is discarded. A frame of another station is forwarded with its
hop count raised, or discarded past 15 or for want of room; one for this station with response NONE is taken into the
receive queue, or answered BUSY, and its copy forwarded. -/
def Obligations.ReceivedFramesAreTakenAndForwarded : Prop :=
  ∀ (s : State) (bytes : List Byte),
    (s.port = .bypass ∨ parseFrame bytes = none → exec (.frameReceived bytes) s = .next s) ∧
    (∀ g : Frame,
      (g.hop.toNat < 15 → s.forwardBytes + g.size ≤ 540 → s.forward g = { s with fwd := s.fwd ++ [{ g with hop := g.hop + 1 }] }) ∧
      (15 ≤ g.hop.toNat ∨ 540 < s.forwardBytes + g.size → s.forward g = s)) ∧
    ∀ f, s.port ≠ .bypass → parseFrame bytes = some f → f.src.toNat ≠ s.own.val →
      (f.dest.toNat ≠ s.own.val ∨ respCode f.resp ≠ 0 →
        exec (.frameReceived bytes) s = .next (s.forward f).settleEvent) ∧
      (f.dest.toNat = s.own.val → respCode f.resp = 0 →
        (8 ≤ s.rx.length ∨ (f.len = 1 ∧ s.freeInBuf = none) →
          exec (.frameReceived bytes) s = .next (s.forward { f with resp := 2 }).settleEvent) ∧
        (s.rx.length < 8 → f.len ≠ 1 →
          exec (.frameReceived bytes) s = .next (State.settleEvent (State.forward
            { s with rx := s.rx ++ [{ frame := f, buf := none }] } { f with resp := 1 }))) ∧
        ∀ b, s.rx.length < 8 → f.len = 1 → s.freeInBuf = some b →
          exec (.frameReceived bytes) s = .next (State.settleEvent (State.forward
            { s with
              inBuf := s.inBuf.set b.val (some f.payload) b.isLt,
              rx := s.rx ++ [{ frame := { f with payload := [] }, buf := some b }] } { f with resp := 1 })))

/-- A returned copy that an entry awaits ends its delivery. TAKEN: the entry leaves, the block that sent it learns of it, and then
the destination is PRESENT, with an item if it was not: the DROPPED or RETURNED of a copy given up ends the lease or demotes it
(its item before the peer's), the last chunk ends the transfer and the next head is served, and the last announcement ends
joining. BUSY: it is retried at most 32 times. NONE, or BUSY past that: delivery to the destination fails. A copy that none awaits
and that is no self probe is discarded. That the item of a claim FREE by then shows the block of its lease is the model's choice
(log 40). -/
def Obligations.StrippedCopyIsTheOutcome : Prop :=
  ∀ (s : State) (bytes : List Byte) (f : Frame), s.port ≠ .bypass → parseFrame bytes = some f →
    f.src.toNat = s.own.val → f.inc = s.inc →
    (s.txq.findIdx? (s.awaits f) = none → s.isProbe f = false →
      exec (.frameReceived bytes) s = .next s.settleEvent) ∧
    ∀ i e, s.txq.findIdx? (s.awaits f) = some i → s.txq[i]? = some e → e.dest ≠ s.own →
      (respCode f.resp = 0 → exec (.frameReceived bytes) s = .next (s.failAll e.dest .absent []).settleEvent) ∧
      (2 ≤ (respCode f.resp).val → e.busy < 32 → exec (.frameReceived bytes) s = .next (State.settleEvent { s with
        txq := s.txq.set i { e with st := .retry, busy := e.busy + 1, returnTimer := .off, retryTimer := .start } })) ∧
      (2 ≤ (respCode f.resp).val → 32 ≤ e.busy →
        exec (.frameReceived bytes) s = .next (s.failAll e.dest .unresponsive []).settleEvent) ∧
      (respCode f.resp = 1 → ∃ x : State, exec (.frameReceived bytes) s = .next x.settleEvent ∧ x.outside = s.outside ∧
        x.peers.get e.dest = { s.peers.get e.dest with presence := .present } ∧
        (∀ p, p ≠ e.dest → x.peers.get p = s.peers.get p) ∧
        ((s.peers.get e.dest).presence ≠ .present → ∃ k ∈ x.attention,
          k.subject = .peer e.dest ∧ k.notice = .peer .present (s.peers.get e.dest).inc) ∧
        (∀ b, e.owner ≠ .directory → e.buf = some b → x.outBuf.get b = .free) ∧
        (e.owner = .claims none → x.txq = s.txq.eraseIdx i ∧ x.records = s.records ∧ x.claims = s.claims) ∧
        (∀ c u, e.owner = .claims (some (c, u)) →
          (x.disown c).txq = (s.disown c).txq.eraseIdx i ∧ (x.disown c).handover = (s.disown c).handover ∧
          x.records = s.records ∧
          ((s.claim c).use ≠ u ∨ (∀ b g, e.msg ≠ .dropped b g) ∧ (∀ b g k n, e.msg ≠ .returned b g k n) →
            x.txq = s.txq.eraseIdx i ∧ x.claims = s.claims) ∧
          ∀ g blk, (s.claim c).use = u → (s.claim c).gen = some g →
            (e.msg = .dropped blk g → (s.claim c).state = .dropping →
              (x.claim c).state = if s.refCount c = 0 then .free else .ended) ∧
            (∀ kept n, e.msg = .returned blk g kept n →
              ((s.claim c).state = .returning → (x.claim c).state = if s.refCount c = 0 then .free else .ended) ∧
              ((s.claim c).state = .demoting → x.claim c = { s.claim c with
                state := .held, held := some .shared, sought := none, dirty := [], giving := none, ret := none })) ∧
            ((e.msg = .dropped blk g ∧ (s.claim c).state = .dropping ∨ ∃ kept n, e.msg = .returned blk g kept n ∧
                ((s.claim c).state = .returning ∨ (s.claim c).state = .demoting)) →
              (s.claim c).giving = some .recalled → (s.peers.get e.dest).presence ≠ .present →
              (∀ k ∈ s.attention, k.subject ≠ .claim c ∧ k.subject ≠ .peer e.dest) →
              x.attention = s.attention ++ [
                { subject := .claim c, replaced := false,
                  notice := .claim (if (s.claim c).state = .demoting then .demoted else .revoked) u (s.claim c).block },
                { subject := .peer e.dest, replaced := false,
                  notice := .peer .present (s.peers.get e.dest).inc }])) ∧
        (e.owner = .directory → x.claims = s.claims ∧
          ((∀ blk g, e.msg ≠ .chunk blk g 31) → x.txq = s.txq.eraseIdx i ∧ x.records = s.records)) ∧
        (∀ blk r, e.owner = .directory → e.msg = .chunk blk r.gen 31 → s.record? blk.index = some r →
          (r.transfer.any (·.target == e.dest) = false → x.txq = s.txq.eraseIdx i ∧ x.records = s.records) ∧
          (r.transfer.any (·.target == e.dest) = true → r.queue = [] → r.recalling = none →
            x.record? blk.index = some { r with transfer := none } ∧ x.txq = s.txq.eraseIdx i ∧
            ∀ b, e.buf = some b → x.outBuf.get b = .free) ∧
          (r.transfer.any (·.target == e.dest) = true → ∃ z : State,
            s.ServedAs z blk.index { r with transfer := none, recalling := none } (s.removeEntry i e) ∧
            x.records = z.records ∧ x.SentAs z)) ∧
        (e.owner = .station → x.txq = s.txq.eraseIdx i ∧ x.records = s.records ∧ x.claims = s.claims ∧
          (∀ k, s.station = .joining → s.announceAwaited = k + 2 →
            x.announceAwaited = k + 1 ∧ x.station = .joining ∧ x.lifeCmd = s.lifeCmd ∧ x.cplq = s.cplq) ∧
          (∀ t, s.station = .joining → s.announceAwaited = 1 → s.lifeCmd = some t →
            x.announceAwaited = 0 ∧ x.station = .attached ∧ x.lifeCmd = none ∧
            x.prevInc = (if t.code = 1 then some s.inc else s.prevInc) ∧
            x.cplq = s.cplq ++ [.plain t .ok none none none])))

/-- A delivery failure takes every frame to the destination out of the transmit queue and the hand-over list, and is reported
with all of them. Handling the report ends every live claim that sent one of them, makes the destination ABSENT, and counts an
announcement as done; and the directory takes the loss of a peer into each record, in ascending order: its request is denied FULL,
its transfer is abandoned (or, its last chunk sent, it is damaged), it leaves the readers, and a record it holds is DAMAGED, or
loses it without damage where the GRANT that made it the holder has failed (log 36). -/
def Obligations.DeliveryFailureEndsTheDestination : Prop :=
  ∀ (s : State),
    (∀ (dest : Station) (kind : FailureKind) (extra : List FailedFrame),
      (s.failAll dest kind extra).txq = s.txq.filter (·.dest != dest) ∧
      (s.failAll dest kind extra).handover = s.handover.filter (·.dest != dest) ∧
      (s.failAll dest kind extra).mail = s.mail ++ [.failed {
        dest := dest, kind := kind,
        frames := extra ++
          (s.txq.filter (·.dest == dest)).map (fun e => { owner := e.owner, msg := e.msg, sent := e.outstanding }) ++
          (s.handover.filter (·.dest == dest)).map (fun h => { owner := h.owner, msg := h.msg, sent := false }) }] ∧
      (s.failAll dest kind extra).records = s.records ∧ (s.failAll dest kind extra).claims = s.claims) ∧
    (∀ f : Failure, f.dest ≠ s.own →
      ((s.handleMail (.failed f)).peers.get f.dest).presence = .absent ∧
      (∀ c, (s.claim c).live = true → f.frames.any (fun x => x.owner == .claims (some (c, (s.claim c).use))) = true →
        ((s.handleMail (.failed f)).claim c).state = if s.refCount c = 0 then .free else .ended) ∧
      (∀ c, (s.claim c).live = false ∨ f.frames.any (fun x => x.owner == .claims (some (c, (s.claim c).use))) = false →
        (s.handleMail (.failed f)).claim c = s.claim c) ∧
      ∃ u : State, s.handleMail (.failed f) = (u.losePeer f.dest false f.frames).announceFailed f ∧ u.records = s.records ∧
        (s.peers.get f.dest).inc = (u.peers.get f.dest).inc ∧ (u.peers.get f.dest).presence = .absent ∧
        ((s.peers.get f.dest).presence ≠ .absent → ∃ k ∈ u.attention, k.subject = .peer f.dest ∧
          k.notice = .peer .absent (s.peers.get f.dest).inc)) ∧
    (∀ f : Failure,
      (f.frames.any (fun x => x.owner == .station && x.msg == .announce) = false → s.announceFailed f = s) ∧
      (f.frames.any (fun x => x.owner == .station && x.msg == .announce) = true → s.station = .joining →
        (∀ k, s.announceAwaited = k + 2 → s.announceFailed f = { s with announceAwaited := k + 1 }) ∧
        (s.announceAwaited = 1 → (s.announceFailed f).station = .attached))) ∧
    ∀ (p : Station) (purge : Bool) (frames : List FailedFrame),
      s.losePeer p purge frames = (List.range s.records.length).foldl (fun (t : State) (i : Nat) =>
        ((t.loseRequest p purge (BitVec.ofNat 8 i)).loseTransfer p purge frames (BitVec.ofNat 8 i)).loseCopy p
          purge frames (BitVec.ofNat 8 i)) s ∧
      ∀ n r, s.record? n = some r →
        (∀ q, r.queue.find? (·.station == p) = some q → s.loseRequest p purge n =
          (if purge then s.setRecord n { r with queue := r.queue.filter (·.station != p) }
          else (s.setRecord n { r with queue := r.queue.filter (·.station != p) }).dirSend p
            (.deny (s.ownBlock n) .full q.tag))) ∧
        (r.queue.find? (·.station == p) = none → s.loseRequest p purge n = s) ∧
        (∀ t, r.transfer = some t → t.target = p →
          (t.mode = .exclusive ∧ purge = false ∧
              frames.any (fun x => x.sent && x.owner == .directory && x.msg == .chunk (s.ownBlock n) r.gen 31) = true →
            s.loseTransfer p purge frames n =
              (s.setRecord n { r with transfer := none }).setDirTurn (s.dirTurn.leave n.toNat)) ∧
          (t.mode = .shared ∨ purge = true ∨
              frames.any (fun x => x.sent && x.owner == .directory && x.msg == .chunk (s.ownBlock n) r.gen 31) = false →
            s.ServedAs (s.loseTransfer p purge frames n) n
              { r with
                transfer := none, recalling := none,
                readers := if t.mode = .shared then r.readers.filter (·.station != p) else r.readers,
                holder := if t.mode = .exclusive then none else r.holder }
              (if purge then s else s.dirSend p (.deny (s.ownBlock n) .full t.tag)))) ∧
        ((∀ t, r.transfer = some t → t.target ≠ p) → s.loseTransfer p purge frames n = s) ∧
        (∀ h, r.holder = some h → h.station = p →
          (purge = false → (∃ x ∈ frames, x.owner = .directory ∧
              ∃ mode data tag, x.msg = .grant (s.ownBlock n) h.gen mode data tag) →
            s.ServedAs (s.loseCopy p purge frames n) n
              (DirRecord.overIfDone { r with
                holder := none,
                recalling := r.recalling.map fun k => { k with awaiting := k.awaiting.filter (· != p) } }) s) ∧
          (purge = true ∨ (∀ x ∈ frames, x.owner = .directory →
              ∀ mode data tag, x.msg ≠ .grant (s.ownBlock n) h.gen mode data tag) →
            (s.loseCopy p purge frames n).record? n = some r.damaged ∧
            (s.loseCopy p purge frames n).SentAs (s.denials n .damaged r.queue) ∧
            (s.loseCopy p purge frames n).claims = s.claims ∧
            ∀ m, m ≠ n → (s.loseCopy p purge frames n).record? m = s.record? m)) ∧
        ((∀ h, r.holder = some h → h.station ≠ p) → (∃ d ∈ r.readers, d.station = p) →
          s.ServedAs (s.loseCopy p purge frames n) n
            (DirRecord.overIfDone { r with
              readers := r.readers.filter (·.station != p),
              recalling := r.recalling.map fun k => { k with awaiting := k.awaiting.filter (· != p) } }) s) ∧
        ((∀ h, r.holder = some h → h.station ≠ p) → (∀ d ∈ r.readers, d.station ≠ p) →
          s.loseCopy p purge frames n = s)

/-- The self probe: with outcome NONE, or failed after 32 retries, fifteen announcements go out from the number above, and then a
frame held meanwhile is handled as one handed onward (log 21); taken, the held frame is discarded, the station leaves the ring,
and START or ATTACH completes NUMBER_CONFLICT. Another station's probe of this number is taken and reported, and any other frame
that bears this number with another incarnation is forwarded. -/
def Obligations.SelfProbeOutcomes : Prop :=
  ∀ (s : State) (bytes : List Byte) (f : Frame), s.port ≠ .bypass → parseFrame bytes = some f →
    f.src.toNat = s.own.val →
    (∀ e, f.inc = s.inc → s.txq = [e] → s.awaits f e = true → e.dest = s.own →
      (respCode f.resp = 0 ∨ 2 ≤ (respCode f.resp).val ∧ 32 ≤ e.busy) →
      s.handover = [] → s.mail = [] → s.heldFrame = none → s.probeOutstanding = true → s.station = .joining →
      ∃ t : State, exec (.frameReceived bytes) s = .next t ∧ t.probeOutstanding = false ∧ t.announceAwaited = 15 ∧
        t.txq = (List.range 15).map (fun i =>
          TxEntry.fresh (Fin.ofNat 16 (s.own.val + 1 + i)) .announce .station none .waiting)) ∧
    (∀ e held, f.inc = s.inc → s.txq = [e] → s.awaits f e = true → e.dest = s.own →
      (respCode f.resp = 0 ∨ 2 ≤ (respCode f.resp).val ∧ 32 ≤ e.busy) →
      s.handover = [] → s.mail = [] → s.heldFrame = some held → s.probeOutstanding = true → s.station = .joining →
      ∃ y : State, y.probeOutstanding = false ∧ y.announceAwaited = 15 ∧ y.heldFrame = none ∧ y.mail = [] ∧
        y.txq = (List.range 15).map (fun i =>
          TxEntry.fresh (Fin.ofNat 16 (s.own.val + 1 + i)) .announce .station none .waiting) ∧
        y.rx = s.rx ∧ y.records = s.records ∧ y.claims = s.claims ∧ y.peers = s.peers ∧ y.outside = s.outside ∧
        exec (.frameReceived bytes) s =
          .next ((y.handleFrame held).drain.teardown.testDetach.orderFrom s.cplq.length) ∧
        (sourceOf y.own held.frame.src = none → y.handleFrame held = y.releaseIn held.buf) ∧
        ∀ p, sourceOf y.own held.frame.src = some p →
          (decodeLease held.frame = none →
            y.handleFrame held = (y.checked p held.frame.inc).releaseIn held.buf) ∧
          ∀ m, decodeLease held.frame = some m →
            y.handleFrame held = (y.checked p held.frame.inc).dispatch p m held.buf) ∧
    (∀ i e, f.inc = s.inc → s.txq.findIdx? (s.awaits f) = some i → s.txq[i]? = some e → e.dest = s.own →
      respCode f.resp = 1 →
      ∃ x : State, exec (.frameReceived bytes) s = .next x.settleEvent ∧ x.station = .unconfigured ∧ x.port = .bypass ∧
        x.txq = [] ∧ x.handover = [] ∧ x.rx = [] ∧ x.heldFrame = none ∧ x.fwd = [] ∧ x.records = [] ∧ x.borrow = [] ∧
        (∀ c, x.claim c = .free (s.claim c).use) ∧ (∀ p, x.peers.get p = .initial) ∧ x.prevInc = s.prevInc ∧
        (∀ j ∈ x.attention, j.subject = .station ∧ j.notice = .station .numberConflict none) ∧ x.attention ≠ [] ∧
        x.lifeCmd = none ∧ (∀ t, s.lifeCmd = some t → (.plain t .numberConflict none none none) ∈ x.cplq) ∧
        x.outside = { s.outside with homeCount := 0, borrowCount := 0, window := Vector.replicate 32 .empty }) ∧
    (s.isProbe f = true →
      (f.inc ≠ s.inc ∨ (s.txq.findIdx? (s.awaits f) = none ∧ s.probeOut = false)) →
      exec (.frameReceived bytes) s = .next ((s.forward { f with resp := 1 }).notice .station
        (.station .numberConflict (some f.inc))).settleEvent) ∧
    (s.isProbe f = false → f.inc ≠ s.inc → exec (.frameReceived bytes) s = .next (s.forward f).settleEvent)

/-- The outbound segment carries the head of the forward buffer when it is idle; an own frame starts only in ACTIVE, with
both segments idle and the forward buffer empty, and it is the first entry in queue order that is DUE, or WAITING with no
frame to its destination outstanding. -/
def Obligations.SegmentsCarryForwardedThenOwnFrames : Prop :=
  ∀ (s : State) (outIdle inIdle : Bool),
    (∀ f rest, s.fwd = f :: rest → outIdle = true → s.port ≠ .bypass →
      exec (.forwardSend outIdle) s = .next { s with fwd := rest, rout := f.bytes }) ∧
    (s.fwd = [] ∨ outIdle = false ∨ s.port = .bypass → exec (.forwardSend outIdle) s = .next s) ∧
    (∀ i e, s.port = .active → s.fwd = [] → outIdle = true → inIdle = true → s.txq.findIdx? s.ready = some i →
      s.txq[i]? = some e →
      exec (.ownFrameSend outIdle inIdle) s = .next { s with
        txq := s.txq.set i { e with st := .circulating, returnTimer := .start, retryTimer := .off },
        rout := (s.entryFrame e).bytes }) ∧
    (s.port ≠ .active ∨ s.fwd ≠ [] ∨ outIdle = false ∨ inIdle = false ∨ s.txq.findIdx? s.ready = none →
      exec (.ownFrameSend outIdle inIdle) s = .next s) ∧
    ∀ e, s.ready e = true ↔ (∃ r, e.st = .due r) ∨
      (e.st = .waiting ∧ ∀ d ∈ s.txq, d.dest = e.dest → d.st = .reading ∨ d.st = .waiting)

/-- A frame handed to the port is discarded in BYPASS, enters the transmit queue when an entry is free, no CHUNK to its
destination is being read and none waits before it, joins the hand-over list else, and with 64 there fails delivery to its
destination; what the blocks send to this station itself needs no frame. The head of the hand-over list enters the transmit
queue on the same terms. A chunk on offer is accepted when the list is empty and an entry and a buffer are free: its read move
is raised and the offer advances; the marker passes to the block not served (log 15), and the RETURNED follows the last chunk. -/
def Obligations.PortAcceptsWhatIsHandedOver : Prop :=
  ∀ s : State,
    (∀ (dest : Station) (msg : Lease) (owner : Owner),
      (s.port = .bypass → s.handOver dest msg owner = s) ∧
      (s.port ≠ .bypass → s.handover = [] → s.txq.length < 16 → (∀ e ∈ s.txq, e.dest = dest → e.st ≠ .reading) →
        s.handOver dest msg owner = { s with txq := s.txq ++ [TxEntry.fresh dest msg owner none .waiting] }) ∧
      (s.port ≠ .bypass → s.handover.length < 64 →
        (s.handover ≠ [] ∨ 16 ≤ s.txq.length ∨ ∃ e ∈ s.txq, e.dest = dest ∧ e.st = .reading) →
        s.handOver dest msg owner = { s with
          handover := s.handover ++ [{ dest := dest, msg := msg, owner := owner }] }) ∧
      (s.port ≠ .bypass → 64 ≤ s.handover.length → s.handOver dest msg owner =
        s.failAll dest .unresponsive [{ owner := owner, msg := msg, sent := false }]) ∧
      (s.dirSend dest msg =
        if dest = s.own then s.pushMail (.toClaims msg) else s.handOver dest msg .directory) ∧
      (s.answerHome dest msg =
        if dest = s.own then s.pushMail (.toDirectory msg) else s.handOver dest msg (.claims none)) ∧
      ∀ c b, (s.claim c).block = some b → s.sendHome c msg = if b.home = s.own then s.pushMail (.toDirectory msg)
        else s.handOver b.home msg (.claims (some (c, (s.claim c).use)))) ∧
    (∀ h rest, s.handover = h :: rest → s.txq.length < 16 → (∀ e ∈ s.txq, e.dest = h.dest → e.st ≠ .reading) →
      exec .handoverAccept s = .next (State.settleEvent { s with
        handover := rest, txq := s.txq ++ [TxEntry.fresh h.dest h.msg h.owner none .waiting] })) ∧
    (s.handover = [] ∨ 16 ≤ s.txq.length → exec .handoverAccept s = .next s) ∧
    (∀ h rest, s.handover = h :: rest → (∃ e ∈ s.txq, e.dest = h.dest ∧ e.st = .reading) →
      exec .handoverAccept s = .next s) ∧
    (s.handover ≠ [] ∨ 16 ≤ s.txq.length ∨ s.port = .bypass ∨ s.freeOutBuf = none ∨
      (s.dirOffer = none ∧ s.claimOffer = none) → exec .chunkOfferAccept s = .next s) ∧
    ∀ b, s.handover = [] → s.txq.length < 16 → s.port ≠ .bypass → s.freeOutBuf = some b →
      (∀ n r t, s.dirOffer = some n → (s.claimOffer = none ∨ s.chunkTurn = .directory) → n < 256 →
        s.records[n]? = some r → r.transfer = some t →
        ∃ x : State, exec .chunkOfferAccept s = .next x.settleEvent ∧
          x.txq = s.txq ++ [TxEntry.fresh t.target
            (.chunk (s.ownBlock (BitVec.ofNat 8 n)) r.gen (Fin.ofNat 32 t.next)) .directory (some b) .reading] ∧
          x.moves = s.moves ++ [.read b n (Fin.ofNat 32 t.next)] ∧ x.outBuf = s.outBuf.set b.val .reading b.isLt ∧
          x.records = s.records.set n { r with transfer := some { t with next := t.next + 1 } } ∧
          x.chunkTurn = .claims ∧ x.claims = s.claims ∧ x.outside = s.outside) ∧
      ∀ c blk g f ret i todo, s.claimOffer = some c.val → (s.dirOffer = none ∨ s.chunkTurn = .claims) →
        (s.claim c).block = some blk → (s.claim c).gen = some g → (s.claim c).frame = some f →
        (s.claim c).ret = some ret → ret.todo = i :: todo → blk.home ≠ s.own →
        ∃ x : State, exec .chunkOfferAccept s = .next x.settleEvent ∧
          x.txq = s.txq ++ [TxEntry.fresh blk.home (.chunk blk g i) (.claims (some (c, (s.claim c).use))) (some b)
            .reading] ∧
          x.moves = s.moves ++ [.read b f i] ∧ x.outBuf = s.outBuf.set b.val .reading b.isLt ∧
          x.claim c = { s.claim c with ret := some { ret with todo := todo } } ∧ (∀ d, d ≠ c → x.claim d = s.claim d) ∧
          x.handover = (if todo = [] then [{
            dest := blk.home, msg := .returned blk g ret.kept (Fin.ofNat 33 ret.count),
            owner := .claims (some (c, (s.claim c).use)) }] else []) ∧
          x.chunkTurn = .directory ∧ x.records = s.records ∧ x.outside = s.outside

/-! ### Timers -/

/-- The return timer of a CIRCULATING entry makes it DUE; the eighth expiry in ACTIVE makes the port STALLED, pauses the
recall, wait and re-ask timers and gives the STATION item. The retry timer makes a RETRY entry DUE. An expiry of a timer
that does not run does nothing (log 8). -/
def Obligations.SendTimersMakeEntriesDue : Prop :=
  ∀ (s : State) (j : Fin 16),
    (∀ e : TxEntry, s.txq[j.val]? = some e →
      (e.st = .circulating → e.returnTimer.mode = .running →
        (s.port = .active → e.expiry < 7 → exec (.returnTimerExpiry j) s = .next { s with
          txq := s.txq.set j { e with st := .due true, expiry := e.expiry + 1, returnTimer := .off } }) ∧
        (s.port = .active → 7 ≤ e.expiry → ∃ t : State, exec (.returnTimerExpiry j) s = .next t ∧ t.port = .stalled ∧
          t.txq = s.txq.set j { e with st := .due true, expiry := e.expiry + 1, returnTimer := .off } ∧
          (∀ c, t.claim c = { s.claim c with wait := (s.claim c).wait.pause, reask := (s.claim c).reask.pause }) ∧
          t.records = s.records.map (fun r =>
            { r with recalling := r.recalling.map fun k => { k with timer := k.timer.pause } }) ∧
          (∃ i ∈ t.attention, i.subject = .station ∧ i.notice = .station .stalled none) ∧
          t = { s with
            port := t.port, txq := t.txq, claims := t.claims, records := t.records, attention := t.attention }) ∧
        (s.port ≠ .active → exec (.returnTimerExpiry j) s = .next { s with
          txq := s.txq.set j { e with st := .due true, returnTimer := .off } })) ∧
      (e.st ≠ .circulating ∨ e.returnTimer.mode ≠ .running → exec (.returnTimerExpiry j) s = .next s) ∧
      (e.st = .retry → e.retryTimer.mode = .running → exec (.retryTimerExpiry j) s = .next { s with
        txq := s.txq.set j { e with st := .due false, retryTimer := .off } }) ∧
      (e.st ≠ .retry ∨ e.retryTimer.mode ≠ .running → exec (.retryTimerExpiry j) s = .next s)) ∧
    (s.txq[j.val]? = none → exec (.returnTimerExpiry j) s = .next s ∧ exec (.retryTimerExpiry j) s = .next s)

/-- The recall timer resends the recall three times, a RECALL to each station still awaited; at the next expiry a record whose
holder is awaited is DAMAGED and its queue denied so, head first, and otherwise the awaited readers leave, the recall is over and
the head is served. -/
def Obligations.RecallTimerResendsThenExhausts : Prop :=
  ∀ (s : State) (n : Byte) (r : DirRecord) (k : Recall), s.record? n = some r → r.recalling = some k →
    k.timer.mode = .running →
    (k.sends < 4 → ∃ x : State, exec (.recallTimerExpiry n) s = .next x.settleEvent ∧
      x.record? n = some { r with recalling := some { k with sends := k.sends + 1, timer := s.startPausable } } ∧
      x.SentAs (s.recallsTo n k.kind (r.copiesOf k.kind k.awaiting)) ∧
      (∀ m, m ≠ n → x.record? m = s.record? m) ∧ x.claims = s.claims ∧ x.outside = s.outside) ∧
    (4 ≤ k.sends → r.holder.any (fun h => k.awaiting.contains h.station) = true →
      ∃ x : State, exec (.recallTimerExpiry n) s = .next x.settleEvent ∧
        x.record? n = some { r with lost := r.holder, holder := none, transfer := none, recalling := none, queue := [] } ∧
        x.SentAs (s.denials n .damaged r.queue) ∧
        (∀ m, m ≠ n → x.record? m = s.record? m) ∧ x.claims = s.claims ∧ x.outside = s.outside) ∧
    (4 ≤ k.sends → r.holder.any (fun h => k.awaiting.contains h.station) = false →
      ∃ x : State, exec (.recallTimerExpiry n) s = .next x.settleEvent ∧
        s.ServedAs x n { r with
          readers := r.readers.filter (fun d => !k.awaiting.contains d.station), transfer := none, recalling := none } s ∧
        (r.queue = [] → x.record? n = some { r with
          readers := r.readers.filter (fun d => !k.awaiting.contains d.station), transfer := none, recalling := none }) ∧
        x.claims = s.claims ∧ x.outside = s.outside)

/-- The wait timer of an ASKING claim gives its request up: withdrawn by a WITHDRAW if it stands, else at once with TIMED_OUT.
The re-ask timer hands the home an ASK for the same mode with the same tag. The hold timer's expiry acts on the deferred recall:
a SHARED copy is dropped, an EXCLUSIVE one returned or demoted, an upgrading claim's copy dropped, and an own claim's lease is
given back to the directory at once. -/
def Obligations.ClaimTimersAct : Prop :=
  ∀ (s : State) (c : ClaimIdx),
    ((s.claim c).state = .asking → (s.claim c).wait.mode = .running →
      ∃ x : State, exec (.waitTimerExpiry c) s = .next x.settleEvent ∧
        ((s.claim c).askStanding = true →
          x.claim c = { s.claim c with state := .withdrawing, wait := .off, cause := some .timedOut } ∧ x.cplq = s.cplq ∧
          ∀ b, (s.claim c).block = some b → x.SentAs (s.sendHome c (.withdraw b { claim := c, use := (s.claim c).use }))) ∧
        ((s.claim c).askStanding = false → ∀ t, (s.claim c).pendingCmd = some t → (s.claim c).pendingCancel = none →
          x.cplq = s.cplq ++ [.plain t .timedOut (some c) none none] ∧
          ((s.claim c).held = none → (x.claim c).state = (if s.refCount c = 0 then .free else .ended) ∧
            x.SentAs (s.disown c)) ∧
          ((s.claim c).held ≠ none → (x.claim c).state = .held ∧ (x.claim c).held = (s.claim c).held ∧
            (x.claim c).gen = (s.claim c).gen ∧ x.SentAs s)) ∧
        (∀ d, d ≠ c → x.claim d = s.claim d) ∧ x.records = s.records ∧ x.outside = s.outside) ∧
    ((s.claim c).state = .asking → (s.claim c).reask.mode = .running → ∀ mode, (s.claim c).sought = some mode →
      ∃ x : State, exec (.reaskTimerExpiry c) s = .next x.settleEvent ∧
        x.claim c = { s.claim c with askStanding := true, reask := .off } ∧
        (∀ b, (s.claim c).block = some b →
          x.SentAs (s.sendHome c (.ask b mode { claim := c, use := (s.claim c).use }))) ∧
        (∀ blk, (s.claim c).block = some blk → blk.home ≠ s.own → s.port ≠ .bypass → s.handover = [] →
          s.canAccept blk.home = true → x.txq = s.txq ++ [TxEntry.fresh blk.home
            (.ask blk mode { claim := c, use := (s.claim c).use }) (.claims (some (c, (s.claim c).use))) none .waiting]) ∧
        (∀ d, d ≠ c → x.claim d = s.claim d) ∧ x.records = s.records ∧ x.cplq = s.cplq ∧ x.outside = s.outside) ∧
    ((s.claim c).hold.mode = .running →
      ∃ x : State, exec (.holdTimerExpiry c) s = .next x.settleEvent ∧
        ((s.claim c).deferred = none → x.claim c = { s.claim c with hold := .off } ∧ x.SentAs s) ∧
        (∀ kind g blk gen, (s.claim c).deferred = some (kind, g) → (s.claim c).block = some blk →
          (s.claim c).gen = some gen →
          ((s.claim c).state = .held → blk.home ≠ s.own →
            ((s.claim c).held = some .shared → kind = .drop →
              s.DropBegun x c { s.claim c with hold := .off } blk gen .recalled) ∧
            ((s.claim c).held = some .exclusive → kind = .surrender →
              s.ReturnBegun x c { s.claim c with hold := .off } blk gen false .recalled) ∧
            ((s.claim c).held = some .exclusive → kind = .demote →
              s.ReturnBegun x c { s.claim c with hold := .off } blk gen true .recalled)) ∧
          ((s.claim c).state = .held → blk.home = s.own →
            ((s.claim c).held = some .shared → kind = .drop →
              (x.claim c).state = (if s.refCount c = 0 then .free else .ended) ∧
              x.SentAs ((s.disown c).pushMail (.toDirectory (.dropped blk gen)))) ∧
            ((s.claim c).held = some .exclusive → kind = .surrender →
              (x.claim c).state = (if s.refCount c = 0 then .free else .ended) ∧
              x.SentAs ((s.disown c).pushMail (.toDirectory (.returned blk gen false 0)))) ∧
            ((s.claim c).held = some .exclusive → kind = .demote →
              x.claim c = { s.claim c with
                hold := .off, deferred := none, state := .held, held := some .shared, sought := none, dirty := [],
                giving := none, ret := none } ∧
              x.SentAs (s.pushMail (.toDirectory (.returned blk gen true 0))))) ∧
          (((s.claim c).state = .asking ∨ (s.claim c).state = .withdrawing) → (s.claim c).held = some .shared →
            kind = .drop → x.claim c = { s.claim c with hold := .off, deferred := none, held := none } ∧
              x.SentAs (s.sendHome c (.dropped blk gen)) ∧
              ∃ i ∈ x.attention, i.subject = .claim c ∧
                i.notice = .claim .copyDropped (s.claim c).use (s.claim c).block)) ∧
        (∀ d, d ≠ c → x.claim d = s.claim d) ∧ x.records = s.records ∧ x.outside = s.outside)

/-! ### Frames handed onward -/

/-- The head of the receive queue is handed onward by the row of its kind alone, that of a CHUNK by its home byte (log 23); a row
that does not fit, or no head that can go, does nothing (log 8). It is held while the self probe has no outcome; one whose source
is no peer goes no further (log 11), and one that fails validation no further than the peer checks, which record its source
PRESENT with its incarnation (log 38). Another incarnation than the one recorded purges the peer: its loss is taken into the
directory, and every live claim homed at it ends LOST, in ascending order; that the LOST item of a claim FREE by then shows the
block of its lease is the model's choice (log 40). An ANNOUNCE has no effect beyond them. -/
def Obligations.HeadOfReceiveQueueIsHandedOnward : Prop :=
  ∀ s : State,
    (∀ row ∈ [(Instr.announce, isKind 1), (.ask, isKind 2), (.withdraw, isKind 3), (.withdrawn, isKind 4),
        (.grant, isKind 5), (.deny, isKind 6), (.chunkAtHome, fun f => isKind 7 f && s.isHomeHere f),
        (.chunkAtClaim, fun f => isKind 7 f && !s.isHomeHere f), (.recallCopy, isKind 8), (.dropped, isKind 9),
        (.returned, isKind 10), (.notHeld, isKind 11),
        (.unknownKindFrame, fun f => f.kind == 0 || decide (11 < f.kind.toNat))],
      (s.handable = none → exec row.1 s = .next s) ∧
      ∀ e, s.handable = some e →
        (row.2 e.frame = false → exec row.1 s = .next s) ∧
        (row.2 e.frame = true →
          (s.probeOutstanding = true → exec row.1 s = .next { s with rx := s.rx.tail, heldFrame := some e }) ∧
          (s.probeOutstanding = false → sourceOf s.own e.frame.src = none →
            exec row.1 s = .next (({ s with rx := s.rx.tail } : State).releaseIn e.buf).settleEvent) ∧
          ∀ p, s.probeOutstanding = false → sourceOf s.own e.frame.src = some p →
            (decodeLease e.frame = none → exec row.1 s = .next ((s.afterChecks e p).releaseIn e.buf).settleEvent) ∧
            (decodeLease e.frame = some .announce → exec row.1 s = .next (s.afterChecks e p).settleEvent))) ∧
    (∀ e, s.handable = some e ↔ s.txq.length < 16 ∧ s.handover = [] ∧ s.heldFrame = none ∧ s.rx.head? = some e) ∧
    (∀ p inc, (s.peerChecks p inc).peers.get p = { presence := .present, inc := some inc } ∧
      (∀ i, (s.peers.get p).inc = some i → i ≠ inc → s.peerChecks p inc =
        (((s.losePeer p true []).purgeClaims p).setPeer p { presence := .present, inc := some inc }).notice (.peer p)
          (.peer .restarted (some inc))) ∧
      ((∀ i, (s.peers.get p).inc = some i → i = inc) → (s.peers.get p).presence = .present →
        s.peerChecks p inc = s.setPeer p { presence := .present, inc := some inc }) ∧
      ((∀ i, (s.peers.get p).inc = some i → i = inc) → (s.peers.get p).presence ≠ .present →
        s.peerChecks p inc = (s.setPeer p { presence := .present, inc := some inc }).notice (.peer p)
          (.peer .present (some inc)))) ∧
    ∀ p : Station,
      (∀ c, (s.claim c).live = true → (s.claim c).homedAt p = true →
        ((s.purgeClaims p).claim c).state = (if s.refCount c = 0 then .free else .ended) ∧
        ((s.purgeClaims p).claim c).endReason = (if s.refCount c = 0 then none else some .lost) ∧
        ∃ i ∈ (s.purgeClaims p).attention, i.subject = .claim c ∧
          i.notice = .claim .lost (s.claim c).use (s.claim c).block) ∧
      (∀ c, (s.claim c).live = false ∨ (s.claim c).homedAt p = false → (s.purgeClaims p).claim c = s.claim c) ∧
      (s.purgeClaims p).cplq = s.cplq ++ claimIdxs.flatMap (fun c =>
        if (s.claim c).live && (s.claim c).homedAt p then
          ((s.claim c).pendingCmd.toList ++ (s.claim c).pendingCancel.toList).map fun t =>
            .plain t .lost (some c) none none
        else []) ∧
      (s.purgeClaims p).records = s.records

/-- An ASK is answered, ignored, takes over the waiting request of its station, or is appended and served; a WITHDRAW
removes the request it names and is answered. -/
def Obligations.RequestsFollowTheTableOfCases : Prop :=
  ∀ (s : State) (e : RxEntry) (p : Station) (b : Block) (mode : Mode) (tag : Tag),
    (s.Handing e p (.ask b mode tag) → ∃ x : State, exec .ask s = .next x.settleEvent ∧ x.outside = s.outside ∧
      (b.home ≠ s.own → x = s.afterChecks e p) ∧
      (b.home = s.own → (s.afterChecks e p).record? b.index = none →
        x = (s.afterChecks e p).dirSend p (.deny b .noBlock tag)) ∧
      ∀ r, b.home = s.own → (s.afterChecks e p).record? b.index = some r →
        (r.state = .damaged → x = (s.afterChecks e p).dirSend p (.deny b .damaged tag)) ∧
        (r.state ≠ .damaged → (s.afterChecks e p).station = .detaching →
          x = (s.afterChecks e p).dirSend p (.deny b .leaving tag)) ∧
        (r.state ≠ .damaged → (s.afterChecks e p).station ≠ .detaching →
          (∀ q, r.queue.find? (·.station == p) = some q →
            (q.tag = tag → x = s.afterChecks e p) ∧
            (q.tag ≠ tag → x = ((s.afterChecks e p).setRecord b.index { r with
              queue := replaceRequest p { station := p, mode := mode, tag := tag } r.queue }).serve b.index)) ∧
          ((∀ q ∈ r.queue, q.station ≠ p) →
            (24 ≤ (s.afterChecks e p).poolUsed → x = (s.afterChecks e p).dirSend p (.deny b .full tag)) ∧
            ((s.afterChecks e p).poolUsed < 24 → x = ((s.afterChecks e p).setRecord b.index { r with
              queue := r.queue ++ [{ station := p, mode := mode, tag := tag }] }).serve b.index)))) ∧
    (s.Handing e p (.withdraw b tag) → ∃ x : State, exec .withdraw s = .next x.settleEvent ∧ x.outside = s.outside ∧
      (b.home ≠ s.own ∨ (s.afterChecks e p).record? b.index = none → x = s.afterChecks e p) ∧
      ∀ r, b.home = s.own → (s.afterChecks e p).record? b.index = some r →
        ((∃ q ∈ r.queue, q.station = p ∧ q.tag = tag) → x = ((s.afterChecks e p).setRecord b.index { r with
          queue := r.queue.filter fun q => !(q.station == p && q.tag == tag) }).dirSend p (.withdrawn b tag)) ∧
        ((∀ q ∈ r.queue, ¬ (q.station = p ∧ q.tag = tag)) → x = s.afterChecks e p))

/-- A record in AT_HOME, SHARED or LENT serves its head by the two tables, and the next request after it: a GRANT at the next
generation (with data to a peer, without to this station or to a sole reader), DENY(ALREADY), or a recall of the holder or of the
other readers; in any other state, or with no request, service does nothing. A recall begins with one RECALL to each station
awaited and its timer from zero (log 34), paused while the port is STALLED. -/
def Obligations.ServiceFollowsTheTables : Prop :=
  ∀ (s : State) (n : Byte) (r : DirRecord), s.record? n = some r →
    (r.settled = false ∨ r.queue = [] → s.serve n = s) ∧
    (∀ (q : Request) (rest : List Request), r.settled = true → r.queue = q :: rest →
      (∀ h, r.holder = some h →
        (h.station = q.station → s.serve n =
          ((s.setRecord n { r with queue := rest }).dirSend q.station (.deny (s.ownBlock n) .already q.tag)).serve n) ∧
        (h.station ≠ q.station → s.serve n = s.beginRecall n
          (match q.mode with
            | .shared => .demote
            | .exclusive => .surrender) [h.station])) ∧
      (r.holder = none → q.mode = .shared →
        (r.hasReader q.station = true → s.serve n =
          ((s.setRecord n { r with queue := rest }).dirSend q.station (.deny (s.ownBlock n) .already q.tag)).serve n) ∧
        (r.hasReader q.station = false → s.ServedAs (s.serve n) n
          { r with
            gen := r.gen + 1, queue := rest, readers := r.readers ++ [{ station := q.station, gen := r.gen + 1 }],
            transfer := if q.station = s.own then none
              else some { target := q.station, mode := .shared, tag := q.tag, next := 0 } }
          (s.dirSend q.station (.grant (s.ownBlock n) (r.gen + 1) .shared (q.station != s.own) q.tag)))) ∧
      (r.holder = none → q.mode = .exclusive →
        ((∀ d ∈ r.readers, d.station = q.station) → s.ServedAs (s.serve n) n
          { r with
            gen := r.gen + 1, queue := rest, readers := [],
            holder := some { station := q.station, gen := r.gen + 1, returned := [], writes := 0, held := none },
            transfer := if q.station = s.own ∨ r.readers ≠ [] then none
              else some { target := q.station, mode := .exclusive, tag := q.tag, next := 0 } }
          (s.dirSend q.station (.grant (s.ownBlock n) (r.gen + 1) .exclusive
            (q.station != s.own && r.readers.isEmpty) q.tag))) ∧
        ((∃ d ∈ r.readers, d.station ≠ q.station) → s.serve n = s.beginRecall n .drop
          ((r.readers.map (·.station)).filter (· != q.station))))) ∧
    ∀ (kind : RecallKind) (awaiting : List Station),
      (s.beginRecall n kind awaiting).record? n = some { r with recalling := some {
        kind := kind, awaiting := awaiting, sends := 1,
        timer := { mode := if s.port = .stalled then .paused else .running, count := 0 } } } ∧
      (s.beginRecall n kind awaiting).SentAs (s.recallsTo n kind (r.copiesOf kind awaiting)) ∧
      (∀ m, m ≠ n → (s.beginRecall n kind awaiting).record? m = s.record? m) ∧
      (s.beginRecall n kind awaiting).claims = s.claims ∧ (s.beginRecall n kind awaiting).outside = s.outside

/-- A DROPPED or NOT_HELD that matches a reader takes it out of the reader list, ends a transfer to it and a recall that awaits
nobody else, and the head is served; a CHUNK or RETURNED that matches a reader ends a transfer to it and is itself ignored (log
20). An answer that matches neither a reader nor the holder nor the lost holder changes nothing. The buffer of an ignored CHUNK is
released. -/
def Obligations.AnswersOfReadersAndStaleAnswers : Prop :=
  ∀ (s : State) (e : RxEntry) (p : Station) (b : Block) (g : Byte) (r : DirRecord), b.home = s.own →
    (s.afterChecks e p).record? b.index = some r →
    (∀ row ∈ [(Instr.dropped, Lease.dropped b g), (.notHeld, .notHeld b g)], s.Handing e p row.2 →
      (∃ d ∈ r.readers, d.station = p ∧ d.gen = g) →
      (∃ x : State, exec row.1 s = .next x.settleEvent ∧ x.outside = s.outside ∧
        (s.afterChecks e p).ServedAs x b.index (r.withoutReader p) (s.afterChecks e p)) ∧
      (r.queue = [] → ∃ (x : State) (r' : DirRecord), exec row.1 s = .next x.settleEvent ∧ x.record? b.index = some r' ∧
        r'.readers = r.readers.filter (·.station != p) ∧ r'.gen = r.gen ∧ r'.queue = [] ∧ r'.holder = r.holder ∧
        r'.lost = r.lost ∧ (∀ k ∈ r'.recalling, p ∉ k.awaiting) ∧ (∀ t ∈ r'.transfer, t.target ≠ p) ∧
        x.outside = s.outside)) ∧
    (∀ row ∈ [(Instr.returned, fun m : Lease => ∃ kept k, m = .returned b g kept k),
        (.chunkAtHome, fun m : Lease => ∃ i, m = .chunk b g i)],
      ∀ m, row.2 m → s.Handing e p m → (∃ d ∈ r.readers, d.station = p ∧ d.gen = g) →
      (r.transfer.any (·.target == p) = false →
        exec row.1 s = .next ((s.afterChecks e p).releaseIn e.buf).settleEvent) ∧
      (r.transfer.any (·.target == p) = true → ∃ x : State, exec row.1 s = .next x.settleEvent ∧
        x.inBuf = ((s.afterChecks e p).releaseIn e.buf).inBuf ∧
        (s.afterChecks e p).ServedAs x b.index { r with transfer := none } (s.afterChecks e p))) ∧
    ((∀ d ∈ r.readers, ¬ (d.station = p ∧ d.gen = g)) → (∀ h ∈ r.holder, h.isFrom p g = false) →
      (∀ h ∈ r.lost, h.isFrom p g = false) →
      (s.Handing e p (.dropped b g) → exec .dropped s = .next ((s.afterChecks e p).releaseIn e.buf).settleEvent) ∧
      (s.Handing e p (.notHeld b g) → exec .notHeld s = .next ((s.afterChecks e p).releaseIn e.buf).settleEvent) ∧
      (∀ kept k, s.Handing e p (.returned b g kept k) →
        exec .returned s = .next ((s.afterChecks e p).releaseIn e.buf).settleEvent) ∧
      ∀ i, s.Handing e p (.chunk b g i) →
        exec .chunkAtHome s = .next ((s.afterChecks e p).releaseIn e.buf).settleEvent)

/-- What a holder answers, a transfer to it ended, whatever requests wait: a DROPPED or NOT_HELD makes the record DAMAGED with it
as the lost holder, its queue denied; a CHUNK is accepted for writing, and restarts the timer of a recall; a RETURNED is held while
writes are outstanding, the timer stopped, and else compared with the chunks returned: agreeing, the holder leaves, a recall of it
is over and the head is served; else the record is DAMAGED. What a lost holder answers: a DROPPED or NOT_HELD is ignored, a CHUNK is
accepted, and a RETURNED heals the record when its count agrees. While a RETURNED of a holder or lost holder is held its answers are
ignored. -/
def Obligations.AnswersOfTheHolder : Prop :=
  ∀ (s : State) (e : RxEntry) (p : Station) (b : Block) (g : Byte) (r : DirRecord) (h : Holder), b.home = s.own →
    (s.afterChecks e p).record? b.index = some r → h.isFrom p g = true →
    (r.holder = some h → (∀ d ∈ r.readers, ¬ (d.station = p ∧ d.gen = g)) →
      (h.held = none →
        (∀ row ∈ [(Instr.dropped, Lease.dropped b g), (.notHeld, .notHeld b g)], s.Handing e p row.2 →
          ∃ x : State, exec row.1 s = .next x.settleEvent ∧ x.outside = s.outside ∧
            x.record? b.index = some r.damaged ∧
            x.SentAs ((s.afterChecks e p).denials b.index .damaged r.queue) ∧
            x.claims = (s.afterChecks e p).claims ∧
            ∀ m, m ≠ b.index → x.record? m = (s.afterChecks e p).record? m) ∧
        (∀ i k, s.Handing e p (.chunk b g i) → e.buf = some k → ∃ x : State, exec .chunkAtHome s = .next x.settleEvent ∧
          x.outside = s.outside ∧
          x.moves = (s.afterChecks e p).moves ++ [.write k b.index.toNat i (.home b.index p g) true] ∧
          (s.afterChecks e p).ServedAs x b.index
            { r with
              holder := some { h with writes := h.writes + 1 }, transfer := none,
              recalling := r.recalling.map fun k => { k with timer := (s.afterChecks e p).startPausable } }
            (s.afterChecks e p) ∧
          (r.queue = [] ∨ r.recalling ≠ none → x.record? b.index = some { r with
            holder := some { h with writes := h.writes + 1 }, transfer := none,
            recalling := r.recalling.map fun k => { k with timer := (s.afterChecks e p).startPausable } })) ∧
        ∀ kept n, s.Handing e p (.returned b g kept n) →
          ∃ x : State, exec .returned s = .next x.settleEvent ∧ x.outside = s.outside ∧
            (h.writes ≠ 0 →
              (s.afterChecks e p).ServedAs x b.index
                { r with
                  holder := some { h with held := some { kept := kept, count := n } }, transfer := none,
                  recalling := r.recalling.map fun k => { k with timer := { k.timer with mode := .stopped } } }
                (s.afterChecks e p) ∧
              (r.queue = [] ∨ r.recalling ≠ none → x.record? b.index = some { r with
                holder := some { h with held := some { kept := kept, count := n } }, transfer := none,
                recalling := r.recalling.map fun k => { k with timer := { k.timer with mode := .stopped } } })) ∧
            (h.writes = 0 → n.val ≠ h.returned.length →
              x.record? b.index = some r.damaged ∧
              x.SentAs ((s.afterChecks e p).denials b.index .damaged r.queue) ∧
              x.claims = (s.afterChecks e p).claims ∧
              ∀ m, m ≠ b.index → x.record? m = (s.afterChecks e p).record? m) ∧
            (h.writes = 0 → n.val = h.returned.length →
              (s.afterChecks e p).ServedAs x b.index
                (DirRecord.overIfDone { r with
                  holder := none, readers := if kept then [{ station := p, gen := g }] else r.readers, transfer := none,
                  recalling := r.recalling.map fun k => { k with awaiting := k.awaiting.filter (· != p) } })
                (s.afterChecks e p) ∧
              (r.queue = [] → ∃ r', x.record? b.index = some r' ∧ r'.gen = r.gen ∧ r'.holder = none ∧
                r'.readers = (if kept then [{ station := p, gen := g }] else r.readers) ∧ r'.lost = r.lost ∧
                r'.queue = [] ∧ ∀ k ∈ r'.recalling, p ∉ k.awaiting))) ∧
      (∀ back, h.held = some back →
        ∀ row m, (row = Instr.dropped ∧ m = Lease.dropped b g ∨ row = .notHeld ∧ m = .notHeld b g ∨
            row = .returned ∧ (∃ kept k, m = .returned b g kept k) ∨ row = .chunkAtHome ∧ ∃ i, m = .chunk b g i) →
          s.Handing e p m →
          (r.transfer.any (·.target == p) = false →
            exec row s = .next ((s.afterChecks e p).releaseIn e.buf).settleEvent) ∧
          (r.transfer.any (·.target == p) = true → ∃ x : State, exec row s = .next x.settleEvent ∧
            x.inBuf = ((s.afterChecks e p).releaseIn e.buf).inBuf ∧
            (s.afterChecks e p).ServedAs x b.index { r with transfer := none } (s.afterChecks e p)))) ∧
    (r.holder = none → r.lost = some h → (∀ d ∈ r.readers, ¬ (d.station = p ∧ d.gen = g)) →
      (h.held = none →
        (∀ row ∈ [(Instr.dropped, Lease.dropped b g), (.notHeld, .notHeld b g)], s.Handing e p row.2 →
          exec row.1 s = .next (s.afterChecks e p).settleEvent) ∧
        (∀ i k, s.Handing e p (.chunk b g i) → e.buf = some k → ∃ x : State, exec .chunkAtHome s = .next x.settleEvent ∧
          x.moves = (s.afterChecks e p).moves ++ [.write k b.index.toNat i (.home b.index p g) true] ∧
          x.record? b.index = some { r with lost := some { h with writes := h.writes + 1 } }) ∧
        ∀ kept n, s.Handing e p (.returned b g kept n) → ∃ x : State, exec .returned s = .next x.settleEvent ∧
          (h.writes ≠ 0 → x.record? b.index = some { r with
            lost := some { h with held := some { kept := kept, count := n } } }) ∧
          (h.writes = 0 → n.val ≠ h.returned.length → x.record? b.index = some r) ∧
          (h.writes = 0 → n.val = h.returned.length → (s.afterChecks e p).ServedAs x b.index
            (DirRecord.overIfDone { r with
              lost := none, readers := if kept then [{ station := p, gen := g }] else r.readers })
            (s.afterChecks e p))) ∧
      (h.held ≠ none →
        (∀ row ∈ [(Instr.dropped, Lease.dropped b g), (.notHeld, .notHeld b g)], s.Handing e p row.2 →
          exec row.1 s = .next ((s.afterChecks e p).releaseIn e.buf).settleEvent) ∧
        (∀ kept k, s.Handing e p (.returned b g kept k) →
          exec .returned s = .next ((s.afterChecks e p).releaseIn e.buf).settleEvent) ∧
        ∀ i, s.Handing e p (.chunk b g i) →
          exec .chunkAtHome s = .next ((s.afterChecks e p).releaseIn e.buf).settleEvent))

/-- A GRANT with the tag of the present use of an asking or withdrawing claim (log 14) is accepted: with data the claim is
FILLING, without data to a copy held it is HELD in the mode granted; without data and without a copy it is given back, and the
claim asks again later or gives its request up. A repeat is ignored, and any other grant is given back. -/
def Obligations.GrantsAreAcceptedOrGivenBack : Prop :=
  ∀ (s : State) (e : RxEntry) (p : Station) (b : Block) (g : Byte) (mode : Mode) (data : Bool) (tag : Tag) (cl : Claim)
    (back : Lease),
    s.Handing e p (.grant b g mode data tag) → cl = (s.afterChecks e p).claim tag.claim →
    back = (match mode with
      | .shared => .dropped b g
      | .exclusive => .returned b g false 0) →
    ∃ x : State, exec .grant s = .next x.settleEvent ∧ x.outside = s.outside ∧
      (b.home ≠ p → x = s.afterChecks e p) ∧
      (b.home = p → (s.afterChecks e p).tagged b tag = true → (cl.state = .asking ∨ cl.state = .withdrawing) →
        (data = true → x.claim tag.claim = { cl with
            state := .filling, held := none, sought := some mode, received := [], wait := .off, reask := .off,
            askStanding := false, gen := some g, deferred := none, cause := none, pendingCancel := none } ∧
          x.cplq = (s.afterChecks e p).cplq ++
            (cl.pendingCancel.toList.map fun t => .plain t .tooLate (some tag.claim) none none) ∧
          x.SentAs (s.afterChecks e p)) ∧
        (data = false → cl.held ≠ none → x.claim tag.claim = { cl with
            state := .held, held := some mode, sought := none, dirty := [], hold := s.startHoldTimer, wait := .off,
            reask := .off, askStanding := false, gen := some g, deferred := none, cause := none, pendingCmd := none,
            pendingCancel := none } ∧
          x.cplq = (s.afterChecks e p).cplq ++
            (cl.pendingCmd.toList.map fun t => .plain t .ok (some tag.claim) (some g)
              (if t.code = 5 then cl.frame.map (BitVec.ofNat 32) else none)) ++
            (cl.pendingCancel.toList.map fun t => .plain t .tooLate (some tag.claim) none none) ∧
          x.SentAs (s.afterChecks e p)) ∧
        (data = false → cl.held = none → cl.state = .asking → x.claim tag.claim = { cl with
            askStanding := false, reask := (s.afterChecks e p).startPausable } ∧
          x.SentAs ((s.afterChecks e p).answerHome p back)) ∧
        (data = false → cl.held = none → cl.state = .withdrawing →
          (x.claim tag.claim).state = (if (s.afterChecks e p).refCount tag.claim = 0 then .free else .ended) ∧
          (∀ t cause, cl.pendingCmd = some t → cl.cause = some cause →
            x.cplq = (s.afterChecks e p).cplq ++ [.plain t cause.status (some tag.claim) none none] ++
              (cl.pendingCancel.toList.map fun t => .plain t .ok (some tag.claim) none none)) ∧
          x.SentAs (((s.afterChecks e p).answerHome p back).disown tag.claim))) ∧
      (b.home = p → (s.afterChecks e p).tagged b tag = true → cl.state ≠ .asking → cl.state ≠ .withdrawing →
        cl.gen = some g → x = s.afterChecks e p) ∧
      (b.home = p → ((s.afterChecks e p).tagged b tag = false ∨
          (cl.state ≠ .asking ∧ cl.state ≠ .withdrawing ∧ cl.gen ≠ some g)) →
        x = (s.afterChecks e p).answerHome p back)

/-- A DENY makes an asking claim ask again later (FULL) or ends its attempt with the reason, gives up a withdrawing claim's
request, and sends a filling claim back to asking; a WITHDRAWN gives a withdrawing claim's request up. Any other DENY or
WITHDRAWN is ignored. Which claim it names is its tag's, if the claim is live and homed at the sender (log 14). -/
def Obligations.DenialsAndWithdrawnsEndTheAttempt : Prop :=
  ∀ (s : State) (e : RxEntry) (p : Station) (b : Block) (tag : Tag) (cl : Claim),
    cl = (s.afterChecks e p).claim tag.claim →
    (∀ reason, s.Handing e p (.deny b reason tag) → ∃ x : State, exec .deny s = .next x.settleEvent ∧
      x.outside = s.outside ∧ (∀ d, d ≠ tag.claim → x.claim d = (s.afterChecks e p).claim d) ∧
      (b.home ≠ p ∨ (s.afterChecks e p).tagged b tag = false ∨
        (cl.state ≠ .asking ∧ cl.state ≠ .withdrawing ∧ cl.state ≠ .filling) → x = s.afterChecks e p) ∧
      (b.home = p → (s.afterChecks e p).tagged b tag = true →
        (cl.state = .asking → reason = .full → x.claim tag.claim = { cl with
          askStanding := false, reask := (s.afterChecks e p).startPausable }) ∧
        (cl.state = .asking → reason ≠ .full → ∀ t, cl.pendingCmd = some t → cl.pendingCancel = none →
          x.cplq = (s.afterChecks e p).cplq ++ [.plain t reason.status (some tag.claim) none none] ∧
          (cl.held = none →
            (x.claim tag.claim).state = if (s.afterChecks e p).refCount tag.claim = 0 then .free else .ended) ∧
          (cl.held ≠ none → x.claim tag.claim = { cl with
            state := .held, sought := none, askStanding := false, wait := .off, reask := .off, cause := none,
            pendingCmd := none })) ∧
        (cl.state = .withdrawing → cl.held = none →
          (x.claim tag.claim).state = if (s.afterChecks e p).refCount tag.claim = 0 then .free else .ended) ∧
        (cl.state = .filling → x.claim tag.claim = { cl with
          state := .asking, held := none, received := [], gen := none, deferred := none, askStanding := false,
          wait := (s.afterChecks e p).startWaitTimer, reask := (s.afterChecks e p).startPausable }))) ∧
    (s.Handing e p (.withdrawn b tag) → ∃ x : State, exec .withdrawn s = .next x.settleEvent ∧ x.outside = s.outside ∧
      (b.home ≠ p ∨ (s.afterChecks e p).tagged b tag = false ∨ cl.state ≠ .withdrawing → x = s.afterChecks e p) ∧
      (b.home = p → (s.afterChecks e p).tagged b tag = true → cl.state = .withdrawing →
        (∀ t cause, cl.pendingCmd = some t → cl.cause = some cause →
          x.cplq = (s.afterChecks e p).cplq ++ [.plain t cause.status (some tag.claim) none none] ++
            (cl.pendingCancel.toList.map fun t => .plain t .ok (some tag.claim) none none)) ∧
        (cl.held = none →
          (x.claim tag.claim).state = if (s.afterChecks e p).refCount tag.claim = 0 then .free else .ended) ∧
        (cl.held ≠ none → x.claim tag.claim = { cl with
          state := .held, sought := none, askStanding := false, wait := .off, reask := .off, cause := none,
          pendingCmd := none, pendingCancel := none })))

/-- A RECALL that matches no claim is answered NOT_HELD; of a claim already giving its copy up it is ignored, and so is one whose
kind does not fit the copy (log 31); while filling or in the hold period the first is deferred and a resend ignored; otherwise the
copy is given up: a DROPPED for SHARED, a return for EXCLUSIVE, and an upgrading claim drops its copy and keeps its request. A
CHUNK for a filling claim is accepted for writing, and any other is discarded. -/
def Obligations.RecallsAndFillChunks : Prop :=
  (∀ (cl : Claim) (kind : RecallKind) (m : Option Mode), m = (if cl.state = .filling then cl.sought else cl.held) →
    (cl.fits kind = true ↔ (m = some .shared ∧ kind = .drop) ∨
      (m = some .exclusive ∧ (kind = .surrender ∨ kind = .demote)))) ∧
  ∀ (s : State) (e : RxEntry) (p : Station) (b : Block) (g : Byte),
    (∀ kind, s.Handing e p (.recallCopy b g kind) → ∃ x : State, exec .recallCopy s = .next x.settleEvent ∧
      x.outside = s.outside ∧ (b.home ≠ p → x = s.afterChecks e p) ∧
      (b.home = p → (s.afterChecks e p).recalled b g = none → x = (s.afterChecks e p).answerHome p (.notHeld b g)) ∧
      ∀ c cl, b.home = p → (s.afterChecks e p).recalled b g = some c → cl = (s.afterChecks e p).claim c →
        (cl.state ∈ [.dropping, .returning, .demoting] → x = s.afterChecks e p) ∧
        (cl.fits kind = false → x = s.afterChecks e p) ∧
        (cl.fits kind = true → cl.state ∉ [.dropping, .returning, .demoting] →
          (cl.state = .filling ∨ cl.hold.mode = .running) →
          (cl.deferred = none → x = (s.afterChecks e p).setClaim c { cl with deferred := some (kind, g) }) ∧
          (cl.deferred ≠ none → x = s.afterChecks e p)) ∧
        (cl.state = .held → cl.hold.mode ≠ .running →
          (kind = .drop → cl.held = some .shared → (s.afterChecks e p).DropBegun x c cl b g .recalled) ∧
          (kind = .surrender → cl.held = some .exclusive →
            (s.afterChecks e p).ReturnBegun x c cl b g false .recalled) ∧
          (kind = .demote → cl.held = some .exclusive →
            (s.afterChecks e p).ReturnBegun x c cl b g true .recalled)) ∧
        (kind = .drop → (cl.state = .asking ∨ cl.state = .withdrawing) → cl.held = some .shared →
          cl.hold.mode ≠ .running → x.claim c = { cl with held := none } ∧
            x.SentAs ((s.afterChecks e p).handOver p (.dropped b g) (.claims (some (c, cl.use)))) ∧
            ∃ i ∈ x.attention, i.subject = .claim c ∧ i.notice = .claim .copyDropped cl.use cl.block)) ∧
    ∀ i, s.Handing e p (.chunk b g i) → b.home ≠ s.own → ∃ x : State, exec .chunkAtClaim s = .next x.settleEvent ∧
      (b.home ≠ p ∨ (s.afterChecks e p).filler b g = none → x = (s.afterChecks e p).releaseIn e.buf) ∧
      ∀ c k f, b.home = p → (s.afterChecks e p).filler b g = some c → e.buf = some k →
        ((s.afterChecks e p).claim c).frame = some f →
        x.moves = (s.afterChecks e p).moves ++ [.write k f i (.claim c ((s.afterChecks e p).claim c).use g) true] ∧
        x = { s.afterChecks e p with moves := x.moves, arbPort := x.arbPort }

/-! ### Frame formats -/

/-- A frame read back from its bytes is the frame sent, and the message read back from the frame is the message sent, for
every message that travels on the ring, every station and incarnation, and every payload of its length. -/
def Obligations.FramesAndMessagesReadBack : Prop :=
  (∀ f : Frame, (f.len = 0 ∧ f.payload = []) ∨ (f.len = 1 ∧ f.payload.length = Config.chunkBytes) →
    parseFrame f.bytes = some f) ∧
  ∀ (own dest : Station) (inc : Byte) (m : Lease) (payload : List Byte), m.onRing = true →
    (m.hasPayload = true → payload.length = Config.chunkBytes) →
    decodeLease (encodeLease own inc dest m payload) = some m ∧
      parseFrame (encodeLease own inc dest m payload).bytes = some (encodeLease own inc dest m payload) ∧
      (encodeLease own inc dest m payload).bytes.length = (if m.hasPayload then 270 else 14)
end

