-- ==== Sys2Proof/Laws/State.lean ====
section
/-! SUPPORT. What each named update of State does to each field: the field it sets, and every other field as it was. -/

namespace Sys2Proof.Machine

variable (s : State)

/-! ### setRecord -/

@[simp] theorem State.setRecord_pending (n : Byte) (r : DirRecord) : (s.setRecord n r).pending = s.pending := rfl
@[simp] theorem State.setRecord_mail (n : Byte) (r : DirRecord) : (s.setRecord n r).mail = s.mail := rfl
@[simp] theorem State.setRecord_freeCount (n : Byte) (r : DirRecord) : (s.setRecord n r).freeCount = s.freeCount := rfl
@[simp] theorem State.setRecord_rstHeld (n : Byte) (r : DirRecord) : (s.setRecord n r).rstHeld = s.rstHeld := rfl
@[simp] theorem State.setRecord_resetRequested (n : Byte) (r : DirRecord) : (s.setRecord n r).resetRequested = s.resetRequested := rfl
@[simp] theorem State.setRecord_busRead (n : Byte) (r : DirRecord) : (s.setRecord n r).busRead = s.busRead := rfl
@[simp] theorem State.setRecord_rout (n : Byte) (r : DirRecord) : (s.setRecord n r).rout = s.rout := rfl
@[simp] theorem State.setRecord_straps (n : Byte) (r : DirRecord) : (s.setRecord n r).straps = s.straps := rfl
@[simp] theorem State.setRecord_dram (n : Byte) (r : DirRecord) : (s.setRecord n r).dram = s.dram := rfl
@[simp] theorem State.setRecord_dramEpoch (n : Byte) (r : DirRecord) : (s.setRecord n r).dramEpoch = s.dramEpoch := rfl
@[simp] theorem State.setRecord_homeCount (n : Byte) (r : DirRecord) : (s.setRecord n r).homeCount = s.homeCount := rfl
@[simp] theorem State.setRecord_borrowCount (n : Byte) (r : DirRecord) : (s.setRecord n r).borrowCount = s.borrowCount := rfl
@[simp] theorem State.setRecord_borrow (n : Byte) (r : DirRecord) : (s.setRecord n r).borrow = s.borrow := rfl
@[simp] theorem State.setRecord_arbPort (n : Byte) (r : DirRecord) : (s.setRecord n r).arbPort = s.arbPort := rfl
@[simp] theorem State.setRecord_arbTurn (n : Byte) (r : DirRecord) : (s.setRecord n r).arbTurn = s.arbTurn := rfl
@[simp] theorem State.setRecord_moves (n : Byte) (r : DirRecord) : (s.setRecord n r).moves = s.moves := rfl
@[simp] theorem State.setRecord_records (n : Byte) (r : DirRecord) : (s.setRecord n r).records = s.records.set n.toNat r := rfl
@[simp] theorem State.setRecord_dirTurn (n : Byte) (r : DirRecord) : (s.setRecord n r).dirTurn = s.dirTurn := rfl
@[simp] theorem State.setRecord_claims (n : Byte) (r : DirRecord) : (s.setRecord n r).claims = s.claims := rfl
@[simp] theorem State.setRecord_claimTurn (n : Byte) (r : DirRecord) : (s.setRecord n r).claimTurn = s.claimTurn := rfl
@[simp] theorem State.setRecord_port (n : Byte) (r : DirRecord) : (s.setRecord n r).port = s.port := rfl
@[simp] theorem State.setRecord_txq (n : Byte) (r : DirRecord) : (s.setRecord n r).txq = s.txq := rfl
@[simp] theorem State.setRecord_handover (n : Byte) (r : DirRecord) : (s.setRecord n r).handover = s.handover := rfl
@[simp] theorem State.setRecord_outBuf (n : Byte) (r : DirRecord) : (s.setRecord n r).outBuf = s.outBuf := rfl
@[simp] theorem State.setRecord_fwd (n : Byte) (r : DirRecord) : (s.setRecord n r).fwd = s.fwd := rfl
@[simp] theorem State.setRecord_rx (n : Byte) (r : DirRecord) : (s.setRecord n r).rx = s.rx := rfl
@[simp] theorem State.setRecord_inBuf (n : Byte) (r : DirRecord) : (s.setRecord n r).inBuf = s.inBuf := rfl
@[simp] theorem State.setRecord_chunkTurn (n : Byte) (r : DirRecord) : (s.setRecord n r).chunkTurn = s.chunkTurn := rfl
@[simp] theorem State.setRecord_station (n : Byte) (r : DirRecord) : (s.setRecord n r).station = s.station := rfl
@[simp] theorem State.setRecord_startRec (n : Byte) (r : DirRecord) : (s.setRecord n r).startRec = s.startRec := rfl
@[simp] theorem State.setRecord_prevInc (n : Byte) (r : DirRecord) : (s.setRecord n r).prevInc = s.prevInc := rfl
@[simp] theorem State.setRecord_probeOutstanding (n : Byte) (r : DirRecord) : (s.setRecord n r).probeOutstanding = s.probeOutstanding := rfl
@[simp] theorem State.setRecord_announceAwaited (n : Byte) (r : DirRecord) : (s.setRecord n r).announceAwaited = s.announceAwaited := rfl
@[simp] theorem State.setRecord_lifeCmd (n : Byte) (r : DirRecord) : (s.setRecord n r).lifeCmd = s.lifeCmd := rfl
@[simp] theorem State.setRecord_peers (n : Byte) (r : DirRecord) : (s.setRecord n r).peers = s.peers := rfl
@[simp] theorem State.setRecord_heldFrame (n : Byte) (r : DirRecord) : (s.setRecord n r).heldFrame = s.heldFrame := rfl
@[simp] theorem State.setRecord_window (n : Byte) (r : DirRecord) : (s.setRecord n r).window = s.window := rfl
@[simp] theorem State.setRecord_access (n : Byte) (r : DirRecord) : (s.setRecord n r).access = s.access := rfl
@[simp] theorem State.setRecord_staging (n : Byte) (r : DirRecord) : (s.setRecord n r).staging = s.staging := rfl
@[simp] theorem State.setRecord_cmdq (n : Byte) (r : DirRecord) : (s.setRecord n r).cmdq = s.cmdq := rfl
@[simp] theorem State.setRecord_seqNext (n : Byte) (r : DirRecord) : (s.setRecord n r).seqNext = s.seqNext := rfl
@[simp] theorem State.setRecord_postResult (n : Byte) (r : DirRecord) : (s.setRecord n r).postResult = s.postResult := rfl
@[simp] theorem State.setRecord_inFlight (n : Byte) (r : DirRecord) : (s.setRecord n r).inFlight = s.inFlight := rfl
@[simp] theorem State.setRecord_cplq (n : Byte) (r : DirRecord) : (s.setRecord n r).cplq = s.cplq := rfl
@[simp] theorem State.setRecord_attention (n : Byte) (r : DirRecord) : (s.setRecord n r).attention = s.attention := rfl
@[simp] theorem State.setRecord_cplEnable (n : Byte) (r : DirRecord) : (s.setRecord n r).cplEnable = s.cplEnable := rfl
@[simp] theorem State.setRecord_attEnable (n : Byte) (r : DirRecord) : (s.setRecord n r).attEnable = s.attEnable := rfl

/-! ### setClaim -/

@[simp] theorem State.setClaim_pending (c : ClaimIdx) (v : Claim) : (s.setClaim c v).pending = s.pending := rfl
@[simp] theorem State.setClaim_mail (c : ClaimIdx) (v : Claim) : (s.setClaim c v).mail = s.mail := rfl
@[simp] theorem State.setClaim_freeCount (c : ClaimIdx) (v : Claim) : (s.setClaim c v).freeCount = s.freeCount := rfl
@[simp] theorem State.setClaim_rstHeld (c : ClaimIdx) (v : Claim) : (s.setClaim c v).rstHeld = s.rstHeld := rfl
@[simp] theorem State.setClaim_resetRequested (c : ClaimIdx) (v : Claim) : (s.setClaim c v).resetRequested = s.resetRequested := rfl
@[simp] theorem State.setClaim_busRead (c : ClaimIdx) (v : Claim) : (s.setClaim c v).busRead = s.busRead := rfl
@[simp] theorem State.setClaim_rout (c : ClaimIdx) (v : Claim) : (s.setClaim c v).rout = s.rout := rfl
@[simp] theorem State.setClaim_straps (c : ClaimIdx) (v : Claim) : (s.setClaim c v).straps = s.straps := rfl
@[simp] theorem State.setClaim_dram (c : ClaimIdx) (v : Claim) : (s.setClaim c v).dram = s.dram := rfl
@[simp] theorem State.setClaim_dramEpoch (c : ClaimIdx) (v : Claim) : (s.setClaim c v).dramEpoch = s.dramEpoch := rfl
@[simp] theorem State.setClaim_homeCount (c : ClaimIdx) (v : Claim) : (s.setClaim c v).homeCount = s.homeCount := rfl
@[simp] theorem State.setClaim_borrowCount (c : ClaimIdx) (v : Claim) : (s.setClaim c v).borrowCount = s.borrowCount := rfl
@[simp] theorem State.setClaim_borrow (c : ClaimIdx) (v : Claim) : (s.setClaim c v).borrow = s.borrow := rfl
@[simp] theorem State.setClaim_arbPort (c : ClaimIdx) (v : Claim) : (s.setClaim c v).arbPort = s.arbPort := rfl
@[simp] theorem State.setClaim_arbTurn (c : ClaimIdx) (v : Claim) : (s.setClaim c v).arbTurn = s.arbTurn := rfl
@[simp] theorem State.setClaim_moves (c : ClaimIdx) (v : Claim) : (s.setClaim c v).moves = s.moves := rfl
@[simp] theorem State.setClaim_records (c : ClaimIdx) (v : Claim) : (s.setClaim c v).records = s.records := rfl
@[simp] theorem State.setClaim_dirTurn (c : ClaimIdx) (v : Claim) : (s.setClaim c v).dirTurn = s.dirTurn := rfl
@[simp] theorem State.setClaim_claims (c : ClaimIdx) (v : Claim) : (s.setClaim c v).claims = s.claims.set c.val v c.isLt := rfl
@[simp] theorem State.setClaim_claimTurn (c : ClaimIdx) (v : Claim) : (s.setClaim c v).claimTurn = s.claimTurn := rfl
@[simp] theorem State.setClaim_port (c : ClaimIdx) (v : Claim) : (s.setClaim c v).port = s.port := rfl
@[simp] theorem State.setClaim_txq (c : ClaimIdx) (v : Claim) : (s.setClaim c v).txq = s.txq := rfl
@[simp] theorem State.setClaim_handover (c : ClaimIdx) (v : Claim) : (s.setClaim c v).handover = s.handover := rfl
@[simp] theorem State.setClaim_outBuf (c : ClaimIdx) (v : Claim) : (s.setClaim c v).outBuf = s.outBuf := rfl
@[simp] theorem State.setClaim_fwd (c : ClaimIdx) (v : Claim) : (s.setClaim c v).fwd = s.fwd := rfl
@[simp] theorem State.setClaim_rx (c : ClaimIdx) (v : Claim) : (s.setClaim c v).rx = s.rx := rfl
@[simp] theorem State.setClaim_inBuf (c : ClaimIdx) (v : Claim) : (s.setClaim c v).inBuf = s.inBuf := rfl
@[simp] theorem State.setClaim_chunkTurn (c : ClaimIdx) (v : Claim) : (s.setClaim c v).chunkTurn = s.chunkTurn := rfl
@[simp] theorem State.setClaim_station (c : ClaimIdx) (v : Claim) : (s.setClaim c v).station = s.station := rfl
@[simp] theorem State.setClaim_startRec (c : ClaimIdx) (v : Claim) : (s.setClaim c v).startRec = s.startRec := rfl
@[simp] theorem State.setClaim_prevInc (c : ClaimIdx) (v : Claim) : (s.setClaim c v).prevInc = s.prevInc := rfl
@[simp] theorem State.setClaim_probeOutstanding (c : ClaimIdx) (v : Claim) : (s.setClaim c v).probeOutstanding = s.probeOutstanding := rfl
@[simp] theorem State.setClaim_announceAwaited (c : ClaimIdx) (v : Claim) : (s.setClaim c v).announceAwaited = s.announceAwaited := rfl
@[simp] theorem State.setClaim_lifeCmd (c : ClaimIdx) (v : Claim) : (s.setClaim c v).lifeCmd = s.lifeCmd := rfl
@[simp] theorem State.setClaim_peers (c : ClaimIdx) (v : Claim) : (s.setClaim c v).peers = s.peers := rfl
@[simp] theorem State.setClaim_heldFrame (c : ClaimIdx) (v : Claim) : (s.setClaim c v).heldFrame = s.heldFrame := rfl
@[simp] theorem State.setClaim_window (c : ClaimIdx) (v : Claim) : (s.setClaim c v).window = s.window := rfl
@[simp] theorem State.setClaim_access (c : ClaimIdx) (v : Claim) : (s.setClaim c v).access = s.access := rfl
@[simp] theorem State.setClaim_staging (c : ClaimIdx) (v : Claim) : (s.setClaim c v).staging = s.staging := rfl
@[simp] theorem State.setClaim_cmdq (c : ClaimIdx) (v : Claim) : (s.setClaim c v).cmdq = s.cmdq := rfl
@[simp] theorem State.setClaim_seqNext (c : ClaimIdx) (v : Claim) : (s.setClaim c v).seqNext = s.seqNext := rfl
@[simp] theorem State.setClaim_postResult (c : ClaimIdx) (v : Claim) : (s.setClaim c v).postResult = s.postResult := rfl
@[simp] theorem State.setClaim_inFlight (c : ClaimIdx) (v : Claim) : (s.setClaim c v).inFlight = s.inFlight := rfl
@[simp] theorem State.setClaim_cplq (c : ClaimIdx) (v : Claim) : (s.setClaim c v).cplq = s.cplq := rfl
@[simp] theorem State.setClaim_attention (c : ClaimIdx) (v : Claim) : (s.setClaim c v).attention = s.attention := rfl
@[simp] theorem State.setClaim_cplEnable (c : ClaimIdx) (v : Claim) : (s.setClaim c v).cplEnable = s.cplEnable := rfl
@[simp] theorem State.setClaim_attEnable (c : ClaimIdx) (v : Claim) : (s.setClaim c v).attEnable = s.attEnable := rfl

/-! ### setPeer -/

@[simp] theorem State.setPeer_pending (p : Station) (v : Peer) : (s.setPeer p v).pending = s.pending := rfl
@[simp] theorem State.setPeer_mail (p : Station) (v : Peer) : (s.setPeer p v).mail = s.mail := rfl
@[simp] theorem State.setPeer_freeCount (p : Station) (v : Peer) : (s.setPeer p v).freeCount = s.freeCount := rfl
@[simp] theorem State.setPeer_rstHeld (p : Station) (v : Peer) : (s.setPeer p v).rstHeld = s.rstHeld := rfl
@[simp] theorem State.setPeer_resetRequested (p : Station) (v : Peer) : (s.setPeer p v).resetRequested = s.resetRequested := rfl
@[simp] theorem State.setPeer_busRead (p : Station) (v : Peer) : (s.setPeer p v).busRead = s.busRead := rfl
@[simp] theorem State.setPeer_rout (p : Station) (v : Peer) : (s.setPeer p v).rout = s.rout := rfl
@[simp] theorem State.setPeer_straps (p : Station) (v : Peer) : (s.setPeer p v).straps = s.straps := rfl
@[simp] theorem State.setPeer_dram (p : Station) (v : Peer) : (s.setPeer p v).dram = s.dram := rfl
@[simp] theorem State.setPeer_dramEpoch (p : Station) (v : Peer) : (s.setPeer p v).dramEpoch = s.dramEpoch := rfl
@[simp] theorem State.setPeer_homeCount (p : Station) (v : Peer) : (s.setPeer p v).homeCount = s.homeCount := rfl
@[simp] theorem State.setPeer_borrowCount (p : Station) (v : Peer) : (s.setPeer p v).borrowCount = s.borrowCount := rfl
@[simp] theorem State.setPeer_borrow (p : Station) (v : Peer) : (s.setPeer p v).borrow = s.borrow := rfl
@[simp] theorem State.setPeer_arbPort (p : Station) (v : Peer) : (s.setPeer p v).arbPort = s.arbPort := rfl
@[simp] theorem State.setPeer_arbTurn (p : Station) (v : Peer) : (s.setPeer p v).arbTurn = s.arbTurn := rfl
@[simp] theorem State.setPeer_moves (p : Station) (v : Peer) : (s.setPeer p v).moves = s.moves := rfl
@[simp] theorem State.setPeer_records (p : Station) (v : Peer) : (s.setPeer p v).records = s.records := rfl
@[simp] theorem State.setPeer_dirTurn (p : Station) (v : Peer) : (s.setPeer p v).dirTurn = s.dirTurn := rfl
@[simp] theorem State.setPeer_claims (p : Station) (v : Peer) : (s.setPeer p v).claims = s.claims := rfl
@[simp] theorem State.setPeer_claimTurn (p : Station) (v : Peer) : (s.setPeer p v).claimTurn = s.claimTurn := rfl
@[simp] theorem State.setPeer_port (p : Station) (v : Peer) : (s.setPeer p v).port = s.port := rfl
@[simp] theorem State.setPeer_txq (p : Station) (v : Peer) : (s.setPeer p v).txq = s.txq := rfl
@[simp] theorem State.setPeer_handover (p : Station) (v : Peer) : (s.setPeer p v).handover = s.handover := rfl
@[simp] theorem State.setPeer_outBuf (p : Station) (v : Peer) : (s.setPeer p v).outBuf = s.outBuf := rfl
@[simp] theorem State.setPeer_fwd (p : Station) (v : Peer) : (s.setPeer p v).fwd = s.fwd := rfl
@[simp] theorem State.setPeer_rx (p : Station) (v : Peer) : (s.setPeer p v).rx = s.rx := rfl
@[simp] theorem State.setPeer_inBuf (p : Station) (v : Peer) : (s.setPeer p v).inBuf = s.inBuf := rfl
@[simp] theorem State.setPeer_chunkTurn (p : Station) (v : Peer) : (s.setPeer p v).chunkTurn = s.chunkTurn := rfl
@[simp] theorem State.setPeer_station (p : Station) (v : Peer) : (s.setPeer p v).station = s.station := rfl
@[simp] theorem State.setPeer_startRec (p : Station) (v : Peer) : (s.setPeer p v).startRec = s.startRec := rfl
@[simp] theorem State.setPeer_prevInc (p : Station) (v : Peer) : (s.setPeer p v).prevInc = s.prevInc := rfl
@[simp] theorem State.setPeer_probeOutstanding (p : Station) (v : Peer) : (s.setPeer p v).probeOutstanding = s.probeOutstanding := rfl
@[simp] theorem State.setPeer_announceAwaited (p : Station) (v : Peer) : (s.setPeer p v).announceAwaited = s.announceAwaited := rfl
@[simp] theorem State.setPeer_lifeCmd (p : Station) (v : Peer) : (s.setPeer p v).lifeCmd = s.lifeCmd := rfl
@[simp] theorem State.setPeer_peers (p : Station) (v : Peer) : (s.setPeer p v).peers = s.peers.set p.val v p.isLt := rfl
@[simp] theorem State.setPeer_heldFrame (p : Station) (v : Peer) : (s.setPeer p v).heldFrame = s.heldFrame := rfl
@[simp] theorem State.setPeer_window (p : Station) (v : Peer) : (s.setPeer p v).window = s.window := rfl
@[simp] theorem State.setPeer_access (p : Station) (v : Peer) : (s.setPeer p v).access = s.access := rfl
@[simp] theorem State.setPeer_staging (p : Station) (v : Peer) : (s.setPeer p v).staging = s.staging := rfl
@[simp] theorem State.setPeer_cmdq (p : Station) (v : Peer) : (s.setPeer p v).cmdq = s.cmdq := rfl
@[simp] theorem State.setPeer_seqNext (p : Station) (v : Peer) : (s.setPeer p v).seqNext = s.seqNext := rfl
@[simp] theorem State.setPeer_postResult (p : Station) (v : Peer) : (s.setPeer p v).postResult = s.postResult := rfl
@[simp] theorem State.setPeer_inFlight (p : Station) (v : Peer) : (s.setPeer p v).inFlight = s.inFlight := rfl
@[simp] theorem State.setPeer_cplq (p : Station) (v : Peer) : (s.setPeer p v).cplq = s.cplq := rfl
@[simp] theorem State.setPeer_attention (p : Station) (v : Peer) : (s.setPeer p v).attention = s.attention := rfl
@[simp] theorem State.setPeer_cplEnable (p : Station) (v : Peer) : (s.setPeer p v).cplEnable = s.cplEnable := rfl
@[simp] theorem State.setPeer_attEnable (p : Station) (v : Peer) : (s.setPeer p v).attEnable = s.attEnable := rfl

/-! ### setEntry -/

@[simp] theorem State.setEntry_pending (e : EntryIdx) (v : Entry) : (s.setEntry e v).pending = s.pending := rfl
@[simp] theorem State.setEntry_mail (e : EntryIdx) (v : Entry) : (s.setEntry e v).mail = s.mail := rfl
@[simp] theorem State.setEntry_freeCount (e : EntryIdx) (v : Entry) : (s.setEntry e v).freeCount = s.freeCount := rfl
@[simp] theorem State.setEntry_rstHeld (e : EntryIdx) (v : Entry) : (s.setEntry e v).rstHeld = s.rstHeld := rfl
@[simp] theorem State.setEntry_resetRequested (e : EntryIdx) (v : Entry) : (s.setEntry e v).resetRequested = s.resetRequested := rfl
@[simp] theorem State.setEntry_busRead (e : EntryIdx) (v : Entry) : (s.setEntry e v).busRead = s.busRead := rfl
@[simp] theorem State.setEntry_rout (e : EntryIdx) (v : Entry) : (s.setEntry e v).rout = s.rout := rfl
@[simp] theorem State.setEntry_straps (e : EntryIdx) (v : Entry) : (s.setEntry e v).straps = s.straps := rfl
@[simp] theorem State.setEntry_dram (e : EntryIdx) (v : Entry) : (s.setEntry e v).dram = s.dram := rfl
@[simp] theorem State.setEntry_dramEpoch (e : EntryIdx) (v : Entry) : (s.setEntry e v).dramEpoch = s.dramEpoch := rfl
@[simp] theorem State.setEntry_homeCount (e : EntryIdx) (v : Entry) : (s.setEntry e v).homeCount = s.homeCount := rfl
@[simp] theorem State.setEntry_borrowCount (e : EntryIdx) (v : Entry) : (s.setEntry e v).borrowCount = s.borrowCount := rfl
@[simp] theorem State.setEntry_borrow (e : EntryIdx) (v : Entry) : (s.setEntry e v).borrow = s.borrow := rfl
@[simp] theorem State.setEntry_arbPort (e : EntryIdx) (v : Entry) : (s.setEntry e v).arbPort = s.arbPort := rfl
@[simp] theorem State.setEntry_arbTurn (e : EntryIdx) (v : Entry) : (s.setEntry e v).arbTurn = s.arbTurn := rfl
@[simp] theorem State.setEntry_moves (e : EntryIdx) (v : Entry) : (s.setEntry e v).moves = s.moves := rfl
@[simp] theorem State.setEntry_records (e : EntryIdx) (v : Entry) : (s.setEntry e v).records = s.records := rfl
@[simp] theorem State.setEntry_dirTurn (e : EntryIdx) (v : Entry) : (s.setEntry e v).dirTurn = s.dirTurn := rfl
@[simp] theorem State.setEntry_claims (e : EntryIdx) (v : Entry) : (s.setEntry e v).claims = s.claims := rfl
@[simp] theorem State.setEntry_claimTurn (e : EntryIdx) (v : Entry) : (s.setEntry e v).claimTurn = s.claimTurn := rfl
@[simp] theorem State.setEntry_port (e : EntryIdx) (v : Entry) : (s.setEntry e v).port = s.port := rfl
@[simp] theorem State.setEntry_txq (e : EntryIdx) (v : Entry) : (s.setEntry e v).txq = s.txq := rfl
@[simp] theorem State.setEntry_handover (e : EntryIdx) (v : Entry) : (s.setEntry e v).handover = s.handover := rfl
@[simp] theorem State.setEntry_outBuf (e : EntryIdx) (v : Entry) : (s.setEntry e v).outBuf = s.outBuf := rfl
@[simp] theorem State.setEntry_fwd (e : EntryIdx) (v : Entry) : (s.setEntry e v).fwd = s.fwd := rfl
@[simp] theorem State.setEntry_rx (e : EntryIdx) (v : Entry) : (s.setEntry e v).rx = s.rx := rfl
@[simp] theorem State.setEntry_inBuf (e : EntryIdx) (v : Entry) : (s.setEntry e v).inBuf = s.inBuf := rfl
@[simp] theorem State.setEntry_chunkTurn (e : EntryIdx) (v : Entry) : (s.setEntry e v).chunkTurn = s.chunkTurn := rfl
@[simp] theorem State.setEntry_station (e : EntryIdx) (v : Entry) : (s.setEntry e v).station = s.station := rfl
@[simp] theorem State.setEntry_startRec (e : EntryIdx) (v : Entry) : (s.setEntry e v).startRec = s.startRec := rfl
@[simp] theorem State.setEntry_prevInc (e : EntryIdx) (v : Entry) : (s.setEntry e v).prevInc = s.prevInc := rfl
@[simp] theorem State.setEntry_probeOutstanding (e : EntryIdx) (v : Entry) : (s.setEntry e v).probeOutstanding = s.probeOutstanding := rfl
@[simp] theorem State.setEntry_announceAwaited (e : EntryIdx) (v : Entry) : (s.setEntry e v).announceAwaited = s.announceAwaited := rfl
@[simp] theorem State.setEntry_lifeCmd (e : EntryIdx) (v : Entry) : (s.setEntry e v).lifeCmd = s.lifeCmd := rfl
@[simp] theorem State.setEntry_peers (e : EntryIdx) (v : Entry) : (s.setEntry e v).peers = s.peers := rfl
@[simp] theorem State.setEntry_heldFrame (e : EntryIdx) (v : Entry) : (s.setEntry e v).heldFrame = s.heldFrame := rfl
@[simp] theorem State.setEntry_window (e : EntryIdx) (v : Entry) : (s.setEntry e v).window = s.window.set e.val v e.isLt := rfl
@[simp] theorem State.setEntry_access (e : EntryIdx) (v : Entry) : (s.setEntry e v).access = s.access := rfl
@[simp] theorem State.setEntry_staging (e : EntryIdx) (v : Entry) : (s.setEntry e v).staging = s.staging := rfl
@[simp] theorem State.setEntry_cmdq (e : EntryIdx) (v : Entry) : (s.setEntry e v).cmdq = s.cmdq := rfl
@[simp] theorem State.setEntry_seqNext (e : EntryIdx) (v : Entry) : (s.setEntry e v).seqNext = s.seqNext := rfl
@[simp] theorem State.setEntry_postResult (e : EntryIdx) (v : Entry) : (s.setEntry e v).postResult = s.postResult := rfl
@[simp] theorem State.setEntry_inFlight (e : EntryIdx) (v : Entry) : (s.setEntry e v).inFlight = s.inFlight := rfl
@[simp] theorem State.setEntry_cplq (e : EntryIdx) (v : Entry) : (s.setEntry e v).cplq = s.cplq := rfl
@[simp] theorem State.setEntry_attention (e : EntryIdx) (v : Entry) : (s.setEntry e v).attention = s.attention := rfl
@[simp] theorem State.setEntry_cplEnable (e : EntryIdx) (v : Entry) : (s.setEntry e v).cplEnable = s.cplEnable := rfl
@[simp] theorem State.setEntry_attEnable (e : EntryIdx) (v : Entry) : (s.setEntry e v).attEnable = s.attEnable := rfl

/-! ### setOutBuf -/

@[simp] theorem State.setOutBuf_pending (b : Fin 4) (v : OutBuf) : (s.setOutBuf b v).pending = s.pending := rfl
@[simp] theorem State.setOutBuf_mail (b : Fin 4) (v : OutBuf) : (s.setOutBuf b v).mail = s.mail := rfl
@[simp] theorem State.setOutBuf_freeCount (b : Fin 4) (v : OutBuf) : (s.setOutBuf b v).freeCount = s.freeCount := rfl
@[simp] theorem State.setOutBuf_rstHeld (b : Fin 4) (v : OutBuf) : (s.setOutBuf b v).rstHeld = s.rstHeld := rfl
@[simp] theorem State.setOutBuf_resetRequested (b : Fin 4) (v : OutBuf) : (s.setOutBuf b v).resetRequested = s.resetRequested := rfl
@[simp] theorem State.setOutBuf_busRead (b : Fin 4) (v : OutBuf) : (s.setOutBuf b v).busRead = s.busRead := rfl
@[simp] theorem State.setOutBuf_rout (b : Fin 4) (v : OutBuf) : (s.setOutBuf b v).rout = s.rout := rfl
@[simp] theorem State.setOutBuf_straps (b : Fin 4) (v : OutBuf) : (s.setOutBuf b v).straps = s.straps := rfl
@[simp] theorem State.setOutBuf_dram (b : Fin 4) (v : OutBuf) : (s.setOutBuf b v).dram = s.dram := rfl
@[simp] theorem State.setOutBuf_dramEpoch (b : Fin 4) (v : OutBuf) : (s.setOutBuf b v).dramEpoch = s.dramEpoch := rfl
@[simp] theorem State.setOutBuf_homeCount (b : Fin 4) (v : OutBuf) : (s.setOutBuf b v).homeCount = s.homeCount := rfl
@[simp] theorem State.setOutBuf_borrowCount (b : Fin 4) (v : OutBuf) : (s.setOutBuf b v).borrowCount = s.borrowCount := rfl
@[simp] theorem State.setOutBuf_borrow (b : Fin 4) (v : OutBuf) : (s.setOutBuf b v).borrow = s.borrow := rfl
@[simp] theorem State.setOutBuf_arbPort (b : Fin 4) (v : OutBuf) : (s.setOutBuf b v).arbPort = s.arbPort := rfl
@[simp] theorem State.setOutBuf_arbTurn (b : Fin 4) (v : OutBuf) : (s.setOutBuf b v).arbTurn = s.arbTurn := rfl
@[simp] theorem State.setOutBuf_moves (b : Fin 4) (v : OutBuf) : (s.setOutBuf b v).moves = s.moves := rfl
@[simp] theorem State.setOutBuf_records (b : Fin 4) (v : OutBuf) : (s.setOutBuf b v).records = s.records := rfl
@[simp] theorem State.setOutBuf_dirTurn (b : Fin 4) (v : OutBuf) : (s.setOutBuf b v).dirTurn = s.dirTurn := rfl
@[simp] theorem State.setOutBuf_claims (b : Fin 4) (v : OutBuf) : (s.setOutBuf b v).claims = s.claims := rfl
@[simp] theorem State.setOutBuf_claimTurn (b : Fin 4) (v : OutBuf) : (s.setOutBuf b v).claimTurn = s.claimTurn := rfl
@[simp] theorem State.setOutBuf_port (b : Fin 4) (v : OutBuf) : (s.setOutBuf b v).port = s.port := rfl
@[simp] theorem State.setOutBuf_txq (b : Fin 4) (v : OutBuf) : (s.setOutBuf b v).txq = s.txq := rfl
@[simp] theorem State.setOutBuf_handover (b : Fin 4) (v : OutBuf) : (s.setOutBuf b v).handover = s.handover := rfl
@[simp] theorem State.setOutBuf_outBuf (b : Fin 4) (v : OutBuf) : (s.setOutBuf b v).outBuf = s.outBuf.set b.val v b.isLt := rfl
@[simp] theorem State.setOutBuf_fwd (b : Fin 4) (v : OutBuf) : (s.setOutBuf b v).fwd = s.fwd := rfl
@[simp] theorem State.setOutBuf_rx (b : Fin 4) (v : OutBuf) : (s.setOutBuf b v).rx = s.rx := rfl
@[simp] theorem State.setOutBuf_inBuf (b : Fin 4) (v : OutBuf) : (s.setOutBuf b v).inBuf = s.inBuf := rfl
@[simp] theorem State.setOutBuf_chunkTurn (b : Fin 4) (v : OutBuf) : (s.setOutBuf b v).chunkTurn = s.chunkTurn := rfl
@[simp] theorem State.setOutBuf_station (b : Fin 4) (v : OutBuf) : (s.setOutBuf b v).station = s.station := rfl
@[simp] theorem State.setOutBuf_startRec (b : Fin 4) (v : OutBuf) : (s.setOutBuf b v).startRec = s.startRec := rfl
@[simp] theorem State.setOutBuf_prevInc (b : Fin 4) (v : OutBuf) : (s.setOutBuf b v).prevInc = s.prevInc := rfl
@[simp] theorem State.setOutBuf_probeOutstanding (b : Fin 4) (v : OutBuf) : (s.setOutBuf b v).probeOutstanding = s.probeOutstanding := rfl
@[simp] theorem State.setOutBuf_announceAwaited (b : Fin 4) (v : OutBuf) : (s.setOutBuf b v).announceAwaited = s.announceAwaited := rfl
@[simp] theorem State.setOutBuf_lifeCmd (b : Fin 4) (v : OutBuf) : (s.setOutBuf b v).lifeCmd = s.lifeCmd := rfl
@[simp] theorem State.setOutBuf_peers (b : Fin 4) (v : OutBuf) : (s.setOutBuf b v).peers = s.peers := rfl
@[simp] theorem State.setOutBuf_heldFrame (b : Fin 4) (v : OutBuf) : (s.setOutBuf b v).heldFrame = s.heldFrame := rfl
@[simp] theorem State.setOutBuf_window (b : Fin 4) (v : OutBuf) : (s.setOutBuf b v).window = s.window := rfl
@[simp] theorem State.setOutBuf_access (b : Fin 4) (v : OutBuf) : (s.setOutBuf b v).access = s.access := rfl
@[simp] theorem State.setOutBuf_staging (b : Fin 4) (v : OutBuf) : (s.setOutBuf b v).staging = s.staging := rfl
@[simp] theorem State.setOutBuf_cmdq (b : Fin 4) (v : OutBuf) : (s.setOutBuf b v).cmdq = s.cmdq := rfl
@[simp] theorem State.setOutBuf_seqNext (b : Fin 4) (v : OutBuf) : (s.setOutBuf b v).seqNext = s.seqNext := rfl
@[simp] theorem State.setOutBuf_postResult (b : Fin 4) (v : OutBuf) : (s.setOutBuf b v).postResult = s.postResult := rfl
@[simp] theorem State.setOutBuf_inFlight (b : Fin 4) (v : OutBuf) : (s.setOutBuf b v).inFlight = s.inFlight := rfl
@[simp] theorem State.setOutBuf_cplq (b : Fin 4) (v : OutBuf) : (s.setOutBuf b v).cplq = s.cplq := rfl
@[simp] theorem State.setOutBuf_attention (b : Fin 4) (v : OutBuf) : (s.setOutBuf b v).attention = s.attention := rfl
@[simp] theorem State.setOutBuf_cplEnable (b : Fin 4) (v : OutBuf) : (s.setOutBuf b v).cplEnable = s.cplEnable := rfl
@[simp] theorem State.setOutBuf_attEnable (b : Fin 4) (v : OutBuf) : (s.setOutBuf b v).attEnable = s.attEnable := rfl

/-! ### setInBuf -/

@[simp] theorem State.setInBuf_pending (b : Fin 4) (v : Option (List Byte)) : (s.setInBuf b v).pending = s.pending := rfl
@[simp] theorem State.setInBuf_mail (b : Fin 4) (v : Option (List Byte)) : (s.setInBuf b v).mail = s.mail := rfl
@[simp] theorem State.setInBuf_freeCount (b : Fin 4) (v : Option (List Byte)) : (s.setInBuf b v).freeCount = s.freeCount := rfl
@[simp] theorem State.setInBuf_rstHeld (b : Fin 4) (v : Option (List Byte)) : (s.setInBuf b v).rstHeld = s.rstHeld := rfl
@[simp] theorem State.setInBuf_resetRequested (b : Fin 4) (v : Option (List Byte)) : (s.setInBuf b v).resetRequested = s.resetRequested := rfl
@[simp] theorem State.setInBuf_busRead (b : Fin 4) (v : Option (List Byte)) : (s.setInBuf b v).busRead = s.busRead := rfl
@[simp] theorem State.setInBuf_rout (b : Fin 4) (v : Option (List Byte)) : (s.setInBuf b v).rout = s.rout := rfl
@[simp] theorem State.setInBuf_straps (b : Fin 4) (v : Option (List Byte)) : (s.setInBuf b v).straps = s.straps := rfl
@[simp] theorem State.setInBuf_dram (b : Fin 4) (v : Option (List Byte)) : (s.setInBuf b v).dram = s.dram := rfl
@[simp] theorem State.setInBuf_dramEpoch (b : Fin 4) (v : Option (List Byte)) : (s.setInBuf b v).dramEpoch = s.dramEpoch := rfl
@[simp] theorem State.setInBuf_homeCount (b : Fin 4) (v : Option (List Byte)) : (s.setInBuf b v).homeCount = s.homeCount := rfl
@[simp] theorem State.setInBuf_borrowCount (b : Fin 4) (v : Option (List Byte)) : (s.setInBuf b v).borrowCount = s.borrowCount := rfl
@[simp] theorem State.setInBuf_borrow (b : Fin 4) (v : Option (List Byte)) : (s.setInBuf b v).borrow = s.borrow := rfl
@[simp] theorem State.setInBuf_arbPort (b : Fin 4) (v : Option (List Byte)) : (s.setInBuf b v).arbPort = s.arbPort := rfl
@[simp] theorem State.setInBuf_arbTurn (b : Fin 4) (v : Option (List Byte)) : (s.setInBuf b v).arbTurn = s.arbTurn := rfl
@[simp] theorem State.setInBuf_moves (b : Fin 4) (v : Option (List Byte)) : (s.setInBuf b v).moves = s.moves := rfl
@[simp] theorem State.setInBuf_records (b : Fin 4) (v : Option (List Byte)) : (s.setInBuf b v).records = s.records := rfl
@[simp] theorem State.setInBuf_dirTurn (b : Fin 4) (v : Option (List Byte)) : (s.setInBuf b v).dirTurn = s.dirTurn := rfl
@[simp] theorem State.setInBuf_claims (b : Fin 4) (v : Option (List Byte)) : (s.setInBuf b v).claims = s.claims := rfl
@[simp] theorem State.setInBuf_claimTurn (b : Fin 4) (v : Option (List Byte)) : (s.setInBuf b v).claimTurn = s.claimTurn := rfl
@[simp] theorem State.setInBuf_port (b : Fin 4) (v : Option (List Byte)) : (s.setInBuf b v).port = s.port := rfl
@[simp] theorem State.setInBuf_txq (b : Fin 4) (v : Option (List Byte)) : (s.setInBuf b v).txq = s.txq := rfl
@[simp] theorem State.setInBuf_handover (b : Fin 4) (v : Option (List Byte)) : (s.setInBuf b v).handover = s.handover := rfl
@[simp] theorem State.setInBuf_outBuf (b : Fin 4) (v : Option (List Byte)) : (s.setInBuf b v).outBuf = s.outBuf := rfl
@[simp] theorem State.setInBuf_fwd (b : Fin 4) (v : Option (List Byte)) : (s.setInBuf b v).fwd = s.fwd := rfl
@[simp] theorem State.setInBuf_rx (b : Fin 4) (v : Option (List Byte)) : (s.setInBuf b v).rx = s.rx := rfl
@[simp] theorem State.setInBuf_inBuf (b : Fin 4) (v : Option (List Byte)) : (s.setInBuf b v).inBuf = s.inBuf.set b.val v b.isLt := rfl
@[simp] theorem State.setInBuf_chunkTurn (b : Fin 4) (v : Option (List Byte)) : (s.setInBuf b v).chunkTurn = s.chunkTurn := rfl
@[simp] theorem State.setInBuf_station (b : Fin 4) (v : Option (List Byte)) : (s.setInBuf b v).station = s.station := rfl
@[simp] theorem State.setInBuf_startRec (b : Fin 4) (v : Option (List Byte)) : (s.setInBuf b v).startRec = s.startRec := rfl
@[simp] theorem State.setInBuf_prevInc (b : Fin 4) (v : Option (List Byte)) : (s.setInBuf b v).prevInc = s.prevInc := rfl
@[simp] theorem State.setInBuf_probeOutstanding (b : Fin 4) (v : Option (List Byte)) : (s.setInBuf b v).probeOutstanding = s.probeOutstanding := rfl
@[simp] theorem State.setInBuf_announceAwaited (b : Fin 4) (v : Option (List Byte)) : (s.setInBuf b v).announceAwaited = s.announceAwaited := rfl
@[simp] theorem State.setInBuf_lifeCmd (b : Fin 4) (v : Option (List Byte)) : (s.setInBuf b v).lifeCmd = s.lifeCmd := rfl
@[simp] theorem State.setInBuf_peers (b : Fin 4) (v : Option (List Byte)) : (s.setInBuf b v).peers = s.peers := rfl
@[simp] theorem State.setInBuf_heldFrame (b : Fin 4) (v : Option (List Byte)) : (s.setInBuf b v).heldFrame = s.heldFrame := rfl
@[simp] theorem State.setInBuf_window (b : Fin 4) (v : Option (List Byte)) : (s.setInBuf b v).window = s.window := rfl
@[simp] theorem State.setInBuf_access (b : Fin 4) (v : Option (List Byte)) : (s.setInBuf b v).access = s.access := rfl
@[simp] theorem State.setInBuf_staging (b : Fin 4) (v : Option (List Byte)) : (s.setInBuf b v).staging = s.staging := rfl
@[simp] theorem State.setInBuf_cmdq (b : Fin 4) (v : Option (List Byte)) : (s.setInBuf b v).cmdq = s.cmdq := rfl
@[simp] theorem State.setInBuf_seqNext (b : Fin 4) (v : Option (List Byte)) : (s.setInBuf b v).seqNext = s.seqNext := rfl
@[simp] theorem State.setInBuf_postResult (b : Fin 4) (v : Option (List Byte)) : (s.setInBuf b v).postResult = s.postResult := rfl
@[simp] theorem State.setInBuf_inFlight (b : Fin 4) (v : Option (List Byte)) : (s.setInBuf b v).inFlight = s.inFlight := rfl
@[simp] theorem State.setInBuf_cplq (b : Fin 4) (v : Option (List Byte)) : (s.setInBuf b v).cplq = s.cplq := rfl
@[simp] theorem State.setInBuf_attention (b : Fin 4) (v : Option (List Byte)) : (s.setInBuf b v).attention = s.attention := rfl
@[simp] theorem State.setInBuf_cplEnable (b : Fin 4) (v : Option (List Byte)) : (s.setInBuf b v).cplEnable = s.cplEnable := rfl
@[simp] theorem State.setInBuf_attEnable (b : Fin 4) (v : Option (List Byte)) : (s.setInBuf b v).attEnable = s.attEnable := rfl

/-! ### pushMail -/

@[simp] theorem State.pushMail_pending (m : Mail) : (s.pushMail m).pending = s.pending := rfl
@[simp] theorem State.pushMail_mail (m : Mail) : (s.pushMail m).mail = s.mail ++ [m] := rfl
@[simp] theorem State.pushMail_freeCount (m : Mail) : (s.pushMail m).freeCount = s.freeCount := rfl
@[simp] theorem State.pushMail_rstHeld (m : Mail) : (s.pushMail m).rstHeld = s.rstHeld := rfl
@[simp] theorem State.pushMail_resetRequested (m : Mail) : (s.pushMail m).resetRequested = s.resetRequested := rfl
@[simp] theorem State.pushMail_busRead (m : Mail) : (s.pushMail m).busRead = s.busRead := rfl
@[simp] theorem State.pushMail_rout (m : Mail) : (s.pushMail m).rout = s.rout := rfl
@[simp] theorem State.pushMail_straps (m : Mail) : (s.pushMail m).straps = s.straps := rfl
@[simp] theorem State.pushMail_dram (m : Mail) : (s.pushMail m).dram = s.dram := rfl
@[simp] theorem State.pushMail_dramEpoch (m : Mail) : (s.pushMail m).dramEpoch = s.dramEpoch := rfl
@[simp] theorem State.pushMail_homeCount (m : Mail) : (s.pushMail m).homeCount = s.homeCount := rfl
@[simp] theorem State.pushMail_borrowCount (m : Mail) : (s.pushMail m).borrowCount = s.borrowCount := rfl
@[simp] theorem State.pushMail_borrow (m : Mail) : (s.pushMail m).borrow = s.borrow := rfl
@[simp] theorem State.pushMail_arbPort (m : Mail) : (s.pushMail m).arbPort = s.arbPort := rfl
@[simp] theorem State.pushMail_arbTurn (m : Mail) : (s.pushMail m).arbTurn = s.arbTurn := rfl
@[simp] theorem State.pushMail_moves (m : Mail) : (s.pushMail m).moves = s.moves := rfl
@[simp] theorem State.pushMail_records (m : Mail) : (s.pushMail m).records = s.records := rfl
@[simp] theorem State.pushMail_dirTurn (m : Mail) : (s.pushMail m).dirTurn = s.dirTurn := rfl
@[simp] theorem State.pushMail_claims (m : Mail) : (s.pushMail m).claims = s.claims := rfl
@[simp] theorem State.pushMail_claimTurn (m : Mail) : (s.pushMail m).claimTurn = s.claimTurn := rfl
@[simp] theorem State.pushMail_port (m : Mail) : (s.pushMail m).port = s.port := rfl
@[simp] theorem State.pushMail_txq (m : Mail) : (s.pushMail m).txq = s.txq := rfl
@[simp] theorem State.pushMail_handover (m : Mail) : (s.pushMail m).handover = s.handover := rfl
@[simp] theorem State.pushMail_outBuf (m : Mail) : (s.pushMail m).outBuf = s.outBuf := rfl
@[simp] theorem State.pushMail_fwd (m : Mail) : (s.pushMail m).fwd = s.fwd := rfl
@[simp] theorem State.pushMail_rx (m : Mail) : (s.pushMail m).rx = s.rx := rfl
@[simp] theorem State.pushMail_inBuf (m : Mail) : (s.pushMail m).inBuf = s.inBuf := rfl
@[simp] theorem State.pushMail_chunkTurn (m : Mail) : (s.pushMail m).chunkTurn = s.chunkTurn := rfl
@[simp] theorem State.pushMail_station (m : Mail) : (s.pushMail m).station = s.station := rfl
@[simp] theorem State.pushMail_startRec (m : Mail) : (s.pushMail m).startRec = s.startRec := rfl
@[simp] theorem State.pushMail_prevInc (m : Mail) : (s.pushMail m).prevInc = s.prevInc := rfl
@[simp] theorem State.pushMail_probeOutstanding (m : Mail) : (s.pushMail m).probeOutstanding = s.probeOutstanding := rfl
@[simp] theorem State.pushMail_announceAwaited (m : Mail) : (s.pushMail m).announceAwaited = s.announceAwaited := rfl
@[simp] theorem State.pushMail_lifeCmd (m : Mail) : (s.pushMail m).lifeCmd = s.lifeCmd := rfl
@[simp] theorem State.pushMail_peers (m : Mail) : (s.pushMail m).peers = s.peers := rfl
@[simp] theorem State.pushMail_heldFrame (m : Mail) : (s.pushMail m).heldFrame = s.heldFrame := rfl
@[simp] theorem State.pushMail_window (m : Mail) : (s.pushMail m).window = s.window := rfl
@[simp] theorem State.pushMail_access (m : Mail) : (s.pushMail m).access = s.access := rfl
@[simp] theorem State.pushMail_staging (m : Mail) : (s.pushMail m).staging = s.staging := rfl
@[simp] theorem State.pushMail_cmdq (m : Mail) : (s.pushMail m).cmdq = s.cmdq := rfl
@[simp] theorem State.pushMail_seqNext (m : Mail) : (s.pushMail m).seqNext = s.seqNext := rfl
@[simp] theorem State.pushMail_postResult (m : Mail) : (s.pushMail m).postResult = s.postResult := rfl
@[simp] theorem State.pushMail_inFlight (m : Mail) : (s.pushMail m).inFlight = s.inFlight := rfl
@[simp] theorem State.pushMail_cplq (m : Mail) : (s.pushMail m).cplq = s.cplq := rfl
@[simp] theorem State.pushMail_attention (m : Mail) : (s.pushMail m).attention = s.attention := rfl
@[simp] theorem State.pushMail_cplEnable (m : Mail) : (s.pushMail m).cplEnable = s.cplEnable := rfl
@[simp] theorem State.pushMail_attEnable (m : Mail) : (s.pushMail m).attEnable = s.attEnable := rfl

/-! ### removeItem -/

@[simp] theorem State.removeItem_pending (u : Subject) : (s.removeItem u).pending = s.pending := rfl
@[simp] theorem State.removeItem_mail (u : Subject) : (s.removeItem u).mail = s.mail := rfl
@[simp] theorem State.removeItem_freeCount (u : Subject) : (s.removeItem u).freeCount = s.freeCount := rfl
@[simp] theorem State.removeItem_rstHeld (u : Subject) : (s.removeItem u).rstHeld = s.rstHeld := rfl
@[simp] theorem State.removeItem_resetRequested (u : Subject) : (s.removeItem u).resetRequested = s.resetRequested := rfl
@[simp] theorem State.removeItem_busRead (u : Subject) : (s.removeItem u).busRead = s.busRead := rfl
@[simp] theorem State.removeItem_rout (u : Subject) : (s.removeItem u).rout = s.rout := rfl
@[simp] theorem State.removeItem_straps (u : Subject) : (s.removeItem u).straps = s.straps := rfl
@[simp] theorem State.removeItem_dram (u : Subject) : (s.removeItem u).dram = s.dram := rfl
@[simp] theorem State.removeItem_dramEpoch (u : Subject) : (s.removeItem u).dramEpoch = s.dramEpoch := rfl
@[simp] theorem State.removeItem_homeCount (u : Subject) : (s.removeItem u).homeCount = s.homeCount := rfl
@[simp] theorem State.removeItem_borrowCount (u : Subject) : (s.removeItem u).borrowCount = s.borrowCount := rfl
@[simp] theorem State.removeItem_borrow (u : Subject) : (s.removeItem u).borrow = s.borrow := rfl
@[simp] theorem State.removeItem_arbPort (u : Subject) : (s.removeItem u).arbPort = s.arbPort := rfl
@[simp] theorem State.removeItem_arbTurn (u : Subject) : (s.removeItem u).arbTurn = s.arbTurn := rfl
@[simp] theorem State.removeItem_moves (u : Subject) : (s.removeItem u).moves = s.moves := rfl
@[simp] theorem State.removeItem_records (u : Subject) : (s.removeItem u).records = s.records := rfl
@[simp] theorem State.removeItem_dirTurn (u : Subject) : (s.removeItem u).dirTurn = s.dirTurn := rfl
@[simp] theorem State.removeItem_claims (u : Subject) : (s.removeItem u).claims = s.claims := rfl
@[simp] theorem State.removeItem_claimTurn (u : Subject) : (s.removeItem u).claimTurn = s.claimTurn := rfl
@[simp] theorem State.removeItem_port (u : Subject) : (s.removeItem u).port = s.port := rfl
@[simp] theorem State.removeItem_txq (u : Subject) : (s.removeItem u).txq = s.txq := rfl
@[simp] theorem State.removeItem_handover (u : Subject) : (s.removeItem u).handover = s.handover := rfl
@[simp] theorem State.removeItem_outBuf (u : Subject) : (s.removeItem u).outBuf = s.outBuf := rfl
@[simp] theorem State.removeItem_fwd (u : Subject) : (s.removeItem u).fwd = s.fwd := rfl
@[simp] theorem State.removeItem_rx (u : Subject) : (s.removeItem u).rx = s.rx := rfl
@[simp] theorem State.removeItem_inBuf (u : Subject) : (s.removeItem u).inBuf = s.inBuf := rfl
@[simp] theorem State.removeItem_chunkTurn (u : Subject) : (s.removeItem u).chunkTurn = s.chunkTurn := rfl
@[simp] theorem State.removeItem_station (u : Subject) : (s.removeItem u).station = s.station := rfl
@[simp] theorem State.removeItem_startRec (u : Subject) : (s.removeItem u).startRec = s.startRec := rfl
@[simp] theorem State.removeItem_prevInc (u : Subject) : (s.removeItem u).prevInc = s.prevInc := rfl
@[simp] theorem State.removeItem_probeOutstanding (u : Subject) : (s.removeItem u).probeOutstanding = s.probeOutstanding := rfl
@[simp] theorem State.removeItem_announceAwaited (u : Subject) : (s.removeItem u).announceAwaited = s.announceAwaited := rfl
@[simp] theorem State.removeItem_lifeCmd (u : Subject) : (s.removeItem u).lifeCmd = s.lifeCmd := rfl
@[simp] theorem State.removeItem_peers (u : Subject) : (s.removeItem u).peers = s.peers := rfl
@[simp] theorem State.removeItem_heldFrame (u : Subject) : (s.removeItem u).heldFrame = s.heldFrame := rfl
@[simp] theorem State.removeItem_window (u : Subject) : (s.removeItem u).window = s.window := rfl
@[simp] theorem State.removeItem_access (u : Subject) : (s.removeItem u).access = s.access := rfl
@[simp] theorem State.removeItem_staging (u : Subject) : (s.removeItem u).staging = s.staging := rfl
@[simp] theorem State.removeItem_cmdq (u : Subject) : (s.removeItem u).cmdq = s.cmdq := rfl
@[simp] theorem State.removeItem_seqNext (u : Subject) : (s.removeItem u).seqNext = s.seqNext := rfl
@[simp] theorem State.removeItem_postResult (u : Subject) : (s.removeItem u).postResult = s.postResult := rfl
@[simp] theorem State.removeItem_inFlight (u : Subject) : (s.removeItem u).inFlight = s.inFlight := rfl
@[simp] theorem State.removeItem_cplq (u : Subject) : (s.removeItem u).cplq = s.cplq := rfl
@[simp] theorem State.removeItem_attention (u : Subject) : (s.removeItem u).attention = s.attention.filter fun i => i.subject != u := rfl
@[simp] theorem State.removeItem_cplEnable (u : Subject) : (s.removeItem u).cplEnable = s.cplEnable := rfl
@[simp] theorem State.removeItem_attEnable (u : Subject) : (s.removeItem u).attEnable = s.attEnable := rfl

/-! ### freeBorrow -/

@[simp] theorem State.freeBorrow_pending (c : ClaimIdx) : (s.freeBorrow c).pending = s.pending := rfl
@[simp] theorem State.freeBorrow_mail (c : ClaimIdx) : (s.freeBorrow c).mail = s.mail := rfl
@[simp] theorem State.freeBorrow_freeCount (c : ClaimIdx) : (s.freeBorrow c).freeCount = s.freeCount := rfl
@[simp] theorem State.freeBorrow_rstHeld (c : ClaimIdx) : (s.freeBorrow c).rstHeld = s.rstHeld := rfl
@[simp] theorem State.freeBorrow_resetRequested (c : ClaimIdx) : (s.freeBorrow c).resetRequested = s.resetRequested := rfl
@[simp] theorem State.freeBorrow_busRead (c : ClaimIdx) : (s.freeBorrow c).busRead = s.busRead := rfl
@[simp] theorem State.freeBorrow_rout (c : ClaimIdx) : (s.freeBorrow c).rout = s.rout := rfl
@[simp] theorem State.freeBorrow_straps (c : ClaimIdx) : (s.freeBorrow c).straps = s.straps := rfl
@[simp] theorem State.freeBorrow_dram (c : ClaimIdx) : (s.freeBorrow c).dram = s.dram := rfl
@[simp] theorem State.freeBorrow_dramEpoch (c : ClaimIdx) : (s.freeBorrow c).dramEpoch = s.dramEpoch := rfl
@[simp] theorem State.freeBorrow_homeCount (c : ClaimIdx) : (s.freeBorrow c).homeCount = s.homeCount := rfl
@[simp] theorem State.freeBorrow_borrowCount (c : ClaimIdx) : (s.freeBorrow c).borrowCount = s.borrowCount := rfl
@[simp] theorem State.freeBorrow_borrow (c : ClaimIdx) : (s.freeBorrow c).borrow = s.borrow.map fun o => if o = some c then none else o := rfl
@[simp] theorem State.freeBorrow_arbPort (c : ClaimIdx) : (s.freeBorrow c).arbPort = s.arbPort := rfl
@[simp] theorem State.freeBorrow_arbTurn (c : ClaimIdx) : (s.freeBorrow c).arbTurn = s.arbTurn := rfl
@[simp] theorem State.freeBorrow_moves (c : ClaimIdx) : (s.freeBorrow c).moves = s.moves := rfl
@[simp] theorem State.freeBorrow_records (c : ClaimIdx) : (s.freeBorrow c).records = s.records := rfl
@[simp] theorem State.freeBorrow_dirTurn (c : ClaimIdx) : (s.freeBorrow c).dirTurn = s.dirTurn := rfl
@[simp] theorem State.freeBorrow_claims (c : ClaimIdx) : (s.freeBorrow c).claims = s.claims := rfl
@[simp] theorem State.freeBorrow_claimTurn (c : ClaimIdx) : (s.freeBorrow c).claimTurn = s.claimTurn := rfl
@[simp] theorem State.freeBorrow_port (c : ClaimIdx) : (s.freeBorrow c).port = s.port := rfl
@[simp] theorem State.freeBorrow_txq (c : ClaimIdx) : (s.freeBorrow c).txq = s.txq := rfl
@[simp] theorem State.freeBorrow_handover (c : ClaimIdx) : (s.freeBorrow c).handover = s.handover := rfl
@[simp] theorem State.freeBorrow_outBuf (c : ClaimIdx) : (s.freeBorrow c).outBuf = s.outBuf := rfl
@[simp] theorem State.freeBorrow_fwd (c : ClaimIdx) : (s.freeBorrow c).fwd = s.fwd := rfl
@[simp] theorem State.freeBorrow_rx (c : ClaimIdx) : (s.freeBorrow c).rx = s.rx := rfl
@[simp] theorem State.freeBorrow_inBuf (c : ClaimIdx) : (s.freeBorrow c).inBuf = s.inBuf := rfl
@[simp] theorem State.freeBorrow_chunkTurn (c : ClaimIdx) : (s.freeBorrow c).chunkTurn = s.chunkTurn := rfl
@[simp] theorem State.freeBorrow_station (c : ClaimIdx) : (s.freeBorrow c).station = s.station := rfl
@[simp] theorem State.freeBorrow_startRec (c : ClaimIdx) : (s.freeBorrow c).startRec = s.startRec := rfl
@[simp] theorem State.freeBorrow_prevInc (c : ClaimIdx) : (s.freeBorrow c).prevInc = s.prevInc := rfl
@[simp] theorem State.freeBorrow_probeOutstanding (c : ClaimIdx) : (s.freeBorrow c).probeOutstanding = s.probeOutstanding := rfl
@[simp] theorem State.freeBorrow_announceAwaited (c : ClaimIdx) : (s.freeBorrow c).announceAwaited = s.announceAwaited := rfl
@[simp] theorem State.freeBorrow_lifeCmd (c : ClaimIdx) : (s.freeBorrow c).lifeCmd = s.lifeCmd := rfl
@[simp] theorem State.freeBorrow_peers (c : ClaimIdx) : (s.freeBorrow c).peers = s.peers := rfl
@[simp] theorem State.freeBorrow_heldFrame (c : ClaimIdx) : (s.freeBorrow c).heldFrame = s.heldFrame := rfl
@[simp] theorem State.freeBorrow_window (c : ClaimIdx) : (s.freeBorrow c).window = s.window := rfl
@[simp] theorem State.freeBorrow_access (c : ClaimIdx) : (s.freeBorrow c).access = s.access := rfl
@[simp] theorem State.freeBorrow_staging (c : ClaimIdx) : (s.freeBorrow c).staging = s.staging := rfl
@[simp] theorem State.freeBorrow_cmdq (c : ClaimIdx) : (s.freeBorrow c).cmdq = s.cmdq := rfl
@[simp] theorem State.freeBorrow_seqNext (c : ClaimIdx) : (s.freeBorrow c).seqNext = s.seqNext := rfl
@[simp] theorem State.freeBorrow_postResult (c : ClaimIdx) : (s.freeBorrow c).postResult = s.postResult := rfl
@[simp] theorem State.freeBorrow_inFlight (c : ClaimIdx) : (s.freeBorrow c).inFlight = s.inFlight := rfl
@[simp] theorem State.freeBorrow_cplq (c : ClaimIdx) : (s.freeBorrow c).cplq = s.cplq := rfl
@[simp] theorem State.freeBorrow_attention (c : ClaimIdx) : (s.freeBorrow c).attention = s.attention := rfl
@[simp] theorem State.freeBorrow_cplEnable (c : ClaimIdx) : (s.freeBorrow c).cplEnable = s.cplEnable := rfl
@[simp] theorem State.freeBorrow_attEnable (c : ClaimIdx) : (s.freeBorrow c).attEnable = s.attEnable := rfl

/-! ### setDirTurn -/

@[simp] theorem State.setDirTurn_pending (u : Turn) : (s.setDirTurn u).pending = s.pending := rfl
@[simp] theorem State.setDirTurn_mail (u : Turn) : (s.setDirTurn u).mail = s.mail := rfl
@[simp] theorem State.setDirTurn_freeCount (u : Turn) : (s.setDirTurn u).freeCount = s.freeCount := rfl
@[simp] theorem State.setDirTurn_rstHeld (u : Turn) : (s.setDirTurn u).rstHeld = s.rstHeld := rfl
@[simp] theorem State.setDirTurn_resetRequested (u : Turn) : (s.setDirTurn u).resetRequested = s.resetRequested := rfl
@[simp] theorem State.setDirTurn_busRead (u : Turn) : (s.setDirTurn u).busRead = s.busRead := rfl
@[simp] theorem State.setDirTurn_rout (u : Turn) : (s.setDirTurn u).rout = s.rout := rfl
@[simp] theorem State.setDirTurn_straps (u : Turn) : (s.setDirTurn u).straps = s.straps := rfl
@[simp] theorem State.setDirTurn_dram (u : Turn) : (s.setDirTurn u).dram = s.dram := rfl
@[simp] theorem State.setDirTurn_dramEpoch (u : Turn) : (s.setDirTurn u).dramEpoch = s.dramEpoch := rfl
@[simp] theorem State.setDirTurn_homeCount (u : Turn) : (s.setDirTurn u).homeCount = s.homeCount := rfl
@[simp] theorem State.setDirTurn_borrowCount (u : Turn) : (s.setDirTurn u).borrowCount = s.borrowCount := rfl
@[simp] theorem State.setDirTurn_borrow (u : Turn) : (s.setDirTurn u).borrow = s.borrow := rfl
@[simp] theorem State.setDirTurn_arbPort (u : Turn) : (s.setDirTurn u).arbPort = s.arbPort := rfl
@[simp] theorem State.setDirTurn_arbTurn (u : Turn) : (s.setDirTurn u).arbTurn = s.arbTurn := rfl
@[simp] theorem State.setDirTurn_moves (u : Turn) : (s.setDirTurn u).moves = s.moves := rfl
@[simp] theorem State.setDirTurn_records (u : Turn) : (s.setDirTurn u).records = s.records := rfl
@[simp] theorem State.setDirTurn_dirTurn (u : Turn) : (s.setDirTurn u).dirTurn = u := rfl
@[simp] theorem State.setDirTurn_claims (u : Turn) : (s.setDirTurn u).claims = s.claims := rfl
@[simp] theorem State.setDirTurn_claimTurn (u : Turn) : (s.setDirTurn u).claimTurn = s.claimTurn := rfl
@[simp] theorem State.setDirTurn_port (u : Turn) : (s.setDirTurn u).port = s.port := rfl
@[simp] theorem State.setDirTurn_txq (u : Turn) : (s.setDirTurn u).txq = s.txq := rfl
@[simp] theorem State.setDirTurn_handover (u : Turn) : (s.setDirTurn u).handover = s.handover := rfl
@[simp] theorem State.setDirTurn_outBuf (u : Turn) : (s.setDirTurn u).outBuf = s.outBuf := rfl
@[simp] theorem State.setDirTurn_fwd (u : Turn) : (s.setDirTurn u).fwd = s.fwd := rfl
@[simp] theorem State.setDirTurn_rx (u : Turn) : (s.setDirTurn u).rx = s.rx := rfl
@[simp] theorem State.setDirTurn_inBuf (u : Turn) : (s.setDirTurn u).inBuf = s.inBuf := rfl
@[simp] theorem State.setDirTurn_chunkTurn (u : Turn) : (s.setDirTurn u).chunkTurn = s.chunkTurn := rfl
@[simp] theorem State.setDirTurn_station (u : Turn) : (s.setDirTurn u).station = s.station := rfl
@[simp] theorem State.setDirTurn_startRec (u : Turn) : (s.setDirTurn u).startRec = s.startRec := rfl
@[simp] theorem State.setDirTurn_prevInc (u : Turn) : (s.setDirTurn u).prevInc = s.prevInc := rfl
@[simp] theorem State.setDirTurn_probeOutstanding (u : Turn) : (s.setDirTurn u).probeOutstanding = s.probeOutstanding := rfl
@[simp] theorem State.setDirTurn_announceAwaited (u : Turn) : (s.setDirTurn u).announceAwaited = s.announceAwaited := rfl
@[simp] theorem State.setDirTurn_lifeCmd (u : Turn) : (s.setDirTurn u).lifeCmd = s.lifeCmd := rfl
@[simp] theorem State.setDirTurn_peers (u : Turn) : (s.setDirTurn u).peers = s.peers := rfl
@[simp] theorem State.setDirTurn_heldFrame (u : Turn) : (s.setDirTurn u).heldFrame = s.heldFrame := rfl
@[simp] theorem State.setDirTurn_window (u : Turn) : (s.setDirTurn u).window = s.window := rfl
@[simp] theorem State.setDirTurn_access (u : Turn) : (s.setDirTurn u).access = s.access := rfl
@[simp] theorem State.setDirTurn_staging (u : Turn) : (s.setDirTurn u).staging = s.staging := rfl
@[simp] theorem State.setDirTurn_cmdq (u : Turn) : (s.setDirTurn u).cmdq = s.cmdq := rfl
@[simp] theorem State.setDirTurn_seqNext (u : Turn) : (s.setDirTurn u).seqNext = s.seqNext := rfl
@[simp] theorem State.setDirTurn_postResult (u : Turn) : (s.setDirTurn u).postResult = s.postResult := rfl
@[simp] theorem State.setDirTurn_inFlight (u : Turn) : (s.setDirTurn u).inFlight = s.inFlight := rfl
@[simp] theorem State.setDirTurn_cplq (u : Turn) : (s.setDirTurn u).cplq = s.cplq := rfl
@[simp] theorem State.setDirTurn_attention (u : Turn) : (s.setDirTurn u).attention = s.attention := rfl
@[simp] theorem State.setDirTurn_cplEnable (u : Turn) : (s.setDirTurn u).cplEnable = s.cplEnable := rfl
@[simp] theorem State.setDirTurn_attEnable (u : Turn) : (s.setDirTurn u).attEnable = s.attEnable := rfl

/-! ### setClaimTurn -/

@[simp] theorem State.setClaimTurn_pending (u : Turn) : (s.setClaimTurn u).pending = s.pending := rfl
@[simp] theorem State.setClaimTurn_mail (u : Turn) : (s.setClaimTurn u).mail = s.mail := rfl
@[simp] theorem State.setClaimTurn_freeCount (u : Turn) : (s.setClaimTurn u).freeCount = s.freeCount := rfl
@[simp] theorem State.setClaimTurn_rstHeld (u : Turn) : (s.setClaimTurn u).rstHeld = s.rstHeld := rfl
@[simp] theorem State.setClaimTurn_resetRequested (u : Turn) : (s.setClaimTurn u).resetRequested = s.resetRequested := rfl
@[simp] theorem State.setClaimTurn_busRead (u : Turn) : (s.setClaimTurn u).busRead = s.busRead := rfl
@[simp] theorem State.setClaimTurn_rout (u : Turn) : (s.setClaimTurn u).rout = s.rout := rfl
@[simp] theorem State.setClaimTurn_straps (u : Turn) : (s.setClaimTurn u).straps = s.straps := rfl
@[simp] theorem State.setClaimTurn_dram (u : Turn) : (s.setClaimTurn u).dram = s.dram := rfl
@[simp] theorem State.setClaimTurn_dramEpoch (u : Turn) : (s.setClaimTurn u).dramEpoch = s.dramEpoch := rfl
@[simp] theorem State.setClaimTurn_homeCount (u : Turn) : (s.setClaimTurn u).homeCount = s.homeCount := rfl
@[simp] theorem State.setClaimTurn_borrowCount (u : Turn) : (s.setClaimTurn u).borrowCount = s.borrowCount := rfl
@[simp] theorem State.setClaimTurn_borrow (u : Turn) : (s.setClaimTurn u).borrow = s.borrow := rfl
@[simp] theorem State.setClaimTurn_arbPort (u : Turn) : (s.setClaimTurn u).arbPort = s.arbPort := rfl
@[simp] theorem State.setClaimTurn_arbTurn (u : Turn) : (s.setClaimTurn u).arbTurn = s.arbTurn := rfl
@[simp] theorem State.setClaimTurn_moves (u : Turn) : (s.setClaimTurn u).moves = s.moves := rfl
@[simp] theorem State.setClaimTurn_records (u : Turn) : (s.setClaimTurn u).records = s.records := rfl
@[simp] theorem State.setClaimTurn_dirTurn (u : Turn) : (s.setClaimTurn u).dirTurn = s.dirTurn := rfl
@[simp] theorem State.setClaimTurn_claims (u : Turn) : (s.setClaimTurn u).claims = s.claims := rfl
@[simp] theorem State.setClaimTurn_claimTurn (u : Turn) : (s.setClaimTurn u).claimTurn = u := rfl
@[simp] theorem State.setClaimTurn_port (u : Turn) : (s.setClaimTurn u).port = s.port := rfl
@[simp] theorem State.setClaimTurn_txq (u : Turn) : (s.setClaimTurn u).txq = s.txq := rfl
@[simp] theorem State.setClaimTurn_handover (u : Turn) : (s.setClaimTurn u).handover = s.handover := rfl
@[simp] theorem State.setClaimTurn_outBuf (u : Turn) : (s.setClaimTurn u).outBuf = s.outBuf := rfl
@[simp] theorem State.setClaimTurn_fwd (u : Turn) : (s.setClaimTurn u).fwd = s.fwd := rfl
@[simp] theorem State.setClaimTurn_rx (u : Turn) : (s.setClaimTurn u).rx = s.rx := rfl
@[simp] theorem State.setClaimTurn_inBuf (u : Turn) : (s.setClaimTurn u).inBuf = s.inBuf := rfl
@[simp] theorem State.setClaimTurn_chunkTurn (u : Turn) : (s.setClaimTurn u).chunkTurn = s.chunkTurn := rfl
@[simp] theorem State.setClaimTurn_station (u : Turn) : (s.setClaimTurn u).station = s.station := rfl
@[simp] theorem State.setClaimTurn_startRec (u : Turn) : (s.setClaimTurn u).startRec = s.startRec := rfl
@[simp] theorem State.setClaimTurn_prevInc (u : Turn) : (s.setClaimTurn u).prevInc = s.prevInc := rfl
@[simp] theorem State.setClaimTurn_probeOutstanding (u : Turn) : (s.setClaimTurn u).probeOutstanding = s.probeOutstanding := rfl
@[simp] theorem State.setClaimTurn_announceAwaited (u : Turn) : (s.setClaimTurn u).announceAwaited = s.announceAwaited := rfl
@[simp] theorem State.setClaimTurn_lifeCmd (u : Turn) : (s.setClaimTurn u).lifeCmd = s.lifeCmd := rfl
@[simp] theorem State.setClaimTurn_peers (u : Turn) : (s.setClaimTurn u).peers = s.peers := rfl
@[simp] theorem State.setClaimTurn_heldFrame (u : Turn) : (s.setClaimTurn u).heldFrame = s.heldFrame := rfl
@[simp] theorem State.setClaimTurn_window (u : Turn) : (s.setClaimTurn u).window = s.window := rfl
@[simp] theorem State.setClaimTurn_access (u : Turn) : (s.setClaimTurn u).access = s.access := rfl
@[simp] theorem State.setClaimTurn_staging (u : Turn) : (s.setClaimTurn u).staging = s.staging := rfl
@[simp] theorem State.setClaimTurn_cmdq (u : Turn) : (s.setClaimTurn u).cmdq = s.cmdq := rfl
@[simp] theorem State.setClaimTurn_seqNext (u : Turn) : (s.setClaimTurn u).seqNext = s.seqNext := rfl
@[simp] theorem State.setClaimTurn_postResult (u : Turn) : (s.setClaimTurn u).postResult = s.postResult := rfl
@[simp] theorem State.setClaimTurn_inFlight (u : Turn) : (s.setClaimTurn u).inFlight = s.inFlight := rfl
@[simp] theorem State.setClaimTurn_cplq (u : Turn) : (s.setClaimTurn u).cplq = s.cplq := rfl
@[simp] theorem State.setClaimTurn_attention (u : Turn) : (s.setClaimTurn u).attention = s.attention := rfl
@[simp] theorem State.setClaimTurn_cplEnable (u : Turn) : (s.setClaimTurn u).cplEnable = s.cplEnable := rfl
@[simp] theorem State.setClaimTurn_attEnable (u : Turn) : (s.setClaimTurn u).attEnable = s.attEnable := rfl

/-! ### orderFrom -/

@[simp] theorem State.orderFrom_pending (n : Nat) : (s.orderFrom n).pending = s.pending := rfl
@[simp] theorem State.orderFrom_mail (n : Nat) : (s.orderFrom n).mail = s.mail := rfl
@[simp] theorem State.orderFrom_freeCount (n : Nat) : (s.orderFrom n).freeCount = s.freeCount := rfl
@[simp] theorem State.orderFrom_rstHeld (n : Nat) : (s.orderFrom n).rstHeld = s.rstHeld := rfl
@[simp] theorem State.orderFrom_resetRequested (n : Nat) : (s.orderFrom n).resetRequested = s.resetRequested := rfl
@[simp] theorem State.orderFrom_busRead (n : Nat) : (s.orderFrom n).busRead = s.busRead := rfl
@[simp] theorem State.orderFrom_rout (n : Nat) : (s.orderFrom n).rout = s.rout := rfl
@[simp] theorem State.orderFrom_straps (n : Nat) : (s.orderFrom n).straps = s.straps := rfl
@[simp] theorem State.orderFrom_dram (n : Nat) : (s.orderFrom n).dram = s.dram := rfl
@[simp] theorem State.orderFrom_dramEpoch (n : Nat) : (s.orderFrom n).dramEpoch = s.dramEpoch := rfl
@[simp] theorem State.orderFrom_homeCount (n : Nat) : (s.orderFrom n).homeCount = s.homeCount := rfl
@[simp] theorem State.orderFrom_borrowCount (n : Nat) : (s.orderFrom n).borrowCount = s.borrowCount := rfl
@[simp] theorem State.orderFrom_borrow (n : Nat) : (s.orderFrom n).borrow = s.borrow := rfl
@[simp] theorem State.orderFrom_arbPort (n : Nat) : (s.orderFrom n).arbPort = s.arbPort := rfl
@[simp] theorem State.orderFrom_arbTurn (n : Nat) : (s.orderFrom n).arbTurn = s.arbTurn := rfl
@[simp] theorem State.orderFrom_moves (n : Nat) : (s.orderFrom n).moves = s.moves := rfl
@[simp] theorem State.orderFrom_records (n : Nat) : (s.orderFrom n).records = s.records := rfl
@[simp] theorem State.orderFrom_dirTurn (n : Nat) : (s.orderFrom n).dirTurn = s.dirTurn := rfl
@[simp] theorem State.orderFrom_claims (n : Nat) : (s.orderFrom n).claims = s.claims := rfl
@[simp] theorem State.orderFrom_claimTurn (n : Nat) : (s.orderFrom n).claimTurn = s.claimTurn := rfl
@[simp] theorem State.orderFrom_port (n : Nat) : (s.orderFrom n).port = s.port := rfl
@[simp] theorem State.orderFrom_txq (n : Nat) : (s.orderFrom n).txq = s.txq := rfl
@[simp] theorem State.orderFrom_handover (n : Nat) : (s.orderFrom n).handover = s.handover := rfl
@[simp] theorem State.orderFrom_outBuf (n : Nat) : (s.orderFrom n).outBuf = s.outBuf := rfl
@[simp] theorem State.orderFrom_fwd (n : Nat) : (s.orderFrom n).fwd = s.fwd := rfl
@[simp] theorem State.orderFrom_rx (n : Nat) : (s.orderFrom n).rx = s.rx := rfl
@[simp] theorem State.orderFrom_inBuf (n : Nat) : (s.orderFrom n).inBuf = s.inBuf := rfl
@[simp] theorem State.orderFrom_chunkTurn (n : Nat) : (s.orderFrom n).chunkTurn = s.chunkTurn := rfl
@[simp] theorem State.orderFrom_station (n : Nat) : (s.orderFrom n).station = s.station := rfl
@[simp] theorem State.orderFrom_startRec (n : Nat) : (s.orderFrom n).startRec = s.startRec := rfl
@[simp] theorem State.orderFrom_prevInc (n : Nat) : (s.orderFrom n).prevInc = s.prevInc := rfl
@[simp] theorem State.orderFrom_probeOutstanding (n : Nat) : (s.orderFrom n).probeOutstanding = s.probeOutstanding := rfl
@[simp] theorem State.orderFrom_announceAwaited (n : Nat) : (s.orderFrom n).announceAwaited = s.announceAwaited := rfl
@[simp] theorem State.orderFrom_lifeCmd (n : Nat) : (s.orderFrom n).lifeCmd = s.lifeCmd := rfl
@[simp] theorem State.orderFrom_peers (n : Nat) : (s.orderFrom n).peers = s.peers := rfl
@[simp] theorem State.orderFrom_heldFrame (n : Nat) : (s.orderFrom n).heldFrame = s.heldFrame := rfl
@[simp] theorem State.orderFrom_window (n : Nat) : (s.orderFrom n).window = s.window := rfl
@[simp] theorem State.orderFrom_access (n : Nat) : (s.orderFrom n).access = s.access := rfl
@[simp] theorem State.orderFrom_staging (n : Nat) : (s.orderFrom n).staging = s.staging := rfl
@[simp] theorem State.orderFrom_cmdq (n : Nat) : (s.orderFrom n).cmdq = s.cmdq := rfl
@[simp] theorem State.orderFrom_seqNext (n : Nat) : (s.orderFrom n).seqNext = s.seqNext := rfl
@[simp] theorem State.orderFrom_postResult (n : Nat) : (s.orderFrom n).postResult = s.postResult := rfl
@[simp] theorem State.orderFrom_inFlight (n : Nat) : (s.orderFrom n).inFlight = s.inFlight := rfl
@[simp] theorem State.orderFrom_cplq (n : Nat) : (s.orderFrom n).cplq = s.cplq.take n ++ orderByClaim (s.cplq.drop n) := rfl
@[simp] theorem State.orderFrom_attention (n : Nat) : (s.orderFrom n).attention = s.attention := rfl
@[simp] theorem State.orderFrom_cplEnable (n : Nat) : (s.orderFrom n).cplEnable = s.cplEnable := rfl
@[simp] theorem State.orderFrom_attEnable (n : Nat) : (s.orderFrom n).attEnable = s.attEnable := rfl

/-! ### bringForward -/

@[simp] theorem State.bringForward_pending (n : Nat) (p : Completion → Bool) : (s.bringForward n p).pending = s.pending := rfl
@[simp] theorem State.bringForward_mail (n : Nat) (p : Completion → Bool) : (s.bringForward n p).mail = s.mail := rfl
@[simp] theorem State.bringForward_freeCount (n : Nat) (p : Completion → Bool) : (s.bringForward n p).freeCount = s.freeCount := rfl
@[simp] theorem State.bringForward_rstHeld (n : Nat) (p : Completion → Bool) : (s.bringForward n p).rstHeld = s.rstHeld := rfl
@[simp] theorem State.bringForward_resetRequested (n : Nat) (p : Completion → Bool) : (s.bringForward n p).resetRequested = s.resetRequested := rfl
@[simp] theorem State.bringForward_busRead (n : Nat) (p : Completion → Bool) : (s.bringForward n p).busRead = s.busRead := rfl
@[simp] theorem State.bringForward_rout (n : Nat) (p : Completion → Bool) : (s.bringForward n p).rout = s.rout := rfl
@[simp] theorem State.bringForward_straps (n : Nat) (p : Completion → Bool) : (s.bringForward n p).straps = s.straps := rfl
@[simp] theorem State.bringForward_dram (n : Nat) (p : Completion → Bool) : (s.bringForward n p).dram = s.dram := rfl
@[simp] theorem State.bringForward_dramEpoch (n : Nat) (p : Completion → Bool) : (s.bringForward n p).dramEpoch = s.dramEpoch := rfl
@[simp] theorem State.bringForward_homeCount (n : Nat) (p : Completion → Bool) : (s.bringForward n p).homeCount = s.homeCount := rfl
@[simp] theorem State.bringForward_borrowCount (n : Nat) (p : Completion → Bool) : (s.bringForward n p).borrowCount = s.borrowCount := rfl
@[simp] theorem State.bringForward_borrow (n : Nat) (p : Completion → Bool) : (s.bringForward n p).borrow = s.borrow := rfl
@[simp] theorem State.bringForward_arbPort (n : Nat) (p : Completion → Bool) : (s.bringForward n p).arbPort = s.arbPort := rfl
@[simp] theorem State.bringForward_arbTurn (n : Nat) (p : Completion → Bool) : (s.bringForward n p).arbTurn = s.arbTurn := rfl
@[simp] theorem State.bringForward_moves (n : Nat) (p : Completion → Bool) : (s.bringForward n p).moves = s.moves := rfl
@[simp] theorem State.bringForward_records (n : Nat) (p : Completion → Bool) : (s.bringForward n p).records = s.records := rfl
@[simp] theorem State.bringForward_dirTurn (n : Nat) (p : Completion → Bool) : (s.bringForward n p).dirTurn = s.dirTurn := rfl
@[simp] theorem State.bringForward_claims (n : Nat) (p : Completion → Bool) : (s.bringForward n p).claims = s.claims := rfl
@[simp] theorem State.bringForward_claimTurn (n : Nat) (p : Completion → Bool) : (s.bringForward n p).claimTurn = s.claimTurn := rfl
@[simp] theorem State.bringForward_port (n : Nat) (p : Completion → Bool) : (s.bringForward n p).port = s.port := rfl
@[simp] theorem State.bringForward_txq (n : Nat) (p : Completion → Bool) : (s.bringForward n p).txq = s.txq := rfl
@[simp] theorem State.bringForward_handover (n : Nat) (p : Completion → Bool) : (s.bringForward n p).handover = s.handover := rfl
@[simp] theorem State.bringForward_outBuf (n : Nat) (p : Completion → Bool) : (s.bringForward n p).outBuf = s.outBuf := rfl
@[simp] theorem State.bringForward_fwd (n : Nat) (p : Completion → Bool) : (s.bringForward n p).fwd = s.fwd := rfl
@[simp] theorem State.bringForward_rx (n : Nat) (p : Completion → Bool) : (s.bringForward n p).rx = s.rx := rfl
@[simp] theorem State.bringForward_inBuf (n : Nat) (p : Completion → Bool) : (s.bringForward n p).inBuf = s.inBuf := rfl
@[simp] theorem State.bringForward_chunkTurn (n : Nat) (p : Completion → Bool) : (s.bringForward n p).chunkTurn = s.chunkTurn := rfl
@[simp] theorem State.bringForward_station (n : Nat) (p : Completion → Bool) : (s.bringForward n p).station = s.station := rfl
@[simp] theorem State.bringForward_startRec (n : Nat) (p : Completion → Bool) : (s.bringForward n p).startRec = s.startRec := rfl
@[simp] theorem State.bringForward_prevInc (n : Nat) (p : Completion → Bool) : (s.bringForward n p).prevInc = s.prevInc := rfl
@[simp] theorem State.bringForward_probeOutstanding (n : Nat) (p : Completion → Bool) : (s.bringForward n p).probeOutstanding = s.probeOutstanding := rfl
@[simp] theorem State.bringForward_announceAwaited (n : Nat) (p : Completion → Bool) : (s.bringForward n p).announceAwaited = s.announceAwaited := rfl
@[simp] theorem State.bringForward_lifeCmd (n : Nat) (p : Completion → Bool) : (s.bringForward n p).lifeCmd = s.lifeCmd := rfl
@[simp] theorem State.bringForward_peers (n : Nat) (p : Completion → Bool) : (s.bringForward n p).peers = s.peers := rfl
@[simp] theorem State.bringForward_heldFrame (n : Nat) (p : Completion → Bool) : (s.bringForward n p).heldFrame = s.heldFrame := rfl
@[simp] theorem State.bringForward_window (n : Nat) (p : Completion → Bool) : (s.bringForward n p).window = s.window := rfl
@[simp] theorem State.bringForward_access (n : Nat) (p : Completion → Bool) : (s.bringForward n p).access = s.access := rfl
@[simp] theorem State.bringForward_staging (n : Nat) (p : Completion → Bool) : (s.bringForward n p).staging = s.staging := rfl
@[simp] theorem State.bringForward_cmdq (n : Nat) (p : Completion → Bool) : (s.bringForward n p).cmdq = s.cmdq := rfl
@[simp] theorem State.bringForward_seqNext (n : Nat) (p : Completion → Bool) : (s.bringForward n p).seqNext = s.seqNext := rfl
@[simp] theorem State.bringForward_postResult (n : Nat) (p : Completion → Bool) : (s.bringForward n p).postResult = s.postResult := rfl
@[simp] theorem State.bringForward_inFlight (n : Nat) (p : Completion → Bool) : (s.bringForward n p).inFlight = s.inFlight := rfl
@[simp] theorem State.bringForward_cplq (n : Nat) (p : Completion → Bool) : (s.bringForward n p).cplq = s.cplq.take n ++ ((s.cplq.drop n).filter p ++ (s.cplq.drop n).filter fun c => !p c) := rfl
@[simp] theorem State.bringForward_attention (n : Nat) (p : Completion → Bool) : (s.bringForward n p).attention = s.attention := rfl
@[simp] theorem State.bringForward_cplEnable (n : Nat) (p : Completion → Bool) : (s.bringForward n p).cplEnable = s.cplEnable := rfl
@[simp] theorem State.bringForward_attEnable (n : Nat) (p : Completion → Bool) : (s.bringForward n p).attEnable = s.attEnable := rfl

/-! ### disown -/

@[simp] theorem State.disown_pending (c : ClaimIdx) : (s.disown c).pending = s.pending := rfl
@[simp] theorem State.disown_mail (c : ClaimIdx) : (s.disown c).mail = s.mail := rfl
@[simp] theorem State.disown_freeCount (c : ClaimIdx) : (s.disown c).freeCount = s.freeCount := rfl
@[simp] theorem State.disown_rstHeld (c : ClaimIdx) : (s.disown c).rstHeld = s.rstHeld := rfl
@[simp] theorem State.disown_resetRequested (c : ClaimIdx) : (s.disown c).resetRequested = s.resetRequested := rfl
@[simp] theorem State.disown_busRead (c : ClaimIdx) : (s.disown c).busRead = s.busRead := rfl
@[simp] theorem State.disown_rout (c : ClaimIdx) : (s.disown c).rout = s.rout := rfl
@[simp] theorem State.disown_straps (c : ClaimIdx) : (s.disown c).straps = s.straps := rfl
@[simp] theorem State.disown_dram (c : ClaimIdx) : (s.disown c).dram = s.dram := rfl
@[simp] theorem State.disown_dramEpoch (c : ClaimIdx) : (s.disown c).dramEpoch = s.dramEpoch := rfl
@[simp] theorem State.disown_homeCount (c : ClaimIdx) : (s.disown c).homeCount = s.homeCount := rfl
@[simp] theorem State.disown_borrowCount (c : ClaimIdx) : (s.disown c).borrowCount = s.borrowCount := rfl
@[simp] theorem State.disown_borrow (c : ClaimIdx) : (s.disown c).borrow = s.borrow := rfl
@[simp] theorem State.disown_arbPort (c : ClaimIdx) : (s.disown c).arbPort = s.arbPort := rfl
@[simp] theorem State.disown_arbTurn (c : ClaimIdx) : (s.disown c).arbTurn = s.arbTurn := rfl
@[simp] theorem State.disown_moves (c : ClaimIdx) : (s.disown c).moves = s.moves := rfl
@[simp] theorem State.disown_records (c : ClaimIdx) : (s.disown c).records = s.records := rfl
@[simp] theorem State.disown_dirTurn (c : ClaimIdx) : (s.disown c).dirTurn = s.dirTurn := rfl
@[simp] theorem State.disown_claims (c : ClaimIdx) : (s.disown c).claims = s.claims := rfl
@[simp] theorem State.disown_claimTurn (c : ClaimIdx) : (s.disown c).claimTurn = s.claimTurn := rfl
@[simp] theorem State.disown_port (c : ClaimIdx) : (s.disown c).port = s.port := rfl
@[simp] theorem State.disown_txq (c : ClaimIdx) : (s.disown c).txq = s.txq.map fun e => { e with owner := e.owner.without c } := rfl
@[simp] theorem State.disown_handover (c : ClaimIdx) : (s.disown c).handover = s.handover.map fun h => { h with owner := h.owner.without c } := rfl
@[simp] theorem State.disown_outBuf (c : ClaimIdx) : (s.disown c).outBuf = s.outBuf := rfl
@[simp] theorem State.disown_fwd (c : ClaimIdx) : (s.disown c).fwd = s.fwd := rfl
@[simp] theorem State.disown_rx (c : ClaimIdx) : (s.disown c).rx = s.rx := rfl
@[simp] theorem State.disown_inBuf (c : ClaimIdx) : (s.disown c).inBuf = s.inBuf := rfl
@[simp] theorem State.disown_chunkTurn (c : ClaimIdx) : (s.disown c).chunkTurn = s.chunkTurn := rfl
@[simp] theorem State.disown_station (c : ClaimIdx) : (s.disown c).station = s.station := rfl
@[simp] theorem State.disown_startRec (c : ClaimIdx) : (s.disown c).startRec = s.startRec := rfl
@[simp] theorem State.disown_prevInc (c : ClaimIdx) : (s.disown c).prevInc = s.prevInc := rfl
@[simp] theorem State.disown_probeOutstanding (c : ClaimIdx) : (s.disown c).probeOutstanding = s.probeOutstanding := rfl
@[simp] theorem State.disown_announceAwaited (c : ClaimIdx) : (s.disown c).announceAwaited = s.announceAwaited := rfl
@[simp] theorem State.disown_lifeCmd (c : ClaimIdx) : (s.disown c).lifeCmd = s.lifeCmd := rfl
@[simp] theorem State.disown_peers (c : ClaimIdx) : (s.disown c).peers = s.peers := rfl
@[simp] theorem State.disown_heldFrame (c : ClaimIdx) : (s.disown c).heldFrame = s.heldFrame := rfl
@[simp] theorem State.disown_window (c : ClaimIdx) : (s.disown c).window = s.window := rfl
@[simp] theorem State.disown_access (c : ClaimIdx) : (s.disown c).access = s.access := rfl
@[simp] theorem State.disown_staging (c : ClaimIdx) : (s.disown c).staging = s.staging := rfl
@[simp] theorem State.disown_cmdq (c : ClaimIdx) : (s.disown c).cmdq = s.cmdq := rfl
@[simp] theorem State.disown_seqNext (c : ClaimIdx) : (s.disown c).seqNext = s.seqNext := rfl
@[simp] theorem State.disown_postResult (c : ClaimIdx) : (s.disown c).postResult = s.postResult := rfl
@[simp] theorem State.disown_inFlight (c : ClaimIdx) : (s.disown c).inFlight = s.inFlight := rfl
@[simp] theorem State.disown_cplq (c : ClaimIdx) : (s.disown c).cplq = s.cplq := rfl
@[simp] theorem State.disown_attention (c : ClaimIdx) : (s.disown c).attention = s.attention := rfl
@[simp] theorem State.disown_cplEnable (c : ClaimIdx) : (s.disown c).cplEnable = s.cplEnable := rfl
@[simp] theorem State.disown_attEnable (c : ClaimIdx) : (s.disown c).attEnable = s.attEnable := rfl

/-! ### A slot of a vector after one slot is set -/

theorem get_eq_getElem {n : Nat} {α : Type} (v : Vector α n) (i : Fin n) : v.get i = v[i.val] := rfl

theorem get_set {n : Nat} {α : Type} (v : Vector α n) (i j : Fin n) (x : α) :
    (v.set i.val x i.isLt).get j = if i = j then x else v.get j := by
  rw [get_eq_getElem, get_eq_getElem, Vector.getElem_set]
  by_cases h : i = j
  · simp [h]
  · have hv : i.val ≠ j.val := fun e => h (Fin.ext e)
    simp [h, hv]

theorem State.claim_setClaim (c d : ClaimIdx) (v : Claim) :
    (s.setClaim c v).claim d = if c = d then v else s.claim d := get_set s.claims c d v

@[simp] theorem State.claim_setClaim_same (c : ClaimIdx) (v : Claim) : (s.setClaim c v).claim c = v := by
  rw [State.claim_setClaim, if_pos rfl]

theorem State.window_setEntry (e d : EntryIdx) (v : Entry) :
    (s.setEntry e v).window.get d = if e = d then v else s.window.get d := get_set s.window e d v

theorem State.peers_setPeer (p q : Station) (v : Peer) :
    (s.setPeer p v).peers.get q = if p = q then v else s.peers.get q := get_set s.peers p q v

end Sys2Proof.Machine
end

