-- ==== Sys2Proof/Laws/Internal.lean ====
section
/-! SUPPORT. What the shared operations can do to a state: each keeps the part outside the exchanges, lets no queue overflow,
lists no subject twice, lists the same window entries, loses no place of the reservation, and leaves every payload in a buffer
of its own. One lemma for each operation, in the form "if the state so far is reached by such operations, so is the state after
this one". -/

namespace Sys2Proof.Machine

/-! ### Counting what is in flight -/

theorem sum_map_update {α : Type} [DecidableEq α] (l : List α) (hn : l.Nodup) (c : α) (hc : c ∈ l) (f : α → Nat) (v : Nat) :
    (l.map fun d => if d = c then v else f d).sum + f c = (l.map f).sum + v := by
  induction l with
  | nil => simp at hc
  | cons a rest ih =>
    rw [List.nodup_cons] at hn
    simp only [List.map_cons, List.sum_cons]
    rcases List.mem_cons.1 hc with h | h
    · subst h
      have : (rest.map fun d => if d = c then v else f d) = rest.map f := by
        apply List.map_congr_left
        intro d hd
        have : d ≠ c := fun k => hn.1 (k ▸ hd)
        rw [if_neg this]
      rw [this, if_pos rfl]; omega
    · have : a ≠ c := fun k => hn.1 (k ▸ h)
      rw [if_neg this]
      have := ih hn.2 h
      omega

/-- A claim replaced: what is to complete changes by what the claim has to complete. -/
theorem State.tickets_setClaim (s : State) (c : ClaimIdx) (v : Claim) :
    (s.setClaim c v).tickets + (s.claim c).tickets = s.tickets + v.tickets := by
  have h := sum_map_update claimIdxs (List.nodup_finRange 32) c (List.mem_finRange c) (fun d => (s.claim d).tickets) v.tickets
  have e : (claimIdxs.map fun d => ((s.setClaim c v).claim d).tickets)
      = claimIdxs.map fun d => if d = c then v.tickets else (s.claim d).tickets := by
    apply List.map_congr_left
    intro d _
    rw [State.claim_setClaim]
    by_cases hd : c = d
    · subst hd; simp
    · rw [if_neg hd, if_neg (Ne.symm hd)]
  unfold State.tickets
  rw [e]
  show _ + bit s.lifeCmd.isSome + _ = _
  omega

/-! ### What an operation may do -/

/-- The parts of the state that the properties below speak of, the claims by what they have to complete. -/
structure Bounded where
  txq : List TxEntry
  handover : List Handed
  fwd : List Frame
  rx : List RxEntry
  heldFrame : Option RxEntry
  moves : List Move
  outBuf : Vector OutBuf 4
  inBuf : Vector (Option (List Byte)) 4
  attention : List Item
  tickets : Nat
  inFlight : Nat
  completions : Nat

def State.bounded (s : State) : Bounded :=
  { txq := s.txq, handover := s.handover, fwd := s.fwd, rx := s.rx, heldFrame := s.heldFrame, moves := s.moves,
    outBuf := s.outBuf, inBuf := s.inBuf, attention := s.attention, tickets := s.tickets, inFlight := s.inFlight,
    completions := s.cplq.length }

/-- `t` is reached from `s` by operations that stay inside the exchanges between the blocks; those have taken care of the
payload in the inbound buffer `b`, if any. -/
structure Within (b : Option (Fin 4)) (s t : State) : Prop where
  outside : t.outside = s.outside
  queues : s.QueuesFit → t.QueuesFit
  items : s.ItemsDistinct → t.ItemsDistinct
  entries : ∀ e, t.entryListed e = s.entryListed e
  reserved : ∀ k, s.Reserved k → t.Reserved k
  outgoing : s.Outgoing → t.Outgoing
  inbound : ∀ l, s.Inbound (b.toList ++ l) → t.Inbound l

/-- The same where no payload was at stake. -/
abbrev Internal (s t : State) : Prop := Within none s t

namespace Within

variable {s t u : State} {pay : Option (Fin 4)}

theorem refl (s : State) : Internal s s := ⟨rfl, id, id, fun _ => rfl, fun _ => id, id, fun _ => id⟩

theorem trans (h : Within pay s t) (k : Internal t u) : Within pay s u :=
  ⟨k.outside.trans h.outside, fun q => k.queues (h.queues q), fun i => k.items (h.items i),
    fun e => (k.entries e).trans (h.entries e), fun n r => k.reserved n (h.reserved n r), fun o => k.outgoing (h.outgoing o),
    fun l i => k.inbound l (h.inbound _ i)⟩

/-- Operations inside the exchanges, and then one that takes care of a payload. -/
theorem before (h : Internal s t) (k : Within pay t u) : Within pay s u :=
  ⟨k.outside.trans h.outside, fun q => k.queues (h.queues q), fun i => k.items (h.items i),
    fun e => (k.entries e).trans (h.entries e), fun n r => k.reserved n (h.reserved n r), fun o => k.outgoing (h.outgoing o),
    fun l i => k.inbound l (h.inbound _ i)⟩

/-- A payload that was at stake is left where it is. -/
theorem leave (h : Internal s t) : Within pay s t :=
  ⟨h.outside, h.queues, h.items, h.entries, h.reserved, h.outgoing, fun l i => h.inbound l
    ⟨i.distinct.sublist (by
        show List.Sublist (l ++ s.inUsers) _
        rw [List.append_assoc]; exact List.sublist_append_right _ _),
      fun b hb => i.occupied b (by
        have hb' : b ∈ l ++ s.inUsers := hb
        rw [List.append_assoc]; exact List.mem_append_right _ hb')⟩⟩

/-- The properties of the queues and buffers speak of `bounded` and of the command queue alone. -/
theorem of_bounded (ho : u.outside = t.outside) (hb : u.bounded = t.bounded) : Internal t u := by
  have hc : u.cmdq = t.cmdq := congrArg Outside.cmdq ho
  have h1 : u.txq = t.txq := congrArg Bounded.txq hb
  have h2 : u.handover = t.handover := congrArg Bounded.handover hb
  have h3 : u.rx = t.rx := congrArg Bounded.rx hb
  have h4 : u.attention = t.attention := congrArg Bounded.attention hb
  have h5 : u.fwd = t.fwd := congrArg Bounded.fwd hb
  have h6 : u.heldFrame = t.heldFrame := congrArg Bounded.heldFrame hb
  have h7 : u.moves = t.moves := congrArg Bounded.moves hb
  have h8 : u.outBuf = t.outBuf := congrArg Bounded.outBuf hb
  have h9 : u.inBuf = t.inBuf := congrArg Bounded.inBuf hb
  have h10 : u.tickets = t.tickets := congrArg Bounded.tickets hb
  have h11 : u.inFlight = t.inFlight := congrArg Bounded.inFlight hb
  have h12 : u.cplq.length = t.cplq.length := congrArg Bounded.completions hb
  have hf : u.forwardBytes = t.forwardBytes := by unfold State.forwardBytes; rw [h5]
  have hu : u.inUsers = t.inUsers := by unfold State.inUsers; rw [h7, h6, h3]
  refine ⟨ho, ?_, ?_, ?_, ?_, ?_, ?_⟩
  · simp only [State.QueuesFit, h1, h2, h3, hc, hf]; exact id
  · simp only [State.ItemsDistinct, h4]; exact id
  · intro e; simp only [State.entryListed, h4]
  · intro k; simp only [State.Reserved, h10, h11, h12]; exact id
  · intro o
    exact ⟨by rw [h7]; exact o.reads, by rw [h7, h8]; exact o.reserved, by rw [h1]; exact o.entries,
      by rw [h1, h8]; exact o.reading, by rw [h1, h8]; exact o.filled⟩
  · intro l i
    exact ⟨by rw [hu]; exact i.distinct, by rw [hu, h9]; exact i.occupied⟩

/-- An update of other fields. -/
theorem same (h : Within pay s t) (ho : u.outside = t.outside) (hb : u.bounded = t.bounded) : Within pay s u :=
  h.trans (of_bounded ho hb)

/-- A fold of operations. -/
theorem foldl {α : Type} {f : State → α → State} (h : Within pay s t) (hf : ∀ u a, Internal u (f u a)) (l : List α) :
    Within pay s (l.foldl f t) := by
  induction l generalizing t with
  | nil => exact h
  | cons a rest ih => exact ih (h.trans (hf t a))

/-! ### Operations of Ops.lean -/

theorem setRecord {n : Byte} {r : DirRecord} (h : Within pay s t) : Within pay s (t.setRecord n r) := h.same rfl rfl

theorem modRecord {n : Byte} {f : DirRecord → DirRecord} (h : Within pay s t) : Within pay s (t.modRecord n f) := by
  unfold State.modRecord
  split
  · exact h.setRecord
  · exact h

/-- A claim replaced by one that has no more to complete. -/
theorem setClaim {c : ClaimIdx} {v : Claim} (h : Within pay s t) (hv : v.tickets ≤ (t.claim c).tickets) :
    Within pay s (t.setClaim c v) := by
  refine h.trans ⟨rfl, id, id, fun _ => rfl, ?_, fun o => ⟨o.1, o.2, o.3, o.4, o.5⟩, fun _ i => ⟨i.1, i.2⟩⟩
  intro k r
  have e := State.tickets_setClaim t c v
  refine ⟨?_, r.2⟩
  have := r.1
  show (t.setClaim c v).tickets + k ≤ t.inFlight
  omega

/-- A claim changed in other parts than its pending commands. -/
theorem modClaim {c : ClaimIdx} {f : Claim → Claim} (h : Within pay s t)
    (hf : (f (t.claim c)).tickets = (t.claim c).tickets := by with_unfolding_all rfl) : Within pay s (t.modClaim c f) :=
  h.setClaim (Nat.le_of_eq hf)

theorem setPeer {p : Station} {v : Peer} (h : Within pay s t) : Within pay s (t.setPeer p v) := h.same rfl rfl

theorem pushMail {m : Mail} (h : Within pay s t) : Within pay s (t.pushMail m) := h.same rfl rfl

theorem arbStart (h : Within pay s t) : Within pay s t.arbStart := by
  unfold State.arbStart
  repeat' split
  all_goals first | exact h | exact h.same rfl rfl

theorem mapPausable {f : Timer → Timer} (h : Within pay s t) : Within pay s (t.mapPausable f) := by
  refine h.same rfl ?_
  have hc : ∀ c, ((t.mapPausable f).claim c).tickets = (t.claim c).tickets := by
    intro c
    unfold State.claim State.mapPausable
    rw [get_eq_getElem, get_eq_getElem, Vector.getElem_map]
    rfl
  have : (t.mapPausable f).tickets = t.tickets := by
    unfold State.tickets
    simp only [hc]
    rfl
  unfold State.bounded
  rw [this]
  rfl

/-- A command that a block still had to complete completes. -/
theorem completes {v : State} {c : Completion} (h : Within pay s t) (hv : v.outside = t.outside)
    (hb : v.bounded = { t.bounded with tickets := v.tickets }) (ht : v.tickets + 1 ≤ t.tickets) :
    Within pay s (v.writeCompletion c) := by
  have h1 : v.inFlight = t.inFlight := congrArg Bounded.inFlight hb
  have h2 : v.cplq.length = t.cplq.length := congrArg Bounded.completions hb
  have k : Internal t { v with lifeCmd := t.lifeCmd, claims := t.claims, cplq := t.cplq } := by
    refine of_bounded hv ?_
    unfold State.bounded at hb ⊢
    simp only [Bounded.mk.injEq] at hb ⊢
    exact ⟨hb.1, hb.2.1, hb.2.2.1, hb.2.2.2.1, hb.2.2.2.2.1, hb.2.2.2.2.2.1, hb.2.2.2.2.2.2.1, hb.2.2.2.2.2.2.2.1,
      hb.2.2.2.2.2.2.2.2.1, rfl, h1, trivial⟩
  refine h.trans ⟨hv, fun q => k.queues q, fun i => k.items i, k.entries, ?_, fun o => ?_, fun l i => ?_⟩
  · intro n r
    have r1 := r.1
    have r2 := r.2
    refine ⟨?_, ?_⟩
    · show v.tickets + n ≤ v.inFlight - 1
      omega
    · show v.inFlight - 1 + (v.cplq ++ [c]).length ≤ _
      rw [List.length_append, List.length_singleton]
      omega
  · have := k.outgoing o
    exact ⟨this.1, this.2, this.3, this.4, this.5⟩
  · have := k.inbound l i
    exact ⟨this.1, this.2⟩

/-- The subjects after a replacement in place. -/
theorem subjects_replaced (l : List Item) (u : Subject) (n : Notice) :
    (l.map fun i => if i.subject = u then { subject := u, notice := n, replaced := true } else i).map (·.subject)
      = l.map (·.subject) := by
  induction l with
  | nil => rfl
  | cons i rest ih =>
    simp only [List.map_cons, ih]
    split <;> simp_all

/-- The subjects after a notice: the same, or the new one at the end. -/
theorem subjects_notice (t : State) (u : Subject) (n : Notice) :
    ((t.notice u n).attention.map (·.subject)) =
      if t.attention.any (·.subject == u) then t.attention.map (·.subject) else t.attention.map (·.subject) ++ [u] := by
  unfold State.notice
  split
  · exact subjects_replaced _ _ _
  · simp

theorem any_subject (l : List Item) (u : Subject) : l.any (·.subject == u) = (l.map (·.subject)).contains u := by
  induction l with
  | nil => rfl
  | cons i rest ih => simp only [List.any_cons, ih, List.map_cons, List.contains_cons, Bool.beq_comm (a := u)]

theorem items_notice (t : State) (u : Subject) (n : Notice) (h : t.ItemsDistinct) : (t.notice u n).ItemsDistinct := by
  unfold State.ItemsDistinct at h ⊢
  rw [subjects_notice]
  split
  · exact h
  · rename_i hn
    rw [any_subject] at hn
    rw [List.nodup_append]
    refine ⟨h, by simp, ?_⟩
    intro a ha b hb hab
    simp at hb hn
    subst hb; subst hab
    simp at ha
    obtain ⟨i, hi, he⟩ := ha
    exact hn i hi he

theorem entryListed_notice (t : State) (u : Subject) (n : Notice) (e : EntryIdx) :
    (t.notice u n).entryListed e = (t.entryListed e || u == .entry e) := by
  unfold State.entryListed
  rw [any_subject, any_subject, subjects_notice]
  split
  · rename_i hn
    by_cases hu : u = .entry e
    · subst hu
      rw [any_subject] at hn
      rw [hn]; simp
    · simp [hu]
  · simp only [List.contains_append]
    congr 1
    simp only [List.contains_cons, List.contains_nil, Bool.or_false, Bool.beq_comm (a := u)]

/-- A notice for a subject that is no window entry. -/
theorem notice {x : Subject} {n : Notice} (hx : ∀ e, x ≠ .entry e) (h : Within pay s t) : Within pay s (t.notice x n) := by
  have e : ∃ a, t.notice x n = { t with attention := a } := by unfold State.notice; split <;> exact ⟨_, rfl⟩
  have hi := items_notice t x n
  have hl := entryListed_notice t x n
  obtain ⟨a, ha⟩ := e
  rw [ha] at hi hl ⊢
  refine h.trans ⟨rfl, id, hi, ?_, fun _ => id, fun o => ⟨o.1, o.2, o.3, o.4, o.5⟩, fun _ i => ⟨i.1, i.2⟩⟩
  intro e
  rw [hl]
  simp [hx e]

theorem claimNotice {c : ClaimIdx} {cl : Claim} {r : ClaimReason} (h : Within pay s t) :
    Within pay s (t.claimNotice c cl r) :=
  h.notice (by intro e; exact fun k => nomatch k)

/-- A list that keeps only some items. -/
theorem filterItems {keep : Item → Bool} (h : Within pay s t) (ho : u.outside = t.outside)
    (hb : u.bounded = { t.bounded with attention := u.attention }) (h4 : u.attention = t.attention.filter keep)
    (hk : ∀ i e, i.subject = .entry e → keep i = true) : Within pay s u := by
  have k : Internal t { u with attention := t.attention } := by
    refine of_bounded ho ?_
    unfold State.bounded at hb ⊢
    simp only [Bounded.mk.injEq] at hb ⊢
    obtain ⟨a1, a2, a3, a4, a5, a6, a7, a8, _, a10, a11, a12⟩ := hb
    exact ⟨a1, a2, a3, a4, a5, a6, a7, a8, trivial, a10, a11, a12⟩
  refine h.trans ⟨ho, k.queues, ?_, ?_, k.reserved, fun o => ?_, fun l i => ?_⟩
  · unfold State.ItemsDistinct
    rw [h4]
    exact fun d => List.Nodup.sublist (List.Sublist.map _ (List.filter_sublist)) d
  · intro e
    unfold State.entryListed
    rw [h4, List.any_filter]
    induction t.attention with
    | nil => rfl
    | cons i rest ih =>
      simp only [List.any_cons, ih]
      congr 1
      by_cases hi : i.subject = .entry e
      · simp [hk i e hi]
      · simp [hi]
  · have := k.outgoing o
    exact ⟨this.1, this.2, this.3, this.4, this.5⟩
  · have := k.inbound l i
    exact ⟨this.1, this.2⟩

theorem removeItem {x : Subject} (hx : ∀ e, x ≠ .entry e) (h : Within pay s t) : Within pay s (t.removeItem x) :=
  h.filterItems rfl rfl rfl (by
    intro i e hi
    have := hx e
    simp [hi, Ne.symm this])

theorem freeBorrow {c : ClaimIdx} (h : Within pay s t) : Within pay s (t.freeBorrow c) := h.same rfl rfl

/-! ### The order of completions -/

theorem length_insertByClaim (c : Completion) (l : List Completion) : (insertByClaim c l).length = l.length + 1 := by
  induction l with
  | nil => rfl
  | cons d rest ih =>
    unfold insertByClaim
    split
    · rfl
    · simp [ih]

theorem length_orderByClaim (l : List Completion) : (orderByClaim l).length = l.length := by
  induction l with
  | nil => rfl
  | cons d rest ih =>
    show (insertByClaim d (orderByClaim rest)).length = _
    rw [length_insertByClaim, ih]
    rfl

/-- The completions put in order are as many as before. -/
theorem orderFrom {n : Nat} (h : Within pay s t) : Within pay s (t.orderFrom n) := by
  refine h.same rfl ?_
  have : (t.orderFrom n).cplq.length = t.cplq.length := by
    rw [State.orderFrom_cplq, List.length_append, length_orderByClaim, ← List.length_append, List.take_append_drop]
  unfold State.bounded
  rw [this]
  rfl

theorem length_filter_not {α : Type} (f : α → Bool) (l : List α) :
    (l.filter f).length + (l.filter fun x => !f x).length = l.length := by
  induction l with
  | nil => rfl
  | cons a rest ih =>
    cases h : f a <;> simp [h] <;> omega

theorem bringForward {n : Nat} {f : Completion → Bool} (h : Within pay s t) : Within pay s (t.bringForward n f) := by
  refine h.same rfl ?_
  have : (t.bringForward n f).cplq.length = t.cplq.length := by
    rw [State.bringForward_cplq, List.length_append, List.length_append, length_filter_not, ← List.length_append,
      List.take_append_drop]
  unfold State.bounded
  rw [this]
  rfl

/-! ### Buffers -/

theorem outBuf_setOutBuf (t : State) (b d : Fin 4) (v : OutBuf) :
    (t.setOutBuf b v).outBuf.get d = if b = d then v else t.outBuf.get d := get_set t.outBuf b d v

theorem inBuf_setInBuf (t : State) (b d : Fin 4) (v : Option (List Byte)) :
    (t.setInBuf b v).inBuf.get d = if b = d then v else t.inBuf.get d := get_set t.inBuf b d v

/-- The inbound payload buffer at stake is released. -/
theorem releaseIn (h : Internal s t) : Within pay s (t.releaseIn pay) := by
  cases pay with
  | none => exact h
  | some b =>
    refine before h ⟨rfl, id, id, fun _ => rfl, fun _ => id, fun o => ⟨o.1, o.2, o.3, o.4, o.5⟩, ?_⟩
    intro l i
    have hd : ((b :: l) ++ t.inUsers).Nodup := i.distinct
    rw [List.cons_append, List.nodup_cons] at hd
    refine ⟨hd.2, ?_⟩
    intro d hm
    have hm' : d ∈ l ++ t.inUsers := hm
    have hne : b ≠ d := fun k => hd.1 (k ▸ hm')
    show ((t.setInBuf b none).inBuf.get d).isSome = true
    rw [inBuf_setInBuf, if_neg hne]
    exact i.occupied d (List.mem_append.2 ((List.mem_append.1 hm').imp (List.mem_cons_of_mem _) id))

/-- A chunk write of the payload at stake is raised. -/
theorem raiseWrite {b : Fin 4} {f : Nat} {c : ChunkIdx} {a : Asker} {r : Bool} (h : Internal s t) :
    Within (some b) s (t.raiseMove (.write b f c a r)) := by
  have k : Within (some b) t { t with moves := t.moves ++ [.write b f c a r] } := by
    refine ⟨rfl, id, id, fun _ => rfl, fun _ => id, fun o => ?_, fun l i => ?_⟩
    · have e : (t.moves ++ [Move.write b f c a r]).filterMap Move.readBuf = t.moves.filterMap Move.readBuf := by
        rw [List.filterMap_append]; simp [Move.readBuf]
      exact ⟨by show ((t.moves ++ [Move.write b f c a r]).filterMap Move.readBuf).Nodup; rw [e]; exact o.1,
        by show ∀ x ∈ (t.moves ++ [Move.write b f c a r]).filterMap Move.readBuf, _; rw [e]; exact o.2, o.3, o.4, o.5⟩
    · have e : (t.moves ++ [Move.write b f c a r]).filterMap Move.writeBuf = t.moves.filterMap Move.writeBuf ++ [b] := by
        rw [List.filterMap_append]; rfl
      have p : List.Perm (l ++ State.inUsers { t with moves := t.moves ++ [.write b f c a r] })
          ((some b).toList ++ l ++ t.inUsers) := by
        unfold State.inUsers
        show List.Perm (l ++ ((t.moves ++ [Move.write b f c a r]).filterMap Move.writeBuf ++ _)) _
        rw [e]
        simp only [Option.toList_some, List.append_assoc, List.cons_append, List.nil_append]
        refine List.Perm.trans (List.Perm.append_left _ List.perm_middle) List.perm_middle
      exact ⟨p.nodup_iff.2 i.distinct, fun d hd => i.occupied d (p.mem_iff.1 hd)⟩
  exact (before h k).arbStart

theorem releaseOut_txq (t : State) (e : TxEntry) : (t.releaseOut e).txq = t.txq := by
  unfold State.releaseOut; repeat' split
  all_goals rfl

theorem releaseOut_handover (t : State) (e : TxEntry) : (t.releaseOut e).handover = t.handover := by
  unfold State.releaseOut; repeat' split
  all_goals rfl

theorem releaseOuts_queues (l : List TxEntry) (t : State) :
    (l.foldl State.releaseOut t).txq = t.txq ∧ (l.foldl State.releaseOut t).handover = t.handover := by
  induction l generalizing t with
  | nil => exact ⟨rfl, rfl⟩
  | cons a rest ih =>
    obtain ⟨h1, h2⟩ := ih (t.releaseOut a)
    exact ⟨h1.trans (releaseOut_txq t a), h2.trans (releaseOut_handover t a)⟩

theorem releaseOut_eq (e : TxEntry) (t : State) : ∃ o, t.releaseOut e = { t with outBuf := o } := by
  unfold State.releaseOut
  repeat' split
  · exact ⟨t.outBuf, rfl⟩
  · exact ⟨_, rfl⟩
  · exact ⟨_, rfl⟩

theorem releaseOuts_eq (l : List TxEntry) (t : State) : ∃ o, l.foldl State.releaseOut t = { t with outBuf := o } := by
  induction l generalizing t with
  | nil => exact ⟨t.outBuf, rfl⟩
  | cons e rest ih =>
    obtain ⟨o, h⟩ := releaseOut_eq e t
    obtain ⟨o', h'⟩ := ih (t.releaseOut e)
    exact ⟨o', by rw [List.foldl_cons, h', h]⟩

/-- One entry leaves with its buffer: the entries that stay keep theirs. -/
theorem outgoing_releaseOut {e : TxEntry} {t : State} {l : List TxEntry}
    (o : State.Outgoing { t with txq := e :: l }) : State.Outgoing { t.releaseOut e with txq := l } := by
  obtain ⟨o1, o2, o3, o4, o5⟩ := o
  have hl : (l.filterMap (·.buf)).Nodup := by
    refine List.Nodup.sublist ?_ o3
    exact List.Sublist.filterMap _ (List.sublist_cons_self _ _)
  unfold State.releaseOut
  split
  · exact ⟨o1, o2, hl, fun x hx => o4 x (List.mem_cons_of_mem _ hx), fun x hx => o5 x (List.mem_cons_of_mem _ hx)⟩
  · rename_i b hb
    have hne : ∀ x ∈ l, ∀ d, x.buf = some d → b ≠ d := by
      intro x hx d hd k
      subst k
      have : ((e :: l).filterMap (·.buf)) = b :: l.filterMap (·.buf) := by
        rw [List.filterMap_cons, hb]
      have o3' : ((e :: l).filterMap (·.buf)).Nodup := o3
      rw [this, List.nodup_cons] at o3'
      exact o3'.1 (List.mem_filterMap.2 ⟨x, hx, hd⟩)
    have hstay : ∀ v, (∀ x ∈ l, ∀ d, x.buf = some d → x.st = .reading → (t.setOutBuf b v).outBuf.get d = .reading) ∧
        ∀ x ∈ l, ∀ d, x.buf = some d → x.st ≠ .reading → ∃ p, (t.setOutBuf b v).outBuf.get d = .full p := by
      intro v
      constructor
      · intro x hx d hd hs
        rw [outBuf_setOutBuf, if_neg (hne x hx d hd)]
        exact o4 x (List.mem_cons_of_mem _ hx) d hd hs
      · intro x hx d hd hs
        rw [outBuf_setOutBuf, if_neg (hne x hx d hd)]
        exact o5 x (List.mem_cons_of_mem _ hx) d hd hs
    split
    · refine ⟨o1, ?_, hl, (hstay _).1, (hstay _).2⟩
      intro d hd
      show (t.setOutBuf b .discarding).outBuf.get d = _ ∨ _
      rw [outBuf_setOutBuf]
      split
      · exact Or.inr rfl
      · exact o2 d hd
    · rename_i hs
      refine ⟨o1, ?_, hl, (hstay _).1, (hstay _).2⟩
      intro d hd
      show (t.setOutBuf b .free).outBuf.get d = _ ∨ (t.setOutBuf b .free).outBuf.get d = _
      rw [outBuf_setOutBuf]
      split
      · rename_i k
        subst k
        obtain ⟨p, hp⟩ := o5 e List.mem_cons_self b hb hs
        have := o2 b hd
        have hp' : t.outBuf.get b = .full p := hp
        have this' : t.outBuf.get b = .reading ∨ t.outBuf.get b = .discarding := this
        rw [hp'] at this'
        rcases this' with h | h <;> cases h
      · exact o2 d hd

/-- Several entries leave with their buffers. -/
theorem outgoing_releaseOuts {g l : List TxEntry} {t : State}
    (o : State.Outgoing { t with txq := g ++ l }) : State.Outgoing { g.foldl State.releaseOut t with txq := l } := by
  induction g generalizing t with
  | nil => exact o
  | cons e rest ih =>
    refine ih (t := t.releaseOut e) ?_
    exact outgoing_releaseOut o

/-- The transmit queue in another order. -/
theorem outgoing_perm {q : List TxEntry} {t : State} (p : List.Perm q t.txq) (o : t.Outgoing) :
    State.Outgoing { t with txq := q } :=
  ⟨o.1, o.2, (p.filterMap _).nodup_iff.2 o.3, fun x hx => o.4 x (p.mem_iff.1 hx), fun x hx => o.5 x (p.mem_iff.1 hx)⟩

theorem failAll {d : Station} {k : FailureKind} {x : List FailedFrame} (h : Within pay s t) :
    Within pay s (t.failAll d k x) := by
  unfold State.failAll
  obtain ⟨o, ho⟩ := releaseOuts_eq (t.txq.filter (·.dest == d)) t
  refine pushMail (h.trans ?_)
  have hout : t.Outgoing → State.Outgoing { (t.txq.filter (·.dest == d)).foldl State.releaseOut t with
      txq := t.txq.filter (·.dest != d) } := by
    intro g
    refine outgoing_releaseOuts (outgoing_perm ?_ g)
    exact List.filter_append_perm (·.dest == d) t.txq
  rw [ho] at hout ⊢
  refine ⟨rfl, ?_, id, fun _ => rfl, fun _ => id, ?_, fun _ i => ⟨i.1, i.2⟩⟩
  · intro q
    exact ⟨Nat.le_trans (List.length_filter_le _ _) q.1, Nat.le_trans (List.length_filter_le _ _) q.2.1, q.2.2⟩
  · intro g
    have := hout g
    exact ⟨this.1, this.2, this.3, this.4, this.5⟩

/-- A frame without payload joins the transmit queue, or the hand-over list. -/
theorem accept {e : TxEntry} {l : List Handed} (h : Within pay s t) (hn : e.buf = none)
    (hq : t.txq.length < Config.txCapacity) (hl : l.length ≤ t.handover.length) :
    Within pay s { t with txq := t.txq ++ [e], handover := l } := by
  refine h.trans ⟨rfl, ?_, id, fun _ => rfl, fun _ => id, fun o => ⟨o.1, o.2, ?_, ?_, ?_⟩, fun _ i => ⟨i.1, i.2⟩⟩
  · intro q
    refine ⟨?_, Nat.le_trans hl q.2.1, q.2.2⟩
    show (t.txq ++ [e]).length ≤ _
    rw [List.length_append, List.length_singleton]; omega
  · show ((t.txq ++ [e]).filterMap (·.buf)).Nodup
    rw [List.filterMap_append]
    simpa [hn] using o.3
  · intro x hx d hd
    rcases List.mem_append.1 hx with hx | hx
    · exact o.4 x hx d hd
    · rw [List.mem_singleton] at hx; subst hx; rw [hn] at hd; cases hd
  · intro x hx d hd
    rcases List.mem_append.1 hx with hx | hx
    · exact o.5 x hx d hd
    · rw [List.mem_singleton] at hx; subst hx; rw [hn] at hd; cases hd

theorem handOver {d : Station} {m : Lease} {o : Owner} (h : Within pay s t) : Within pay s (t.handOver d m o) := by
  unfold State.handOver
  split
  · exact h
  · split
    · rename_i hc
      simp [State.canAccept] at hc
      exact h.accept rfl hc.2.1 (Nat.le_refl _)
    · split
      · rename_i hl
        refine h.trans ⟨rfl, ?_, id, fun _ => rfl, fun _ => id, fun o => ⟨o.1, o.2, o.3, o.4, o.5⟩, fun _ i => ⟨i.1, i.2⟩⟩
        intro q
        refine ⟨q.1, ?_, q.2.2⟩
        show (t.handover ++ [_]).length ≤ _
        rw [List.length_append, List.length_singleton]; omega
      · exact h.failAll

/-- The entries of the transmit queue change in other parts than their buffer and READING. -/
theorem outgoing_map {f : TxEntry → TxEntry} {t : State} (hb : ∀ e ∈ t.txq, (f e).buf = e.buf)
    (hr : ∀ e ∈ t.txq, (f e).st = .reading ↔ e.st = .reading) (o : t.Outgoing) :
    State.Outgoing { t with txq := t.txq.map f } := by
  refine ⟨o.1, o.2, ?_, ?_, ?_⟩
  · have : (t.txq.map f).filterMap (·.buf) = t.txq.filterMap (·.buf) := by
      revert hb
      generalize t.txq = q
      intro hb
      induction q with
      | nil => rfl
      | cons a rest ih =>
        rw [List.map_cons, List.filterMap_cons, List.filterMap_cons, hb a List.mem_cons_self,
          ih fun e he => hb e (List.mem_cons_of_mem _ he)]
    show ((t.txq.map f).filterMap (·.buf)).Nodup
    rw [this]; exact o.3
  · intro x hx d hd hs
    obtain ⟨e, he, rfl⟩ := List.mem_map.1 hx
    exact o.4 e he d ((hb e he).symm.trans hd) ((hr e he).1 hs)
  · intro x hx d hd hs
    obtain ⟨e, he, rfl⟩ := List.mem_map.1 hx
    exact o.5 e he d ((hb e he).symm.trans hd) (fun k => hs ((hr e he).2 k))

theorem disown {c : ClaimIdx} (h : Within pay s t) : Within pay s (t.disown c) := by
  refine h.trans ⟨rfl, ?_, id, fun _ => rfl, fun _ => id, ?_, fun _ i => ⟨i.1, i.2⟩⟩
  · intro q
    exact ⟨by rw [State.disown_txq, List.length_map]; exact q.1, by rw [State.disown_handover, List.length_map]; exact q.2.1,
      q.2.2⟩
  · intro o
    have := outgoing_map (f := fun e => { e with owner := e.owner.without c }) (fun _ _ => rfl) (fun _ _ => Iff.rfl) o
    exact ⟨this.1, this.2, this.3, this.4, this.5⟩

end Within

end Sys2Proof.Machine
end

