-- ==== Sys2Proof/Laws/ClaimTable.lean ====
section
/-! SUPPORT. The claim table's operations stay inside the exchanges (Laws/Internal.lean). -/

namespace Sys2Proof.Machine.Within

variable {s t u : State} {pay : Option (Fin 4)}

theorem sendHome {c : ClaimIdx} {m : Lease} (h : Within pay s t) : Within pay s (t.sendHome c m) := by
  unfold State.sendHome
  repeat' split
  all_goals with_reducible first | exact h | exact h.pushMail | exact h.handOver

theorem answerHome {p : Station} {m : Lease} (h : Within pay s t) : Within pay s (t.answerHome p m) := by
  unfold State.answerHome
  split
  · exact h.pushMail
  · exact h.handOver

theorem completePending {c : ClaimIdx} {st : Status} {g : Option Byte} {w : Option Word} (h : Within pay s t) :
    Within pay s (t.completePending c st g w) := by
  unfold State.completePending
  split
  · rename_i k hk
    refine h.completes rfl rfl ?_
    have e := State.tickets_setClaim t c { t.claim c with pendingCmd := none }
    have e1 : (t.claim c).tickets = ({ t.claim c with pendingCmd := none } : Claim).tickets + 1 := by
      unfold Claim.tickets; rw [hk]; simp [bit]; omega
    show (t.setClaim c { t.claim c with pendingCmd := none }).tickets + 1 ≤ t.tickets
    omega
  · exact h

theorem completeCancel {c : ClaimIdx} {st : Status} (h : Within pay s t) : Within pay s (t.completeCancel c st) := by
  unfold State.completeCancel
  split
  · rename_i k hk
    refine h.completes rfl rfl ?_
    have e := State.tickets_setClaim t c { t.claim c with pendingCancel := none }
    have e1 : (t.claim c).tickets = ({ t.claim c with pendingCancel := none } : Claim).tickets + 1 := by
      unfold Claim.tickets; rw [hk]; simp [bit]
    show (t.setClaim c { t.claim c with pendingCancel := none }).tickets + 1 ≤ t.tickets
    omega
  · exact h

theorem completeLease {c : ClaimIdx} (h : Within pay s t) : Within pay s (t.completeLease c) := by
  unfold State.completeLease
  dsimp only
  split
  · exact h.completePending
  · exact h

theorem setClaimTurn {d : Turn} (h : Within pay s t) : Within pay s (t.setClaimTurn d) := h.same rfl rfl

theorem noEntry {c : ClaimIdx} : ∀ e, Subject.claim c ≠ .entry e := fun _ k => nomatch k

theorem endLease {c : ClaimIdx} {r : EndReason} {a b : Status} (h : Within pay s t) : Within pay s (t.endLease c r a b) := by
  unfold State.endLease
  dsimp only
  split
  · exact removeItem noEntry (setClaim (setClaimTurn h.completePending.completeCancel.freeBorrow.disown) (Nat.zero_le _))
  · exact setClaim (setClaimTurn h.completePending.completeCancel.freeBorrow.disown) (Nat.zero_le _)

theorem giveUp {c : ClaimIdx} {k : WithdrawCause} (h : Within pay s t) : Within pay s (t.giveUp c k) := by
  unfold State.giveUp
  split
  · exact h.endLease
  · exact h.modClaim.completePending.completeCancel

theorem claimAsk {c : ClaimIdx} {m : Mode} {f : Bool} (h : Within pay s t) : Within pay s (t.claimAsk c m f) := by
  unfold State.claimAsk
  dsimp only
  split
  · exact h.modClaim.sendHome
  · exact h.modClaim

theorem waitToReask {c : ClaimIdx} (h : Within pay s t) : Within pay s (t.waitToReask c) := by
  unfold State.waitToReask
  exact h.modClaim

theorem reaskExpired {c : ClaimIdx} (h : Within pay s t) : Within pay s (t.reaskExpired c) := by
  unfold State.reaskExpired
  dsimp only
  repeat' split
  all_goals with_reducible first | exact h | exact h.claimAsk

theorem withdrawAsk {c : ClaimIdx} {k : WithdrawCause} (h : Within pay s t) : Within pay s (t.withdrawAsk c k) := by
  unfold State.withdrawAsk
  dsimp only
  split
  · exact h.modClaim.sendHome
  · exact h.modClaim

theorem giveUpAsk {c : ClaimIdx} {k : WithdrawCause} (h : Within pay s t) : Within pay s (t.giveUpAsk c k) := by
  unfold State.giveUpAsk
  split
  · exact h.withdrawAsk
  · exact h.modClaim.giveUp

theorem waitExpired {c : ClaimIdx} (h : Within pay s t) : Within pay s (t.waitExpired c) := by
  unfold State.waitExpired
  dsimp only
  split
  · exact h.modClaim.giveUpAsk
  · exact h

theorem finishGive {c : ClaimIdx} (h : Within pay s t) : Within pay s (t.finishGive c) := by
  unfold State.finishGive
  dsimp only
  split
  · exact claimNotice (modClaim (setClaimTurn h))
  · exact h.endLease
  · exact h.endLease.claimNotice

theorem startDrop {c : ClaimIdx} {k : GiveCause} (h : Within pay s t) : Within pay s (t.startDrop c k) := by
  unfold State.startDrop
  dsimp only
  repeat' split
  all_goals with_reducible first | exact h.modClaim.sendHome.finishGive | exact h.modClaim.sendHome | exact h.modClaim

theorem sendReturned {c : ClaimIdx} (h : Within pay s t) : Within pay s (t.sendReturned c) := by
  unfold State.sendReturned
  dsimp only
  split
  · exact sendHome (setClaimTurn h)
  · exact h

theorem fixReturn {c : ClaimIdx} {k : Bool} (h : Within pay s t) : Within pay s (t.fixReturn c k) := by
  unfold State.fixReturn
  dsimp only
  split
  · exact h.modClaim.sendReturned
  · exact h.modClaim

theorem startReturn {c : ClaimIdx} {b : Bool} {k : GiveCause} (h : Within pay s t) : Within pay s (t.startReturn c b k) := by
  unfold State.startReturn
  dsimp only
  split
  · split
    · exact h.modClaim.sendHome.finishGive
    · split
      · exact modClaim (setClaimTurn h.modClaim)
      · exact fixReturn (setClaimTurn h.modClaim)
  · exact h.modClaim

theorem letGo {c : ClaimIdx} {k : GiveCause} (h : Within pay s t) : Within pay s (t.letGo c k) := by
  unfold State.letGo
  split
  · exact h.startDrop
  · exact h.startReturn

theorem dropCopy {c : ClaimIdx} (h : Within pay s t) : Within pay s (t.dropCopy c) := by
  unfold State.dropCopy
  dsimp only
  split
  · exact h.modClaim.sendHome.claimNotice
  · exact h

theorem actRecall {c : ClaimIdx} {k : RecallKind} (h : Within pay s t) : Within pay s (t.actRecall c k) := by
  unfold State.actRecall
  dsimp only
  repeat' split
  all_goals with_reducible first | exact h | exact h.startDrop | exact h.startReturn | exact h.dropCopy

theorem actDeferred {c : ClaimIdx} (h : Within pay s t) : Within pay s (t.actDeferred c) := by
  unfold State.actDeferred
  dsimp only
  repeat' split
  all_goals with_reducible first | exact h | exact h.modClaim.actRecall

theorem holdExpired {c : ClaimIdx} (h : Within pay s t) : Within pay s (t.holdExpired c) := by
  unfold State.holdExpired
  split
  · exact h.modClaim.actDeferred
  · exact h

theorem claimRecall {b : Block} {g : Byte} {k : RecallKind} (h : Within pay s t) : Within pay s (t.claimRecall b g k) := by
  unfold State.claimRecall
  dsimp only
  repeat' split
  all_goals with_reducible first | exact h | exact h.answerHome | exact h.modClaim | exact h.actRecall

theorem giveBack {b : Block} {g : Byte} {m : Mode} (h : Within pay s t) : Within pay s (t.giveBack b g m) := by
  unfold State.giveBack
  split
  · exact h.answerHome
  · exact h.answerHome

theorem takeGrant {c : ClaimIdx} {b : Block} {g : Byte} {m : Mode} {d : Bool} (h : Within pay s t) :
    Within pay s (t.takeGrant c b g m d) := by
  unfold State.takeGrant
  dsimp only
  repeat' split
  all_goals
    with_reducible
    first
    | exact h.giveBack.giveUp | exact h.giveBack.waitToReask | exact h.modClaim.modClaim.completeCancel
    | exact h.modClaim.modClaim.completeLease.completeCancel

theorem claimGrant {b : Block} {g : Byte} {m : Mode} {d : Bool} {k : Tag} (h : Within pay s t) :
    Within pay s (t.claimGrant b g m d k) := by
  unfold State.claimGrant
  dsimp only
  repeat' split
  all_goals with_reducible first | exact h | exact h.takeGrant | exact h.giveBack

theorem denied {c : ClaimIdx} {r : DenyReason} (h : Within pay s t) : Within pay s (t.denied c r) := by
  unfold State.denied
  split
  · exact h.endLease
  · exact h.modClaim.completePending

theorem fillAbandoned {c : ClaimIdx} (h : Within pay s t) : Within pay s (t.fillAbandoned c) := waitToReask (modClaim h)

theorem claimDeny {b : Block} {r : DenyReason} {k : Tag} (h : Within pay s t) : Within pay s (t.claimDeny b r k) := by
  unfold State.claimDeny
  dsimp only
  repeat' split
  all_goals with_reducible first | exact h | exact h.waitToReask | exact h.denied | exact h.giveUp | exact h.fillAbandoned

theorem claimWithdrawn {b : Block} {k : Tag} (h : Within pay s t) : Within pay s (t.claimWithdrawn b k) := by
  unfold State.claimWithdrawn
  split
  · exact h.giveUp
  · exact h

theorem claimChunk {b : Block} {g : Byte} {i : ChunkIdx} (h : Internal s t) : Within pay s (t.claimChunk b g i pay) := by
  unfold State.claimChunk
  cases pay with
  | none => split <;> first | contradiction | exact h.releaseIn
  | some k =>
    split
    · rename_i hk
      cases hk
      split
      · exact h.raiseWrite
      · exact h.releaseIn
    · exact h.releaseIn

theorem fillEnd {c : ClaimIdx} (h : Within pay s t) : Within pay s (t.fillEnd c) := actDeferred (completeLease (modClaim h))

theorem claimWritten {c : ClaimIdx} {n : UseNum} {g : Byte} {i : ChunkIdx} (h : Within pay s t) :
    Within pay s (t.claimWritten c n g i) := by
  unfold State.claimWritten
  dsimp only
  repeat' split
  all_goals with_reducible first | exact h | exact h.modClaim.fillEnd | exact h.modClaim

theorem claimTake {m : Lease} (h : Internal s t) : Within pay s (t.claimTake m pay) := by
  unfold State.claimTake
  split
  all_goals
    with_reducible
    first
    | exact leave h.claimGrant | exact leave h.claimDeny | exact leave h.claimWithdrawn | exact leave h.claimRecall
    | exact h.claimChunk | exact h.releaseIn

theorem claimAccepted {c : ClaimIdx} (h : Within pay s t) : Within pay s (t.claimAccepted c) := by
  unfold State.claimAccepted
  dsimp only
  split
  · exact h.modClaim.sendReturned
  · exact setClaimTurn h.modClaim

theorem writeEnded {c : ClaimIdx} (h : Within pay s t) : Within pay s (t.writeEnded c) := by
  unfold State.writeEnded
  repeat' split
  all_goals with_reducible first | exact h | exact h.fixReturn

theorem claimTaken {c : ClaimIdx} {n : UseNum} {m : Lease} (h : Within pay s t) : Within pay s (t.claimTaken c n m) := by
  unfold State.claimTaken
  dsimp only
  repeat' split
  all_goals with_reducible first | exact h | exact h.finishGive

theorem homeAbsent {c : ClaimIdx} (h : Within pay s t) : Within pay s (t.homeAbsent c) := by
  unfold State.homeAbsent
  dsimp only
  split
  · exact h.endLease.claimNotice
  · exact h.endLease

theorem failClaims {f : List FailedFrame} (h : Within pay s t) : Within pay s (t.failClaims f) := by
  refine h.foldl (fun u c => ?_) _
  dsimp only
  split
  · exact (refl u).homeAbsent
  · exact refl u

theorem loseClaim {c : ClaimIdx} (h : Within pay s t) : Within pay s (t.loseClaim c) := claimNotice (endLease h)

theorem purgeClaims {p : Station} (h : Within pay s t) : Within pay s (t.purgeClaims p) := by
  refine h.foldl (fun u c => ?_) _
  split
  · exact (refl u).loseClaim
  · exact refl u

theorem tearClaim {c : ClaimIdx} (h : Within pay s t) : Within pay s (t.tearClaim c) := by
  unfold State.tearClaim
  dsimp only
  repeat' split
  all_goals with_reducible first | exact h | exact h.giveUpAsk | exact h.letGo | exact h.giveUpAsk.letGo

theorem tearClaims (h : Within pay s t) : Within pay s t.tearClaims := h.foldl (fun u _ => (refl u).tearClaim) _

theorem dropReference {c : ClaimIdx} (h : Within pay s t) : Within pay s (t.dropReference c) := by
  unfold State.dropReference
  split
  · exact removeItem noEntry (h.setClaim (Nat.zero_le _))
  · exact h

end Sys2Proof.Machine.Within
end

