-- ==== Sys2Proof/Laws/Directory.lean ====
section
/-! SUPPORT. The home directory's operations stay inside the exchanges (Laws/Internal.lean). -/

namespace Sys2Proof.Machine.Within

variable {s t u : State} {pay : Option (Fin 4)}

theorem dirSend {d : Station} {m : Lease} (h : Within pay s t) : Within pay s (t.dirSend d m) := by
  unfold State.dirSend
  split
  · exact h.pushMail
  · exact h.handOver

theorem sendRecalls {n : Byte} (h : Within pay s t) : Within pay s (t.sendRecalls n) := by
  unfold State.sendRecalls
  repeat' split
  all_goals with_reducible first | exact h | exact h.foldl (fun u _ => (refl u).dirSend) _

theorem beginRecall {n : Byte} {k : RecallKind} {a : List Station} (h : Within pay s t) : Within pay s (t.beginRecall n k a) :=
  sendRecalls (modRecord h)

theorem setDirTurn {d : Turn} (h : Within pay s t) : Within pay s (t.setDirTurn d) := h.same rfl rfl

theorem grantHead {n : Byte} {r : DirRecord} {q : Request} {d : Bool} (h : Within pay s t) :
    Within pay s (t.grantHead n r q d) := by
  unfold State.grantHead
  refine dirSend ?_
  split
  · exact setDirTurn h.setRecord
  · exact h.setRecord

theorem denyHead {n : Byte} {r : DirRecord} {q : Request} (h : Within pay s t) : Within pay s (t.denyHead n r q) :=
  dirSend (setRecord h)

theorem serveHead {n : Byte} {r : DirRecord} {q : Request} (h : Within pay s t) : Within pay s (t.serveHead n r q) := by
  unfold State.serveHead
  repeat' split
  all_goals with_reducible first | exact h.denyHead | exact h.beginRecall | exact h.grantHead

theorem serveLoop {k : Nat} {n : Byte} (h : Within pay s t) : Within pay s (State.serveLoop k n t) := by
  induction k generalizing t with
  | zero => exact h
  | succ k ih =>
    unfold State.serveLoop
    repeat' split
    all_goals with_reducible first | exact h | exact ih h.serveHead

theorem serve {n : Byte} (h : Within pay s t) : Within pay s (t.serve n) := by
  unfold State.serve
  split
  · exact h.serveLoop
  · exact h

theorem endTransfer {n : Byte} (h : Within pay s t) : Within pay s (t.endTransfer n) := setDirTurn (modRecord h)

theorem settle {n : Byte} (h : Within pay s t) : Within pay s (t.settle n) := serve (modRecord (endTransfer h))

theorem dirAsk {p : Station} {b : Block} {m : Mode} {g : Tag} (h : Within pay s t) : Within pay s (t.dirAsk p b m g) := by
  unfold State.dirAsk
  dsimp only
  repeat' split
  all_goals with_reducible first | exact h | exact h.dirSend | exact h.setRecord.serve

theorem dirWithdraw {p : Station} {b : Block} {g : Tag} (h : Within pay s t) : Within pay s (t.dirWithdraw p b g) := by
  unfold State.dirWithdraw
  repeat' split
  all_goals with_reducible first | exact h | exact h.setRecord.dirSend

theorem damage {n : Byte} (h : Within pay s t) : Within pay s (t.damage n) := by
  unfold State.damage
  split
  · exact h
  · exact foldl (setDirTurn h.setRecord) (fun u _ => (refl u).dirSend) _

theorem afterAnswer {n : Byte} (h : Within pay s t) : Within pay s (t.afterAnswer n) := by
  unfold State.afterAnswer
  repeat' split
  all_goals with_reducible first | exact h | exact h.settle | exact h.serve

theorem readerLeaves {n : Byte} {r : DirRecord} {p : Station} (h : Within pay s t) : Within pay s (t.readerLeaves n r p) := by
  unfold State.readerLeaves
  dsimp only
  split
  · exact h.endTransfer.modRecord.afterAnswer
  · exact h.modRecord.afterAnswer

theorem handleReturned {n : Byte} {k : Bool} {c : Fin 33} (h : Within pay s t) : Within pay s (t.handleReturned n k c) := by
  unfold State.handleReturned
  repeat' split
  all_goals with_reducible first | exact h | exact h.setRecord.afterAnswer | exact h.damage

theorem handleLostReturned {n : Byte} {k : Bool} {c : Fin 33} (h : Within pay s t) :
    Within pay s (t.handleLostReturned n k c) := by
  unfold State.handleLostReturned
  repeat' split
  all_goals with_reducible first | exact h | exact h.setRecord.afterAnswer | exact h.setRecord

theorem raiseHomeWrite {n : Byte} {c : ChunkIdx} {d : Holder} (h : Internal s t) :
    Within pay s (t.raiseHomeWrite n c d pay) := by
  unfold State.raiseHomeWrite
  cases pay with
  | none => exact h
  | some b => exact h.raiseWrite

theorem answerIgnored {n : Byte} {r : DirRecord} {p : Station} (h : Internal s t) :
    Within pay s (t.answerIgnored n r p pay) := by
  unfold State.answerIgnored
  dsimp only
  split
  · exact h.releaseIn.endTransfer.serve
  · exact h.releaseIn

theorem holderAnswers {n : Byte} {r : DirRecord} {d : Holder} {a : Answer} (h : Internal s t) :
    Within pay s (t.holderAnswers n r d a pay) := by
  unfold State.holderAnswers
  split
  · exact h.answerIgnored
  · have hu : Internal s (if r.transfer.isSome then t.endTransfer n else t) := by
      split
      · exact h.endTransfer
      · exact h
    revert hu
    generalize (if r.transfer.isSome then t.endTransfer n else t) = u
    intro hu
    dsimp only
    repeat' split
    all_goals
      with_reducible
      first
      | exact leave hu.damage | exact hu.modRecord.raiseHomeWrite.serve | exact leave hu.handleReturned
      | exact leave hu.modRecord.serve

theorem lostAnswers {n : Byte} {d : Holder} {a : Answer} (h : Internal s t) : Within pay s (t.lostAnswers n d a pay) := by
  unfold State.lostAnswers
  repeat' split
  all_goals
    with_reducible
    first
    | exact leave h | exact h.releaseIn | exact h.modRecord.raiseHomeWrite | exact leave h.handleLostReturned
    | exact leave h.modRecord

theorem dirAnswer {p : Station} {n g : Byte} {a : Answer} (h : Internal s t) : Within pay s (t.dirAnswer p n g a pay) := by
  unfold State.dirAnswer
  repeat' split
  all_goals
    with_reducible
    first
    | exact h.releaseIn | exact leave h.readerLeaves | exact h.answerIgnored | exact h.holderAnswers | exact h.lostAnswers

theorem dirTake {p : Station} {m : Lease} (h : Internal s t) : Within pay s (t.dirTake p m pay) := by
  unfold State.dirTake
  split
  all_goals
    with_reducible first | exact leave h.dirAsk | exact leave h.dirWithdraw | exact h.dirAnswer | exact h.releaseIn

theorem homeWritten {n : Byte} {p : Station} {g : Byte} {c : ChunkIdx} (h : Within pay s t) :
    Within pay s (t.homeWritten n p g c) := by
  unfold State.homeWritten
  dsimp only
  repeat' split
  all_goals
    with_reducible
    first | exact h | exact h.setRecord | exact h.setRecord.handleReturned | exact h.setRecord.handleLostReturned

theorem dirAccepted {n : Nat} (h : Within pay s t) : Within pay s (t.dirAccepted n) := by
  unfold State.dirAccepted
  dsimp only
  split
  · exact setDirTurn h.modRecord
  · exact setDirTurn h.modRecord

theorem dirTaken {d : Station} {m : Lease} (h : Within pay s t) : Within pay s (t.dirTaken d m) := by
  unfold State.dirTaken
  repeat' split
  all_goals with_reducible first | exact h | exact h.settle

theorem recallExpired {n : Byte} (h : Within pay s t) : Within pay s (t.recallExpired n) := by
  unfold State.recallExpired
  repeat' split
  all_goals with_reducible first | exact h | exact h.setRecord.sendRecalls | exact h.damage | exact h.setRecord.afterAnswer

theorem loseRequest {p : Station} {g : Bool} {n : Byte} (h : Within pay s t) : Within pay s (t.loseRequest p g n) := by
  unfold State.loseRequest
  dsimp only
  repeat' split
  all_goals with_reducible first | exact h | exact h.setRecord | exact h.setRecord.dirSend

theorem loseTransfer {p : Station} {g : Bool} {f : List FailedFrame} {n : Byte} (h : Within pay s t) :
    Within pay s (t.loseTransfer p g f n) := by
  unfold State.loseTransfer
  dsimp only
  repeat' split
  all_goals
    with_reducible
    first | exact h | exact h.endTransfer | exact h.endTransfer.modRecord.settle | exact h.endTransfer.modRecord.dirSend.settle

theorem loseCopy {p : Station} {g : Bool} {f : List FailedFrame} {n : Byte} (h : Within pay s t) :
    Within pay s (t.loseCopy p g f n) := by
  unfold State.loseCopy
  repeat' split
  all_goals with_reducible first | exact h | exact h.damage | exact h.modRecord.afterAnswer

theorem losePeer {p : Station} {g : Bool} {f : List FailedFrame} (h : Within pay s t) : Within pay s (t.losePeer p g f) :=
  h.foldl (fun u _ => (refl u).loseRequest.loseTransfer.loseCopy) _

theorem denyPeers {n : Byte} (h : Within pay s t) : Within pay s (t.denyPeers n) := by
  unfold State.denyPeers
  dsimp only
  split
  · exact h
  · exact h.setRecord.foldl (fun u _ => (refl u).dirSend) _

theorem denyAllPeers (h : Within pay s t) : Within pay s t.denyAllPeers := h.foldl (fun u _ => (refl u).denyPeers) _

theorem tearRecord {n : Byte} (h : Within pay s t) : Within pay s (t.tearRecord n) := by
  unfold State.tearRecord
  repeat' split
  all_goals with_reducible first | exact h | exact h.beginRecall

theorem tearRecords (h : Within pay s t) : Within pay s t.tearRecords := h.foldl (fun u _ => (refl u).tearRecord) _

end Sys2Proof.Machine.Within
end

