-- ==== Sys2Proof/Laws/Exchange.lean ====
section
/-! SUPPORT. The station controller's operations and the end of an event stay inside the exchanges (Laws/Internal.lean), and
what the end of an event leaves of a quiet state. -/

namespace Sys2Proof.Machine

namespace Within

variable {s t u : State} {pay : Option (Fin 4)}

theorem completeLife {st : Status} (h : Within pay s t) : Within pay s (t.completeLife st) := by
  unfold State.completeLife
  split
  · rename_i k hk
    refine h.completes (v := { t with lifeCmd := none }) rfl rfl ?_
    have e : ∀ n : Nat, n + bit (none : Option Ticket).isSome + 1 ≤ n + bit (some k).isSome := fun n => Nat.le_refl _
    unfold State.tickets
    rw [hk]
    exact e _
  · exact h

/-- Inbound buffers released one after another: no other buffer changes. -/
theorem releaseIns_eq (l : List RxEntry) (t : State) : ∃ v : Vector (Option (List Byte)) 4,
    l.foldl (fun s e => s.releaseIn e.buf) t = { t with inBuf := v } ∧
      ∀ b, b ∉ l.filterMap (·.buf) → v.get b = t.inBuf.get b := by
  induction l generalizing t with
  | nil => exact ⟨t.inBuf, rfl, fun _ _ => rfl⟩
  | cons e rest ih =>
    obtain ⟨v, h1, h2⟩ := ih (t.releaseIn e.buf)
    cases hb : e.buf with
    | none =>
      rw [hb] at h1 h2
      refine ⟨v, by rw [List.foldl_cons, hb]; exact h1, ?_⟩
      intro b hn
      rw [List.filterMap_cons, hb] at hn
      exact h2 b hn
    | some d =>
      rw [hb] at h1 h2
      refine ⟨v, by rw [List.foldl_cons, hb]; exact h1, ?_⟩
      intro b hn
      rw [List.filterMap_cons, hb, List.mem_cons, not_or] at hn
      rw [h2 b hn.2]
      show (t.setInBuf d none).inBuf.get b = _
      rw [inBuf_setInBuf, if_neg (Ne.symm hn.1)]

theorem writeBuf_silent (l : List Move) : (l.map Move.silent).filterMap Move.writeBuf = l.filterMap Move.writeBuf := by
  rw [List.filterMap_map]
  congr 1
  funext m
  cases m <;> rfl

theorem readBuf_silent (l : List Move) : (l.map Move.silent).filterMap Move.readBuf = l.filterMap Move.readBuf := by
  rw [List.filterMap_map]
  congr 1
  funext m
  cases m <;> rfl

/-- A filter that keeps only writes keeps no read. -/
theorem noReads (l : List Move) {keep : Move → Bool} (hk : ∀ b f c, keep (.read b f c) = false) :
    (l.filter keep).filterMap Move.readBuf = [] := by
  rw [List.filterMap_eq_nil_iff]
  intro m hm
  cases m with
  | read b f c => rw [List.mem_filter, hk] at hm; exact absurd hm.2 (by simp)
  | write b f c a r => rfl

/-- The moves that stay on the entry into BYPASS: writes, and at most one read, at the head. -/
theorem movesKept_spec (t : State) :
    List.Sublist (t.movesKept.filterMap Move.writeBuf) (t.moves.filterMap Move.writeBuf) ∧
      t.movesKept.filterMap Move.readBuf = (match t.movesKept with
        | .read b _ _ :: _ => [b]
        | _ => []) := by
  unfold State.movesKept
  dsimp only
  generalize hkeep : (fun m : Move => match m with
    | .write _ _ _ _ _ => true
    | .read _ _ _ => false) = keep
  have hk : ∀ b f c, keep (.read b f c) = false := by intro b f c; rw [← hkeep]
  have none : ∀ l : List Move, (l.filter keep).filterMap Move.readBuf = (match l.filter keep with
      | .read b _ _ :: _ => [b]
      | _ => []) := by
    intro l
    rw [noReads l hk]
    split
    · rename_i b f c rest he
      have : Move.read b f c ∈ l.filter keep := by rw [he]; exact List.mem_cons_self
      rw [List.mem_filter, hk] at this
      exact absurd this.2 (by simp)
    · rfl
  split
  · rename_i m rest _ hm
    refine ⟨?_, ?_⟩
    · rw [hm]
      exact List.Sublist.filterMap _ (List.Sublist.cons_cons _ List.filter_sublist)
    · cases m with
      | read b f c => rw [List.filterMap_cons, noReads rest hk]; rfl
      | write b f c a r => rw [List.filterMap_cons, noReads rest hk]; rfl
  · exact ⟨List.Sublist.filterMap _ List.filter_sublist, none _⟩

theorem enterBypass {r : Bool} (h : Within pay s t) : Within pay s (t.enterBypass r) := by
  refine h.trans ?_
  obtain ⟨v, hv, hb⟩ := releaseIns_eq (t.rx ++ t.heldFrame.toList) t
  obtain ⟨hw, hr⟩ := movesKept_spec ({ t with inBuf := v } : State)
  have e : ∃ (m : List Move) (o : Vector OutBuf 4), t.enterBypass r = { ({ t with inBuf := v } : State).mapPausable .runOn with
      port := .bypass, fwd := [], rx := [], heldFrame := none, txq := [], handover := [], outBuf := o, moves := m } ∧
      List.Sublist (m.filterMap Move.writeBuf) (t.moves.filterMap Move.writeBuf) ∧
      (m.filterMap Move.readBuf = [] ∨ ∃ b, m.filterMap Move.readBuf = [b] ∧ o.get b = .discarding) := by
    unfold State.enterBypass State.releaseReceived
    rw [hv]
    refine ⟨_, _, rfl, ?_, ?_⟩
    · split
      · exact hw
      · rw [writeBuf_silent]; exact hw
    · have hm : ∀ k : List Move, k.filterMap Move.readBuf = (match k with
            | .read b _ _ :: _ => [b]
            | _ => []) →
          k.filterMap Move.readBuf = [] ∨ ∃ b, k.filterMap Move.readBuf = [b] ∧ (match k with
            | .read b _ _ :: _ => (Vector.replicate 4 OutBuf.free).set b.val .discarding b.isLt
            | _ => Vector.replicate 4 OutBuf.free).get b = .discarding := by
        intro k hk
        split at hk
        · rename_i b _ _ _
          refine Or.inr ⟨b, hk, ?_⟩
          rw [get_set, if_pos rfl]
        · exact Or.inl hk
      split
      · exact hm _ hr
      · rw [readBuf_silent]; exact hm _ hr
  obtain ⟨m, o, e, h1, h2⟩ := e
  rw [e]
  have k := (refl ({ t with inBuf := v } : State)).mapPausable (f := .runOn)
  refine ⟨rfl, fun q => ⟨Nat.zero_le _, Nat.zero_le _, Nat.zero_le _, q.2.2.2.1, Nat.zero_le _⟩, id, fun _ => rfl, ?_, ?_, ?_⟩
  · intro n g
    exact k.reserved n g
  · intro _
    refine ⟨?_, ?_, List.nodup_nil, fun x hx => (by simp at hx), fun x hx => (by simp at hx)⟩
    · show (m.filterMap Move.readBuf).Nodup
      rcases h2 with h2 | ⟨b, h2, _⟩ <;> rw [h2] <;> simp
    · show ∀ b ∈ m.filterMap Move.readBuf, o.get b = _ ∨ o.get b = _
      rcases h2 with h2 | ⟨b, h2, h3⟩ <;> rw [h2] <;> simp
      exact Or.inr h3
  · intro l i
    have hs : List.Sublist (l ++ m.filterMap Move.writeBuf) (l ++ t.moves.filterMap Move.writeBuf) :=
      List.Sublist.append_left h1 l
    have hn : ((l ++ t.moves.filterMap Move.writeBuf) ++ (t.heldFrame.toList ++ t.rx).filterMap (·.buf)).Nodup := by
      have := i.distinct
      unfold State.inUsers at this
      rw [← List.append_assoc] at this
      exact this
    refine ⟨?_, ?_⟩
    · show (l ++ (m.filterMap Move.writeBuf ++ [])).Nodup
      rw [List.append_nil]
      exact ((List.nodup_append.1 hn).1).sublist hs
    · intro b hm
      have hm' : b ∈ l ++ (m.filterMap Move.writeBuf ++ []) := hm
      rw [List.append_nil] at hm'
      have hb' := hs.subset hm'
      show (v.get b).isSome = true
      rw [hb b ?_]
      · refine i.occupied b ?_
        unfold State.inUsers
        show b ∈ l ++ _
        rw [← List.append_assoc]
        exact List.mem_append_left _ hb'
      · intro hx
        have hx' : b ∈ (t.heldFrame.toList ++ t.rx).filterMap (·.buf) := by
          rw [List.filterMap_append, List.mem_append] at hx ⊢
          exact hx.symm
        exact (List.nodup_append.1 hn).2.2 b hb' b hx' rfl

theorem probeNone (h : Within pay s t) : Within pay s t.probeNone := by
  unfold State.probeNone
  split
  · refine foldl ?_ (fun u _ => (refl u).handOver) _
    exact h.same rfl rfl
  · exact h

theorem endJoining (h : Within pay s t) : Within pay s t.endJoining := by
  unfold State.endJoining
  refine completeLife ?_
  exact h.same rfl rfl

theorem announceDone (h : Within pay s t) : Within pay s t.announceDone := by
  unfold State.announceDone
  repeat' split
  · refine endJoining ?_
    exact h.same rfl rfl
  · exact h.same rfl rfl
  · exact h

theorem peerNoEntry {p : Station} : ∀ e, Subject.peer p ≠ .entry e := fun _ k => nomatch k

theorem stationNoEntry : ∀ e, Subject.station ≠ .entry e := fun _ k => nomatch k

theorem conflictReport {i : Byte} (h : Within pay s t) : Within pay s (t.conflictReport i) := notice stationNoEntry h

theorem peerChecks {p : Station} {i : Byte} (h : Within pay s t) : Within pay s (t.peerChecks p i) := by
  have k : ∀ b : Bool, Within pay s (if b then (t.losePeer p true []).purgeClaims p else t) := by
    intro b
    cases b with
    | true => exact h.losePeer.purgeClaims
    | false => exact h
  unfold State.peerChecks
  dsimp only
  repeat' split
  all_goals
    with_reducible
    first
    | exact notice peerNoEntry h.losePeer.purgeClaims.setPeer
    | exact notice peerNoEntry h.setPeer
    | exact h.losePeer.purgeClaims.setPeer
    | exact h.setPeer

theorem peerTaken {p : Station} (h : Within pay s t) : Within pay s (t.peerTaken p) := by
  unfold State.peerTaken
  dsimp only
  split
  · exact h
  · exact notice peerNoEntry h.setPeer

theorem peerFailed {p : Station} {f : List FailedFrame} (h : Within pay s t) : Within pay s (t.peerFailed p f) := by
  unfold State.peerFailed
  dsimp only
  refine losePeer ?_
  split
  · exact h
  · exact notice peerNoEntry h.setPeer

theorem endDetach (h : Within pay s t) : Within pay s t.endDetach := by
  unfold State.endDetach
  refine completeLife ?_
  exact (h.enterBypass).same (t := t.enterBypass true) rfl rfl

theorem testDetach (h : Within pay s t) : Within pay s t.testDetach := by
  unfold State.testDetach
  split
  · exact h.endDetach
  · exact h

theorem announceFailed {f : Failure} (h : Within pay s t) : Within pay s (t.announceFailed f) := by
  unfold State.announceFailed
  split
  · exact h.announceDone
  · exact h

theorem handleFailure {f : Failure} (h : Within pay s t) : Within pay s (t.handleFailure f) := by
  unfold State.handleFailure
  split
  · exact h.probeNone
  · exact h.failClaims.peerFailed.announceFailed

theorem handleMail {m : Mail} (h : Within pay s t) : Within pay s (t.handleMail m) := by
  unfold State.handleMail
  split
  · exact h.trans (refl t).dirTake
  · exact h.trans (refl t).claimTake
  · exact h.handleFailure

theorem drainLoop {k : Nat} (h : Within pay s t) : Within pay s (State.drainLoop k t) := by
  induction k generalizing t with
  | zero => exact h
  | succ k ih =>
    unfold State.drainLoop
    split
    · exact h
    · exact ih (handleMail (h.same rfl rfl))

theorem drain (h : Within pay s t) : Within pay s t.drain := drainLoop h

theorem checked {p : Station} {i : Byte} (h : Within pay s t) : Within pay s (t.checked p i) := h.peerChecks.drain.orderFrom

theorem dispatch {p : Station} {m : Lease} (h : Internal s t) : Within pay s (t.dispatch p m pay) := by
  unfold State.dispatch
  repeat' split
  all_goals with_reducible first | exact leave h | exact h.dirTake | exact h.claimTake | exact h.releaseIn

theorem handleFrame {e : RxEntry} (h : Internal s t) : Within e.buf s (t.handleFrame e) := by
  unfold State.handleFrame
  dsimp only
  repeat' split
  all_goals
    with_reducible first | exact h.releaseIn | exact h.checked.releaseIn | exact h.checked.dispatch

/-- An entry taken out of the place for held frames, or of the receive queue, has its payload at stake. -/
theorem inbound_take {t u : State} {e : RxEntry} (hm : u.moves = t.moves) (hb : u.inBuf = t.inBuf)
    (hp : List.Perm (t.heldFrame.toList ++ t.rx) (e :: (u.heldFrame.toList ++ u.rx))) (l : List (Fin 4))
    (i : t.Inbound l) : u.Inbound (e.buf.toList ++ l) := by
  have p : List.Perm (e.buf.toList ++ l ++ u.inUsers) (l ++ t.inUsers) := by
    unfold State.inUsers
    rw [hm]
    have h1 := hp.filterMap (·.buf)
    have h2 : (e :: (u.heldFrame.toList ++ u.rx)).filterMap (·.buf)
        = e.buf.toList ++ (u.heldFrame.toList ++ u.rx).filterMap (·.buf) := by
      rw [List.filterMap_cons]; cases e.buf <;> rfl
    rw [h2] at h1
    generalize (t.heldFrame.toList ++ t.rx).filterMap (·.buf) = a at h1
    generalize (u.heldFrame.toList ++ u.rx).filterMap (·.buf) = b at h1
    generalize t.moves.filterMap Move.writeBuf = w
    rw [List.append_assoc]
    refine List.Perm.trans ?_ (List.Perm.append_left l (List.Perm.append_left w h1.symm))
    generalize e.buf.toList = x
    calc List.Perm (x ++ (l ++ (w ++ b))) ((l ++ (w ++ b)) ++ x) := List.perm_append_comm
      List.Perm _ (l ++ (w ++ (b ++ x))) := by simp [List.append_assoc]
      List.Perm _ _ := List.Perm.append_left l (List.Perm.append_left w List.perm_append_comm)
  exact ⟨p.nodup_iff.2 i.distinct, fun b hm => by rw [hb]; exact i.occupied b (p.mem_iff.1 hm)⟩

theorem releaseHeld (h : Within pay s t) : Within pay s t.releaseHeld := by
  unfold State.releaseHeld
  repeat' split
  · exact h
  · rename_i e he _
    refine h.trans ?_
    have k := (refl ({ t with heldFrame := none } : State)).handleFrame (e := e)
    exact ⟨k.outside, fun q => k.queues q, fun i => k.items i, k.entries, fun n r => k.reserved n r,
      fun o => k.outgoing ⟨o.1, o.2, o.3, o.4, o.5⟩,
      fun l i => k.inbound l (inbound_take (t := t) (u := { t with heldFrame := none }) rfl rfl (by rw [he]; exact List.Perm.refl _) l i)⟩
  · exact h

theorem teardownLoop {k : Nat} (h : Within pay s t) : Within pay s (State.teardownLoop k t) := by
  induction k generalizing t with
  | zero => exact h
  | succ k ih =>
    unfold State.teardownLoop
    split
    · exact ih (drain (tearClaims (tearRecords h)))
    · exact h

theorem settleEvent (h : Within pay s t) : Within pay s t.settleEvent :=
  orderFrom (testDetach (teardownLoop (drain (releaseHeld (drain h)))))

end Within

/-! ### A quiet state -/

theorem State.drainLoop_of_no_mail (k : Nat) (s : State) (h : s.mail = []) : State.drainLoop k s = s := by
  cases k with
  | zero => rfl
  | succ k => unfold State.drainLoop; rw [h]

theorem State.drain_of_no_mail (s : State) (h : s.mail = []) : s.drain = s := State.drainLoop_of_no_mail _ s h

theorem State.releaseHeld_of_quiet (s : State) (h : s.heldFrame = none ∨ s.probeOutstanding = true) :
    s.releaseHeld = s := by
  unfold State.releaseHeld
  rcases h with h | h
  · rw [h]
  · split
    · rw [if_pos h]
    · rfl

theorem State.teardown_of_not_due (s : State) (h : s.teardownDue = false) : s.teardown = s := by
  unfold State.teardown
  generalize Config.teardownFuel = k
  cases k with
  | zero => rfl
  | succ k => unfold State.teardownLoop; rw [h]; rfl

/-- With no completion after the first `n`, there is nothing to put in order. -/
theorem State.orderFrom_length (s : State) : s.orderFrom s.cplq.length = s := by
  unfold State.orderFrom
  rw [List.take_length, List.drop_length]
  show { s with cplq := s.cplq ++ [] } = s
  rw [List.append_nil]

/-- One completion after the first `n` is in order. -/
theorem State.orderFrom_one (s : State) (l : List Completion) (c : Completion) (h : s.cplq = l ++ [c]) :
    s.orderFrom l.length = s := by
  unfold State.orderFrom
  rw [h, List.take_left, List.drop_left]
  show { s with cplq := l ++ [c] } = s
  rw [← h]

theorem State.bringForward_length (s : State) (f : Completion → Bool) : s.bringForward s.cplq.length f = s := by
  unfold State.bringForward
  dsimp only
  rw [List.take_length, List.drop_length]
  show { s with cplq := s.cplq ++ [] } = s
  rw [List.append_nil]

/-- The end of an event finds nothing to do in a quiet state. -/
theorem State.settleEvent_of_quiet (s : State) (h : s.Quiet) : s.settleEvent = s := by
  obtain ⟨h1, h2, h3, h4⟩ := h
  unfold State.settleEvent
  rw [State.drain_of_no_mail s h1, State.releaseHeld_of_quiet s h2, State.drain_of_no_mail s h1,
    State.teardown_of_not_due s h3]
  unfold State.testDetach
  rw [if_neg h4]
  exact State.orderFrom_length s

/-- Outside DETACHING, a state without mail and without a held frame is quiet. -/
theorem State.quiet_of_no_mail (s : State) (h1 : s.mail = []) (h2 : s.heldFrame = none ∨ s.probeOutstanding = true)
    (h3 : s.station ≠ .detaching) : s.Quiet := by
  refine ⟨h1, h2, ?_, fun k => h3 k.1⟩
  unfold State.teardownDue
  simp [h3]

end Sys2Proof.Machine
end

