-- ==== Sys2Proof/Laws/Memory.lean ====
section
/-! SUPPORT. The DRAM: every memory operation keeps the canonical form, and what a byte reads as after each of them. -/

namespace Sys2Proof.Machine

/-- The first address of the list, if any, is above `x`. -/
def Memory.startsAbove (m : Memory) (x : Nat) : Bool := m.head?.all fun c => x < c.1

theorem Memory.wf_cons (c : Host.Cell) (m : Memory) :
    Memory.wf (c :: m) = (Memory.startsAbove m c.1 && Memory.wf m) := by
  cases m with
  | nil => simp [Memory.wf, Memory.startsAbove]
  | cons d rest => simp [Memory.wf, Memory.startsAbove]

theorem Memory.startsAbove_trans {m : Memory} {x y : Nat} (h : x < y) (hm : Memory.startsAbove m y = true) :
    Memory.startsAbove m x = true := by
  cases m with
  | nil => rfl
  | cons d rest => simp [Memory.startsAbove] at hm ⊢; omega

/-- A write below nothing of the list keeps what the list starts above. -/
theorem Memory.startsAbove_set {m : Memory} {x a : Nat} (b : Byte) (hm : Memory.startsAbove m x = true) (ha : x < a) :
    Memory.startsAbove (m.set a b) x = true := by
  cases m with
  | nil => simpa [Memory.set, Memory.startsAbove] using ha
  | cons d rest =>
    obtain ⟨y, v⟩ := d
    simp only [Memory.set]
    split
    · simpa [Memory.startsAbove] using ha
    · split
      · simpa [Memory.startsAbove] using ha
      · simpa [Memory.startsAbove] using hm

/-- A write keeps the canonical form. -/
theorem Memory.wf_set (m : Memory) (a : Nat) (b : Byte) (h : Memory.wf m = true) : Memory.wf (m.set a b) = true := by
  induction m with
  | nil => rfl
  | cons c rest ih =>
    obtain ⟨x, v⟩ := c
    rw [Memory.wf_cons, Bool.and_eq_true] at h
    simp only [Memory.set]
    split
    · rename_i hlt
      rw [Memory.wf_cons, Memory.wf_cons]
      simp [Memory.startsAbove, hlt] at h ⊢
      exact h
    · split
      · rename_i heq
        rw [Memory.wf_cons, Bool.and_eq_true]
        exact ⟨by simpa [heq] using h.1, h.2⟩
      · rw [Memory.wf_cons, Bool.and_eq_true]
        exact ⟨Memory.startsAbove_set b h.1 (by simp only; omega), ih h.2⟩

/-- So do the writes of a run of bytes. -/
theorem Memory.wf_setBytes (bs : List Byte) (m : Memory) (a : Nat) (h : Memory.wf m = true) :
    Memory.wf (m.setBytes a bs) = true := by
  induction bs generalizing m a with
  | nil => exact h
  | cons b rest ih => exact ih _ _ (Memory.wf_set m a b h)

/-- So do the writes of a list of cells. -/
theorem Memory.wf_setCells (cells : List (Nat × Byte)) (m : Memory) (h : Memory.wf m = true) :
    Memory.wf (m.setCells cells) = true := by
  induction cells generalizing m with
  | nil => exact h
  | cons c rest ih => exact ih _ (Memory.wf_set m c.1 c.2 h)

/-- So does a chunk write that a reset interrupts. -/
theorem Memory.wf_interrupted (n : Nat) (cells : List (Nat × Byte)) (m : Memory) (h : Memory.wf m = true) :
    Memory.wf (cells.foldl (interruptedByte n) m) = true := by
  induction cells generalizing m with
  | nil => exact h
  | cons c rest ih =>
    refine ih _ ?_
    unfold interruptedByte
    split
    · exact Memory.wf_set m c.1 c.2 h
    · exact h

theorem Memory.startsAbove_filter (keep : Host.Cell → Bool) {m : Memory} {x : Nat} (hm : Memory.startsAbove m x = true)
    (hwf : Memory.wf m = true) : Memory.startsAbove (m.filter keep) x = true := by
  induction m with
  | nil => rfl
  | cons c rest ih =>
    rw [Memory.wf_cons, Bool.and_eq_true] at hwf
    rw [List.filter_cons]
    split
    · simpa [Memory.startsAbove] using hm
    · refine ih ?_ hwf.2
      exact Memory.startsAbove_trans (by simpa [Memory.startsAbove] using hm) hwf.1

/-- So does the loss of the frames that leave the DRAM port's reach. -/
theorem Memory.wf_below (m : Memory) (limit : Nat) (h : Memory.wf m = true) : Memory.wf (m.below limit) = true := by
  induction m with
  | nil => rfl
  | cons c rest ih =>
    rw [Memory.wf_cons, Bool.and_eq_true] at h
    unfold Memory.below at ih ⊢
    rw [List.filter_cons]
    split
    · rw [Memory.wf_cons, Bool.and_eq_true]
      exact ⟨Memory.startsAbove_filter _ h.1 h.2, ih h.2⟩
    · exact ih h.2

/-- A byte after a write: the byte written at its address, and any other byte as it was. -/
theorem Memory.get_set (m : Memory) (a : Nat) (b : Byte) (x : Nat) :
    (m.set a b).get x = if x = a then some b else m.get x := by
  induction m with
  | nil => simp [Memory.set, Memory.get]
  | cons c rest ih =>
    obtain ⟨y, v⟩ := c
    simp only [Memory.set]
    split
    · simp [Memory.get]
    · split
      · rename_i h
        subst h
        by_cases hx : x = a <;> simp [Memory.get, hx]
      · by_cases hx : x = y
        · subst hx
          have : ¬ x = a := by omega
          simp [Memory.get, this]
        · simp [Memory.get, hx, ih]

/-- A byte outside a run of bytes written is as it was. -/
theorem Memory.get_setBytes_outside (bs : List Byte) (m : Memory) (a x : Nat) (h : x < a ∨ a + bs.length ≤ x) :
    (m.setBytes a bs).get x = m.get x := by
  induction bs generalizing m a with
  | nil => rfl
  | cons b rest ih =>
    rw [List.length_cons] at h
    have hx : x ≠ a := by omega
    rw [Memory.setBytes, ih _ _ (by omega), Memory.get_set, if_neg hx]

/-- A byte that no cell of the list names is as it was. -/
theorem Memory.get_setCells_outside (cells : List (Nat × Byte)) (m : Memory) (x : Nat)
    (h : ∀ c ∈ cells, c.1 ≠ x) : (m.setCells cells).get x = m.get x := by
  induction cells generalizing m with
  | nil => rfl
  | cons c rest ih =>
    have hc : x ≠ c.1 := fun e => h c (by simp) e.symm
    show ((m.set c.1 c.2).setCells rest).get x = m.get x
    rw [ih _ (fun d hd => h d (by simp [hd])), Memory.get_set, if_neg hc]

/-- The DRAM after a reset is in canonical form if it was before. -/
theorem State.wf_interruptedDram (s : State) (n : Nat) (h : Memory.wf s.dram = true) :
    Memory.wf (s.interruptedDram n) = true := by
  unfold State.interruptedDram
  split
  · exact Memory.wf_interrupted _ _ _ h
  · split
    · split
      · exact Memory.wf_setCells _ _ h
      · exact h
    · exact h
  · exact h

/-! ### Bytes written -/

theorem Memory.get_setBytes_inside (bs : List Byte) (m : Memory) (a j : Nat) (h : j < bs.length) :
    (m.setBytes a bs).get (a + j) = some (bs.getD j 0) := by
  induction bs generalizing m a j with
  | nil => simp at h
  | cons b rest ih =>
    show (Memory.setBytes (m.set a b) (a + 1) rest).get (a + j) = _
    cases j with
    | zero =>
      rw [Memory.get_setBytes_outside _ _ _ _ (Or.inl (by omega)), Memory.get_set, if_pos (by omega)]
      rfl
    | succ j =>
      have := ih (m.set a b) (a + 1) j (by simpa using h)
      rw [show a + (j + 1) = a + 1 + j by omega, this]
      rfl

theorem Memory.get_setCells_of_mem (cells : List (Nat × Byte)) (m : Memory) (x : Nat) (v : Byte)
    (h : ∀ c ∈ cells, c.1 = x → c.2 = v) (hin : ∃ c ∈ cells, c.1 = x) : (m.setCells cells).get x = some v := by
  induction cells generalizing m with
  | nil =>
    obtain ⟨c, hc, _⟩ := hin
    cases hc
  | cons c rest ih =>
    show (Memory.setCells (m.set c.1 c.2) rest).get x = _
    by_cases hr : ∃ d ∈ rest, d.1 = x
    · exact ih _ (fun d hd => h d (List.mem_cons_of_mem _ hd)) hr
    · rw [Memory.get_setCells_outside]
      · obtain ⟨d, hd, he⟩ := hin
        rcases List.mem_cons.mp hd with e | e
        · subst e
          rw [Memory.get_set, if_pos he.symm, h d List.mem_cons_self he]
        · exact absurd ⟨d, e, he⟩ hr
      · intro d hd e
        exact hr ⟨d, hd, e⟩

/-- The cells of a window write are its enabled bytes at their addresses. -/
theorem Access.mem_cells (a : Access) (w : Word) (x : Nat × Byte) :
    x ∈ a.cells w ↔
      ∃ k, k < 4 ∧ a.lbe.getLsbD k = true ∧ x = (dramAddr a.frame (a.word * 4 + k), lane w k) := by
  unfold Access.cells enabledLanes
  simp only [List.mem_map, List.mem_filter]
  constructor
  · rintro ⟨k, ⟨_, h⟩, rfl⟩
    exact ⟨k.val, k.isLt, h, rfl⟩
  · rintro ⟨k, hk, h, rfl⟩
    refine ⟨⟨k, hk⟩, ⟨?_, h⟩, rfl⟩
    have : k = 0 ∨ k = 1 ∨ k = 2 ∨ k = 3 := by omega
    rcases this with e | e | e | e <;> subst e
    · exact (by decide : (0 : Fin 4) ∈ lanes)
    · exact (by decide : (1 : Fin 4) ∈ lanes)
    · exact (by decide : (2 : Fin 4) ∈ lanes)
    · exact (by decide : (3 : Fin 4) ∈ lanes)

/-! ### Lanes of a word -/

/-- Byte `k` of a word put together from four. -/
theorem lane_ofLanes (a b c d : Byte) :
    lane (ofLanes a b c d) 0 = a ∧ lane (ofLanes a b c d) 1 = b ∧ lane (ofLanes a b c d) 2 = c ∧
      lane (ofLanes a b c d) 3 = d := by
  unfold lane ofLanes
  refine ⟨?_, ?_, ?_, ?_⟩ <;> ext i hi <;>
    simp only [BitVec.getElem_extractLsb', BitVec.getLsbD_append] <;> (repeat' split) <;>
    first | omega | (rw [← BitVec.getLsbD_eq_getElem]; congr 1; omega)

end Sys2Proof.Machine
end

