-- ==== Sys2Proof/Laws/Sound.lean ====
section
/-! SUPPORT. The operations that change the window, the partition, the command queue, the buffers or the reservation keep a state
sound, as those inside the exchanges do. -/

namespace Sys2Proof.Machine

/-- A sound state that has room in the reservation for `k` commands more than its blocks have to complete. -/
structure State.SoundWith (k : Nat) (s : State) : Prop where
  memory : Memory.wf s.dram = true
  queues : s.QueuesFit
  commands : s.Reserved k
  items : s.ItemsDistinct
  faults : s.FaultsListed
  outgoing : s.Outgoing
  inbound : s.Inbound []

theorem length_le_of_subset {α : Type} [DecidableEq α] (l m : List α) (h : l.Nodup) (hs : ∀ x ∈ l, x ∈ m) :
    l.length ≤ m.length := by
  induction l generalizing m with
  | nil => exact Nat.zero_le _
  | cons a rest ih =>
    rw [List.nodup_cons] at h
    have ha := hs a List.mem_cons_self
    have := ih (m.erase a) h.2 fun x hx => by
      have hne : x ≠ a := fun k => h.1 (k ▸ hx)
      exact (List.mem_erase_of_ne hne).2 (hs x (List.mem_cons_of_mem _ hx))
    rw [List.length_erase_of_mem ha] at this
    have := List.length_pos_of_mem ha
    rw [List.length_cons]
    omega

theorem length_le_of_nodup (l : List (Fin 4)) (h : l.Nodup) : l.length ≤ 4 := by
  have := length_le_of_subset l (List.finRange 4) h fun _ _ => List.mem_finRange _
  rwa [List.length_finRange] at this

/-- Every move is a read or a write, and each has a buffer of its own: there are at most eight (R12). -/
theorem State.moves_le {s : State} (o : s.Outgoing) (i : s.Inbound []) : s.moves.length ≤ 8 := by
  have h1 := length_le_of_nodup _ o.reads
  have h2 : (s.moves.filterMap Move.writeBuf).Nodup := by
    have := i.distinct
    rw [List.nil_append] at this
    unfold State.inUsers at this
    exact (List.nodup_append.1 this).1
  have h2 := length_le_of_nodup _ h2
  have h3 : ∀ l : List Move, l.length = (l.filterMap Move.readBuf).length + (l.filterMap Move.writeBuf).length := by
    intro l
    induction l with
    | nil => rfl
    | cons m rest ih =>
      cases m <;> simp [List.filterMap_cons, Move.readBuf, Move.writeBuf, ih] <;> omega
  have := h3 s.moves
  omega

namespace State.SoundWith

variable {s t : State} {k : Nat}

theorem sound (h : SoundWith 0 s) : s.Sound :=
  ⟨h.memory, h.queues, h.commands, State.moves_le h.outgoing h.inbound, h.items, h.faults, h.outgoing, h.inbound⟩

theorem of_sound (h : s.Sound) : SoundWith 0 s :=
  ⟨h.memory, h.queues, h.commands, h.items, h.faults, h.outgoing, h.inbound⟩

/-- Operations inside the exchanges keep a state sound. -/
theorem within (hs : SoundWith k s) (h : Internal s t) : SoundWith k t := by
  have hd : t.dram = s.dram := congrArg Outside.dram h.outside
  have hw : t.window = s.window := congrArg Outside.window h.outside
  refine ⟨by rw [hd]; exact hs.memory, h.queues hs.queues, h.reserved k hs.commands, h.items hs.items, ?_,
    h.outgoing hs.outgoing, h.inbound [] hs.inbound⟩
  intro e
  rw [hw, h.entries e]
  exact hs.faults e

/-- An update of the DRAM that keeps its form, of the command queue within its room, and of fields that soundness does not
speak of. -/
theorem update (hs : SoundWith k s) (hd : Memory.wf t.dram = true) (hc : t.cmdq.length ≤ Config.commandCapacity)
    (hb : t.bounded = s.bounded) (hw : t.window = s.window) : SoundWith k t := by
  let v : State := { t with pending := s.pending }
  have h1 : t.txq = s.txq := congrArg Bounded.txq hb
  have h2 : t.handover = s.handover := congrArg Bounded.handover hb
  have h3 : t.rx = s.rx := congrArg Bounded.rx hb
  have h4 : t.attention = s.attention := congrArg Bounded.attention hb
  have h5 : t.fwd = s.fwd := congrArg Bounded.fwd hb
  have h6 : t.heldFrame = s.heldFrame := congrArg Bounded.heldFrame hb
  have h7 : t.moves = s.moves := congrArg Bounded.moves hb
  have h8 : t.outBuf = s.outBuf := congrArg Bounded.outBuf hb
  have h9 : t.inBuf = s.inBuf := congrArg Bounded.inBuf hb
  have h10 : t.tickets = s.tickets := congrArg Bounded.tickets hb
  have h11 : t.inFlight = s.inFlight := congrArg Bounded.inFlight hb
  have h12 : t.cplq.length = s.cplq.length := congrArg Bounded.completions hb
  have hf : t.forwardBytes = s.forwardBytes := by unfold State.forwardBytes; rw [h5]
  have hu : t.inUsers = s.inUsers := by unfold State.inUsers; rw [h7, h6, h3]
  refine ⟨hd, ?_, ?_, ?_, ?_, ?_, ?_⟩
  · simp only [State.QueuesFit, h1, h2, h3, hf]
    exact ⟨hs.queues.1, hs.queues.2.1, hs.queues.2.2.1, hc, hs.queues.2.2.2.2⟩
  · simp only [State.Reserved, h10, h11, h12]; exact hs.commands
  · simp only [State.ItemsDistinct, h4]; exact hs.items
  · intro e; simp only [State.entryListed, h4, hw]; exact hs.faults e
  · have o := hs.outgoing
    exact ⟨by rw [h7]; exact o.reads, by rw [h7, h8]; exact o.reserved, by rw [h1]; exact o.entries,
      by rw [h1, h8]; exact o.reading, by rw [h1, h8]; exact o.filled⟩
  · have i := hs.inbound
    exact ⟨by rw [hu]; exact i.distinct, by rw [hu, h9]; exact i.occupied⟩

/-- An update of fields that soundness does not speak of. -/
theorem same (hs : SoundWith k s) (hd : t.dram = s.dram) (hc : t.cmdq = s.cmdq) (hb : t.bounded = s.bounded)
    (hw : t.window = s.window) : SoundWith k t :=
  hs.update (by rw [hd]; exact hs.memory) (by rw [hc]; exact hs.queues.2.2.2.1) hb hw

/-! ### The reservation (R160) -/

/-- A command that no block has to complete any more completes. -/
theorem writeCompletion (hs : SoundWith (k + 1) s) (c : Completion) : SoundWith k (s.writeCompletion c) := by
  refine ⟨hs.memory, hs.queues, ?_, hs.items, hs.faults, ⟨hs.outgoing.1, hs.outgoing.2, hs.outgoing.3, hs.outgoing.4,
    hs.outgoing.5⟩, ⟨hs.inbound.1, hs.inbound.2⟩⟩
  have h1 := hs.commands.1
  have h2 := hs.commands.2
  refine ⟨?_, ?_⟩
  · show s.tickets + k ≤ s.inFlight - 1
    omega
  · show s.inFlight - 1 + (s.cplq ++ [c]).length ≤ _
    rw [List.length_append, List.length_singleton]
    omega

theorem complete (hs : SoundWith (k + 1) s) (t : Ticket) (st : Status) (c : Option ClaimIdx) (g : Option Byte)
    (w : Option Word) : SoundWith k (s.complete t st c g w) := hs.writeCompletion _

/-- A claim takes one command more to complete. -/
theorem setClaim (hs : SoundWith (k + 1) s) (c : ClaimIdx) (v : Claim) (hv : v.tickets ≤ (s.claim c).tickets + 1) :
    SoundWith k (s.setClaim c v) := by
  refine ⟨hs.memory, hs.queues, ?_, hs.items, hs.faults, ⟨hs.outgoing.1, hs.outgoing.2, hs.outgoing.3, hs.outgoing.4,
    hs.outgoing.5⟩, ⟨hs.inbound.1, hs.inbound.2⟩⟩
  have e := State.tickets_setClaim s c v
  have h1 := hs.commands.1
  refine ⟨?_, hs.commands.2⟩
  show (s.setClaim c v).tickets + k ≤ s.inFlight
  omega

theorem bit_le (b : Bool) : bit b ≤ 1 := by cases b <;> decide

theorem claim_takes (cl : Claim) (t : Ticket) : ({ cl with pendingCmd := some t } : Claim).tickets ≤ cl.tickets + 1 := by
  show bit true + bit cl.pendingCancel.isSome ≤ bit cl.pendingCmd.isSome + bit cl.pendingCancel.isSome + 1
  have : bit true = 1 := rfl
  omega

theorem claim_takes_cancel (cl : Claim) (t : Ticket) :
    ({ cl with pendingCancel := some t } : Claim).tickets ≤ cl.tickets + 1 := by
  show bit cl.pendingCmd.isSome + bit true ≤ bit cl.pendingCmd.isSome + bit cl.pendingCancel.isSome + 1
  have : bit true = 1 := rfl
  omega

/-- The station controller takes the life command to complete. -/
theorem setLife (hs : SoundWith (k + 1) s) (v : Ticket) (ho : t.outside = s.outside)
    (hb : t.bounded = ({ s with lifeCmd := some v } : State).bounded) : SoundWith k t := by
  have h : SoundWith k ({ s with lifeCmd := some v } : State) := by
    refine ⟨hs.memory, hs.queues, ?_, hs.items, hs.faults, ⟨hs.outgoing.1, hs.outgoing.2, hs.outgoing.3, hs.outgoing.4,
      hs.outgoing.5⟩, ⟨hs.inbound.1, hs.inbound.2⟩⟩
    have h1 := hs.commands.1
    refine ⟨?_, hs.commands.2⟩
    have e : ∀ n : Nat, n + bit s.lifeCmd.isSome + (k + 1) ≤ s.inFlight → n + bit (some v).isSome + k ≤ s.inFlight := by
      intro n hn
      have : bit (some v).isSome = 1 := rfl
      omega
    exact e _ h1
  exact h.within (Within.of_bounded ho hb)

/-- The head leaves the command queue for a place in the reservation (R160, R161). -/
theorem removeHead (hs : s.Sound) {q : Queued} (hq : s.takeable = some q) : SoundWith 1 s.removeHead := by
  have hr : s.inFlight + s.cplq.length < Config.commandCapacity := by
    unfold State.takeable at hq
    split at hq
    · rename_i h
      simpa [State.reservationOpen] using h
    · cases hq
  refine ⟨hs.memory, ⟨hs.queues.1, hs.queues.2.1, hs.queues.2.2.1, ?_, hs.queues.2.2.2.2⟩, ?_, hs.items, hs.faults,
    ⟨hs.outgoing.1, hs.outgoing.2, hs.outgoing.3, hs.outgoing.4, hs.outgoing.5⟩, ⟨hs.inbound.1, hs.inbound.2⟩⟩
  · have := hs.queues.2.2.2.1
    show s.cmdq.tail.length ≤ _
    rw [List.length_tail]; omega
  · have := hs.commands.1
    refine ⟨?_, ?_⟩
    · show s.tickets + 1 ≤ s.inFlight + 1
      omega
    · show s.inFlight + 1 + s.cplq.length ≤ _
      omega

/-! ### The window and the attention list -/

/-- An entry loses its fault record and its item together, whatever mapping it takes. -/
theorem clearEntry (hs : SoundWith k s) (e : EntryIdx) (m : Option (Target × Limit)) :
    SoundWith k ((s.setEntry e { mapping := m, fault := none }).removeItem (.entry e)) := by
  refine ⟨hs.memory, hs.queues, hs.commands, ?_, ?_, ⟨hs.outgoing.1, hs.outgoing.2, hs.outgoing.3, hs.outgoing.4,
    hs.outgoing.5⟩, ⟨hs.inbound.1, hs.inbound.2⟩⟩
  · exact List.Nodup.sublist (List.Sublist.map _ List.filter_sublist) hs.items
  · intro d
    have hf := hs.faults d
    unfold State.entryListed at hf ⊢
    simp only [State.removeItem_window, State.removeItem_attention, State.setEntry_attention]
    rw [State.window_setEntry, List.any_filter]
    by_cases hd : e = d
    · subst hd
      rw [if_pos rfl]
      symm
      simp [List.any_eq_false]
    · rw [if_neg hd, hf]
      congr 1
      funext i
      by_cases hi : i.subject = .entry d
      · simp [hi, Ne.symm hd]
      · simp [hi]

theorem setMapping (hs : SoundWith k s) (e : EntryIdx) (m : Option (Target × Limit)) : SoundWith k (s.setMapping e m) := by
  unfold State.setMapping
  dsimp only
  split
  · exact (hs.clearEntry e m).within (Within.refl _).dropReference
  · exact hs.clearEntry e m

/-- An entry that takes a fault record gets its item. -/
theorem refuseAccess (hs : SoundWith k s) (e : EntryIdx) (f : FaultRecord) : SoundWith k (s.refuseAccess e f) := by
  unfold State.refuseAccess
  generalize hu : (s.setEntry e { s.window.get e with fault := some f }) = u
  have hua : u.attention = s.attention := by rw [← hu]; rfl
  have hb : SoundWith k ({ u with window := s.window } : State) := by
    rw [← hu]; exact hs.same rfl rfl rfl rfl
  obtain ⟨a, ha⟩ : ∃ a, u.notice (.entry e) (.entry f) = { u with attention := a } := by
    unfold State.notice; split <;> exact ⟨_, rfl⟩
  have hi := Within.items_notice u (.entry e) (.entry f) (by rw [← hu]; exact hs.items)
  have hl := Within.entryListed_notice u (.entry e) (.entry f)
  rw [ha] at hi hl ⊢
  refine SoundWith.same (s := { u with attention := a }) ⟨hb.memory, hb.queues, hb.commands, hi, ?_,
    ⟨hb.outgoing.1, hb.outgoing.2, hb.outgoing.3, hb.outgoing.4, hb.outgoing.5⟩, ⟨hb.inbound.1, hb.inbound.2⟩⟩
    rfl rfl rfl rfl
  intro d
  rw [hl]
  have hf := hs.faults d
  have hl' : u.entryListed d = s.entryListed d := by unfold State.entryListed; rw [hua]
  rw [hl', ← hf]
  show (u.window.get d).fault.isSome = _
  rw [← hu, State.window_setEntry]
  by_cases hd : e = d
  · subst hd; simp
  · simp [hd]

/-- An acknowledged item leaves with the fault record of its entry. -/
theorem ackSubject (hs : SoundWith k s) (code : Nat) : SoundWith k (s.ackSubject code) := by
  have ho : s.Outgoing := hs.outgoing
  have hb : s.Inbound [] := hs.inbound
  unfold State.ackSubject
  split
  · exact hs
  · rename_i i rest ha
    split
    · have hn := hs.items
      unfold State.ItemsDistinct at hn
      rw [ha, List.map_cons, List.nodup_cons] at hn
      have hl : ∀ d, s.entryListed d = (i.subject == .entry d || rest.any fun i => i.subject == .entry d) := by
        intro d; unfold State.entryListed; rw [ha]; rfl
      dsimp only
      split
      · rename_i e hi
        refine ⟨hs.memory, hs.queues, hs.commands, hn.2, ?_, ⟨ho.1, ho.2, ho.3, ho.4, ho.5⟩, ⟨hb.1, hb.2⟩⟩
        intro d
        rw [State.window_setEntry]
        by_cases hd : e = d
        · subst hd
          rw [if_pos rfl]
          symm
          have := hn.1
          rw [hi] at this
          simp only [State.entryListed, State.setEntry_attention]
          rw [Within.any_subject]
          simpa using this
        · rw [if_neg hd]
          show (s.window.get d).fault.isSome = rest.any _
          rw [hs.faults d, hl d, hi]
          simp [hd]
      · rename_i hi
        refine ⟨hs.memory, hs.queues, hs.commands, hn.2, ?_, ⟨ho.1, ho.2, ho.3, ho.4, ho.5⟩, ⟨hb.1, hb.2⟩⟩
        intro d
        show (s.window.get d).fault.isSome = rest.any _
        rw [hs.faults d, hl d]
        have : (i.subject == Subject.entry d) = false := by
          simp only [beq_eq_false_iff_ne]; exact hi d
        rw [this]; rfl
    · exact hs

theorem emptyWindow (hs : SoundWith k s) : SoundWith k s.emptyWindow := by
  refine ⟨hs.memory, hs.queues, hs.commands, ?_, ?_, ⟨hs.outgoing.1, hs.outgoing.2, hs.outgoing.3, hs.outgoing.4,
    hs.outgoing.5⟩, ⟨hs.inbound.1, hs.inbound.2⟩⟩
  · exact List.Nodup.sublist (List.Sublist.map _ List.filter_sublist) hs.items
  · intro e
    have hz : (Vector.replicate 32 Entry.empty).get e = Entry.empty := by simp [Vector.get]
    unfold State.entryListed State.emptyWindow
    simp only [hz]
    rw [List.any_filter]
    symm
    rw [show Entry.empty.fault.isSome = false from rfl, List.any_eq_false]
    intro i _
    cases i.subject <;> simp

end State.SoundWith

/-! ### The leaving order (R124) -/

namespace Within

variable {s t : State}

theorem cancelClaims (h : Internal s t) : Internal s t.cancelClaims := by
  unfold State.cancelClaims
  have hf := h.foldl
    (f := fun s c => if (State.claim s c).live then s.endLease c .cancelled .cancelled .ok else s)
    (fun u c => by
      split
      · exact (Within.refl u).endLease
      · exact Within.refl u) claimIdxs
  generalize claimIdxs.foldl (fun s c => if (State.claim s c).live then s.endLease c .cancelled .cancelled .ok else s) t = v
    at hf ⊢
  have hz : ∀ c, (({ v with claims := v.claims.map fun c => .free c.use } : State).claim c).tickets = 0 := by
    intro c
    unfold State.claim
    rw [get_eq_getElem, Vector.getElem_map]
    rfl
  have hc : Internal v { v with claims := v.claims.map fun c => .free c.use } := by
    refine ⟨rfl, id, id, fun _ => rfl, ?_, fun o => ⟨o.1, o.2, o.3, o.4, o.5⟩, fun _ i => ⟨i.1, i.2⟩⟩
    intro k r
    refine ⟨?_, r.2⟩
    have h0 : (claimIdxs.map fun c =>
        (({ v with claims := v.claims.map fun c => .free c.use } : State).claim c).tickets).sum = 0 := by
      simp only [hz]
      have : ∀ l : List ClaimIdx, (l.map fun _ => 0).sum = 0 := by
        intro l
        induction l with
        | nil => rfl
        | cons _ _ ih => rw [List.map_cons, List.sum_cons, ih]
      exact this _
    have h1 := r.1
    unfold State.tickets at h1
    show (claimIdxs.map fun c =>
        (({ v with claims := v.claims.map fun c => .free c.use } : State).claim c).tickets).sum + bit v.lifeCmd.isSome + k ≤ _
    rw [h0]
    show _ ≤ v.inFlight
    omega
  exact (hf.trans hc).filterItems rfl rfl rfl (by
    intro i e hi
    simp only [hi])

theorem forgetPeers (h : Internal s t) : Internal s t.forgetPeers :=
  h.filterItems rfl rfl rfl (by
    intro i e hi
    simp only [hi])

theorem leaveJoining (h : Internal s t) : Internal s t.leaveJoining := by
  unfold State.leaveJoining
  refine Within.notice Within.stationNoEntry (Within.completeLife ?_)
  exact h.same rfl rfl

end Within

namespace State.SoundWith

variable {s t : State} {k : Nat}

/-- The leaving order keeps a state sound: the window is emptied with its items. -/
theorem leaveRing (hs : SoundWith k s) : SoundWith k s.leaveRing := by
  have h1 : SoundWith k (s.enterBypass false) := hs.within (Within.refl s).enterBypass
  have h3 := h1.emptyWindow.within (Within.refl _).cancelClaims
  have h4 : SoundWith k (s.enterBypass false).emptyWindow.cancelClaims.removePartition := by
    revert h3
    generalize (s.enterBypass false).emptyWindow.cancelClaims = u
    intro h3
    exact h3.same rfl rfl rfl rfl
  exact h4.within (Within.refl _).forgetPeers.leaveJoining

theorem settleEvent (hs : SoundWith k s) : SoundWith k s.settleEvent := hs.within (Within.refl s).settleEvent

/-! ### Commands (R161) -/

theorem enterJoining (hs : SoundWith (k + 1) s) (t : Ticket) : SoundWith k (s.enterJoining t) := by
  unfold State.enterJoining
  refine SoundWith.within (s := { s with
    station := .joining, port := .active, probeOutstanding := true, announceAwaited := 0, lifeCmd := some t }) ?_
    (Within.refl _).handOver
  exact hs.setLife t rfl rfl

theorem takeClaim (hs : SoundWith (k + 1) s) (c : ClaimIdx) (b : Block) (m : Mode) (f : Nat) (t : Ticket) :
    SoundWith k (s.takeClaim c b m f t) := by
  unfold State.takeClaim
  refine SoundWith.within (hs.setClaim c _ ?_) (Within.refl _).claimAsk
  exact Nat.le_add_left 1 _

theorem endTaken {u : State} (hs : SoundWith k u) (c : ClaimIdx) : SoundWith k (u.endTaken s c) :=
  hs.settleEvent.within (Within.refl _).bringForward

/-- A command taken leaves a sound state. -/
theorem runCommand (hs : SoundWith (k + 1) s) (q : Queued) : SoundWith k (s.runCommand q) := by
  have answers : ∀ {s : State}, SoundWith (k + 1) s → ∀ st, SoundWith k (s.answer q st) :=
    fun h st => h.complete _ _ _ _ _
  have answersClaim : ∀ {s : State}, SoundWith (k + 1) s → ∀ st c, SoundWith k (s.answerClaim q st c) :=
    fun h st c => h.complete _ _ _ _ _
  have hif : ∀ (f : State → Queued → State), (∀ s, SoundWith (k + 1) s → SoundWith k (f s q)) →
      ∀ s : State, SoundWith (k + 1) s → SoundWith k (s.ifStarted q f) := by
    intro f hf s h
    unfold State.ifStarted
    split
    · exact h.complete _ _ _ _ _
    · exact hf s h
  have acq : ∀ s : State, SoundWith (k + 1) s → SoundWith k (State.doAcquire s q) := by
    intro s h
    unfold State.doAcquire State.acquireBlock
    dsimp only
    repeat' split
    all_goals first
      | with_reducible exact (h.takeClaim _ _ _ _ _).endTaken _
      | with_reducible exact h.complete _ _ _ _ _
      | with_reducible exact answers h _
      | with_reducible exact answersClaim h _ _
      | exact (SoundWith.takeClaim (s := { s with borrow := s.borrow.set _ _ }) (h.same rfl rfl rfl rfl) _ _ _ _ _).endTaken _
  have up : ∀ s : State, SoundWith (k + 1) s → SoundWith k (State.doUpgrade s q) := by
    intro s h
    unfold State.doUpgrade
    dsimp only
    repeat' split
    all_goals first
      | with_reducible exact h.complete _ _ _ _ _
      | with_reducible exact answers h _
      | with_reducible exact answersClaim h _ _
      | exact ((h.setClaim _ _ (claim_takes _ _)).within (Within.refl _).claimAsk).endTaken _
  have rel : ∀ s : State, SoundWith (k + 1) s → SoundWith k (State.doRelease s q) := by
    intro s h
    unfold State.doRelease
    repeat' split
    all_goals first
      | with_reducible exact h.complete _ _ _ _ _
      | with_reducible exact answers h _
      | with_reducible exact answersClaim h _ _
      | exact ((h.setClaim _ _ (claim_takes _ _)).within (Within.refl _).letGo).endTaken _
  have can : ∀ s : State, SoundWith (k + 1) s → SoundWith k (State.doCancel s q) := by
    intro s h
    unfold State.doCancel
    repeat' split
    all_goals first
      | with_reducible exact h.complete _ _ _ _ _
      | with_reducible exact answers h _
      | with_reducible exact answersClaim h _ _
      | exact ((h.setClaim _ _ (claim_takes_cancel _ _)).within (Within.refl _).giveUpAsk).endTaken _
  have mp : ∀ s : State, SoundWith (k + 1) s → SoundWith k (State.doMap s q) := by
    intro s h
    unfold State.doMap
    dsimp only
    repeat' split
    all_goals first | exact h.complete _ _ _ _ _ | exact (h.setMapping _ _).complete _ _ _ _ _
  have um : ∀ s : State, SoundWith (k + 1) s → SoundWith k (State.doUnmap s q) := by
    intro s h
    unfold State.doUnmap
    repeat' split
    all_goals first | exact h.complete _ _ _ _ _ | exact (h.setMapping _ _).complete _ _ _ _ _
  have rs : ∀ s : State, SoundWith (k + 1) s → SoundWith k (State.doRestore s q) := by
    intro s h
    unfold State.doRestore
    repeat' split
    all_goals first | exact h.complete _ _ _ _ _ | exact (h.within (Within.refl _).setRecord).complete _ _ _ _ _
  have ib : ∀ s : State, SoundWith (k + 1) s → SoundWith k (State.doInspectBlock s q) := by
    intro s h
    unfold State.doInspectBlock
    repeat' split
    all_goals exact h.writeCompletion _
  have ic : ∀ s : State, SoundWith (k + 1) s → SoundWith k (State.doInspectClaim s q) := by
    intro s h
    unfold State.doInspectClaim
    dsimp only
    repeat' split
    all_goals exact h.writeCompletion _
  have st : ∀ s : State, SoundWith (k + 1) s → SoundWith k (State.doStart s q) := by
    intro s h
    unfold State.doStart State.startEffect
    repeat' split
    all_goals first
      | exact h.complete _ _ _ _ _
      | exact SoundWith.enterJoining (s := { s with
          homeCount := s.startHome, borrowCount := s.startBorrow, records := List.replicate s.startHome .initial,
          borrow := List.replicate s.startBorrow none, dirTurn := .empty, claimTurn := .empty }) (h.same rfl rfl rfl rfl) _
  have at_ : ∀ s : State, SoundWith (k + 1) s → SoundWith k (State.doAttach s q) := by
    intro s h
    unfold State.doAttach
    repeat' split
    all_goals first | exact h.complete _ _ _ _ _ | exact h.enterJoining _
  have re : ∀ s : State, SoundWith (k + 1) s → SoundWith k (State.doResume s q) := by
    intro s h
    unfold State.doResume
    split
    · refine SoundWith.complete ?_ _ _ _ _ _
      refine SoundWith.within (s := { s with port := .active, txq := s.txq.map TxEntry.resumed }) ?_
        (Within.refl _).mapPausable
      have o := Within.outgoing_map (t := s) (f := TxEntry.resumed)
        (fun e _ => by unfold TxEntry.resumed; split <;> rfl)
        (fun e _ => by
          unfold TxEntry.resumed
          split
          · rename_i he; simp [he]
          · exact Iff.rfl) h.outgoing
      refine ⟨h.memory, ⟨?_, h.queues.2⟩, h.commands, h.items, h.faults, ⟨o.1, o.2, o.3, o.4, o.5⟩,
        ⟨h.inbound.1, h.inbound.2⟩⟩
      show (s.txq.map _).length ≤ _
      rw [List.length_map]; exact h.queues.1
    · exact h.complete _ _ _ _ _
  have de : ∀ s : State, SoundWith (k + 1) s → SoundWith k (State.doDetach s q) := by
    intro s h
    unfold State.doDetach
    split
    · split
      · exact h.complete _ _ _ _ _
      · refine SoundWith.within (SoundWith.settleEvent ?_) (Within.refl _).bringForward
        refine SoundWith.within (s := { s with station := .detaching, lifeCmd := some q.ticket }) ?_
          (Within.refl _).denyAllPeers
        exact h.setLife q.ticket rfl rfl
    · exact h.complete _ _ _ _ _
  unfold State.runCommand
  split
  · exact st _ hs
  · exact hif _ at_ _ hs
  · exact hif _ de _ hs
  · exact hif _ re _ hs
  · exact hif _ acq _ hs
  · exact hif _ up _ hs
  · exact hif _ rel _ hs
  · exact hif _ can _ hs
  · exact hif _ mp _ hs
  · exact hif _ um _ hs
  · exact hif _ rs _ hs
  · refine hif _ ?_ _ hs
    intro s h
    split
    · exact ic s h
    · exact ib s h
  · exact hs.complete _ _ _ _ _

end State.SoundWith

namespace State.Sound

variable {s t : State}

theorem update (hs : s.Sound) (hd : Memory.wf t.dram = true) (hc : t.cmdq.length ≤ Config.commandCapacity)
    (hb : t.bounded = s.bounded) (hw : t.window = s.window) : t.Sound :=
  ((SoundWith.of_sound hs).update hd hc hb hw).sound

theorem same (hs : s.Sound) (hd : t.dram = s.dram) (hc : t.cmdq = s.cmdq) (hb : t.bounded = s.bounded)
    (hw : t.window = s.window) : t.Sound := ((SoundWith.of_sound hs).same hd hc hb hw).sound

theorem within (hs : s.Sound) (h : Internal s t) : t.Sound := ((SoundWith.of_sound hs).within h).sound

theorem settleEvent (hs : s.Sound) : s.settleEvent.Sound := hs.within (Within.refl s).settleEvent

/-- Commands taken one after another leave a sound state. -/
theorem takeLoop (k : Nat) (hs : s.Sound) : (State.takeLoop k s).Sound := by
  induction k generalizing s with
  | zero => exact hs
  | succ k ih =>
    unfold State.takeLoop
    split
    · rename_i q hq
      exact ih ((SoundWith.removeHead hs hq).runCommand q).settleEvent.sound
    · exact hs

theorem takeAll (hs : s.Sound) : s.takeAll.Sound := hs.takeLoop _

/-- A row of the command queue whose action is that of `runCommand` leaves a sound state. -/
theorem takeRow (hs : s.Sound) (row : CommandRecord → Bool) (act : State → Queued → State)
    (hh : ∀ s q, row q.record = true → act s q = s.runCommand q) : (s.takeRow row act).Sound := by
  unfold State.takeRow
  split
  · rename_i q hq
    split
    · rename_i hr
      rw [hh _ _ hr]
      exact ((SoundWith.removeHead hs hq).runCommand q).settleEvent.sound
    · exact hs
  · exact hs

/-- The command queue takes a record it has room for. -/
theorem post (hs : s.Sound) : s.post.Sound := by
  unfold State.post
  split
  · refine hs.update hs.memory ?_ rfl rfl
    show (s.cmdq ++ [_]).length ≤ _
    rw [List.length_append, List.length_singleton]; omega
  · exact hs.same rfl rfl rfl rfl

/-- The completion queue loses its head. -/
theorem pop (hs : s.Sound) : State.Sound { s with cplq := s.cplq.tail } := by
  refine SoundWith.sound ⟨hs.memory, hs.queues, ⟨hs.commands.1, ?_⟩, hs.items, hs.faults, ⟨hs.outgoing.1, hs.outgoing.2,
    hs.outgoing.3, hs.outgoing.4, hs.outgoing.5⟩, ⟨hs.inbound.1, hs.inbound.2⟩⟩
  have := hs.commands.2
  show s.inFlight + s.cplq.tail.length ≤ _
  rw [List.length_tail]; omega

/-! ### Frames received (R94 to R99) -/

/-- The forward buffer takes a frame it has room for. -/
theorem forward (f : Frame) (hs : s.Sound) : (s.forward f).Sound := by
  unfold State.forward
  split
  · exact hs
  · rename_i h
    rw [not_or] at h
    refine SoundWith.sound ⟨hs.memory, ⟨hs.queues.1, hs.queues.2.1, hs.queues.2.2.1, hs.queues.2.2.2.1, ?_⟩, hs.commands,
      hs.items, hs.faults, ⟨hs.outgoing.1, hs.outgoing.2, hs.outgoing.3, hs.outgoing.4, hs.outgoing.5⟩,
      ⟨hs.inbound.1, hs.inbound.2⟩⟩
    show ((s.fwd ++ [{ f with hop := f.hop + 1 }]).map Frame.size).sum ≤ _
    rw [List.map_append, List.sum_append]
    have h2 := h.2
    unfold State.forwardBytes at h2
    have : ([{ f with hop := f.hop + 1 }].map Frame.size).sum = f.size := by simp [Frame.size]
    omega

/-- The receive queue takes a frame it has room for, with its payload in a free buffer. -/
theorem receive (hs : s.Sound) (e : RxEntry) (p : Option (List Byte)) (b : Fin 4) (hr : s.rx.length < Config.rxCapacity)
    (he : e.buf = some b) (hb : s.inBuf.get b = none) (hp : p.isSome = true) :
    State.Sound { s.setInBuf b p with rx := s.rx ++ [e] } := by
  have hn : b ∉ s.inUsers := by
    intro hm
    have := hs.inbound.occupied b hm
    rw [hb] at this
    cases this
  have pm : List.Perm (State.inUsers { s.setInBuf b p with rx := s.rx ++ [e] }) (b :: s.inUsers) := by
    unfold State.inUsers
    show List.Perm (s.moves.filterMap Move.writeBuf ++ (s.heldFrame.toList ++ (s.rx ++ [e])).filterMap (·.buf)) _
    rw [← List.append_assoc s.heldFrame.toList, List.filterMap_append, ← List.append_assoc]
    have : [e].filterMap (·.buf) = [b] := by simp [he]
    rw [this]
    exact List.perm_append_comm
  refine SoundWith.sound ⟨hs.memory, ⟨hs.queues.1, hs.queues.2.1, ?_, hs.queues.2.2.2⟩, hs.commands, hs.items, hs.faults,
    ⟨hs.outgoing.1, hs.outgoing.2, hs.outgoing.3, hs.outgoing.4, hs.outgoing.5⟩, ⟨?_, ?_⟩⟩
  · show (s.rx ++ [e]).length ≤ _
    rw [List.length_append, List.length_singleton]; omega
  · exact pm.nodup_iff.2 (List.nodup_cons.2 ⟨hn, hs.inbound.distinct⟩)
  · intro d hd
    have hd' := pm.mem_iff.1 hd
    show ((s.setInBuf b p).inBuf.get d).isSome = true
    rw [Within.inBuf_setInBuf]
    split
    · exact hp
    · rename_i hbd
      rcases List.mem_cons.1 hd' with h | h
      · exact absurd h.symm hbd
      · exact hs.inbound.occupied d h

theorem receivePlain (hs : s.Sound) (e : RxEntry) (hr : s.rx.length < Config.rxCapacity) (he : e.buf = none) :
    State.Sound { s with rx := s.rx ++ [e] } := by
  have pm : State.inUsers { s with rx := s.rx ++ [e] } = s.inUsers := by
    unfold State.inUsers
    show s.moves.filterMap Move.writeBuf ++ (s.heldFrame.toList ++ (s.rx ++ [e])).filterMap (·.buf) = _
    rw [← List.append_assoc s.heldFrame.toList, List.filterMap_append, ← List.append_assoc]
    have : [e].filterMap (·.buf) = [] := by simp [he]
    rw [this, List.append_nil]
  refine SoundWith.sound ⟨hs.memory, ⟨hs.queues.1, hs.queues.2.1, ?_, hs.queues.2.2.2⟩, hs.commands, hs.items, hs.faults,
    ⟨hs.outgoing.1, hs.outgoing.2, hs.outgoing.3, hs.outgoing.4, hs.outgoing.5⟩, ⟨?_, ?_⟩⟩
  · show (s.rx ++ [e]).length ≤ _
    rw [List.length_append, List.length_singleton]; omega
  · rw [pm]; exact hs.inbound.distinct
  · rw [pm]; exact hs.inbound.occupied

/-- Entry `i` leaves the transmit queue with its buffer. -/
theorem removeEntry (hs : s.Sound) (i : Nat) (e : TxEntry) (he : s.txq[i]? = some e) : (s.removeEntry i e).Sound := by
  have hi : i < s.txq.length := (List.getElem?_eq_some_iff.1 he).1
  have hv : s.txq[i] = e := (List.getElem?_eq_some_iff.1 he).2
  have pm : List.Perm (e :: s.txq.eraseIdx i) s.txq := by
    rw [← hv]
    generalize s.txq = l at hi
    clear hv he
    induction l generalizing i with
    | nil => simp at hi
    | cons a rest ih =>
      cases i with
      | zero => exact List.Perm.refl _
      | succ i =>
        rw [List.eraseIdx_cons_succ, List.getElem_cons_succ]
        exact (List.Perm.swap _ _ _).trans ((ih i (by simpa using hi)).cons a)
  have o := Within.outgoing_releaseOut (Within.outgoing_perm pm hs.outgoing)
  unfold State.removeEntry
  obtain ⟨ob, hob⟩ := Within.releaseOut_eq e ({ s with txq := s.txq.eraseIdx i } : State)
  obtain ⟨ob', hob'⟩ := Within.releaseOut_eq e ({ s with txq := e :: s.txq.eraseIdx i } : State)
  have hq : ob = ob' := by
    have h1 : (State.releaseOut ({ s with txq := s.txq.eraseIdx i } : State) e).outBuf =
        (State.releaseOut ({ s with txq := e :: s.txq.eraseIdx i } : State) e).outBuf := by
      unfold State.releaseOut; repeat' split
      all_goals rfl
    rw [hob, hob'] at h1
    exact h1
  have o' : State.Outgoing ({ s with txq := s.txq.eraseIdx i, outBuf := ob } : State) := by
    have o2 := Within.outgoing_releaseOut (t := s) (Within.outgoing_perm pm hs.outgoing)
    obtain ⟨ob2, hob2⟩ := Within.releaseOut_eq e s
    have hq2 : ob = ob2 := by
      have h1 : (State.releaseOut ({ s with txq := s.txq.eraseIdx i } : State) e).outBuf = (s.releaseOut e).outBuf := by
        unfold State.releaseOut; repeat' split
        all_goals rfl
      rw [hob, hob2] at h1
      exact h1
    rw [hob2] at o2
    rw [hq2]
    exact ⟨o2.1, o2.2, o2.3, o2.4, o2.5⟩
  rw [hob]
  refine SoundWith.sound ⟨hs.memory, ⟨?_, hs.queues.2⟩, hs.commands, hs.items, hs.faults, o', ⟨hs.inbound.1, hs.inbound.2⟩⟩
  have := hs.queues.1
  have := List.length_eraseIdx_le (l := s.txq) (i := i)
  show (s.txq.eraseIdx i).length ≤ _
  omega

/-- Entry `i`, not READING, takes another state that is not READING. -/
theorem setEntryState (hs : s.Sound) (i : Nat) (e f : TxEntry) (he : s.txq[i]? = some e) (hb : f.buf = e.buf)
    (h1 : e.st ≠ .reading) (h2 : f.st ≠ .reading) (ht : t.outside = s.outside)
    (htb : t.bounded = { s.bounded with txq := s.txq.set i f }) : t.Sound := by
  have hi : i < s.txq.length := (List.getElem?_eq_some_iff.1 he).1
  have hv : s.txq[i] = e := (List.getElem?_eq_some_iff.1 he).2
  have hmem : e ∈ s.txq := hv ▸ List.getElem_mem hi
  have hmap : (s.txq.set i f).filterMap (·.buf) = s.txq.filterMap (·.buf) := by
    have h3 : (s.txq.set i f).map (·.buf) = s.txq.map (·.buf) := by
      rw [List.map_set]
      apply List.ext_getElem?
      intro j
      rw [List.getElem?_set]
      split
      · rename_i hj
        subst hj
        rw [List.getElem?_map, he]
        simp [hi, hb]
      · rfl
    have h4 : ∀ l : List TxEntry, l.filterMap (·.buf) = (l.map (·.buf)).filterMap id := by
      intro l; rw [List.filterMap_map]; rfl
    rw [h4, h4, h3]
  have hx : ∀ x ∈ s.txq.set i f, x = f ∨ x ∈ s.txq := by
    intro x hx
    rcases List.mem_or_eq_of_mem_set hx with h | h
    · exact Or.inr h
    · exact Or.inl h
  have o := hs.outgoing
  have hsound : State.Sound { s with txq := s.txq.set i f } := by
    refine SoundWith.sound ⟨hs.memory, ⟨?_, hs.queues.2⟩, hs.commands, hs.items, hs.faults,
      ⟨o.1, o.2, ?_, ?_, ?_⟩, ⟨hs.inbound.1, hs.inbound.2⟩⟩
    · show (s.txq.set i f).length ≤ _
      rw [List.length_set]; exact hs.queues.1
    · show ((s.txq.set i f).filterMap (·.buf)).Nodup
      rw [hmap]; exact o.3
    · intro x hm d hd hst
      rcases hx x hm with h | h
      · subst h; exact absurd hst h2
      · exact o.4 x h d hd hst
    · intro x hm d hd hst
      rcases hx x hm with h | h
      · subst h; exact o.5 e hmem d (hb ▸ hd) h1
      · exact o.5 x h d hd hst
  exact hsound.within (Within.of_bounded ht htb)

/-- An intact frame leaves a sound state. -/
theorem sortFrame (f : Frame) (hs : s.Sound) : (s.sortFrame f).Sound := by
  have hp : (s.takeProbe f).Sound := (hs.forward _).within (Within.refl _).conflictReport
  have ht : (s.takeFrame f).Sound := by
    unfold State.takeFrame
    dsimp only
    repeat' split
    · rename_i hr _ _ b hb
      refine State.Sound.forward _ (hs.receive _ _ b hr rfl ?_ rfl)
      unfold State.freeInBuf at hb
      have := List.find?_some hb
      simpa using this
    · exact hs.forward _
    · rename_i hr _
      exact State.Sound.forward _ (hs.receivePlain _ hr rfl)
    · exact hs.forward _
  have ho : ∀ i e r, s.txq[i]? = some e → e.st ≠ .reading → (s.outcome i e r).Sound := by
    intro i e r he hst
    unfold State.outcome
    split
    · exact hs.within (Within.refl _).failAll
    · unfold State.outcomeTaken
      dsimp only
      have hr := hs.removeEntry i e he
      split
      · exact (SoundWith.of_sound hr).leaveRing.sound
      · refine State.Sound.within ?_ (Within.refl _).peerTaken
        unfold State.reportTaken
        split
        · exact hr.within (Within.refl _).dirTaken
        · exact hr.within (Within.refl _).claimTaken
        · exact hr
        · exact hr.within (Within.refl _).announceDone
    · unfold State.outcomeBusy
      split
      · exact hs.setEntryState i e
          { e with st := .retry, busy := e.busy + 1, returnTimer := .off, retryTimer := .start } he rfl hst (by simp) rfl rfl
      · exact hs.within (Within.refl _).failAll
  unfold State.sortFrame
  split
  · split
    · unfold State.strip
      split
      · rename_i i hi
        split
        · rename_i e he
          refine ho i e _ he ?_
          have hw : s.awaits f e = true := by
            obtain ⟨hlt, hw, _⟩ := List.findIdx?_eq_some_iff_getElem.1 hi
            have : s.txq[i] = e := (List.getElem?_eq_some_iff.1 he).2
            rw [this] at hw
            exact hw
          intro hr
          unfold State.awaits at hw
          rw [hr] at hw
          simp at hw
        · exact hs
      · split
        · exact hp
        · exact hs
    · split
      · exact hp
      · exact hs.forward _
  · split
    · split
      · exact ht
      · exact hs.forward _
    · exact hs.forward _

/-! ### Sending, offers and expiries -/

theorem forwardSend (hs : s.Sound) (f : Frame) (rest : List Frame) (hf : s.fwd = f :: rest) (o : List Byte) :
    State.Sound { s with fwd := rest, rout := o } := by
  refine SoundWith.sound ⟨hs.memory, ⟨hs.queues.1, hs.queues.2.1, hs.queues.2.2.1, hs.queues.2.2.2.1, ?_⟩, hs.commands,
    hs.items, hs.faults, ⟨hs.outgoing.1, hs.outgoing.2, hs.outgoing.3, hs.outgoing.4, hs.outgoing.5⟩,
    ⟨hs.inbound.1, hs.inbound.2⟩⟩
  have := hs.queues.2.2.2.2
  unfold State.forwardBytes at this
  rw [hf, List.map_cons, List.sum_cons] at this
  show (rest.map Frame.size).sum ≤ _
  omega

/-- A ready entry is sent. -/
theorem sendEntry (hs : s.Sound) (i : Nat) (hi : s.txq.findIdx? s.ready = some i) : (s.sendEntry i).Sound := by
  unfold State.sendEntry
  split
  · rename_i e he
    have hr : s.ready e = true := by
      obtain ⟨_, hw, _⟩ := List.findIdx?_eq_some_iff_getElem.1 hi
      have : s.txq[i] = e := (List.getElem?_eq_some_iff.1 he).2
      rw [this] at hw
      exact hw
    have hst : e.st ≠ .reading := by
      intro k
      unfold State.ready at hr
      rw [k] at hr
      simp at hr
    have h1 := hs.setEntryState (t := { s with
      txq := s.txq.set i { e with st := .circulating, returnTimer := .start, retryTimer := .off } }) i e
      { e with st := .circulating, returnTimer := .start, retryTimer := .off } he rfl hst (by simp) rfl rfl
    exact h1.same rfl rfl rfl rfl
  · exact hs

theorem handoverAccept (hs : s.Sound) (h : Handed) (rest : List Handed) (hh : s.handover = h :: rest)
    (hc : s.canAccept h.dest = true) :
    State.Sound { s with handover := rest, txq := s.txq ++ [TxEntry.fresh h.dest h.msg h.owner none .waiting] } := by
  refine hs.within ((Within.refl s).accept rfl ?_ ?_)
  · simp [State.canAccept] at hc
    exact hc.1
  · rw [hh]; simp

/-- A chunk is accepted into a free buffer, and its read is raised. -/
theorem acceptChunk (hs : s.Sound) (d : Station) (m : Lease) (w : Owner) (b : Fin 4) (f : Nat) (c : ChunkIdx) (nx : Offerer)
    (hb : s.outBuf.get b = .free) (hq : s.txq.length < Config.txCapacity) : (s.acceptChunk d m w b f c nx).Sound := by
  have o := hs.outgoing
  have hr : b ∉ s.moves.filterMap Move.readBuf := by
    intro hm
    rcases o.reserved b hm with h | h <;> rw [hb] at h <;> cases h
  have he : ∀ x ∈ s.txq, x.buf ≠ some b := by
    intro x hx hxb
    by_cases hst : x.st = .reading
    · have := o.reading x hx b hxb hst
      rw [hb] at this; cases this
    · obtain ⟨p, hp⟩ := o.filled x hx b hxb hst
      rw [hb] at hp; cases hp
  unfold State.acceptChunk State.raiseMove
  dsimp only
  refine State.Sound.within ?_ (Within.refl _).arbStart
  have e1 : (s.moves ++ [Move.read b f c]).filterMap Move.readBuf = s.moves.filterMap Move.readBuf ++ [b] := by
    rw [List.filterMap_append]; rfl
  have e2 : (s.moves ++ [Move.read b f c]).filterMap Move.writeBuf = s.moves.filterMap Move.writeBuf := by
    rw [List.filterMap_append]; simp [Move.writeBuf]
  have e3 : (s.txq ++ [TxEntry.fresh d m w (some b) .reading]).filterMap (·.buf) = s.txq.filterMap (·.buf) ++ [b] := by
    rw [List.filterMap_append]; rfl
  refine SoundWith.sound ⟨hs.memory, ⟨?_, hs.queues.2⟩, hs.commands, hs.items, hs.faults, ⟨?_, ?_, ?_, ?_, ?_⟩, ⟨?_, ?_⟩⟩
  · show (s.txq ++ [_]).length ≤ _
    rw [List.length_append, List.length_singleton]; omega
  · show ((s.moves ++ [Move.read b f c]).filterMap Move.readBuf).Nodup
    rw [e1]
    exact List.nodup_append.2 ⟨o.reads, by simp, by
      intro x hx y hy hxy; rw [List.mem_singleton] at hy; subst hy; subst hxy; exact hr hx⟩
  · intro x hx
    have hx' : x ∈ (s.moves ++ [Move.read b f c]).filterMap Move.readBuf := hx
    rw [e1, List.mem_append, List.mem_singleton] at hx'
    show (s.setOutBuf b .reading).outBuf.get x = _ ∨ (s.setOutBuf b .reading).outBuf.get x = _
    rw [Within.outBuf_setOutBuf]
    split
    · exact Or.inl rfl
    · rename_i hxb
      rcases hx' with h | h
      · exact o.reserved x h
      · exact absurd h.symm hxb
  · show ((s.txq ++ [TxEntry.fresh d m w (some b) .reading]).filterMap (·.buf)).Nodup
    rw [e3]
    refine List.nodup_append.2 ⟨o.entries, by simp, ?_⟩
    intro x hx y hy hxy
    rw [List.mem_singleton] at hy
    subst hy; subst hxy
    obtain ⟨z, hz, hzb⟩ := List.mem_filterMap.1 hx
    exact he z hz hzb
  · intro x hx y hy hst
    show (s.setOutBuf b .reading).outBuf.get y = _
    rw [Within.outBuf_setOutBuf]
    split
    · rfl
    · rename_i hby
      rcases List.mem_append.1 hx with h | h
      · exact o.reading x h y hy hst
      · rw [List.mem_singleton] at h; subst h
        exact absurd (Option.some.inj hy) hby
  · intro x hx y hy hst
    show ∃ p, (s.setOutBuf b .reading).outBuf.get y = _
    rcases List.mem_append.1 hx with h | h
    · have hne : b ≠ y := by intro k; subst k; exact he x h hy
      rw [Within.outBuf_setOutBuf, if_neg hne]
      exact o.filled x h y hy hst
    · rw [List.mem_singleton] at h; subst h
      exact absurd rfl hst
  · show ([] ++ ((s.moves ++ [Move.read b f c]).filterMap Move.writeBuf ++ _)).Nodup
    rw [e2]; exact hs.inbound.distinct
  · intro x hx
    have hx' : x ∈ [] ++ ((s.moves ++ [Move.read b f c]).filterMap Move.writeBuf ++
        (s.heldFrame.toList ++ s.rx).filterMap (·.buf)) := hx
    rw [e2] at hx'
    exact hs.inbound.occupied x hx'

/-! ### The ends of grants -/

/-- The head of the move list ends as a write: its buffer is free. -/
theorem writeEnds (hs : s.Sound) (b : Fin 4) (f : Nat) (c : ChunkIdx) (a : Asker) (r : Bool) (rest : List Move)
    (hm : s.moves = .write b f c a r :: rest) (m : Memory) (hw : Memory.wf m = true) :
    State.Sound (State.endMove (State.setInBuf { s with dram := m } b none)) := by
  have o := hs.outgoing
  have hrd : s.moves.filterMap Move.readBuf = rest.filterMap Move.readBuf := by rw [hm]; rfl
  have hus : s.inUsers = b :: (rest.filterMap Move.writeBuf ++ (s.heldFrame.toList ++ s.rx).filterMap (·.buf)) := by
    unfold State.inUsers; rw [hm]; rfl
  have hd := hs.inbound.distinct
  have hoc := hs.inbound.occupied
  rw [List.nil_append, hus] at hd hoc
  rw [List.nodup_cons] at hd
  refine SoundWith.sound ⟨hw, hs.queues, hs.commands, hs.items, hs.faults, ⟨?_, ?_, o.3, o.4, o.5⟩, ⟨?_, ?_⟩⟩
  · show (s.moves.tail.filterMap Move.readBuf).Nodup
    rw [hm, List.tail_cons, ← hrd]; exact o.1
  · show ∀ x ∈ s.moves.tail.filterMap Move.readBuf, _
    rw [hm, List.tail_cons, ← hrd]; exact o.2
  · show ([] ++ (s.moves.tail.filterMap Move.writeBuf ++ _)).Nodup
    rw [hm, List.tail_cons]; exact hd.2
  · intro x hx
    have hx' : x ∈ [] ++ (s.moves.tail.filterMap Move.writeBuf ++ (s.heldFrame.toList ++ s.rx).filterMap (·.buf)) := hx
    rw [hm, List.tail_cons, List.nil_append] at hx'
    show ((s.setInBuf b none).inBuf.get x).isSome = true
    have hne : b ≠ x := by intro k; subst k; exact hd.1 hx'
    rw [Within.inBuf_setInBuf, if_neg hne]
    exact hoc x (List.mem_cons_of_mem _ hx')

/-- The head of the move list ends as a read: its entry has its payload, or its buffer is free. -/
theorem readEnds (hs : s.Sound) (b : Fin 4) (f : Nat) (c : ChunkIdx) (rest : List Move) (hm : s.moves = .read b f c :: rest)
    (p : List Byte) : State.Sound (s.payloadRead b p).endMove := by
  have o := hs.outgoing
  have hrd : s.moves.filterMap Move.readBuf = b :: rest.filterMap Move.readBuf := by rw [hm]; rfl
  have hwr : s.moves.filterMap Move.writeBuf = rest.filterMap Move.writeBuf := by rw [hm]; rfl
  have hnr : b ∉ rest.filterMap Move.readBuf ∧ (rest.filterMap Move.readBuf).Nodup := by
    have := o.reads
    rw [hrd, List.nodup_cons] at this
    exact this
  have inb : ∀ u : State, u.moves = s.moves → u.inBuf = s.inBuf → u.heldFrame = s.heldFrame → u.rx = s.rx →
      u.endMove.Inbound [] := by
    intro u h1 h2 h3 h4
    have e : u.endMove.inUsers = s.inUsers := by
      unfold State.inUsers
      show u.moves.tail.filterMap Move.writeBuf ++ (u.heldFrame.toList ++ u.rx).filterMap (·.buf) = _
      rw [h1, h3, h4, hwr, hm, List.tail_cons]
    exact ⟨by rw [e]; exact hs.inbound.distinct, by
      rw [e]
      intro x hx
      show (u.inBuf.get x).isSome = true
      rw [h2]; exact hs.inbound.occupied x hx⟩
  have rds : ∀ (u : State) (v : OutBuf), u.moves = s.moves → u.outBuf = (s.setOutBuf b v).outBuf →
      (u.endMove.moves.filterMap Move.readBuf).Nodup ∧
        ∀ x ∈ u.endMove.moves.filterMap Move.readBuf, u.endMove.outBuf.get x = .reading ∨ u.endMove.outBuf.get x = .discarding := by
    intro u v h1 h2
    have e : u.endMove.moves.filterMap Move.readBuf = rest.filterMap Move.readBuf := by
      show u.moves.tail.filterMap Move.readBuf = _
      rw [h1, hm, List.tail_cons]
    rw [e]
    refine ⟨hnr.2, ?_⟩
    intro x hx
    have hne : b ≠ x := by intro k; subst k; exact hnr.1 hx
    show u.outBuf.get x = _ ∨ u.outBuf.get x = _
    rw [h2, Within.outBuf_setOutBuf, if_neg hne]
    exact o.reserved x (by rw [hrd]; exact List.mem_cons_of_mem _ hx)
  unfold State.payloadRead
  split
  · rename_i hb
    have hmine : ∀ x ∈ s.txq, (x.st == TxState.reading && x.buf == some b) = true ↔ x.buf = some b := by
      intro x hx
      constructor
      · intro h; simp at h; exact h.2
      · intro h
        simp only [h, beq_self_eq_true, Bool.and_true, beq_iff_eq]
        by_cases hst : x.st = .reading
        · exact hst
        · obtain ⟨q, hq⟩ := o.filled x hx b h hst
          rw [hb] at hq; cases hq
    generalize hmn : (fun e : TxEntry => e.st == TxState.reading && e.buf == some b) = mine at *
    have hmine' : ∀ x ∈ s.txq, mine x = true ↔ x.buf = some b := by
      intro x hx; rw [← hmn]; exact hmine x hx
    have hst : ∀ x, mine x = true → x.st = .reading := by
      intro x hx; rw [← hmn] at hx; simp at hx; exact hx.1
    let q := s.txq.filter (fun e => !mine e) ++ (s.txq.filter mine).map fun e => { e with st := TxState.waiting }
    have hent : (State.entryRead (s.setOutBuf b (.full p)) b) = { s.setOutBuf b (.full p) with txq := q } := by
      unfold State.entryRead
      dsimp only
      rw [hmn]
      have : (fun e : TxEntry => !(e.st == TxState.reading && e.buf == some b)) = fun e => !mine e := by rw [← hmn]
      rw [this]
      rfl
    rw [hent]
    have hbufs : List.Perm (q.filterMap (·.buf)) (s.txq.filterMap (·.buf)) := by
      show List.Perm (List.filterMap (fun e : TxEntry => e.buf)
        (s.txq.filter (fun e => !mine e) ++ (s.txq.filter mine).map fun e => { e with st := TxState.waiting })) _
      rw [List.filterMap_append, List.filterMap_map]
      have : ((s.txq.filter mine).filterMap ((fun e : TxEntry => e.buf) ∘ fun e => { e with st := TxState.waiting }))
          = (s.txq.filter mine).filterMap (·.buf) := rfl
      rw [this, ← List.filterMap_append]
      exact (List.perm_append_comm.trans (List.filter_append_perm mine s.txq)).filterMap _
    have hr := rds ({ s.setOutBuf b (.full p) with txq := q }) (.full p) rfl rfl
    refine SoundWith.sound ⟨hs.memory, ⟨?_, hs.queues.2⟩, hs.commands, hs.items, hs.faults, ⟨hr.1, hr.2, ?_, ?_, ?_⟩,
      inb _ rfl rfl rfl rfl⟩
    · show q.length ≤ _
      have : q.length = s.txq.length := by
        show (s.txq.filter (fun e => !mine e) ++ (s.txq.filter mine).map _).length = _
        rw [List.length_append, List.length_map]
        have := Within.length_filter_not mine s.txq
        omega
      rw [this]; exact hs.queues.1
    · exact hbufs.nodup_iff.2 o.entries
    · intro x hx y hy hxs
      rcases List.mem_append.1 hx with h | h
      · obtain ⟨h1, h2⟩ := List.mem_filter.1 h
        have hne : b ≠ y := by
          intro k; subst k
          have := (hmine' x h1).2 hy
          rw [this] at h2; cases h2
        show (s.setOutBuf b _).outBuf.get y = _
        rw [Within.outBuf_setOutBuf, if_neg hne]
        exact o.reading x h1 y hy hxs
      · obtain ⟨z, _, rfl⟩ := List.mem_map.1 h
        cases hxs
    · intro x hx y hy hxs
      show ∃ v, (s.setOutBuf b _).outBuf.get y = _
      rw [Within.outBuf_setOutBuf]
      split
      · exact ⟨p, rfl⟩
      · rename_i hne
        rcases List.mem_append.1 hx with h | h
        · exact o.filled x (List.mem_filter.1 h).1 y hy hxs
        · obtain ⟨z, hz, rfl⟩ := List.mem_map.1 h
          obtain ⟨h1, h2⟩ := List.mem_filter.1 hz
          have := (hmine' z h1).1 h2
          rw [this] at hy
          exact absurd (Option.some.inj hy) hne
  · rename_i hb
    have hr := rds (s.setOutBuf b .free) .free rfl rfl
    have he : ∀ x ∈ s.txq, x.buf ≠ some b := by
      intro x hx hxb
      by_cases hst : x.st = .reading
      · have := o.reading x hx b hxb hst
        rw [hb] at this; cases this
      · obtain ⟨q, hq⟩ := o.filled x hx b hxb hst
        rw [hb] at hq; cases hq
    refine SoundWith.sound ⟨hs.memory, hs.queues, hs.commands, hs.items, hs.faults, ⟨hr.1, hr.2, o.3, ?_, ?_⟩,
      inb _ rfl rfl rfl rfl⟩
    · intro x hx y hy hst
      have hne : b ≠ y := by intro k; subst k; exact he x hx hy
      show (s.setOutBuf b _).outBuf.get y = _
      rw [Within.outBuf_setOutBuf, if_neg hne]
      exact o.reading x hx y hy hst
    · intro x hx y hy hst
      have hne : b ≠ y := by intro k; subst k; exact he x hx hy
      show ∃ v, (s.setOutBuf b _).outBuf.get y = _
      rw [Within.outBuf_setOutBuf, if_neg hne]
      exact o.filled x hx y hy hst
  · rename_i h1 h2
    have := o.reserved b (by rw [hrd]; exact List.mem_cons_self)
    rcases this with h | h
    · exact absurd h h1
    · exact absurd h h2

/-- The head of the receive queue is handed onward. -/
theorem handOnward (hs : s.Sound) (e : RxEntry) (he : s.handable = some e) : (s.handOnward e).Sound := by
  obtain ⟨hh, hr⟩ : s.heldFrame = none ∧ ∃ rest, s.rx = e :: rest := by
    unfold State.handable at he
    split at he
    · rename_i hc
      simp at hc
      refine ⟨hc.2, ?_⟩
      cases hx : s.rx with
      | nil => rw [hx] at he; cases he
      | cons a rest => rw [hx] at he; cases he; exact ⟨rest, rfl⟩
    · cases he
  obtain ⟨rest, hr⟩ := hr
  have hrx : s.rx.tail.length ≤ Config.rxCapacity := by
    have := hs.queues.2.2.1
    rw [List.length_tail]; omega
  unfold State.handOnward
  dsimp only
  split
  · refine SoundWith.sound ⟨hs.memory, ⟨hs.queues.1, hs.queues.2.1, hrx, hs.queues.2.2.2⟩, hs.commands, hs.items, hs.faults,
      ⟨hs.outgoing.1, hs.outgoing.2, hs.outgoing.3, hs.outgoing.4, hs.outgoing.5⟩, ?_⟩
    have e1 : State.inUsers { s with rx := s.rx.tail, heldFrame := some e } = s.inUsers := by
      unfold State.inUsers
      show s.moves.filterMap Move.writeBuf ++ ((some e).toList ++ s.rx.tail).filterMap (·.buf) = _
      rw [hh, hr]
      rfl
    exact ⟨by rw [e1]; exact hs.inbound.distinct, by rw [e1]; exact hs.inbound.occupied⟩
  · refine State.Sound.settleEvent (State.SoundWith.sound ?_)
    have k := (Within.refl ({ s with rx := s.rx.tail } : State)).handleFrame (e := e)
    have hd : (State.handleFrame { s with rx := s.rx.tail } e).dram = s.dram := congrArg Outside.dram k.outside
    have hw : (State.handleFrame { s with rx := s.rx.tail } e).window = s.window := congrArg Outside.window k.outside
    refine ⟨by rw [hd]; exact hs.memory, k.queues ⟨hs.queues.1, hs.queues.2.1, hrx, hs.queues.2.2.2⟩,
      k.reserved 0 hs.commands, k.items hs.items, ?_,
      k.outgoing ⟨hs.outgoing.1, hs.outgoing.2, hs.outgoing.3, hs.outgoing.4, hs.outgoing.5⟩,
      k.inbound [] (Within.inbound_take (t := s) (u := { s with rx := s.rx.tail }) rfl rfl
        (by rw [hh, hr]; exact List.Perm.refl _) [] hs.inbound)⟩
    intro d
    rw [hw, k.entries d]
    exact hs.faults d

theorem handRow (hs : s.Sound) (row : Frame → Bool) : (s.handRow row).Sound := by
  unfold State.handRow
  split
  · rename_i e he
    split
    · exact hs.handOnward e he
    · exact hs
  · exact hs

end State.Sound

/-! ### The end of an event keeps the part outside the exchanges -/

theorem State.outside_settleEvent (s : State) : s.settleEvent.outside = s.outside := (Within.refl s).settleEvent.outside

end Sys2Proof.Machine
end

