-- ==== Sys2Proof/Laws/Kept.lean ====
section
/-! SUPPORT. What no command of the queue, no frame and no end of an event changes: memory, the registers that software writes,
and the pins and buses. -/

namespace Sys2Proof.Machine

/-- What the commands of the queue and the leaving order keep: memory, the registers that software writes, pins and buses. -/
def State.kept (s : State) : Outside :=
  { s.outside with window := Vector.replicate 32 .empty, homeCount := 0, borrowCount := 0, cmdq := [] }

theorem State.kept_of_internal {pay : Option (Fin 4)} {s t : State} (h : Within pay s t) : t.kept = s.kept := by unfold State.kept; rw [h.outside]

theorem State.kept_settleEvent (s : State) : s.settleEvent.kept = s.kept := State.kept_of_internal (Within.refl s).settleEvent

theorem State.kept_setMapping (s : State) (e : EntryIdx) (m : Option (Target × Limit)) : State.kept (s.setMapping e m) = s.kept := by
  unfold State.setMapping; dsimp only; split
  · rw [State.kept_of_internal (Within.refl _).dropReference]; rfl
  · rfl

theorem State.kept_of_outside {s t : State} (h : t.outside = { s.outside with window := t.window, homeCount := t.homeCount, borrowCount := t.borrowCount, cmdq := t.cmdq }) : t.kept = s.kept := by
  unfold State.kept; rw [h]

theorem State.kept_leaveRing (s : State) : s.leaveRing.kept = s.kept := by
  unfold State.leaveRing
  have e1 := State.kept_of_internal (Within.refl (s.enterBypass false).emptyWindow.cancelClaims.removePartition.forgetPeers).leaveJoining
  have e2 := State.kept_of_internal (Within.refl (s.enterBypass false).emptyWindow.cancelClaims.removePartition).forgetPeers
  have e3 : State.kept (s.enterBypass false).emptyWindow.cancelClaims.removePartition = State.kept (s.enterBypass false).emptyWindow.cancelClaims := by
    generalize (s.enterBypass false).emptyWindow.cancelClaims = u; exact State.kept_of_outside rfl
  have e4 := State.kept_of_internal (Within.refl (s.enterBypass false).emptyWindow).cancelClaims
  have e5 : State.kept (s.enterBypass false).emptyWindow = State.kept (s.enterBypass false) := by
    generalize (s.enterBypass false) = u; exact State.kept_of_outside rfl
  have e6 : State.kept (s.enterBypass false) = s.kept := State.kept_of_internal (Within.refl s).enterBypass
  exact e1.trans (e2.trans (e3.trans (e4.trans (e5.trans e6))))

theorem State.kept_claimAsk (s : State) (c : ClaimIdx) (m : Mode) (first : Bool) : (s.claimAsk c m first).kept = s.kept :=
  State.kept_of_internal (Within.refl s).claimAsk

theorem State.kept_takeClaim (s : State) (c : ClaimIdx) (b : Block) (m : Mode) (f : Nat) (t : Ticket) :
    (s.takeClaim c b m f t).kept = s.kept := by
  unfold State.takeClaim
  rw [State.kept_claimAsk]
  rfl

/-- What a command of the queue does to a claim, and the end of its event. -/
theorem State.kept_endTaken (t s : State) (c : ClaimIdx) : (t.endTaken s c).kept = t.kept := by
  unfold State.endTaken State.claimFirst
  rw [State.kept_of_internal (Within.refl t.settleEvent).bringForward, State.kept_settleEvent]

theorem State.kept_enterJoining (s : State) (t : Ticket) : (s.enterJoining t).kept = s.kept := by
  unfold State.enterJoining
  rw [State.kept_of_internal (Within.refl _).handOver]
  rfl

theorem State.kept_doAcquire (s : State) (q : Queued) : State.kept (State.doAcquire s q) = s.kept := by
  unfold State.doAcquire State.acquireBlock
  repeat' split
  all_goals first
    | with_reducible rfl
    | (rw [State.kept_endTaken, State.kept_takeClaim]; done)
    | (rw [State.kept_endTaken, State.kept_takeClaim]; rfl)
    | rfl

theorem State.kept_doUpgrade (s : State) (q : Queued) : State.kept (State.doUpgrade s q) = s.kept := by
  unfold State.doUpgrade; dsimp only
  repeat' split
  all_goals first | (rw [State.kept_endTaken, State.kept_claimAsk]; rfl) | rfl

theorem State.kept_doRelease (s : State) (q : Queued) : State.kept (State.doRelease s q) = s.kept := by
  unfold State.doRelease
  repeat' split
  all_goals first | (rw [State.kept_endTaken, State.kept_of_internal (Within.refl _).letGo]; rfl) | rfl

theorem State.kept_doCancel (s : State) (q : Queued) : State.kept (State.doCancel s q) = s.kept := by
  unfold State.doCancel
  repeat' split
  all_goals first | (rw [State.kept_endTaken, State.kept_of_internal (Within.refl _).giveUpAsk]; rfl) | rfl

theorem State.kept_doMap (s : State) (q : Queued) : State.kept (State.doMap s q) = s.kept := by
  unfold State.doMap; dsimp only
  repeat' split
  all_goals first | rfl | exact State.kept_setMapping _ _ _

theorem State.kept_doUnmap (s : State) (q : Queued) : State.kept (State.doUnmap s q) = s.kept := by
  unfold State.doUnmap
  repeat' split
  all_goals first | rfl | exact State.kept_setMapping _ _ _

theorem State.kept_doRestore (s : State) (q : Queued) : State.kept (State.doRestore s q) = s.kept := by
  unfold State.doRestore
  repeat' split
  all_goals first | rfl

theorem State.kept_doInspectBlock (s : State) (q : Queued) : State.kept (State.doInspectBlock s q) = s.kept := by
  unfold State.doInspectBlock
  repeat' split
  all_goals first | rfl

theorem State.kept_doInspectClaim (s : State) (q : Queued) : State.kept (State.doInspectClaim s q) = s.kept := by
  unfold State.doInspectClaim
  repeat' split
  all_goals first | rfl

theorem State.kept_doStart (s : State) (q : Queued) : State.kept (State.doStart s q) = s.kept := by
  unfold State.doStart State.startEffect
  repeat' split
  all_goals first | rfl | (rw [State.kept_enterJoining]; rfl)

theorem State.kept_doAttach (s : State) (q : Queued) : State.kept (State.doAttach s q) = s.kept := by
  unfold State.doAttach
  repeat' split
  all_goals first | rfl | exact State.kept_enterJoining _ _

theorem State.kept_doResume (s : State) (q : Queued) : State.kept (State.doResume s q) = s.kept := by
  unfold State.doResume
  repeat' split
  all_goals first | rfl

theorem State.kept_doDetach (s : State) (q : Queued) : State.kept (State.doDetach s q) = s.kept := by
  unfold State.doDetach
  split
  case' isTrue => split
  case' isTrue.isFalse =>
    unfold State.takenFirst
    rw [State.kept_of_internal (Within.refl (State.settleEvent _)).bringForward, State.kept_settleEvent]
    refine (State.kept_of_internal (pay := none) (s := { s with station := .detaching, lifeCmd := some q.ticket }) ?_).trans rfl
    exact (Within.refl _).denyAllPeers
  all_goals rfl

theorem State.kept_runCommand (s : State) (q : Queued) : State.kept (s.runCommand q) = s.kept := by
  have hif : ∀ (f : State → Queued → State), (∀ s, State.kept (f s q) = s.kept) → State.kept (s.ifStarted q f) = s.kept := by
    intro f hf; unfold State.ifStarted; split
    · rfl
    · exact hf s
  unfold State.runCommand
  split
  · exact State.kept_doStart _ _
  · exact hif _ fun s => State.kept_doAttach s q
  · exact hif _ fun s => State.kept_doDetach s q
  · exact hif _ fun s => State.kept_doResume s q
  · exact hif _ fun s => State.kept_doAcquire s q
  · exact hif _ fun s => State.kept_doUpgrade s q
  · exact hif _ fun s => State.kept_doRelease s q
  · exact hif _ fun s => State.kept_doCancel s q
  · exact hif _ fun s => State.kept_doMap s q
  · exact hif _ fun s => State.kept_doUnmap s q
  · exact hif _ fun s => State.kept_doRestore s q
  · apply hif; intro s; split
    · exact State.kept_doInspectClaim s q
    · exact State.kept_doInspectBlock s q
  · rfl

theorem State.kept_takeLoop (k : Nat) (s : State) : State.kept (State.takeLoop k s) = s.kept := by
  induction k generalizing s with
  | zero => rfl
  | succ k ih =>
    unfold State.takeLoop
    split
    · rw [ih, State.kept_settleEvent, State.kept_runCommand]; rfl
    · rfl

theorem State.kept_takeRow (s : State) (row : CommandRecord → Bool) (act : State → Queued → State) (h : ∀ s q, row q.record = true → act s q = s.runCommand q) : State.kept (s.takeRow row act) = s.kept := by
  unfold State.takeRow
  repeat' split
  · rename_i q _ hr
    rw [State.kept_settleEvent, h _ _ hr, State.kept_runCommand]; rfl
  · rfl
  · rfl

theorem State.kept_handRow (s : State) (row : Frame → Bool) : State.kept (s.handRow row) = s.kept := by
  unfold State.handRow State.handOnward
  dsimp only
  repeat' split
  all_goals first | rfl | (rw [State.kept_settleEvent, State.kept_of_internal (Within.refl _).handleFrame]; rfl)

theorem State.kept_forward (s : State) (f : Frame) : State.kept (s.forward f) = s.kept := by unfold State.forward; split <;> rfl

theorem State.kept_sortFrame (s : State) (f : Frame) : State.kept (s.sortFrame f) = s.kept := by
  have hp : State.kept (s.takeProbe f) = s.kept := (State.kept_of_internal (Within.refl _).conflictReport).trans (State.kept_forward _ _)
  have ht : State.kept (s.takeFrame f) = s.kept := by
    unfold State.takeFrame; dsimp only
    repeat' split
    all_goals (rw [State.kept_forward]; try rfl)
  have ho : ∀ i e r, State.kept (s.outcome i e r) = s.kept := by
    intro i e r
    unfold State.outcome
    split
    · exact State.kept_of_internal (Within.refl _).failAll
    · unfold State.outcomeTaken; dsimp only
      have hr : State.kept (s.removeEntry i e) = s.kept := by
        obtain ⟨o, ho⟩ := Within.releaseOut_eq e ({ s with txq := s.txq.eraseIdx i } : State)
        unfold State.removeEntry
        rw [ho]
        rfl
      split
      · rw [State.kept_leaveRing, hr]
      · rw [State.kept_of_internal (Within.refl ((s.removeEntry i e).reportTaken e)).peerTaken, ← hr]
        unfold State.reportTaken
        repeat' split
        · exact State.kept_of_internal (Within.refl _).dirTaken
        · exact State.kept_of_internal (Within.refl _).claimTaken
        · rfl
        · exact State.kept_of_internal (Within.refl _).announceDone
    · unfold State.outcomeBusy; split
      · rfl
      · exact State.kept_of_internal (Within.refl _).failAll
  unfold State.sortFrame State.strip
  repeat' split
  all_goals first | rfl | exact hp | exact ht | exact ho _ _ _ | exact State.kept_forward _ _

end Sys2Proof.Machine
end

