-- ==== Sys2Proof/Laws/Sending.lean ====
section
/-! SUPPORT. Handing a frame over changes the ring port's sending side and the mail alone: in one equation for each operation
that sends, and field by field. -/

namespace Sys2Proof.Machine

variable (s : State)

theorem State.failAll_eq (d : Station) (k : FailureKind) (x : List FailedFrame) :
    ∃ q l o m, s.failAll d k x = { s with txq := q, handover := l, outBuf := o, mail := m } := by
  unfold State.failAll
  obtain ⟨o, h⟩ := Within.releaseOuts_eq (s.txq.filter (·.dest == d)) s
  dsimp only
  rw [h]
  exact ⟨_, _, _, _, rfl⟩

theorem State.handOver_eq (d : Station) (m : Lease) (w : Owner) :
    ∃ q l o k, s.handOver d m w = { s with txq := q, handover := l, outBuf := o, mail := k } := by
  unfold State.handOver
  repeat' split
  · exact ⟨s.txq, s.handover, s.outBuf, s.mail, rfl⟩
  · exact ⟨_, s.handover, s.outBuf, s.mail, rfl⟩
  · exact ⟨s.txq, _, s.outBuf, s.mail, rfl⟩
  · exact State.failAll_eq s _ _ _

theorem State.dirSend_eq (d : Station) (m : Lease) :
    ∃ q l o k, s.dirSend d m = { s with txq := q, handover := l, outBuf := o, mail := k } := by
  unfold State.dirSend
  split
  · exact ⟨s.txq, s.handover, s.outBuf, _, rfl⟩
  · exact State.handOver_eq s _ _ _

theorem State.sendHome_eq (c : ClaimIdx) (m : Lease) :
    ∃ q l o k, s.sendHome c m = { s with txq := q, handover := l, outBuf := o, mail := k } := by
  unfold State.sendHome
  repeat' split
  · exact ⟨s.txq, s.handover, s.outBuf, _, rfl⟩
  · exact State.handOver_eq s _ _ _
  · exact ⟨s.txq, s.handover, s.outBuf, s.mail, rfl⟩

theorem State.answerHome_eq (p : Station) (m : Lease) :
    ∃ q l o k, s.answerHome p m = { s with txq := q, handover := l, outBuf := o, mail := k } := by
  unfold State.answerHome
  split
  · exact ⟨s.txq, s.handover, s.outBuf, _, rfl⟩
  · exact State.handOver_eq s _ _ _

/-! ### handOver -/

@[simp] theorem State.handOver_pending (d : Station) (m : Lease) (w : Owner) : (s.handOver d m w).pending = s.pending := by
  obtain ⟨_, _, _, _, h⟩ := State.handOver_eq s d m w; rw [h]
@[simp] theorem State.handOver_freeCount (d : Station) (m : Lease) (w : Owner) : (s.handOver d m w).freeCount = s.freeCount := by
  obtain ⟨_, _, _, _, h⟩ := State.handOver_eq s d m w; rw [h]
@[simp] theorem State.handOver_rstHeld (d : Station) (m : Lease) (w : Owner) : (s.handOver d m w).rstHeld = s.rstHeld := by
  obtain ⟨_, _, _, _, h⟩ := State.handOver_eq s d m w; rw [h]
@[simp] theorem State.handOver_resetRequested (d : Station) (m : Lease) (w : Owner) : (s.handOver d m w).resetRequested = s.resetRequested := by
  obtain ⟨_, _, _, _, h⟩ := State.handOver_eq s d m w; rw [h]
@[simp] theorem State.handOver_busRead (d : Station) (m : Lease) (w : Owner) : (s.handOver d m w).busRead = s.busRead := by
  obtain ⟨_, _, _, _, h⟩ := State.handOver_eq s d m w; rw [h]
@[simp] theorem State.handOver_rout (d : Station) (m : Lease) (w : Owner) : (s.handOver d m w).rout = s.rout := by
  obtain ⟨_, _, _, _, h⟩ := State.handOver_eq s d m w; rw [h]
@[simp] theorem State.handOver_straps (d : Station) (m : Lease) (w : Owner) : (s.handOver d m w).straps = s.straps := by
  obtain ⟨_, _, _, _, h⟩ := State.handOver_eq s d m w; rw [h]
@[simp] theorem State.handOver_dram (d : Station) (m : Lease) (w : Owner) : (s.handOver d m w).dram = s.dram := by
  obtain ⟨_, _, _, _, h⟩ := State.handOver_eq s d m w; rw [h]
@[simp] theorem State.handOver_dramEpoch (d : Station) (m : Lease) (w : Owner) : (s.handOver d m w).dramEpoch = s.dramEpoch := by
  obtain ⟨_, _, _, _, h⟩ := State.handOver_eq s d m w; rw [h]
@[simp] theorem State.handOver_homeCount (d : Station) (m : Lease) (w : Owner) : (s.handOver d m w).homeCount = s.homeCount := by
  obtain ⟨_, _, _, _, h⟩ := State.handOver_eq s d m w; rw [h]
@[simp] theorem State.handOver_borrowCount (d : Station) (m : Lease) (w : Owner) : (s.handOver d m w).borrowCount = s.borrowCount := by
  obtain ⟨_, _, _, _, h⟩ := State.handOver_eq s d m w; rw [h]
@[simp] theorem State.handOver_borrow (d : Station) (m : Lease) (w : Owner) : (s.handOver d m w).borrow = s.borrow := by
  obtain ⟨_, _, _, _, h⟩ := State.handOver_eq s d m w; rw [h]
@[simp] theorem State.handOver_arbPort (d : Station) (m : Lease) (w : Owner) : (s.handOver d m w).arbPort = s.arbPort := by
  obtain ⟨_, _, _, _, h⟩ := State.handOver_eq s d m w; rw [h]
@[simp] theorem State.handOver_arbTurn (d : Station) (m : Lease) (w : Owner) : (s.handOver d m w).arbTurn = s.arbTurn := by
  obtain ⟨_, _, _, _, h⟩ := State.handOver_eq s d m w; rw [h]
@[simp] theorem State.handOver_moves (d : Station) (m : Lease) (w : Owner) : (s.handOver d m w).moves = s.moves := by
  obtain ⟨_, _, _, _, h⟩ := State.handOver_eq s d m w; rw [h]
@[simp] theorem State.handOver_records (d : Station) (m : Lease) (w : Owner) : (s.handOver d m w).records = s.records := by
  obtain ⟨_, _, _, _, h⟩ := State.handOver_eq s d m w; rw [h]
@[simp] theorem State.handOver_dirTurn (d : Station) (m : Lease) (w : Owner) : (s.handOver d m w).dirTurn = s.dirTurn := by
  obtain ⟨_, _, _, _, h⟩ := State.handOver_eq s d m w; rw [h]
@[simp] theorem State.handOver_claims (d : Station) (m : Lease) (w : Owner) : (s.handOver d m w).claims = s.claims := by
  obtain ⟨_, _, _, _, h⟩ := State.handOver_eq s d m w; rw [h]
@[simp] theorem State.handOver_claimTurn (d : Station) (m : Lease) (w : Owner) : (s.handOver d m w).claimTurn = s.claimTurn := by
  obtain ⟨_, _, _, _, h⟩ := State.handOver_eq s d m w; rw [h]
@[simp] theorem State.handOver_port (d : Station) (m : Lease) (w : Owner) : (s.handOver d m w).port = s.port := by
  obtain ⟨_, _, _, _, h⟩ := State.handOver_eq s d m w; rw [h]
@[simp] theorem State.handOver_fwd (d : Station) (m : Lease) (w : Owner) : (s.handOver d m w).fwd = s.fwd := by
  obtain ⟨_, _, _, _, h⟩ := State.handOver_eq s d m w; rw [h]
@[simp] theorem State.handOver_rx (d : Station) (m : Lease) (w : Owner) : (s.handOver d m w).rx = s.rx := by
  obtain ⟨_, _, _, _, h⟩ := State.handOver_eq s d m w; rw [h]
@[simp] theorem State.handOver_inBuf (d : Station) (m : Lease) (w : Owner) : (s.handOver d m w).inBuf = s.inBuf := by
  obtain ⟨_, _, _, _, h⟩ := State.handOver_eq s d m w; rw [h]
@[simp] theorem State.handOver_chunkTurn (d : Station) (m : Lease) (w : Owner) : (s.handOver d m w).chunkTurn = s.chunkTurn := by
  obtain ⟨_, _, _, _, h⟩ := State.handOver_eq s d m w; rw [h]
@[simp] theorem State.handOver_station (d : Station) (m : Lease) (w : Owner) : (s.handOver d m w).station = s.station := by
  obtain ⟨_, _, _, _, h⟩ := State.handOver_eq s d m w; rw [h]
@[simp] theorem State.handOver_startRec (d : Station) (m : Lease) (w : Owner) : (s.handOver d m w).startRec = s.startRec := by
  obtain ⟨_, _, _, _, h⟩ := State.handOver_eq s d m w; rw [h]
@[simp] theorem State.handOver_prevInc (d : Station) (m : Lease) (w : Owner) : (s.handOver d m w).prevInc = s.prevInc := by
  obtain ⟨_, _, _, _, h⟩ := State.handOver_eq s d m w; rw [h]
@[simp] theorem State.handOver_probeOutstanding (d : Station) (m : Lease) (w : Owner) : (s.handOver d m w).probeOutstanding = s.probeOutstanding := by
  obtain ⟨_, _, _, _, h⟩ := State.handOver_eq s d m w; rw [h]
@[simp] theorem State.handOver_announceAwaited (d : Station) (m : Lease) (w : Owner) : (s.handOver d m w).announceAwaited = s.announceAwaited := by
  obtain ⟨_, _, _, _, h⟩ := State.handOver_eq s d m w; rw [h]
@[simp] theorem State.handOver_lifeCmd (d : Station) (m : Lease) (w : Owner) : (s.handOver d m w).lifeCmd = s.lifeCmd := by
  obtain ⟨_, _, _, _, h⟩ := State.handOver_eq s d m w; rw [h]
@[simp] theorem State.handOver_peers (d : Station) (m : Lease) (w : Owner) : (s.handOver d m w).peers = s.peers := by
  obtain ⟨_, _, _, _, h⟩ := State.handOver_eq s d m w; rw [h]
@[simp] theorem State.handOver_heldFrame (d : Station) (m : Lease) (w : Owner) : (s.handOver d m w).heldFrame = s.heldFrame := by
  obtain ⟨_, _, _, _, h⟩ := State.handOver_eq s d m w; rw [h]
@[simp] theorem State.handOver_window (d : Station) (m : Lease) (w : Owner) : (s.handOver d m w).window = s.window := by
  obtain ⟨_, _, _, _, h⟩ := State.handOver_eq s d m w; rw [h]
@[simp] theorem State.handOver_access (d : Station) (m : Lease) (w : Owner) : (s.handOver d m w).access = s.access := by
  obtain ⟨_, _, _, _, h⟩ := State.handOver_eq s d m w; rw [h]
@[simp] theorem State.handOver_staging (d : Station) (m : Lease) (w : Owner) : (s.handOver d m w).staging = s.staging := by
  obtain ⟨_, _, _, _, h⟩ := State.handOver_eq s d m w; rw [h]
@[simp] theorem State.handOver_cmdq (d : Station) (m : Lease) (w : Owner) : (s.handOver d m w).cmdq = s.cmdq := by
  obtain ⟨_, _, _, _, h⟩ := State.handOver_eq s d m w; rw [h]
@[simp] theorem State.handOver_seqNext (d : Station) (m : Lease) (w : Owner) : (s.handOver d m w).seqNext = s.seqNext := by
  obtain ⟨_, _, _, _, h⟩ := State.handOver_eq s d m w; rw [h]
@[simp] theorem State.handOver_postResult (d : Station) (m : Lease) (w : Owner) : (s.handOver d m w).postResult = s.postResult := by
  obtain ⟨_, _, _, _, h⟩ := State.handOver_eq s d m w; rw [h]
@[simp] theorem State.handOver_inFlight (d : Station) (m : Lease) (w : Owner) : (s.handOver d m w).inFlight = s.inFlight := by
  obtain ⟨_, _, _, _, h⟩ := State.handOver_eq s d m w; rw [h]
@[simp] theorem State.handOver_cplq (d : Station) (m : Lease) (w : Owner) : (s.handOver d m w).cplq = s.cplq := by
  obtain ⟨_, _, _, _, h⟩ := State.handOver_eq s d m w; rw [h]
@[simp] theorem State.handOver_attention (d : Station) (m : Lease) (w : Owner) : (s.handOver d m w).attention = s.attention := by
  obtain ⟨_, _, _, _, h⟩ := State.handOver_eq s d m w; rw [h]
@[simp] theorem State.handOver_cplEnable (d : Station) (m : Lease) (w : Owner) : (s.handOver d m w).cplEnable = s.cplEnable := by
  obtain ⟨_, _, _, _, h⟩ := State.handOver_eq s d m w; rw [h]
@[simp] theorem State.handOver_attEnable (d : Station) (m : Lease) (w : Owner) : (s.handOver d m w).attEnable = s.attEnable := by
  obtain ⟨_, _, _, _, h⟩ := State.handOver_eq s d m w; rw [h]

@[simp] theorem State.handOver_own (d : Station) (m : Lease) (w : Owner) : (s.handOver d m w).own = s.own := by
  unfold State.own State.startNumber; rw [State.handOver_startRec]

@[simp] theorem State.handOver_claim (d : Station) (m : Lease) (w : Owner) (i : ClaimIdx) : (s.handOver d m w).claim i = s.claim i := by
  unfold State.claim; rw [State.handOver_claims]

/-! ### dirSend -/

@[simp] theorem State.dirSend_pending (d : Station) (m : Lease) : (s.dirSend d m).pending = s.pending := by
  obtain ⟨_, _, _, _, h⟩ := State.dirSend_eq s d m; rw [h]
@[simp] theorem State.dirSend_freeCount (d : Station) (m : Lease) : (s.dirSend d m).freeCount = s.freeCount := by
  obtain ⟨_, _, _, _, h⟩ := State.dirSend_eq s d m; rw [h]
@[simp] theorem State.dirSend_rstHeld (d : Station) (m : Lease) : (s.dirSend d m).rstHeld = s.rstHeld := by
  obtain ⟨_, _, _, _, h⟩ := State.dirSend_eq s d m; rw [h]
@[simp] theorem State.dirSend_resetRequested (d : Station) (m : Lease) : (s.dirSend d m).resetRequested = s.resetRequested := by
  obtain ⟨_, _, _, _, h⟩ := State.dirSend_eq s d m; rw [h]
@[simp] theorem State.dirSend_busRead (d : Station) (m : Lease) : (s.dirSend d m).busRead = s.busRead := by
  obtain ⟨_, _, _, _, h⟩ := State.dirSend_eq s d m; rw [h]
@[simp] theorem State.dirSend_rout (d : Station) (m : Lease) : (s.dirSend d m).rout = s.rout := by
  obtain ⟨_, _, _, _, h⟩ := State.dirSend_eq s d m; rw [h]
@[simp] theorem State.dirSend_straps (d : Station) (m : Lease) : (s.dirSend d m).straps = s.straps := by
  obtain ⟨_, _, _, _, h⟩ := State.dirSend_eq s d m; rw [h]
@[simp] theorem State.dirSend_dram (d : Station) (m : Lease) : (s.dirSend d m).dram = s.dram := by
  obtain ⟨_, _, _, _, h⟩ := State.dirSend_eq s d m; rw [h]
@[simp] theorem State.dirSend_dramEpoch (d : Station) (m : Lease) : (s.dirSend d m).dramEpoch = s.dramEpoch := by
  obtain ⟨_, _, _, _, h⟩ := State.dirSend_eq s d m; rw [h]
@[simp] theorem State.dirSend_homeCount (d : Station) (m : Lease) : (s.dirSend d m).homeCount = s.homeCount := by
  obtain ⟨_, _, _, _, h⟩ := State.dirSend_eq s d m; rw [h]
@[simp] theorem State.dirSend_borrowCount (d : Station) (m : Lease) : (s.dirSend d m).borrowCount = s.borrowCount := by
  obtain ⟨_, _, _, _, h⟩ := State.dirSend_eq s d m; rw [h]
@[simp] theorem State.dirSend_borrow (d : Station) (m : Lease) : (s.dirSend d m).borrow = s.borrow := by
  obtain ⟨_, _, _, _, h⟩ := State.dirSend_eq s d m; rw [h]
@[simp] theorem State.dirSend_arbPort (d : Station) (m : Lease) : (s.dirSend d m).arbPort = s.arbPort := by
  obtain ⟨_, _, _, _, h⟩ := State.dirSend_eq s d m; rw [h]
@[simp] theorem State.dirSend_arbTurn (d : Station) (m : Lease) : (s.dirSend d m).arbTurn = s.arbTurn := by
  obtain ⟨_, _, _, _, h⟩ := State.dirSend_eq s d m; rw [h]
@[simp] theorem State.dirSend_moves (d : Station) (m : Lease) : (s.dirSend d m).moves = s.moves := by
  obtain ⟨_, _, _, _, h⟩ := State.dirSend_eq s d m; rw [h]
@[simp] theorem State.dirSend_records (d : Station) (m : Lease) : (s.dirSend d m).records = s.records := by
  obtain ⟨_, _, _, _, h⟩ := State.dirSend_eq s d m; rw [h]
@[simp] theorem State.dirSend_dirTurn (d : Station) (m : Lease) : (s.dirSend d m).dirTurn = s.dirTurn := by
  obtain ⟨_, _, _, _, h⟩ := State.dirSend_eq s d m; rw [h]
@[simp] theorem State.dirSend_claims (d : Station) (m : Lease) : (s.dirSend d m).claims = s.claims := by
  obtain ⟨_, _, _, _, h⟩ := State.dirSend_eq s d m; rw [h]
@[simp] theorem State.dirSend_claimTurn (d : Station) (m : Lease) : (s.dirSend d m).claimTurn = s.claimTurn := by
  obtain ⟨_, _, _, _, h⟩ := State.dirSend_eq s d m; rw [h]
@[simp] theorem State.dirSend_port (d : Station) (m : Lease) : (s.dirSend d m).port = s.port := by
  obtain ⟨_, _, _, _, h⟩ := State.dirSend_eq s d m; rw [h]
@[simp] theorem State.dirSend_fwd (d : Station) (m : Lease) : (s.dirSend d m).fwd = s.fwd := by
  obtain ⟨_, _, _, _, h⟩ := State.dirSend_eq s d m; rw [h]
@[simp] theorem State.dirSend_rx (d : Station) (m : Lease) : (s.dirSend d m).rx = s.rx := by
  obtain ⟨_, _, _, _, h⟩ := State.dirSend_eq s d m; rw [h]
@[simp] theorem State.dirSend_inBuf (d : Station) (m : Lease) : (s.dirSend d m).inBuf = s.inBuf := by
  obtain ⟨_, _, _, _, h⟩ := State.dirSend_eq s d m; rw [h]
@[simp] theorem State.dirSend_chunkTurn (d : Station) (m : Lease) : (s.dirSend d m).chunkTurn = s.chunkTurn := by
  obtain ⟨_, _, _, _, h⟩ := State.dirSend_eq s d m; rw [h]
@[simp] theorem State.dirSend_station (d : Station) (m : Lease) : (s.dirSend d m).station = s.station := by
  obtain ⟨_, _, _, _, h⟩ := State.dirSend_eq s d m; rw [h]
@[simp] theorem State.dirSend_startRec (d : Station) (m : Lease) : (s.dirSend d m).startRec = s.startRec := by
  obtain ⟨_, _, _, _, h⟩ := State.dirSend_eq s d m; rw [h]
@[simp] theorem State.dirSend_prevInc (d : Station) (m : Lease) : (s.dirSend d m).prevInc = s.prevInc := by
  obtain ⟨_, _, _, _, h⟩ := State.dirSend_eq s d m; rw [h]
@[simp] theorem State.dirSend_probeOutstanding (d : Station) (m : Lease) : (s.dirSend d m).probeOutstanding = s.probeOutstanding := by
  obtain ⟨_, _, _, _, h⟩ := State.dirSend_eq s d m; rw [h]
@[simp] theorem State.dirSend_announceAwaited (d : Station) (m : Lease) : (s.dirSend d m).announceAwaited = s.announceAwaited := by
  obtain ⟨_, _, _, _, h⟩ := State.dirSend_eq s d m; rw [h]
@[simp] theorem State.dirSend_lifeCmd (d : Station) (m : Lease) : (s.dirSend d m).lifeCmd = s.lifeCmd := by
  obtain ⟨_, _, _, _, h⟩ := State.dirSend_eq s d m; rw [h]
@[simp] theorem State.dirSend_peers (d : Station) (m : Lease) : (s.dirSend d m).peers = s.peers := by
  obtain ⟨_, _, _, _, h⟩ := State.dirSend_eq s d m; rw [h]
@[simp] theorem State.dirSend_heldFrame (d : Station) (m : Lease) : (s.dirSend d m).heldFrame = s.heldFrame := by
  obtain ⟨_, _, _, _, h⟩ := State.dirSend_eq s d m; rw [h]
@[simp] theorem State.dirSend_window (d : Station) (m : Lease) : (s.dirSend d m).window = s.window := by
  obtain ⟨_, _, _, _, h⟩ := State.dirSend_eq s d m; rw [h]
@[simp] theorem State.dirSend_access (d : Station) (m : Lease) : (s.dirSend d m).access = s.access := by
  obtain ⟨_, _, _, _, h⟩ := State.dirSend_eq s d m; rw [h]
@[simp] theorem State.dirSend_staging (d : Station) (m : Lease) : (s.dirSend d m).staging = s.staging := by
  obtain ⟨_, _, _, _, h⟩ := State.dirSend_eq s d m; rw [h]
@[simp] theorem State.dirSend_cmdq (d : Station) (m : Lease) : (s.dirSend d m).cmdq = s.cmdq := by
  obtain ⟨_, _, _, _, h⟩ := State.dirSend_eq s d m; rw [h]
@[simp] theorem State.dirSend_seqNext (d : Station) (m : Lease) : (s.dirSend d m).seqNext = s.seqNext := by
  obtain ⟨_, _, _, _, h⟩ := State.dirSend_eq s d m; rw [h]
@[simp] theorem State.dirSend_postResult (d : Station) (m : Lease) : (s.dirSend d m).postResult = s.postResult := by
  obtain ⟨_, _, _, _, h⟩ := State.dirSend_eq s d m; rw [h]
@[simp] theorem State.dirSend_inFlight (d : Station) (m : Lease) : (s.dirSend d m).inFlight = s.inFlight := by
  obtain ⟨_, _, _, _, h⟩ := State.dirSend_eq s d m; rw [h]
@[simp] theorem State.dirSend_cplq (d : Station) (m : Lease) : (s.dirSend d m).cplq = s.cplq := by
  obtain ⟨_, _, _, _, h⟩ := State.dirSend_eq s d m; rw [h]
@[simp] theorem State.dirSend_attention (d : Station) (m : Lease) : (s.dirSend d m).attention = s.attention := by
  obtain ⟨_, _, _, _, h⟩ := State.dirSend_eq s d m; rw [h]
@[simp] theorem State.dirSend_cplEnable (d : Station) (m : Lease) : (s.dirSend d m).cplEnable = s.cplEnable := by
  obtain ⟨_, _, _, _, h⟩ := State.dirSend_eq s d m; rw [h]
@[simp] theorem State.dirSend_attEnable (d : Station) (m : Lease) : (s.dirSend d m).attEnable = s.attEnable := by
  obtain ⟨_, _, _, _, h⟩ := State.dirSend_eq s d m; rw [h]

@[simp] theorem State.dirSend_own (d : Station) (m : Lease) : (s.dirSend d m).own = s.own := by
  unfold State.own State.startNumber; rw [State.dirSend_startRec]

@[simp] theorem State.dirSend_claim (d : Station) (m : Lease) (i : ClaimIdx) : (s.dirSend d m).claim i = s.claim i := by
  unfold State.claim; rw [State.dirSend_claims]

/-! ### sendHome -/

@[simp] theorem State.sendHome_pending (c : ClaimIdx) (m : Lease) : (s.sendHome c m).pending = s.pending := by
  obtain ⟨_, _, _, _, h⟩ := State.sendHome_eq s c m; rw [h]
@[simp] theorem State.sendHome_freeCount (c : ClaimIdx) (m : Lease) : (s.sendHome c m).freeCount = s.freeCount := by
  obtain ⟨_, _, _, _, h⟩ := State.sendHome_eq s c m; rw [h]
@[simp] theorem State.sendHome_rstHeld (c : ClaimIdx) (m : Lease) : (s.sendHome c m).rstHeld = s.rstHeld := by
  obtain ⟨_, _, _, _, h⟩ := State.sendHome_eq s c m; rw [h]
@[simp] theorem State.sendHome_resetRequested (c : ClaimIdx) (m : Lease) : (s.sendHome c m).resetRequested = s.resetRequested := by
  obtain ⟨_, _, _, _, h⟩ := State.sendHome_eq s c m; rw [h]
@[simp] theorem State.sendHome_busRead (c : ClaimIdx) (m : Lease) : (s.sendHome c m).busRead = s.busRead := by
  obtain ⟨_, _, _, _, h⟩ := State.sendHome_eq s c m; rw [h]
@[simp] theorem State.sendHome_rout (c : ClaimIdx) (m : Lease) : (s.sendHome c m).rout = s.rout := by
  obtain ⟨_, _, _, _, h⟩ := State.sendHome_eq s c m; rw [h]
@[simp] theorem State.sendHome_straps (c : ClaimIdx) (m : Lease) : (s.sendHome c m).straps = s.straps := by
  obtain ⟨_, _, _, _, h⟩ := State.sendHome_eq s c m; rw [h]
@[simp] theorem State.sendHome_dram (c : ClaimIdx) (m : Lease) : (s.sendHome c m).dram = s.dram := by
  obtain ⟨_, _, _, _, h⟩ := State.sendHome_eq s c m; rw [h]
@[simp] theorem State.sendHome_dramEpoch (c : ClaimIdx) (m : Lease) : (s.sendHome c m).dramEpoch = s.dramEpoch := by
  obtain ⟨_, _, _, _, h⟩ := State.sendHome_eq s c m; rw [h]
@[simp] theorem State.sendHome_homeCount (c : ClaimIdx) (m : Lease) : (s.sendHome c m).homeCount = s.homeCount := by
  obtain ⟨_, _, _, _, h⟩ := State.sendHome_eq s c m; rw [h]
@[simp] theorem State.sendHome_borrowCount (c : ClaimIdx) (m : Lease) : (s.sendHome c m).borrowCount = s.borrowCount := by
  obtain ⟨_, _, _, _, h⟩ := State.sendHome_eq s c m; rw [h]
@[simp] theorem State.sendHome_borrow (c : ClaimIdx) (m : Lease) : (s.sendHome c m).borrow = s.borrow := by
  obtain ⟨_, _, _, _, h⟩ := State.sendHome_eq s c m; rw [h]
@[simp] theorem State.sendHome_arbPort (c : ClaimIdx) (m : Lease) : (s.sendHome c m).arbPort = s.arbPort := by
  obtain ⟨_, _, _, _, h⟩ := State.sendHome_eq s c m; rw [h]
@[simp] theorem State.sendHome_arbTurn (c : ClaimIdx) (m : Lease) : (s.sendHome c m).arbTurn = s.arbTurn := by
  obtain ⟨_, _, _, _, h⟩ := State.sendHome_eq s c m; rw [h]
@[simp] theorem State.sendHome_moves (c : ClaimIdx) (m : Lease) : (s.sendHome c m).moves = s.moves := by
  obtain ⟨_, _, _, _, h⟩ := State.sendHome_eq s c m; rw [h]
@[simp] theorem State.sendHome_records (c : ClaimIdx) (m : Lease) : (s.sendHome c m).records = s.records := by
  obtain ⟨_, _, _, _, h⟩ := State.sendHome_eq s c m; rw [h]
@[simp] theorem State.sendHome_dirTurn (c : ClaimIdx) (m : Lease) : (s.sendHome c m).dirTurn = s.dirTurn := by
  obtain ⟨_, _, _, _, h⟩ := State.sendHome_eq s c m; rw [h]
@[simp] theorem State.sendHome_claims (c : ClaimIdx) (m : Lease) : (s.sendHome c m).claims = s.claims := by
  obtain ⟨_, _, _, _, h⟩ := State.sendHome_eq s c m; rw [h]
@[simp] theorem State.sendHome_claimTurn (c : ClaimIdx) (m : Lease) : (s.sendHome c m).claimTurn = s.claimTurn := by
  obtain ⟨_, _, _, _, h⟩ := State.sendHome_eq s c m; rw [h]
@[simp] theorem State.sendHome_port (c : ClaimIdx) (m : Lease) : (s.sendHome c m).port = s.port := by
  obtain ⟨_, _, _, _, h⟩ := State.sendHome_eq s c m; rw [h]
@[simp] theorem State.sendHome_fwd (c : ClaimIdx) (m : Lease) : (s.sendHome c m).fwd = s.fwd := by
  obtain ⟨_, _, _, _, h⟩ := State.sendHome_eq s c m; rw [h]
@[simp] theorem State.sendHome_rx (c : ClaimIdx) (m : Lease) : (s.sendHome c m).rx = s.rx := by
  obtain ⟨_, _, _, _, h⟩ := State.sendHome_eq s c m; rw [h]
@[simp] theorem State.sendHome_inBuf (c : ClaimIdx) (m : Lease) : (s.sendHome c m).inBuf = s.inBuf := by
  obtain ⟨_, _, _, _, h⟩ := State.sendHome_eq s c m; rw [h]
@[simp] theorem State.sendHome_chunkTurn (c : ClaimIdx) (m : Lease) : (s.sendHome c m).chunkTurn = s.chunkTurn := by
  obtain ⟨_, _, _, _, h⟩ := State.sendHome_eq s c m; rw [h]
@[simp] theorem State.sendHome_station (c : ClaimIdx) (m : Lease) : (s.sendHome c m).station = s.station := by
  obtain ⟨_, _, _, _, h⟩ := State.sendHome_eq s c m; rw [h]
@[simp] theorem State.sendHome_startRec (c : ClaimIdx) (m : Lease) : (s.sendHome c m).startRec = s.startRec := by
  obtain ⟨_, _, _, _, h⟩ := State.sendHome_eq s c m; rw [h]
@[simp] theorem State.sendHome_prevInc (c : ClaimIdx) (m : Lease) : (s.sendHome c m).prevInc = s.prevInc := by
  obtain ⟨_, _, _, _, h⟩ := State.sendHome_eq s c m; rw [h]
@[simp] theorem State.sendHome_probeOutstanding (c : ClaimIdx) (m : Lease) : (s.sendHome c m).probeOutstanding = s.probeOutstanding := by
  obtain ⟨_, _, _, _, h⟩ := State.sendHome_eq s c m; rw [h]
@[simp] theorem State.sendHome_announceAwaited (c : ClaimIdx) (m : Lease) : (s.sendHome c m).announceAwaited = s.announceAwaited := by
  obtain ⟨_, _, _, _, h⟩ := State.sendHome_eq s c m; rw [h]
@[simp] theorem State.sendHome_lifeCmd (c : ClaimIdx) (m : Lease) : (s.sendHome c m).lifeCmd = s.lifeCmd := by
  obtain ⟨_, _, _, _, h⟩ := State.sendHome_eq s c m; rw [h]
@[simp] theorem State.sendHome_peers (c : ClaimIdx) (m : Lease) : (s.sendHome c m).peers = s.peers := by
  obtain ⟨_, _, _, _, h⟩ := State.sendHome_eq s c m; rw [h]
@[simp] theorem State.sendHome_heldFrame (c : ClaimIdx) (m : Lease) : (s.sendHome c m).heldFrame = s.heldFrame := by
  obtain ⟨_, _, _, _, h⟩ := State.sendHome_eq s c m; rw [h]
@[simp] theorem State.sendHome_window (c : ClaimIdx) (m : Lease) : (s.sendHome c m).window = s.window := by
  obtain ⟨_, _, _, _, h⟩ := State.sendHome_eq s c m; rw [h]
@[simp] theorem State.sendHome_access (c : ClaimIdx) (m : Lease) : (s.sendHome c m).access = s.access := by
  obtain ⟨_, _, _, _, h⟩ := State.sendHome_eq s c m; rw [h]
@[simp] theorem State.sendHome_staging (c : ClaimIdx) (m : Lease) : (s.sendHome c m).staging = s.staging := by
  obtain ⟨_, _, _, _, h⟩ := State.sendHome_eq s c m; rw [h]
@[simp] theorem State.sendHome_cmdq (c : ClaimIdx) (m : Lease) : (s.sendHome c m).cmdq = s.cmdq := by
  obtain ⟨_, _, _, _, h⟩ := State.sendHome_eq s c m; rw [h]
@[simp] theorem State.sendHome_seqNext (c : ClaimIdx) (m : Lease) : (s.sendHome c m).seqNext = s.seqNext := by
  obtain ⟨_, _, _, _, h⟩ := State.sendHome_eq s c m; rw [h]
@[simp] theorem State.sendHome_postResult (c : ClaimIdx) (m : Lease) : (s.sendHome c m).postResult = s.postResult := by
  obtain ⟨_, _, _, _, h⟩ := State.sendHome_eq s c m; rw [h]
@[simp] theorem State.sendHome_inFlight (c : ClaimIdx) (m : Lease) : (s.sendHome c m).inFlight = s.inFlight := by
  obtain ⟨_, _, _, _, h⟩ := State.sendHome_eq s c m; rw [h]
@[simp] theorem State.sendHome_cplq (c : ClaimIdx) (m : Lease) : (s.sendHome c m).cplq = s.cplq := by
  obtain ⟨_, _, _, _, h⟩ := State.sendHome_eq s c m; rw [h]
@[simp] theorem State.sendHome_attention (c : ClaimIdx) (m : Lease) : (s.sendHome c m).attention = s.attention := by
  obtain ⟨_, _, _, _, h⟩ := State.sendHome_eq s c m; rw [h]
@[simp] theorem State.sendHome_cplEnable (c : ClaimIdx) (m : Lease) : (s.sendHome c m).cplEnable = s.cplEnable := by
  obtain ⟨_, _, _, _, h⟩ := State.sendHome_eq s c m; rw [h]
@[simp] theorem State.sendHome_attEnable (c : ClaimIdx) (m : Lease) : (s.sendHome c m).attEnable = s.attEnable := by
  obtain ⟨_, _, _, _, h⟩ := State.sendHome_eq s c m; rw [h]

@[simp] theorem State.sendHome_own (c : ClaimIdx) (m : Lease) : (s.sendHome c m).own = s.own := by
  unfold State.own State.startNumber; rw [State.sendHome_startRec]

@[simp] theorem State.sendHome_claim (c : ClaimIdx) (m : Lease) (i : ClaimIdx) : (s.sendHome c m).claim i = s.claim i := by
  unfold State.claim; rw [State.sendHome_claims]

/-! ### answerHome -/

@[simp] theorem State.answerHome_pending (p : Station) (m : Lease) : (s.answerHome p m).pending = s.pending := by
  obtain ⟨_, _, _, _, h⟩ := State.answerHome_eq s p m; rw [h]
@[simp] theorem State.answerHome_freeCount (p : Station) (m : Lease) : (s.answerHome p m).freeCount = s.freeCount := by
  obtain ⟨_, _, _, _, h⟩ := State.answerHome_eq s p m; rw [h]
@[simp] theorem State.answerHome_rstHeld (p : Station) (m : Lease) : (s.answerHome p m).rstHeld = s.rstHeld := by
  obtain ⟨_, _, _, _, h⟩ := State.answerHome_eq s p m; rw [h]
@[simp] theorem State.answerHome_resetRequested (p : Station) (m : Lease) : (s.answerHome p m).resetRequested = s.resetRequested := by
  obtain ⟨_, _, _, _, h⟩ := State.answerHome_eq s p m; rw [h]
@[simp] theorem State.answerHome_busRead (p : Station) (m : Lease) : (s.answerHome p m).busRead = s.busRead := by
  obtain ⟨_, _, _, _, h⟩ := State.answerHome_eq s p m; rw [h]
@[simp] theorem State.answerHome_rout (p : Station) (m : Lease) : (s.answerHome p m).rout = s.rout := by
  obtain ⟨_, _, _, _, h⟩ := State.answerHome_eq s p m; rw [h]
@[simp] theorem State.answerHome_straps (p : Station) (m : Lease) : (s.answerHome p m).straps = s.straps := by
  obtain ⟨_, _, _, _, h⟩ := State.answerHome_eq s p m; rw [h]
@[simp] theorem State.answerHome_dram (p : Station) (m : Lease) : (s.answerHome p m).dram = s.dram := by
  obtain ⟨_, _, _, _, h⟩ := State.answerHome_eq s p m; rw [h]
@[simp] theorem State.answerHome_dramEpoch (p : Station) (m : Lease) : (s.answerHome p m).dramEpoch = s.dramEpoch := by
  obtain ⟨_, _, _, _, h⟩ := State.answerHome_eq s p m; rw [h]
@[simp] theorem State.answerHome_homeCount (p : Station) (m : Lease) : (s.answerHome p m).homeCount = s.homeCount := by
  obtain ⟨_, _, _, _, h⟩ := State.answerHome_eq s p m; rw [h]
@[simp] theorem State.answerHome_borrowCount (p : Station) (m : Lease) : (s.answerHome p m).borrowCount = s.borrowCount := by
  obtain ⟨_, _, _, _, h⟩ := State.answerHome_eq s p m; rw [h]
@[simp] theorem State.answerHome_borrow (p : Station) (m : Lease) : (s.answerHome p m).borrow = s.borrow := by
  obtain ⟨_, _, _, _, h⟩ := State.answerHome_eq s p m; rw [h]
@[simp] theorem State.answerHome_arbPort (p : Station) (m : Lease) : (s.answerHome p m).arbPort = s.arbPort := by
  obtain ⟨_, _, _, _, h⟩ := State.answerHome_eq s p m; rw [h]
@[simp] theorem State.answerHome_arbTurn (p : Station) (m : Lease) : (s.answerHome p m).arbTurn = s.arbTurn := by
  obtain ⟨_, _, _, _, h⟩ := State.answerHome_eq s p m; rw [h]
@[simp] theorem State.answerHome_moves (p : Station) (m : Lease) : (s.answerHome p m).moves = s.moves := by
  obtain ⟨_, _, _, _, h⟩ := State.answerHome_eq s p m; rw [h]
@[simp] theorem State.answerHome_records (p : Station) (m : Lease) : (s.answerHome p m).records = s.records := by
  obtain ⟨_, _, _, _, h⟩ := State.answerHome_eq s p m; rw [h]
@[simp] theorem State.answerHome_dirTurn (p : Station) (m : Lease) : (s.answerHome p m).dirTurn = s.dirTurn := by
  obtain ⟨_, _, _, _, h⟩ := State.answerHome_eq s p m; rw [h]
@[simp] theorem State.answerHome_claims (p : Station) (m : Lease) : (s.answerHome p m).claims = s.claims := by
  obtain ⟨_, _, _, _, h⟩ := State.answerHome_eq s p m; rw [h]
@[simp] theorem State.answerHome_claimTurn (p : Station) (m : Lease) : (s.answerHome p m).claimTurn = s.claimTurn := by
  obtain ⟨_, _, _, _, h⟩ := State.answerHome_eq s p m; rw [h]
@[simp] theorem State.answerHome_port (p : Station) (m : Lease) : (s.answerHome p m).port = s.port := by
  obtain ⟨_, _, _, _, h⟩ := State.answerHome_eq s p m; rw [h]
@[simp] theorem State.answerHome_fwd (p : Station) (m : Lease) : (s.answerHome p m).fwd = s.fwd := by
  obtain ⟨_, _, _, _, h⟩ := State.answerHome_eq s p m; rw [h]
@[simp] theorem State.answerHome_rx (p : Station) (m : Lease) : (s.answerHome p m).rx = s.rx := by
  obtain ⟨_, _, _, _, h⟩ := State.answerHome_eq s p m; rw [h]
@[simp] theorem State.answerHome_inBuf (p : Station) (m : Lease) : (s.answerHome p m).inBuf = s.inBuf := by
  obtain ⟨_, _, _, _, h⟩ := State.answerHome_eq s p m; rw [h]
@[simp] theorem State.answerHome_chunkTurn (p : Station) (m : Lease) : (s.answerHome p m).chunkTurn = s.chunkTurn := by
  obtain ⟨_, _, _, _, h⟩ := State.answerHome_eq s p m; rw [h]
@[simp] theorem State.answerHome_station (p : Station) (m : Lease) : (s.answerHome p m).station = s.station := by
  obtain ⟨_, _, _, _, h⟩ := State.answerHome_eq s p m; rw [h]
@[simp] theorem State.answerHome_startRec (p : Station) (m : Lease) : (s.answerHome p m).startRec = s.startRec := by
  obtain ⟨_, _, _, _, h⟩ := State.answerHome_eq s p m; rw [h]
@[simp] theorem State.answerHome_prevInc (p : Station) (m : Lease) : (s.answerHome p m).prevInc = s.prevInc := by
  obtain ⟨_, _, _, _, h⟩ := State.answerHome_eq s p m; rw [h]
@[simp] theorem State.answerHome_probeOutstanding (p : Station) (m : Lease) : (s.answerHome p m).probeOutstanding = s.probeOutstanding := by
  obtain ⟨_, _, _, _, h⟩ := State.answerHome_eq s p m; rw [h]
@[simp] theorem State.answerHome_announceAwaited (p : Station) (m : Lease) : (s.answerHome p m).announceAwaited = s.announceAwaited := by
  obtain ⟨_, _, _, _, h⟩ := State.answerHome_eq s p m; rw [h]
@[simp] theorem State.answerHome_lifeCmd (p : Station) (m : Lease) : (s.answerHome p m).lifeCmd = s.lifeCmd := by
  obtain ⟨_, _, _, _, h⟩ := State.answerHome_eq s p m; rw [h]
@[simp] theorem State.answerHome_peers (p : Station) (m : Lease) : (s.answerHome p m).peers = s.peers := by
  obtain ⟨_, _, _, _, h⟩ := State.answerHome_eq s p m; rw [h]
@[simp] theorem State.answerHome_heldFrame (p : Station) (m : Lease) : (s.answerHome p m).heldFrame = s.heldFrame := by
  obtain ⟨_, _, _, _, h⟩ := State.answerHome_eq s p m; rw [h]
@[simp] theorem State.answerHome_window (p : Station) (m : Lease) : (s.answerHome p m).window = s.window := by
  obtain ⟨_, _, _, _, h⟩ := State.answerHome_eq s p m; rw [h]
@[simp] theorem State.answerHome_access (p : Station) (m : Lease) : (s.answerHome p m).access = s.access := by
  obtain ⟨_, _, _, _, h⟩ := State.answerHome_eq s p m; rw [h]
@[simp] theorem State.answerHome_staging (p : Station) (m : Lease) : (s.answerHome p m).staging = s.staging := by
  obtain ⟨_, _, _, _, h⟩ := State.answerHome_eq s p m; rw [h]
@[simp] theorem State.answerHome_cmdq (p : Station) (m : Lease) : (s.answerHome p m).cmdq = s.cmdq := by
  obtain ⟨_, _, _, _, h⟩ := State.answerHome_eq s p m; rw [h]
@[simp] theorem State.answerHome_seqNext (p : Station) (m : Lease) : (s.answerHome p m).seqNext = s.seqNext := by
  obtain ⟨_, _, _, _, h⟩ := State.answerHome_eq s p m; rw [h]
@[simp] theorem State.answerHome_postResult (p : Station) (m : Lease) : (s.answerHome p m).postResult = s.postResult := by
  obtain ⟨_, _, _, _, h⟩ := State.answerHome_eq s p m; rw [h]
@[simp] theorem State.answerHome_inFlight (p : Station) (m : Lease) : (s.answerHome p m).inFlight = s.inFlight := by
  obtain ⟨_, _, _, _, h⟩ := State.answerHome_eq s p m; rw [h]
@[simp] theorem State.answerHome_cplq (p : Station) (m : Lease) : (s.answerHome p m).cplq = s.cplq := by
  obtain ⟨_, _, _, _, h⟩ := State.answerHome_eq s p m; rw [h]
@[simp] theorem State.answerHome_attention (p : Station) (m : Lease) : (s.answerHome p m).attention = s.attention := by
  obtain ⟨_, _, _, _, h⟩ := State.answerHome_eq s p m; rw [h]
@[simp] theorem State.answerHome_cplEnable (p : Station) (m : Lease) : (s.answerHome p m).cplEnable = s.cplEnable := by
  obtain ⟨_, _, _, _, h⟩ := State.answerHome_eq s p m; rw [h]
@[simp] theorem State.answerHome_attEnable (p : Station) (m : Lease) : (s.answerHome p m).attEnable = s.attEnable := by
  obtain ⟨_, _, _, _, h⟩ := State.answerHome_eq s p m; rw [h]

@[simp] theorem State.answerHome_own (p : Station) (m : Lease) : (s.answerHome p m).own = s.own := by
  unfold State.own State.startNumber; rw [State.answerHome_startRec]

@[simp] theorem State.answerHome_claim (p : Station) (m : Lease) (i : ClaimIdx) : (s.answerHome p m).claim i = s.claim i := by
  unfold State.claim; rw [State.answerHome_claims]

end Sys2Proof.Machine
end

