-- ==== Sys2Proof/Laws/Leases.lean ====
section
/-! SUPPORT. What the claim table's shared operations do to the claim they act on, to the other claims, and to what they leave
alone. -/

namespace Sys2Proof.Machine

/-! ### The state outside the exchanges decides these -/

theorem own_of_outside {s t : State} (h : s.outside = t.outside) : s.own = t.own := by
  have e : s.startRec = t.startRec := congrArg Outside.startRec h
  unfold State.own State.startNumber
  rw [e]

theorem refCount_of_outside {s t : State} (h : s.outside = t.outside) (c : ClaimIdx) : s.refCount c = t.refCount c := by
  have e : s.window = t.window := congrArg Outside.window h
  unfold State.refCount
  rw [e]

theorem startHoldTimer_of_outside {s t : State} (h : s.outside = t.outside) : s.startHoldTimer = t.startHoldTimer := by
  have e : s.startRec = t.startRec := congrArg Outside.startRec h
  unfold State.startHoldTimer State.startHold
  rw [e]

/-! ### Operations on one claim -/

/-- Between `s` and `t` only claim `c`, its turn, the borrow pool, the completions, the attention list and what is sent
have changed. -/
structure ClaimOnly (s t : State) (c : ClaimIdx) : Prop where
  other : ∀ d, d ≠ c → t.claim d = s.claim d
  records : t.records = s.records
  peers : t.peers = s.peers
  port : t.port = s.port
  station : t.station = s.station
  inBuf : t.inBuf = s.inBuf
  moves : t.moves = s.moves
  arbPort : t.arbPort = s.arbPort
  arbTurn : t.arbTurn = s.arbTurn
  outside : t.outside = s.outside

/-- Nothing has been sent between `s` and `t`: what had been sent stands as it did, but for what claim `c` owns of it. -/
structure NothingSent (s t : State) (c : ClaimIdx) : Prop where
  mail : t.mail = s.mail
  txq : (t.disown c).txq = (s.disown c).txq
  handover : (t.disown c).handover = (s.disown c).handover
  outBuf : t.outBuf = s.outBuf

theorem Owner.without_without (c : ClaimIdx) (o : Owner) : (o.without c).without c = o.without c := by
  cases o with
  | claims who =>
    rcases who with _ | ⟨d, u⟩
    · rfl
    · by_cases h : d = c <;> simp [Owner.without, h]
  | _ => rfl

theorem State.disown_disown (s : State) (c : ClaimIdx) : (s.disown c).disown c = s.disown c := by
  simp [State.disown, Owner.without_without, Function.comp_def]

namespace NothingSent

variable {s t u : State} {c : ClaimIdx}

theorem refl (s : State) (c : ClaimIdx) : NothingSent s s c := ⟨rfl, rfl, rfl, rfl⟩

theorem trans (h : NothingSent s t c) (k : NothingSent t u c) : NothingSent s u c :=
  ⟨k.mail.trans h.mail, k.txq.trans h.txq, k.handover.trans h.handover, k.outBuf.trans h.outBuf⟩

theorem same (h : NothingSent s t c) (h1 : u.mail = t.mail) (h2 : u.txq = t.txq) (h3 : u.handover = t.handover)
    (h4 : u.outBuf = t.outBuf) : NothingSent s u c :=
  h.trans ⟨h1, by simp [State.disown, h2], by simp [State.disown, h3], h4⟩

theorem disown (s : State) (c : ClaimIdx) : NothingSent s (s.disown c) c :=
  ⟨rfl, by rw [State.disown_disown], by rw [State.disown_disown], rfl⟩

end NothingSent

namespace ClaimOnly

variable {s t u : State} {c : ClaimIdx}

theorem own (h : ClaimOnly s t c) : t.own = s.own := own_of_outside h.outside

theorem refCount (h : ClaimOnly s t c) (d : ClaimIdx) : t.refCount d = s.refCount d := refCount_of_outside h.outside d

theorem refl (s : State) (c : ClaimIdx) : ClaimOnly s s c := ⟨fun _ _ => rfl, rfl, rfl, rfl, rfl, rfl, rfl, rfl, rfl, rfl⟩

theorem trans (h : ClaimOnly s t c) (k : ClaimOnly t u c) : ClaimOnly s u c :=
  ⟨fun d hd => (k.other d hd).trans (h.other d hd), k.records.trans h.records, k.peers.trans h.peers, k.port.trans h.port,
    k.station.trans h.station, k.inBuf.trans h.inBuf, k.moves.trans h.moves, k.arbPort.trans h.arbPort,
    k.arbTurn.trans h.arbTurn, k.outside.trans h.outside⟩

/-- Only fields that the operations of a claim may change have changed. -/
theorem same (h : ClaimOnly s t c) (h0 : u.claims = t.claims) (h1 : u.records = t.records) (h2 : u.peers = t.peers)
    (h3 : u.port = t.port) (h4 : u.station = t.station) (h5 : u.inBuf = t.inBuf) (h6 : u.moves = t.moves)
    (h7 : u.arbPort = t.arbPort) (h8 : u.arbTurn = t.arbTurn) (h9 : u.outside = t.outside) : ClaimOnly s u c :=
  h.trans ⟨fun d _ => by unfold State.claim; rw [h0], h1, h2, h3, h4, h5, h6, h7, h8, h9⟩

theorem setClaim (s : State) (c : ClaimIdx) (v : Claim) : ClaimOnly s (s.setClaim c v) c :=
  ⟨fun d hd => by rw [State.claim_setClaim, if_neg (Ne.symm hd)], rfl, rfl, rfl, rfl, rfl, rfl, rfl, rfl, rfl⟩

theorem modClaim (s : State) (c : ClaimIdx) (f : Claim → Claim) : ClaimOnly s (s.modClaim c f) c := setClaim s c _

theorem setClaimTurn (s : State) (c : ClaimIdx) (v : Turn) : ClaimOnly s (s.setClaimTurn v) c :=
  (refl s c).same rfl rfl rfl rfl rfl rfl rfl rfl rfl rfl

theorem complete (s : State) (c : ClaimIdx) (k : Ticket) (st : Status) (i : Option ClaimIdx) (g : Option Byte)
    (w : Option Word) : ClaimOnly s (s.complete k st i g w) c :=
  (refl s c).same rfl rfl rfl rfl rfl rfl rfl rfl rfl rfl

theorem claimNotice (s : State) (c : ClaimIdx) (cl : Claim) (r : ClaimReason) : ClaimOnly s (s.claimNotice c cl r) c := by
  unfold State.claimNotice State.notice
  split <;> exact (refl s c).same rfl rfl rfl rfl rfl rfl rfl rfl rfl rfl

theorem sendHome (s : State) (c : ClaimIdx) (m : Lease) : ClaimOnly s (s.sendHome c m) c :=
  (refl s c).same (by simp) (by simp) (by simp) (by simp) (by simp) (by simp) (by simp) (by simp) (by simp)
    (Within.refl s).sendHome.outside

end ClaimOnly

variable (s : State) (c : ClaimIdx)

@[simp] theorem State.claim_modClaim (f : Claim → Claim) : (s.modClaim c f).claim c = f (s.claim c) :=
  State.claim_setClaim_same s c _

theorem NothingSent.modClaim (f : Claim → Claim) : NothingSent s (s.modClaim c f) c := ⟨rfl, rfl, rfl, rfl⟩

theorem State.notice_eq (x : Subject) (n : Notice) : s.notice x n = { s with attention := (s.notice x n).attention } := by
  unfold State.notice
  split <;> rfl

@[simp] theorem State.claimNotice_claim (cl : Claim) (r : ClaimReason) (d : ClaimIdx) :
    (s.claimNotice c cl r).claim d = s.claim d := by
  unfold State.claimNotice
  rw [State.notice_eq]
  rfl

@[simp] theorem State.claimNotice_cplq (cl : Claim) (r : ClaimReason) : (s.claimNotice c cl r).cplq = s.cplq := by
  unfold State.claimNotice
  rw [State.notice_eq]

theorem NothingSent.claimNotice (cl : Claim) (r : ClaimReason) : NothingSent s (s.claimNotice c cl r) c := by
  unfold State.claimNotice
  rw [State.notice_eq]
  exact ⟨rfl, rfl, rfl, rfl⟩

/-! ### Where a message of a claim goes -/

theorem State.sendHome_remote (m : Lease) (b : Block) (hb : (s.claim c).block = some b) (h : b.home ≠ s.own) :
    s.sendHome c m = s.handOver b.home m (.claims (some (c, (s.claim c).use))) := by
  unfold State.sendHome
  rw [hb]
  simp only [if_neg h]

theorem State.sendHome_own_block (m : Lease) (b : Block) (hb : (s.claim c).block = some b) (h : b.home = s.own) :
    s.sendHome c m = s.pushMail (.toDirectory m) := by
  unfold State.sendHome
  rw [hb]
  simp only [if_pos h]

/-- The hand-over of a frame without payload that the port accepts at once. -/
theorem State.handOver_accepted (d : Station) (m : Lease) (o : Owner) (h1 : s.port ≠ .bypass) (h2 : s.handover = [])
    (h3 : s.canAccept d = true) :
    s.handOver d m o = { s with txq := s.txq ++ [TxEntry.fresh d m o none .waiting] } := by
  unfold State.handOver
  rw [if_neg h1, if_pos (by rw [h2, h3]; rfl)]

/-! ### Completions -/

/-- The pending command of a claim, if any, completes: what the claim, the completions and the rest are then. -/
theorem State.completePending_spec (st : Status) (g : Option Byte) (w : Option Word) :
    ClaimOnly s (s.completePending c st g w) c ∧ NothingSent s (s.completePending c st g w) c ∧
      (s.completePending c st g w).claim c = { s.claim c with pendingCmd := none } ∧
      (s.completePending c st g w).cplq =
        s.cplq ++ ((s.claim c).pendingCmd.toList.map fun t => .plain t st (some c) g w) := by
  unfold State.completePending
  cases h : (s.claim c).pendingCmd with
  | none =>
    refine ⟨.refl s c, .refl s c, ?_, by simp⟩
    dsimp only
    generalize s.claim c = cl at h
    cases cl
    simp at h
    simp [h]
  | some t =>
    exact ⟨(ClaimOnly.modClaim s c _).trans (.complete _ _ _ _ _ _ _), ⟨rfl, rfl, rfl, rfl⟩,
      State.claim_modClaim s c (fun cl => { cl with pendingCmd := none }), rfl⟩

theorem State.completeCancel_spec (st : Status) :
    ClaimOnly s (s.completeCancel c st) c ∧ NothingSent s (s.completeCancel c st) c ∧
      (s.completeCancel c st).claim c = { s.claim c with pendingCancel := none } ∧
      (s.completeCancel c st).cplq =
        s.cplq ++ ((s.claim c).pendingCancel.toList.map fun t => .plain t st (some c) none none) := by
  unfold State.completeCancel
  cases h : (s.claim c).pendingCancel with
  | none =>
    refine ⟨.refl s c, .refl s c, ?_, by simp⟩
    dsimp only
    generalize s.claim c = cl at h
    cases cl
    simp at h
    simp [h]
  | some t =>
    exact ⟨(ClaimOnly.modClaim s c _).trans (.complete _ _ _ _ _ _ _), ⟨rfl, rfl, rfl, rfl⟩,
      State.claim_modClaim s c (fun cl => { cl with pendingCancel := none }), rfl⟩

/-- The pending ACQUIRE or UPGRADE completes OK with the generation, and an ACQUIRE with the frame number too. -/
theorem State.completeLease_spec :
    ClaimOnly s (s.completeLease c) c ∧ NothingSent s (s.completeLease c) c ∧
      (s.completeLease c).claim c = { s.claim c with pendingCmd := none } ∧
      (s.completeLease c).cplq = s.cplq ++ ((s.claim c).pendingCmd.toList.map fun t => .plain t .ok (some c) (s.claim c).gen
        (if t.code = 5 then (s.claim c).frame.map (BitVec.ofNat 32) else none)) := by
  unfold State.completeLease
  dsimp only
  cases h : (s.claim c).pendingCmd with
  | none =>
    refine ⟨.refl s c, .refl s c, ?_, by simp⟩
    dsimp only
    generalize s.claim c = cl at h
    cases cl
    simp at h
    simp [h]
  | some t =>
    obtain ⟨p1, p2, p3, p4⟩ := State.completePending_spec s c .ok (s.claim c).gen
      (if t.code = 5 then (s.claim c).frame.map (BitVec.ofNat 32) else none)
    exact ⟨p1, p2, p3, by rw [p4, h]; rfl⟩

/-! ### The end of a lease and of a request -/

/-- A lease ends: both commands complete, and the claim is FREE, or ENDED with the reason while entries name it. -/
theorem State.endLease_spec (r : EndReason) (a b : Status) :
    ClaimOnly s (s.endLease c r a b) c ∧ NothingSent s (s.endLease c r a b) c ∧
      (s.endLease c r a b).claim c = (if s.refCount c = 0 then .free (s.claim c).use
        else { Claim.free (s.claim c).use with state := .ended, block := (s.claim c).block, endReason := some r }) ∧
      (s.endLease c r a b).cplq = s.cplq ++ ((s.claim c).pendingCmd.toList.map fun t => .plain t a (some c) none none) ++
        ((s.claim c).pendingCancel.toList.map fun t => .plain t b (some c) none none) := by
  obtain ⟨p1, p2, p3, p4⟩ := State.completePending_spec s c a none none
  obtain ⟨q1, q2, q3, q4⟩ := State.completeCancel_spec (s.completePending c a none none) c b
  unfold State.endLease
  dsimp only
  have e1 := p1.trans q1
  have e2 := p2.trans q2
  have hc : ((s.completePending c a none none).completeCancel c b).claim c =
      { s.claim c with pendingCmd := none, pendingCancel := none } := by rw [q3, p3]
  have hq : ((s.completePending c a none none).completeCancel c b).cplq =
      s.cplq ++ ((s.claim c).pendingCmd.toList.map fun t => .plain t a (some c) none none) ++
        ((s.claim c).pendingCancel.toList.map fun t => .plain t b (some c) none none) := by
    rw [q4, p4, p3]
  revert e1 e2 hc hq
  generalize (s.completePending c a none none).completeCancel c b = u
  intro e1 e2 hc hq
  have e3 : ClaimOnly s ((u.freeBorrow c).disown c) c := e1.same rfl rfl rfl rfl rfl rfl rfl rfl rfl rfl
  have e4 : NothingSent s ((u.freeBorrow c).disown c) c :=
    (e2.same (u := u.freeBorrow c) rfl rfl rfl rfl).trans (.disown _ _)
  have hc3 : ((u.freeBorrow c).disown c).claim c = { s.claim c with pendingCmd := none, pendingCancel := none } := hc
  have hq3 : ((u.freeBorrow c).disown c).cplq =
      s.cplq ++ ((s.claim c).pendingCmd.toList.map fun t => .plain t a (some c) none none) ++
        ((s.claim c).pendingCancel.toList.map fun t => .plain t b (some c) none none) := hq
  revert e3 e4 hc3 hq3
  generalize (u.freeBorrow c).disown c = v
  intro e3 e4 hc3 hq3
  have e5 : ClaimOnly s (v.setClaimTurn (v.claimTurn.leave c.val)) c := e3.trans (.setClaimTurn _ _ _)
  have e6 : NothingSent s (v.setClaimTurn (v.claimTurn.leave c.val)) c := e4.same rfl rfl rfl rfl
  have hc5 : (v.setClaimTurn (v.claimTurn.leave c.val)).claim c =
      { s.claim c with pendingCmd := none, pendingCancel := none } := hc3
  rw [e5.refCount c, hc5]
  split
  · refine ⟨(e5.trans (.setClaim _ _ _)).same rfl rfl rfl rfl rfl rfl rfl rfl rfl rfl,
      e6.same rfl rfl rfl rfl, ?_, hq3⟩
    show State.claim (State.setClaim _ _ _) c = _
    rw [State.claim_setClaim_same]
  · exact ⟨e5.trans (.setClaim _ _ _), e6.same rfl rfl rfl rfl, State.claim_setClaim_same _ _ _, hq3⟩

/-- The state of a claim whose lease has ended. -/
theorem State.endLease_state (r : EndReason) (a b : Status) :
    ((s.endLease c r a b).claim c).state = if s.refCount c = 0 then .free else .ended := by
  rw [(State.endLease_spec s c r a b).2.2.1]
  split <;> rfl

/-- A request is given up: without a copy the lease ends, with a copy the claim is HELD SHARED again. -/
theorem State.giveUp_spec (k : WithdrawCause) :
    ClaimOnly s (s.giveUp c k) c ∧ NothingSent s (s.giveUp c k) c ∧
      ((s.claim c).held = none → ((s.giveUp c k).claim c).state = if s.refCount c = 0 then .free else .ended) ∧
      ((s.claim c).held ≠ none →
        (s.giveUp c k).claim c = { (s.claim c).backToShared with pendingCmd := none, pendingCancel := none }) ∧
      (s.giveUp c k).cplq = s.cplq ++ ((s.claim c).pendingCmd.toList.map fun t => .plain t k.status (some c) none none) ++
        ((s.claim c).pendingCancel.toList.map fun t => .plain t .ok (some c) none none) := by
  unfold State.giveUp
  cases h : (s.claim c).held with
  | none =>
    obtain ⟨a1, a2, _, a4⟩ := State.endLease_spec s c k.reason k.status .ok
    exact ⟨a1, a2, fun _ => State.endLease_state s c _ _ _, fun x => absurd rfl x, a4⟩
  | some m =>
    dsimp only
    obtain ⟨p1, p2, p3, p4⟩ := State.completePending_spec (s.modClaim c Claim.backToShared) c k.status none none
    obtain ⟨q1, q2, q3, q4⟩ := State.completeCancel_spec
      ((s.modClaim c Claim.backToShared).completePending c k.status none none) c .ok
    refine ⟨(ClaimOnly.modClaim s c _).trans (p1.trans q1), (NothingSent.modClaim s c _).trans (p2.trans q2),
      (fun x => nomatch x), fun _ => ?_, ?_⟩
    · rw [q3, p3, State.claim_modClaim]
    · rw [q4, p4, p3, State.claim_modClaim]
      rfl

/-! ### Asking and withdrawing -/

/-- A claim asks: it is ASKING, and an ASK with its present tag goes to its home. -/
theorem State.claimAsk_eq (m : Mode) (f : Bool) (b : Block) (hb : (s.claim c).block = some b) :
    s.claimAsk c m f = (s.setClaim c { s.claim c with
      state := .asking, sought := some m, askStanding := true, wait := if f then s.startWaitTimer else (s.claim c).wait,
      reask := .off }).sendHome c (.ask b m { claim := c, use := (s.claim c).use }) := by
  unfold State.claimAsk
  dsimp only
  unfold State.modClaim
  generalize hu : (s.setClaim c { s.claim c with
    state := .asking, sought := some m, askStanding := true, wait := if f then s.startWaitTimer else (s.claim c).wait,
    reask := .off }) = u
  have h1 : u.claim c = { s.claim c with
      state := .asking, sought := some m, askStanding := true, wait := if f then s.startWaitTimer else (s.claim c).wait,
      reask := .off } := by
    rw [← hu]
    exact State.claim_setClaim_same _ _ _
  have h2 : (u.claim c).block = some b := by rw [h1]; exact hb
  rw [h2]
  dsimp only
  unfold State.tagOf
  rw [h1]

theorem State.withdrawAsk_spec (k : WithdrawCause) :
    ClaimOnly s (s.withdrawAsk c k) c ∧ (s.withdrawAsk c k).cplq = s.cplq ∧
      (s.withdrawAsk c k).claim c = { s.claim c with state := .withdrawing, wait := .off, cause := some k } := by
  unfold State.withdrawAsk
  dsimp only
  have h1 := State.claim_modClaim s c (fun cl => { cl with state := .withdrawing, wait := .off, cause := some k })
  have h2 := ClaimOnly.modClaim s c (fun cl => { cl with state := .withdrawing, wait := .off, cause := some k })
  have h3 : (s.modClaim c (fun cl => { cl with state := .withdrawing, wait := .off, cause := some k })).cplq = s.cplq := rfl
  revert h1 h2 h3
  generalize s.modClaim c (fun cl => { cl with state := .withdrawing, wait := .off, cause := some k }) = u
  intro h1 h2 h3
  split
  · exact ⟨h2.trans (.sendHome _ _ _), (by simp [h3]), (State.sendHome_claim _ _ _ _).trans h1⟩
  · exact ⟨h2, h3, h1⟩

/-! ### Giving a copy up -/

/-- The home has taken the answer of a copy given up for good: the lease ends. -/
theorem State.finishGive_state (h : (s.claim c).state ≠ .demoting) :
    ((s.finishGive c).claim c).state = if s.refCount c = 0 then .free else .ended := by
  unfold State.finishGive
  dsimp only
  split
  · exact absurd (by assumption) h
  · exact State.endLease_state _ _ _ _ _
  · rw [State.claimNotice_claim]
    exact State.endLease_state _ _ _ _ _

/-- The home has taken the RETURNED of a demote: the claim is HELD SHARED. -/
theorem State.finishGive_demoting (h : (s.claim c).state = .demoting) :
    (s.finishGive c).claim c = { s.claim c with
      state := .held, held := some .shared, sought := none, dirty := [], giving := none, ret := none } := by
  unfold State.finishGive
  dsimp only
  rw [h]
  dsimp only
  rw [State.claimNotice_claim, State.claim_modClaim]
  rfl

/-- That of a RELEASE ends the lease with reason RELEASED, and the RELEASE completes OK. -/
theorem State.finishGive_release (h : (s.claim c).state ≠ .demoting) (hg : (s.claim c).giving = some .release) :
    s.finishGive c = s.endLease c .released .ok .ok := by
  unfold State.finishGive
  dsimp only
  rw [hg]
  cases hs : (s.claim c).state <;> first | rfl | exact absurd hs h

theorem ClaimOnly.finishGive : ClaimOnly s (s.finishGive c) c := by
  unfold State.finishGive
  dsimp only
  split
  · exact ((ClaimOnly.setClaimTurn _ _ _).trans (.modClaim _ _ _)).trans (.claimNotice _ _ _ _)
  · exact (State.endLease_spec _ _ _ _ _).1
  · exact (State.endLease_spec _ _ _ _ _).1.trans (.claimNotice _ _ _ _)

theorem NothingSent.finishGive : NothingSent s (s.finishGive c) c := by
  unfold State.finishGive
  dsimp only
  split
  · refine NothingSent.trans ?_ (.claimNotice _ _ _ _)
    exact ⟨rfl, rfl, rfl, rfl⟩
  · exact (State.endLease_spec _ _ _ _ _).2.1
  · exact (State.endLease_spec _ _ _ _ _).2.1.trans (.claimNotice _ _ _ _)

/-- A DROPPED of a remote copy. -/
theorem State.startDrop_spec (k : GiveCause) (b : Block) (g : Byte) (hb : (s.claim c).block = some b)
    (hg : (s.claim c).gen = some g) (h : b.home ≠ s.own) :
    ClaimOnly s (s.startDrop c k) c ∧ (s.startDrop c k).cplq = s.cplq ∧
      (s.startDrop c k).claim c = { s.claim c with state := .dropping, deferred := none, giving := some k } := by
  unfold State.startDrop
  dsimp only
  have m1 := State.claim_modClaim s c (fun cl => { cl with state := .dropping, deferred := none, giving := some k })
  have m2 := ClaimOnly.modClaim s c (fun cl => { cl with state := .dropping, deferred := none, giving := some k })
  have m3 : (s.modClaim c (fun cl => { cl with state := .dropping, deferred := none, giving := some k })).cplq = s.cplq := rfl
  revert m1 m2 m3
  generalize (s.modClaim c (fun cl => { cl with state := .dropping, deferred := none, giving := some k })) = u
  intro m1 m2 m3
  have hb' : (u.claim c).block = some b := by rw [m1]; exact hb
  have hg' : (u.claim c).gen = some g := by rw [m1]; exact hg
  rw [hb', hg']
  dsimp only
  rw [if_neg (by rw [State.sendHome_own, m2.own]; exact h)]
  exact ⟨m2.trans (.sendHome _ _ _), (State.sendHome_cplq _ _ _).trans m3, (State.sendHome_claim _ _ _ _).trans m1⟩

theorem State.sendReturned_claim (d : ClaimIdx) : (s.sendReturned c).claim d = s.claim d := by
  unfold State.sendReturned
  dsimp only
  split
  · exact State.sendHome_claim _ _ _ _
  · rfl

theorem ClaimOnly.sendReturned : ClaimOnly s (s.sendReturned c) c := by
  unfold State.sendReturned
  dsimp only
  split
  · exact (ClaimOnly.setClaimTurn _ _ _).trans (.sendHome _ _ _)
  · exact .refl _ _

theorem State.sendReturned_cplq : (s.sendReturned c).cplq = s.cplq := by
  unfold State.sendReturned
  dsimp only
  split
  · exact State.sendHome_cplq _ _ _
  · rfl

/-- The dirty set of a return is fixed as it stands. -/
theorem State.fixReturn_spec (kept : Bool) :
    ClaimOnly s (s.fixReturn c kept) c ∧ (s.fixReturn c kept).cplq = s.cplq ∧
      (s.fixReturn c kept).claim c = { s.claim c with
        ret := some { kept := kept, fixed := true, count := (s.claim c).dirty.length, todo := (s.claim c).dirty } } := by
  unfold State.fixReturn
  dsimp only
  generalize hf : (fun cl : Claim => { cl with
    ret := some { kept := kept, fixed := true, count := cl.dirty.length, todo := cl.dirty } }) = f
  have m1 := State.claim_modClaim s c f
  have m2 := ClaimOnly.modClaim s c f
  have m3 : (s.modClaim c f).cplq = s.cplq := rfl
  revert m1 m2 m3
  generalize s.modClaim c f = u
  intro m1 m2 m3
  subst hf
  split
  · exact ⟨m2.trans (.sendReturned _ _), (State.sendReturned_cplq _ _).trans m3, (State.sendReturned_claim _ _ _).trans m1⟩
  · exact ⟨m2, m3, m1⟩

/-- A return of a remote copy begins. -/
theorem State.startReturn_spec (kept : Bool) (k : GiveCause) (b : Block) (g : Byte) (hb : (s.claim c).block = some b)
    (hg : (s.claim c).gen = some g) (h : b.home ≠ s.own) :
    ClaimOnly s (s.startReturn c kept k) c ∧ (s.startReturn c kept k).cplq = s.cplq ∧
      ∃ r, (s.startReturn c kept k).claim c = { (s.claim c).givingBack kept k with ret := some r } := by
  unfold State.startReturn
  dsimp only
  have m1 := State.claim_modClaim s c (·.givingBack kept k)
  have m2 := ClaimOnly.modClaim s c (·.givingBack kept k)
  have m3 : (s.modClaim c (·.givingBack kept k)).cplq = s.cplq := rfl
  revert m1 m2 m3
  generalize (s.modClaim c (·.givingBack kept k)) = u
  intro m1 m2 m3
  have hb' : (u.claim c).block = some b := by rw [m1]; exact hb
  have hg' : (u.claim c).gen = some g := by rw [m1]; exact hg
  rw [hb', hg']
  dsimp only
  rw [if_neg (by rw [m2.own]; exact h)]
  have t1 : (u.setClaimTurn (u.claimTurn.join c.val)).claim c = u.claim c := rfl
  have t2 := ClaimOnly.setClaimTurn u c (u.claimTurn.join c.val)
  have t3 : (u.setClaimTurn (u.claimTurn.join c.val)).cplq = u.cplq := rfl
  revert t1 t2 t3
  generalize u.setClaimTurn (u.claimTurn.join c.val) = v
  intro t1 t2 t3
  split
  · exact ⟨m2.trans (t2.trans (.modClaim _ _ _)), t3.trans m3, _, (State.claim_modClaim _ _ _).trans (by rw [t1, m1])⟩
  · obtain ⟨f1, f2, f3⟩ := State.fixReturn_spec v c kept
    exact ⟨m2.trans (t2.trans f1), f2.trans (t3.trans m3), _, f3.trans (by rw [t1, m1])⟩

theorem ClaimOnly.startDrop (k : GiveCause) : ClaimOnly s (s.startDrop c k) c := by
  unfold State.startDrop
  dsimp only
  repeat' split
  · exact (ClaimOnly.modClaim _ _ _).trans ((ClaimOnly.sendHome _ _ _).trans (.finishGive _ _))
  · exact (ClaimOnly.modClaim _ _ _).trans (.sendHome _ _ _)
  · exact .modClaim _ _ _

theorem ClaimOnly.startReturn (kept : Bool) (k : GiveCause) : ClaimOnly s (s.startReturn c kept k) c := by
  unfold State.startReturn
  dsimp only
  repeat' split
  · exact (ClaimOnly.modClaim _ _ _).trans ((ClaimOnly.sendHome _ _ _).trans (.finishGive _ _))
  · exact (ClaimOnly.modClaim _ _ _).trans ((ClaimOnly.setClaimTurn _ _ _).trans (.modClaim _ _ _))
  · exact (ClaimOnly.modClaim _ _ _).trans ((ClaimOnly.setClaimTurn _ _ _).trans (State.fixReturn_spec _ _ _).1)
  · exact .modClaim _ _ _

/-! ### Recalls -/

/-- A recall acted on in HELD: the kind that fits the mode starts a drop, a return or a demote; any other does nothing. -/
theorem State.actRecall_held (kind : RecallKind) (h : (s.claim c).state = .held) :
    s.actRecall c kind = match (s.claim c).held, kind with
      | some .shared, .drop => s.startDrop c .recalled
      | some .exclusive, .surrender => s.startReturn c false .recalled
      | some .exclusive, .demote => s.startReturn c true .recalled
      | _, _ => s := by
  unfold State.actRecall
  dsimp only
  unfold Claim.fits
  simp only [h, reduceCtorEq, if_false]
  cases (s.claim c).held with
  | none => cases kind <;> rfl
  | some m => cases m <;> cases kind <;> rfl

theorem ClaimOnly.dropCopy : ClaimOnly s (s.dropCopy c) c := by
  unfold State.dropCopy
  dsimp only
  split
  · exact (ClaimOnly.modClaim _ _ _).trans ((ClaimOnly.sendHome _ _ _).trans (.claimNotice _ _ _ _))
  · exact .refl _ _

theorem ClaimOnly.actRecall (k : RecallKind) : ClaimOnly s (s.actRecall c k) c := by
  unfold State.actRecall
  dsimp only
  repeat' split
  all_goals with_reducible first
    | exact ClaimOnly.startDrop _ _ _ | exact ClaimOnly.startReturn _ _ _ _ | exact ClaimOnly.dropCopy _ _ | exact ClaimOnly.refl _ _

theorem ClaimOnly.actDeferred : ClaimOnly s (s.actDeferred c) c := by
  unfold State.actDeferred
  dsimp only
  repeat' split
  · exact .refl _ _
  · exact (ClaimOnly.modClaim _ _ _).trans (.actRecall _ _ _)
  · exact .refl _ _

theorem ClaimOnly.claimWritten (n : UseNum) (g : Byte) (i : ChunkIdx) : ClaimOnly s (s.claimWritten c n g i) c := by
  unfold State.claimWritten State.fillEnd
  dsimp only
  repeat' split
  · exact (ClaimOnly.modClaim _ _ _).trans ((ClaimOnly.modClaim _ _ _).trans
      ((State.completeLease_spec _ _).1.trans (.actDeferred _ _)))
  · exact .modClaim _ _ _
  · exact .refl _ _

/-- The write that a return waited for has ended. -/
theorem State.writeEnded_spec :
    ClaimOnly s (s.writeEnded c) c ∧ ((s.claim c).ret = none → s.writeEnded c = s) ∧
      ∀ r, (s.claim c).ret = some r → r.fixed = false → (s.writeEnded c).claim c = { s.claim c with
        ret := some { kept := r.kept, fixed := true, count := (s.claim c).dirty.length, todo := (s.claim c).dirty } } := by
  unfold State.writeEnded
  refine ⟨?_, fun h => by rw [h], fun r h hf => ?_⟩
  · repeat' split
    · exact .refl _ _
    · exact (State.fixReturn_spec _ _ _).1
    · exact .refl _ _
  · rw [h]
    dsimp only
    rw [hf]
    exact (State.fixReturn_spec s c r.kept).2.2

/-! ### Homes that are lost -/

theorem State.homeAbsent_spec :
    ClaimOnly s (s.homeAbsent c) c ∧ ((s.homeAbsent c).claim c).state = if s.refCount c = 0 then .free else .ended := by
  unfold State.homeAbsent
  dsimp only
  split
  · exact ⟨(State.endLease_spec _ _ _ _ _).1.trans (.claimNotice _ _ _ _), by
      rw [State.claimNotice_claim]; exact State.endLease_state _ _ _ _ _⟩
  · exact ⟨(State.endLease_spec _ _ _ _ _).1, State.endLease_state _ _ _ _ _⟩

end Sys2Proof.Machine
end

