-- ==== Sys2Proof/Laws/Records.lean ====
section
/-! SUPPORT. What the home directory's shared operations do to the record they act on, to the other records, and to what they
leave alone. -/

namespace Sys2Proof.Machine

/-- Between `s` and `t` only record `n`, the turn of the transfers, and what is sent have changed. -/
structure RecordOnly (s t : State) (n : Byte) : Prop where
  eq : ∃ r d q l o m, t = { s with records := r, dirTurn := d, txq := q, handover := l, outBuf := o, mail := m }
  length : t.records.length = s.records.length
  other : ∀ m, m ≠ n → t.record? m = s.record? m

/-! ### A record set -/

theorem State.record?_setRecord (s : State) (n m : Byte) (r : DirRecord) :
    (s.setRecord n r).record? m = if n = m then (s.record? m).map (fun _ => r) else s.record? m := by
  unfold State.record? State.setRecord
  simp only [List.getElem?_set]
  by_cases h : n = m
  · subst h
    simp only [if_true]
    split
    · rename_i hl
      rw [List.getElem?_eq_getElem hl]
      rfl
    · rename_i hl
      rw [List.getElem?_eq_none (by omega)]
      rfl
  · rw [if_neg h, if_neg]
    intro e
    exact h (BitVec.eq_of_toNat_eq e)

theorem State.record?_setRecord_same (s : State) (n : Byte) (r r0 : DirRecord) (h : s.record? n = some r0) :
    (s.setRecord n r).record? n = some r := by
  rw [State.record?_setRecord, if_pos rfl, h]
  rfl

theorem State.record?_modRecord (s : State) (n : Byte) (f : DirRecord → DirRecord) :
    (s.modRecord n f).record? n = (s.record? n).map f := by
  unfold State.modRecord
  cases h : s.record? n with
  | none => exact h
  | some r => exact State.record?_setRecord_same _ _ _ _ h

theorem State.record?_dirSend (s : State) (p : Station) (m : Lease) (n : Byte) : (s.dirSend p m).record? n = s.record? n := by
  unfold State.record?
  rw [State.dirSend_records]

theorem State.record?_foldl {α : Type} (l : List α) (f : State → α → State) (s : State) (n : Byte)
    (h : ∀ u a, (f u a).record? n = u.record? n) : (l.foldl f s).record? n = s.record? n := by
  induction l generalizing s with
  | nil => rfl
  | cons a l ih => exact (ih _).trans (h s a)

theorem State.record?_sendRecalls (s : State) (n m : Byte) : (s.sendRecalls n).record? m = s.record? m := by
  unfold State.sendRecalls
  repeat' split
  · exact State.record?_foldl _ _ _ _ (fun _ _ => State.record?_dirSend _ _ _ _)
  · rfl
  · rfl

/-! ### One record only -/

namespace RecordOnly

variable {s t u : State} {n : Byte}

theorem refl (s : State) (n : Byte) : RecordOnly s s n :=
  ⟨⟨s.records, s.dirTurn, s.txq, s.handover, s.outBuf, s.mail, rfl⟩, rfl, fun _ _ => rfl⟩

theorem trans (h : RecordOnly s t n) (k : RecordOnly t u n) : RecordOnly s u n := by
  obtain ⟨r, d, q, x, o, m, e⟩ := h.eq
  obtain ⟨r', d', q', x', o', m', e'⟩ := k.eq
  exact ⟨⟨r', d', q', x', o', m', by rw [e', e]⟩, k.length.trans h.length, fun m hm => (k.other m hm).trans (h.other m hm)⟩

theorem claims (h : RecordOnly s t n) : t.claims = s.claims := by
  obtain ⟨_, _, _, _, _, _, e⟩ := h.eq
  rw [e]

theorem cplq (h : RecordOnly s t n) : t.cplq = s.cplq := by
  obtain ⟨_, _, _, _, _, _, e⟩ := h.eq
  rw [e]

theorem moves (h : RecordOnly s t n) : t.moves = s.moves := by
  obtain ⟨_, _, _, _, _, _, e⟩ := h.eq
  rw [e]

theorem peers (h : RecordOnly s t n) : t.peers = s.peers := by
  obtain ⟨_, _, _, _, _, _, e⟩ := h.eq
  rw [e]

theorem outside (h : RecordOnly s t n) : t.outside = s.outside := by
  obtain ⟨_, _, _, _, _, _, e⟩ := h.eq
  rw [e]
  rfl

theorem port (h : RecordOnly s t n) : t.port = s.port := by
  obtain ⟨_, _, _, _, _, _, e⟩ := h.eq
  rw [e]

theorem setRecord (s : State) (n : Byte) (r : DirRecord) : RecordOnly s (s.setRecord n r) n :=
  ⟨⟨_, _, _, _, _, _, rfl⟩, List.length_set, fun m hm => by rw [State.record?_setRecord, if_neg (Ne.symm hm)]⟩

theorem modRecord (s : State) (n : Byte) (f : DirRecord → DirRecord) : RecordOnly s (s.modRecord n f) n := by
  unfold State.modRecord
  split
  · exact setRecord _ _ _
  · exact refl _ _

theorem setDirTurn (s : State) (v : Turn) (n : Byte) : RecordOnly s (s.setDirTurn v) n :=
  ⟨⟨_, _, _, _, _, _, rfl⟩, rfl, fun _ _ => rfl⟩

theorem dirSend (s : State) (p : Station) (m : Lease) (n : Byte) : RecordOnly s (s.dirSend p m) n := by
  obtain ⟨q, h, o, k, e⟩ := State.dirSend_eq s p m
  rw [e]
  exact ⟨⟨_, _, _, _, _, _, rfl⟩, rfl, fun _ _ => rfl⟩

theorem foldl {α : Type} (l : List α) (f : State → α → State) (s : State) (n : Byte)
    (h : ∀ u a, RecordOnly u (f u a) n) : RecordOnly s (l.foldl f s) n := by
  induction l generalizing s with
  | nil => exact refl _ _
  | cons a l ih => exact (h s a).trans (ih _)

theorem sendRecalls (s : State) (n : Byte) : RecordOnly s (s.sendRecalls n) n := by
  unfold State.sendRecalls
  repeat' split
  · exact foldl _ _ _ _ (fun _ _ => dirSend _ _ _ _)
  · exact refl _ _
  · exact refl _ _

theorem beginRecall (s : State) (n : Byte) (k : RecallKind) (a : List Station) : RecordOnly s (s.beginRecall n k a) n :=
  (modRecord _ _ _).trans (sendRecalls _ _)

theorem grantHead (s : State) (n : Byte) (r : DirRecord) (q : Request) (d : Bool) :
    RecordOnly s (s.grantHead n r q d) n := by
  unfold State.grantHead
  dsimp only
  split
  · exact (setRecord _ _ _).trans ((setDirTurn _ _ _).trans (dirSend _ _ _ _))
  · exact (setRecord _ _ _).trans (dirSend _ _ _ _)

theorem denyHead (s : State) (n : Byte) (r : DirRecord) (q : Request) : RecordOnly s (s.denyHead n r q) n :=
  (setRecord _ _ _).trans (dirSend _ _ _ _)

theorem serveHead (s : State) (n : Byte) (r : DirRecord) (q : Request) : RecordOnly s (s.serveHead n r q) n := by
  unfold State.serveHead
  repeat' split
  all_goals with_reducible first
    | exact denyHead _ _ _ _ | exact beginRecall _ _ _ _ | exact grantHead _ _ _ _ _

theorem serveLoop (k : Nat) (n : Byte) (s : State) : RecordOnly s (State.serveLoop k n s) n := by
  induction k generalizing s with
  | zero => exact refl _ _
  | succ k ih =>
    unfold State.serveLoop
    repeat' split
    all_goals with_reducible first | exact refl _ _ | exact (serveHead _ _ _ _).trans (ih _)

theorem serve (s : State) (n : Byte) : RecordOnly s (s.serve n) n := by
  unfold State.serve
  split
  · exact serveLoop _ _ _
  · exact refl _ _

theorem endTransfer (s : State) (n : Byte) : RecordOnly s (s.endTransfer n) n :=
  (modRecord _ _ _).trans (setDirTurn _ _ _)

theorem settle (s : State) (n : Byte) : RecordOnly s (s.settle n) n :=
  (endTransfer _ _).trans ((modRecord _ _ _).trans (serve _ _))

theorem damage (s : State) (n : Byte) : RecordOnly s (s.damage n) n := by
  unfold State.damage
  split
  · exact refl _ _
  · exact (setRecord _ _ _).trans ((setDirTurn _ _ _).trans (foldl _ _ _ _ (fun _ _ => dirSend _ _ _ _)))

theorem afterAnswer (s : State) (n : Byte) : RecordOnly s (s.afterAnswer n) n := by
  unfold State.afterAnswer
  repeat' split
  · exact refl _ _
  · exact settle _ _
  · exact serve _ _

theorem handleReturned (s : State) (n : Byte) (k : Bool) (c : Fin 33) : RecordOnly s (s.handleReturned n k c) n := by
  unfold State.handleReturned
  repeat' split
  all_goals with_reducible first
    | exact refl _ _ | exact (setRecord _ _ _).trans (afterAnswer _ _) | exact damage _ _

theorem handleLostReturned (s : State) (n : Byte) (k : Bool) (c : Fin 33) : RecordOnly s (s.handleLostReturned n k c) n := by
  unfold State.handleLostReturned
  repeat' split
  all_goals with_reducible first
    | exact refl _ _ | exact (setRecord _ _ _).trans (afterAnswer _ _) | exact setRecord _ _ _

theorem homeWritten (s : State) (n : Byte) (p : Station) (g : Byte) (c : ChunkIdx) :
    RecordOnly s (s.homeWritten n p g c) n := by
  unfold State.homeWritten
  dsimp only
  repeat' split
  all_goals with_reducible first
    | exact refl _ _
    | exact (setRecord _ _ _).trans (handleReturned _ _ _ _)
    | exact (setRecord _ _ _).trans (handleLostReturned _ _ _ _)
    | exact setRecord _ _ _

theorem readerLeaves (s : State) (n : Byte) (r : DirRecord) (p : Station) : RecordOnly s (s.readerLeaves n r p) n := by
  unfold State.readerLeaves
  dsimp only
  split
  · exact (endTransfer _ _).trans ((modRecord _ _ _).trans (afterAnswer _ _))
  · exact (modRecord _ _ _).trans (afterAnswer _ _)

/-- But for the inbound buffer that it releases. -/
theorem answerIgnored (s : State) (n : Byte) (r : DirRecord) (p : Station) (b : Option (Fin 4)) :
    RecordOnly (s.releaseIn b) (s.answerIgnored n r p b) n := by
  unfold State.answerIgnored
  dsimp only
  split
  · exact (endTransfer _ _).trans (serve _ _)
  · exact refl _ _

theorem recallExpired (s : State) (n : Byte) : RecordOnly s (s.recallExpired n) n := by
  unfold State.recallExpired
  repeat' split
  all_goals with_reducible first
    | exact refl _ _
    | exact (setRecord _ _ _).trans (sendRecalls _ _)
    | exact damage _ _
    | exact (setRecord _ _ _).trans (afterAnswer _ _)

theorem loseRequest (s : State) (p : Station) (g : Bool) (n : Byte) : RecordOnly s (s.loseRequest p g n) n := by
  unfold State.loseRequest
  dsimp only
  repeat' split
  · exact refl _ _
  · exact refl _ _
  · exact setRecord _ _ _
  · exact (setRecord _ _ _).trans (dirSend _ _ _ _)

theorem loseTransfer (s : State) (p : Station) (g : Bool) (f : List FailedFrame) (n : Byte) :
    RecordOnly s (s.loseTransfer p g f n) n := by
  unfold State.loseTransfer
  dsimp only
  split
  · exact refl _ _
  · split
    · exact refl _ _
    · split
      · split
        · exact endTransfer _ _
        · refine RecordOnly.trans ?_ (settle _ _)
          split
          · exact (endTransfer _ _).trans (modRecord _ _ _)
          · exact ((endTransfer _ _).trans (modRecord _ _ _)).trans (dirSend _ _ _ _)
      · exact refl _ _

theorem loseCopy (s : State) (p : Station) (g : Bool) (f : List FailedFrame) (n : Byte) :
    RecordOnly s (s.loseCopy p g f n) n := by
  unfold State.loseCopy
  repeat' split
  · exact refl _ _
  · exact (modRecord _ _ _).trans (afterAnswer _ _)
  · exact damage _ _
  · exact (modRecord _ _ _).trans (afterAnswer _ _)
  · exact refl _ _

theorem loseInRecord (s : State) (p : Station) (g : Bool) (f : List FailedFrame) (n : Byte) :
    RecordOnly s (s.loseInRecord p g f n) n :=
  ((loseRequest _ _ _ _).trans (loseTransfer _ _ _ _ _)).trans (loseCopy _ _ _ _ _)

end RecordOnly

/-- The loss of a peer touches neither the claims nor the peer records. -/
theorem State.losePeer_keeps (s : State) (p : Station) (g : Bool) (f : List FailedFrame) :
    (s.losePeer p g f).claims = s.claims ∧ (s.losePeer p g f).peers = s.peers := by
  unfold State.losePeer
  generalize s.recordIdxs = l
  induction l generalizing s with
  | nil => exact ⟨rfl, rfl⟩
  | cons n l ih =>
    have h := RecordOnly.loseInRecord s p g f n
    rw [List.foldl_cons]
    exact ⟨(ih _).1.trans h.claims, (ih _).2.trans h.peers⟩

/-! ### Service -/

theorem DirRecord.settled_iff (r : DirRecord) :
    r.settled = true ↔ r.lost = none ∧ r.recalling = none ∧ r.transfer = none := by
  unfold DirRecord.settled DirRecord.state
  cases r.lost <;> cases r.recalling <;> cases r.transfer <;> cases r.holder <;> cases r.readers <;> simp

theorem State.serve_of_no_request (s : State) (n : Byte) (r : DirRecord) (h : s.record? n = some r) (hq : r.queue = []) :
    s.serve n = s := by
  unfold State.serve
  rw [h]
  dsimp only
  unfold State.serveLoop
  rw [h]
  dsimp only
  rw [hq]
  split <;> rfl

theorem State.serve_of_unsettled (s : State) (n : Byte) (r : DirRecord) (h : s.record? n = some r)
    (hs : r.settled = false) : s.serve n = s := by
  unfold State.serve
  rw [h]
  dsimp only
  unfold State.serveLoop
  rw [h]
  dsimp only
  rw [hs]
  rfl

/-- With one request, service is one round, when that round leaves the record unsettled or without a request. -/
theorem State.serve_of_one (s : State) (n : Byte) (r : DirRecord) (q : Request) (h : s.record? n = some r)
    (hs : r.settled = true) (hq : r.queue = [q])
    (hn : ∀ r', (s.serveHead n r q).record? n = some r' → r'.settled = false ∨ r'.queue = []) :
    s.serve n = s.serveHead n r q := by
  unfold State.serve
  rw [h]
  dsimp only
  rw [hq]
  show State.serveLoop 2 n s = _
  unfold State.serveLoop
  rw [h]
  dsimp only
  rw [if_pos hs, hq]
  dsimp only
  revert hn
  generalize s.serveHead n r q = u
  intro hn
  unfold State.serveLoop
  cases hu : u.record? n with
  | none => rfl
  | some r' =>
    dsimp only
    rcases hn r' hu with h | h
    · rw [h]
      rfl
    · rw [h]
      split <;> rfl

theorem State.record?_beginRecall (s : State) (n : Byte) (k : RecallKind) (a : List Station) (r : DirRecord)
    (h : s.record? n = some r) : (s.beginRecall n k a).record? n =
      some { r with recalling := some { kind := k, awaiting := a, sends := 1, timer := s.startPausable } } := by
  unfold State.beginRecall
  dsimp only
  rw [State.record?_sendRecalls, State.record?_modRecord, h]
  rfl

theorem State.record?_grantHead (s : State) (n : Byte) (r : DirRecord) (q : Request) (d : Bool) (h : s.record? n = some r) :
    (s.grantHead n r q d).record? n = some (r.granted q d) := by
  unfold State.grantHead
  dsimp only
  rw [State.record?_dirSend]
  split
  · exact State.record?_setRecord_same _ _ _ _ h
  · exact State.record?_setRecord_same _ _ _ _ h

/-! ### Records that settle, or are damaged -/

theorem State.record?_endTransfer (s : State) (n : Byte) (r : DirRecord) (h : s.record? n = some r) :
    (s.endTransfer n).record? n = some { r with transfer := none } := by
  unfold State.endTransfer
  show (s.modRecord n _).record? n = _
  rw [State.record?_modRecord, h]
  rfl

theorem State.record?_settle (s : State) (n : Byte) (r : DirRecord) (h : s.record? n = some r) (hq : r.queue = []) :
    (s.settle n).record? n = some { r with transfer := none, recalling := none } := by
  unfold State.settle
  have h2 : (((s.endTransfer n).modRecord n fun r => { r with recalling := none })).record? n =
      some { r with transfer := none, recalling := none } := by
    rw [State.record?_modRecord, State.record?_endTransfer s n r h]
    rfl
  rw [State.serve_of_no_request _ n _ h2 (by exact hq), h2]

theorem State.record?_damage (s : State) (n : Byte) (r : DirRecord) (h : s.record? n = some r) :
    (s.damage n).record? n = some { r with
      lost := r.holder, holder := none, transfer := none, recalling := none, queue := [] } := by
  unfold State.damage
  rw [h]
  dsimp only
  rw [State.record?_foldl _ _ _ _ (fun _ _ => State.record?_dirSend _ _ _ _)]
  exact State.record?_setRecord_same _ _ _ _ h

/-- With no request waiting, a change of readers or holder ends a recall left with nobody awaited, and nothing more. -/
theorem State.record?_afterAnswer (s : State) (n : Byte) (r : DirRecord) (h : s.record? n = some r) (hq : r.queue = []) :
    (s.afterAnswer n).record? n =
      some (if r.recallOver then { r with transfer := none, recalling := none } else r) := by
  unfold State.afterAnswer
  rw [h]
  dsimp only
  split
  · exact State.record?_settle s n r h hq
  · rw [State.serve_of_no_request s n r h hq, h]

/-! ### The entry into DETACHING -/

/-- Every record loses its peers' requests, and what is sent alone changes besides. -/
theorem State.denyPeers_spec (s : State) (n : Byte) :
    RecordOnly s (s.denyPeers n) n ∧ (s.denyPeers n).record? n =
      (s.record? n).map fun r => { r with queue := r.queue.filter (·.station == s.own) } := by
  unfold State.denyPeers
  cases hr : s.record? n with
  | none => exact ⟨.refl _ _, hr⟩
  | some r =>
    dsimp only
    refine ⟨(RecordOnly.setRecord _ _ _).trans (.foldl _ _ _ _ fun _ _ => .dirSend _ _ _ _), ?_⟩
    rw [State.record?_foldl _ _ _ _ (fun _ _ => State.record?_dirSend _ _ _ _)]
    exact State.record?_setRecord_same _ _ _ _ hr

end Sys2Proof.Machine
end

