-- ==== Sys2Proof/Laws/Events.lean ====
section
/-! SUPPORT. How the rows that take a command, hand a frame onward or receive one come down to the operation they carry out, and
what the arbiter and the window unit do. -/

namespace Sys2Proof.Machine

/-! ### Commands of the queue -/

theorem State.takeable_spec {s : State} {q : Queued} (h : s.takeable = some q) :
    s.inFlight + s.cplq.length < 16 ∧ ∃ rest, s.cmdq = q :: rest := by
  unfold State.takeable at h
  split at h
  · rename_i hr
    have hr : s.inFlight + s.cplq.length < 16 := of_decide_eq_true hr
    refine ⟨hr, ?_⟩
    cases hc : s.cmdq with
    | nil =>
      rw [hc] at h
      cases h
    | cons a r =>
      rw [hc] at h
      cases h
      exact ⟨r, rfl⟩
  · cases h

/-- The row of the command that stands at the head takes it. -/
theorem State.takeRow_eq {s : State} {q : Queued} (h : s.takeable = some q) {row : CommandRecord → Bool}
    (hr : row q.record = true) (act : State → Queued → State) : s.takeRow row act = (act s.removeHead q).settleEvent := by
  unfold State.takeRow
  rw [h]
  simp only [hr, if_true]

theorem State.ifStarted_started {s : State} {q : Queued} (h : s.station ≠ .unconfigured) (act : State → Queued → State) :
    s.removeHead.ifStarted q act = act s.removeHead q := by
  unfold State.ifStarted
  rw [if_neg (show s.removeHead.station ≠ .unconfigured from h)]

theorem State.ifStarted_unconfigured {s : State} {q : Queued} (h : s.station = .unconfigured)
    (act : State → Queued → State) : s.removeHead.ifStarted q act = s.removeHead.answer q .notStarted := by
  unfold State.ifStarted
  rw [if_pos (show s.removeHead.station = .unconfigured from h)]

/-- The taking that a POST or a POP allows keeps the post result, the sequence counter and the staging registers. -/
theorem State.takeLoop_keeps (k : Nat) (s : State) :
    (State.takeLoop k s).postResult = s.postResult ∧ (State.takeLoop k s).seqNext = s.seqNext ∧
      (State.takeLoop k s).staging = s.staging :=
  have h := State.kept_takeLoop k s
  ⟨congrArg Outside.postResult h, congrArg Outside.seqNext h, congrArg Outside.staging h⟩

theorem State.enterJoining_eq (s : State) (t : Ticket) (h1 : s.txq = []) (h2 : s.handover = []) :
    s.enterJoining t = { s with
      station := .joining, port := .active, probeOutstanding := true, announceAwaited := 0, lifeCmd := some t,
      txq := [TxEntry.fresh s.own .announce .station none .waiting] } := by
  unfold State.enterJoining State.handOver
  simp [h1, h2, State.canAccept, Config.txCapacity]

/-! ### The window's entries -/

/-- An entry takes a new mapping: what happens to it, to its attention item and to the claim it named. -/
theorem State.setMapping_spec (s : State) (e : EntryIdx) (m : Option (Target × Limit)) :
    (s.setMapping e m).outside =
        { s.outside with window := s.window.set e.val { mapping := m, fault := none } e.isLt } ∧
      (∀ i ∈ (s.setMapping e m).attention, i.subject ≠ .entry e) ∧ (s.setMapping e m).cplq = s.cplq ∧
      (∀ c, (s.window.get e).claim ≠ some c → (s.setMapping e m).claim c = s.claim c) ∧
      (∀ c, (s.window.get e).claim = some c → (s.claim c).state = .ended → (s.setMapping e m).refCount c = 0 →
        (s.setMapping e m).claim c = .free (s.claim c).use) ∧
      (∀ c, (s.window.get e).claim = some c → (s.claim c).state ≠ .ended ∨ (s.setMapping e m).refCount c ≠ 0 →
        (s.setMapping e m).claim c = s.claim c) := by
  unfold State.setMapping
  dsimp only
  have base : ∀ i ∈ ((s.setEntry e { mapping := m, fault := none }).removeItem (.entry e)).attention,
      i.subject ≠ .entry e := by
    intro i hi
    simpa using (List.mem_filter.mp hi).2
  have w1 : ((s.setEntry e { mapping := m, fault := none }).removeItem (.entry e)).outside =
      { s.outside with window := s.window.set e.val { mapping := m, fault := none } e.isLt } := rfl
  have w2 : ((s.setEntry e { mapping := m, fault := none }).removeItem (.entry e)).cplq = s.cplq := rfl
  have w3 : ((s.setEntry e { mapping := m, fault := none }).removeItem (.entry e)).claims = s.claims := rfl
  revert base w1 w2 w3
  generalize ((s.setEntry e { mapping := m, fault := none }).removeItem (.entry e)) = w
  intro base w1 w2 w3
  have w4 : ∀ d, w.claim d = s.claim d := fun d => by unfold State.claim; rw [w3]
  cases hc : (s.window.get e).claim with
  | none =>
    dsimp only
    exact ⟨w1, base, w2, fun d _ => w4 d, (by intro _ h; cases h), (by intro _ h; cases h)⟩
  | some c =>
    dsimp only
    unfold State.dropReference
    rw [w4]
    have rc : ∀ v, ((w.setClaim c v).removeItem (.claim c)).refCount c = w.refCount c := fun _ => rfl
    have oc : ∀ v, ((w.setClaim c v).removeItem (.claim c)).outside = w.outside := fun _ => rfl
    have cc : ∀ v d, ((w.setClaim c v).removeItem (.claim c)).claim d = (w.setClaim c v).claim d := fun _ _ => rfl
    have qc : ∀ v, ((w.setClaim c v).removeItem (.claim c)).cplq = w.cplq := fun _ => rfl
    split
    · rename_i h
      refine ⟨(oc _).trans w1, ?_, (qc _).trans w2, ?_, ?_, ?_⟩
      · intro i hi
        exact base i (List.mem_filter.mp hi).1
      · intro d hd
        rw [cc, State.claim_setClaim, if_neg (fun x => hd (by rw [x])), w4]
      · intro d hd h1 h2
        cases hd
        rw [cc, State.claim_setClaim_same]
      · intro d hd h1
        cases hd
        rcases h1 with h1 | h1
        · exact absurd h.1 h1
        · rw [rc] at h1
          exact absurd h.2 h1
    · rename_i h
      refine ⟨w1, base, w2, fun d _ => w4 d, ?_, fun d _ _ => w4 d⟩
      intro d hd h1 h2
      cases hd
      exact absurd ⟨h1, h2⟩ h

/-! ### The arbiter -/

theorem State.arbStart_eq (s : State) : s.arbStart = { s with arbPort := s.arbStart.arbPort } := by
  unfold State.arbStart
  split
  · rfl
  · split
    · rfl
    · split <;> rfl

theorem State.raiseMove_eq (s : State) (m : Move) :
    s.raiseMove m = { s with moves := s.moves ++ [m], arbPort := (s.raiseMove m).arbPort } := by
  unfold State.raiseMove
  rw [State.arbStart_eq]

theorem State.arbEnd_window (s : State) : State.arbEnd { s with access := none } .window =
    { s with access := none, arbTurn := .ring, arbPort := if s.moves = [] then none else some .ring } := by
  unfold State.arbEnd
  simp only [State.waiting, Client.other]
  by_cases h : s.moves = []
  · simp [h]
  · simp [h]

theorem State.endMove_eq (s : State) (rest : List Move) (h : s.moves.tail = rest) : s.endMove = { s with
    moves := rest, arbTurn := .window,
    arbPort := if s.access.isSome then some .window else if rest = [] then none else some .ring } := by
  unfold State.endMove State.arbEnd
  simp only [State.waiting, Client.other, h]
  have : rest.isEmpty = decide (rest = []) := by cases rest <;> rfl
  by_cases h1 : s.access.isSome = true
  · simp [h1]
  · simp only [h1, this]
    by_cases h2 : rest = [] <;> simp [h2]

/-- The end of an event changes no byte of memory. -/
theorem State.readByte_settleEvent (s : State) (a : Nat) : s.settleEvent.readByte a = s.readByte a := by
  unfold State.readByte
  rw [show s.settleEvent.dram = s.dram from congrArg Outside.dram (State.outside_settleEvent s),
    show s.settleEvent.dramEpoch = s.dramEpoch from congrArg Outside.dramEpoch (State.outside_settleEvent s)]

/-! ### Frames received and sent -/

theorem execFrameReceived_intact (s : State) (bytes : List Byte) (f : Frame) (h1 : s.port ≠ .bypass)
    (h2 : parseFrame bytes = some f) : execFrameReceived bytes s = .next (s.sortFrame f).settleEvent := by
  unfold execFrameReceived
  rw [if_neg h1, h2]

theorem State.removeEntry_eq (s : State) (i : Nat) (e : TxEntry) :
    ∃ o, s.removeEntry i e = { s with txq := s.txq.eraseIdx i, outBuf := o } := by
  unfold State.removeEntry
  obtain ⟨o, h⟩ := Within.releaseOut_eq e ({ s with txq := s.txq.eraseIdx i } : State)
  exact ⟨o, h⟩

/-- The buffer of an entry that leaves and is not READING is free. -/
theorem State.removeEntry_outBuf (s : State) (i : Nat) (e : TxEntry) (b : Fin 4) (hb : e.buf = some b)
    (h : e.st ≠ .reading) : (s.removeEntry i e).outBuf.get b = .free := by
  unfold State.removeEntry State.releaseOut
  rw [hb]
  dsimp only
  rw [if_neg h]
  exact (get_set s.outBuf b b .free).trans (if_pos rfl)

/-- A frame to a peer was taken: the peer is PRESENT, and nothing but peers and items changes. -/
theorem State.peerTaken_spec (s : State) (p : Station) (hp : p ≠ s.own) :
    ((s.peerTaken p).peers.get p).presence = .present ∧
      s.peerTaken p = { s with peers := (s.peerTaken p).peers, attention := (s.peerTaken p).attention } := by
  unfold State.peerTaken
  dsimp only
  by_cases h : p = s.own ∨ (s.peers.get p).presence = .present
  · rw [if_pos h]
    rcases h with h | h
    · exact absurd h hp
    · exact ⟨h, rfl⟩
  · rw [if_neg h, State.notice_eq]
    refine ⟨?_, rfl⟩
    have := get_set s.peers p p { (s.peers.get p) with presence := .present }
    rw [if_pos rfl] at this
    exact congrArg Peer.presence this

/-- What one delivery failure takes out and reports. -/
theorem State.failAll_spec (s : State) (d : Station) (k : FailureKind) (x : List FailedFrame) :
    ∃ o, s.failAll d k x = { s with
      outBuf := o, txq := s.txq.filter (·.dest != d), handover := s.handover.filter (·.dest != d),
      mail := s.mail ++ [.failed {
        dest := d, kind := k,
        frames := x ++ (s.txq.filter (·.dest == d)).map (fun e => { owner := e.owner, msg := e.msg, sent := e.outstanding })
          ++ (s.handover.filter (·.dest == d)).map (fun h => { owner := h.owner, msg := h.msg, sent := false }) }] } := by
  unfold State.failAll
  dsimp only
  obtain ⟨o, h⟩ := Within.releaseOuts_eq (s.txq.filter (·.dest == d)) s
  rw [h]
  exact ⟨o, rfl⟩

/-! ### Frames handed onward -/

theorem State.afterChecks_outside (s : State) (e : RxEntry) (p : Station) : (s.afterChecks e p).outside = s.outside :=
  (Within.refl ({ s with rx := s.rx.tail } : State)).checked.outside

theorem State.afterChecks_own (s : State) (e : RxEntry) (p : Station) : (s.afterChecks e p).own = s.own :=
  own_of_outside (State.afterChecks_outside s e p)

/-- No frame comes from this station itself. -/
theorem sourceOf_ne_own {own : Station} {b : Byte} {p : Station} (h : sourceOf own b = some p) : p ≠ own := by
  unfold sourceOf at h
  dsimp only at h
  intro e
  subst e
  cases hb : byteStation b with
  | some q =>
    rw [hb] at h
    dsimp only at h
    by_cases hq : some q = some p
    · rw [if_pos hq] at h
      cases h
    · rw [if_neg hq] at h
      exact hq h
  | none =>
    rw [hb] at h
    dsimp only at h
    by_cases hq : Config.sourceAbove15 b = some p
    · rw [if_pos hq] at h
      cases h
    · rw [if_neg hq] at h
      exact hq h

/-- The row of the head's kind dispatches its message after the peer checks. -/
theorem State.handRow_of_handing {s : State} {e : RxEntry} {p : Station} {m : Lease} (h : s.Handing e p m)
    (row : Frame → Bool) (hr : row e.frame = true) :
    s.handRow row = ((s.afterChecks e p).dispatch p m e.buf).settleEvent := by
  have hf : State.handleFrame { s with rx := s.rx.tail } e = (s.afterChecks e p).dispatch p m e.buf := by
    unfold State.handleFrame
    have : sourceOf (State.own { s with rx := s.rx.tail }) e.frame.src = some p := h.source
    rw [this]
    dsimp only
    rw [h.message]
    rfl
  unfold State.handRow
  rw [h.head]
  dsimp only
  rw [if_pos hr]
  unfold State.handOnward
  dsimp only
  rw [if_neg (by rw [h.probed]; decide), hf]

/-- The kind and the home byte of a CHUNK handed onward. -/
theorem State.chunk_frame {s : State} {e : RxEntry} {p : Station} {b : Block} {g : Byte} {i : ChunkIdx}
    (h : s.Handing e p (.chunk b g i)) :
    isKind 7 e.frame = true ∧ s.isHomeHere e.frame = (b.home.val == s.own.val) := by
  refine ⟨by unfold isKind; rw [h.kind]; rfl, ?_⟩
  have hk : e.frame.kind = 7 := h.kind
  have hm := h.message
  unfold decodeLease at hm
  rw [if_neg (by rw [hk]; decide)] at hm
  split at hm
  · cases hs : byteStation e.frame.home with
    | none =>
      rw [hs] at hm
      cases hm
    | some home =>
      rw [hs] at hm
      dsimp only at hm
      have hk2 : e.frame.kind.toNat = 7 := by rw [hk]; rfl
      unfold decodeBody at hm
      simp only [hk2] at hm
      have hb : b.home = home := by
        split at hm
        · injection hm with hm
          injection hm with hm1 _ _
          rw [← hm1]
        · cases hm
      unfold State.isHomeHere
      rw [hb]
      unfold byteStation at hs
      split at hs
      · injection hs with hs
        rw [← hs]
      · cases hs
  · cases hm

/-- The four answers a home of this station takes go to the record they name. -/
theorem answers_reach_record {s : State} {e : RxEntry} {p : Station} {b : Block} {g : Byte} (hb : b.home = s.own) :
    (s.Handing e p (.dropped b g) →
      execDropped s = .next ((s.afterChecks e p).dirAnswer p b.index g .dropped e.buf).settleEvent) ∧
    (s.Handing e p (.notHeld b g) →
      execNotHeld s = .next ((s.afterChecks e p).dirAnswer p b.index g .notHeld e.buf).settleEvent) ∧
    (∀ k n, s.Handing e p (.returned b g k n) →
      execReturned s = .next ((s.afterChecks e p).dirAnswer p b.index g (.returned k n) e.buf).settleEvent) ∧
    (∀ i, s.Handing e p (.chunk b g i) →
      execChunkAtHome s = .next ((s.afterChecks e p).dirAnswer p b.index g (.chunk i) e.buf).settleEvent) := by
  have hw := State.afterChecks_own s e p
  refine ⟨fun h => ?_, fun h => ?_, fun k n h => ?_, fun i h => ?_⟩
  · unfold execDropped
    rw [State.handRow_of_handing h _ (by unfold isKind; rw [h.kind]; rfl)]
    show Host.Outcome.next (State.settleEvent (if b.home = State.own _ then State.dirAnswer _ _ _ _ _ _ else _)) = _
    rw [hw, if_pos hb]
  · unfold execNotHeld
    rw [State.handRow_of_handing h _ (by unfold isKind; rw [h.kind]; rfl)]
    show Host.Outcome.next (State.settleEvent (if b.home = State.own _ then State.dirAnswer _ _ _ _ _ _ else _)) = _
    rw [hw, if_pos hb]
  · unfold execReturned
    rw [State.handRow_of_handing h _ (by unfold isKind; rw [h.kind]; rfl)]
    show Host.Outcome.next (State.settleEvent (if b.home = State.own _ then State.dirAnswer _ _ _ _ _ _ else _)) = _
    rw [hw, if_pos hb]
  · have k := State.chunk_frame h
    unfold execChunkAtHome
    rw [State.handRow_of_handing h _ (by rw [k.1, k.2, hb]; simp)]
    show Host.Outcome.next (State.settleEvent (if b.home = State.own _ then State.dirAnswer _ _ _ _ _ _ else _)) = _
    rw [hw, if_pos hb]

end Sys2Proof.Machine
end

