-- ==== Sys2Proof/Laws/Frames.lean ====
section
/-! SUPPORT. The coded parts of a frame read back: a tag, a station number, and argument 1 beside a tag's high part. -/

namespace Sys2Proof.Machine

theorem Tag.ofParts_parts (t : Tag) : Tag.ofParts t.high t.low = t := by
  obtain ⟨c, u⟩ := t
  unfold Tag.ofParts Tag.high Tag.low Tag.toNat
  have hc := c.isLt
  have hu : u.toNat < 16 := u.isLt
  simp only [BitVec.toNat_ofNat]
  have e1 : (if ((c.val * 16 + u.toNat) / 256 == 1) = true then 16 else 0) + (c.val * 16 + u.toNat) % 2 ^ 8 / 16 =
      c.val := by
    by_cases h : (c.val * 16 + u.toNat) / 256 = 1
    · simp [h]
      omega
    · simp [h]
      omega
  rw [e1]
  congr 1
  · apply Fin.ext
    simp [Fin.ofNat]
  · apply BitVec.eq_of_toNat_eq
    simp
    omega

theorem byteStation_ofNat (p : Station) : byteStation (BitVec.ofNat 8 p.val) = some p := by
  unfold byteStation
  have h : (BitVec.ofNat 8 p.val).toNat = p.val := by
    simp
    omega
  rw [dif_pos (by rw [h]; exact p.isLt)]
  congr 1
  exact Fin.ext h

/-- Bit 7 and bits 6:0 of argument 1. -/
theorem arg1_parts (v : Nat) (high : Bool) (hv : v < 128) :
    (BitVec.ofNat 8 (v + if high then 128 else 0)).getLsbD 7 = high ∧
      (BitVec.ofNat 8 (v + if high then 128 else 0)).toNat % 128 = v := by
  have h (k : Nat) : (BitVec.ofNat 8 k).getLsbD 7 = decide (k / 128 % 2 = 1) := by
    show Nat.testBit _ 7 = _
    rw [BitVec.toNat_ofNat, Nat.testBit_eq_decide_div_mod_eq]
    congr 1
    apply propext
    omega
  cases high
  · refine ⟨?_, by simp; omega⟩
    rw [h]
    simp
    omega
  · refine ⟨?_, by simp; omega⟩
    rw [h]
    simp
    omega

end Sys2Proof.Machine
end

