-- ==== Sys2Proof/WellFormed.lean ====
section
/-! DEFINITION. Which terms of `Instr` are commands of their row: the checks the table's rows put on their operands. The
machine runs ill-formed terms too (a write with no byte enabled changes nothing, R196). -/

namespace Sys2Proof

/-- The register offsets, divided by 4, at which a write has an effect of its own (R196). -/
def writableRegisters : List (BitVec 6) :=
  [0, 1, 2, 3, 4, 12, 19, 20, 24, 25, 26, 27, 28, 29, 30, 31, 34]

/-- The operands fit the row. -/
def Instr.wellFormed : Instr → Bool
  | .post lbe => lbe != 0
  | .pop lbe => lbe != 0
  | .ack _ lbe => lbe != 0
  | .resetControl _ lbe => lbe != 0
  | .intEnable _ lbe => lbe != 0
  | .cmdStage _ _ lbe => lbe != 0
  | .startRecordWrite _ _ lbe => lbe != 0
  | .registerWriteIgnored la _ lbe => !(writableRegisters.contains la) || lbe == 0
  | .powerOnReset _ => true
  | .stationReset _ _ => true
  | .rstReleased _ => true
  | .start => true
  | .attach => true
  | .detach => true
  | .resume => true
  | .acquire => true
  | .upgrade => true
  | .release => true
  | .cancel => true
  | .map => true
  | .unmap => true
  | .restore => true
  | .inspectBlock => true
  | .inspectClaim => true
  | .unknownCommand => true
  | .windowAccess _ _ _ _ => true
  | .windowGrant => true
  | .chunkReadMoveEnd => true
  | .chunkWriteMoveEnd => true
  | .frameReceived _ => true
  | .forwardSend _ => true
  | .ownFrameSend _ _ => true
  | .returnTimerExpiry _ => true
  | .retryTimerExpiry _ => true
  | .handoverAccept => true
  | .chunkOfferAccept => true
  | .recallTimerExpiry _ => true
  | .waitTimerExpiry _ => true
  | .reaskTimerExpiry _ => true
  | .holdTimerExpiry _ => true
  | .ask => true
  | .withdraw => true
  | .withdrawn => true
  | .grant => true
  | .deny => true
  | .chunkAtHome => true
  | .chunkAtClaim => true
  | .recallCopy => true
  | .dropped => true
  | .returned => true
  | .notHeld => true
  | .announce => true
  | .unknownKindFrame => true

end Sys2Proof
end

