-- ==== Sys2Proof/Laws/PerInstr.lean ====
section
/-! SUPPORT. For every command, one statement about its operands: only the rows of register writes put a check on them, so any
other command fits its row whatever its operands are. -/

namespace Sys2Proof.Laws.OperandChecks

/-- The command is a row of register writes. -/
def registerWrite : Instr → Bool
  | .post _ => true
  | .pop _ => true
  | .ack _ _ => true
  | .resetControl _ _ => true
  | .intEnable _ _ => true
  | .cmdStage _ _ _ => true
  | .startRecordWrite _ _ _ => true
  | .registerWriteIgnored _ _ _ => true
  | _ => false

/-- A command that is no register write is well formed. -/
def Statement (i : Instr) : Prop := registerWrite i = false → i.wellFormed = true

theorem powerOnReset (fsel : BitVec 2) : Statement (.powerOnReset fsel) := fun _ => rfl

theorem stationReset (cause : ResetCause) (fsel : BitVec 2) : Statement (.stationReset cause fsel) := fun _ => rfl

theorem rstReleased (fsel : BitVec 2) : Statement (.rstReleased fsel) := fun _ => rfl

theorem post (lbe : BitVec 4) : Statement (.post lbe) := fun h => nomatch h

theorem pop (lbe : BitVec 4) : Statement (.pop lbe) := fun h => nomatch h

theorem ack (ld : Word) (lbe : BitVec 4) : Statement (.ack ld lbe) := fun h => nomatch h

theorem resetControl (ld : Word) (lbe : BitVec 4) : Statement (.resetControl ld lbe) := fun h => nomatch h

theorem intEnable (ld : Word) (lbe : BitVec 4) : Statement (.intEnable ld lbe) := fun h => nomatch h

theorem cmdStage (reg : Fin 4) (ld : Word) (lbe : BitVec 4) : Statement (.cmdStage reg ld lbe) := fun h => nomatch h

theorem startRecordWrite (field : Fin 8) (ld : Word) (lbe : BitVec 4) : Statement (.startRecordWrite field ld lbe) :=
  fun h => nomatch h

theorem registerWriteIgnored (la : BitVec 6) (ld : Word) (lbe : BitVec 4) : Statement (.registerWriteIgnored la ld lbe) :=
  fun h => nomatch h

theorem start : Statement .start := fun _ => rfl

theorem attach : Statement .attach := fun _ => rfl

theorem detach : Statement .detach := fun _ => rfl

theorem resume : Statement .resume := fun _ => rfl

theorem acquire : Statement .acquire := fun _ => rfl

theorem upgrade : Statement .upgrade := fun _ => rfl

theorem release : Statement .release := fun _ => rfl

theorem cancel : Statement .cancel := fun _ => rfl

theorem map : Statement .map := fun _ => rfl

theorem unmap : Statement .unmap := fun _ => rfl

theorem restore : Statement .restore := fun _ => rfl

theorem inspectBlock : Statement .inspectBlock := fun _ => rfl

theorem inspectClaim : Statement .inspectClaim := fun _ => rfl

theorem unknownCommand : Statement .unknownCommand := fun _ => rfl

theorem windowAccess (la : BitVec 16) (lbe : BitVec 4) (ld : Word) (lwr : Bool) : Statement (.windowAccess la lbe ld lwr) :=
  fun _ => rfl

theorem windowGrant : Statement .windowGrant := fun _ => rfl

theorem chunkReadMoveEnd : Statement .chunkReadMoveEnd := fun _ => rfl

theorem chunkWriteMoveEnd : Statement .chunkWriteMoveEnd := fun _ => rfl

theorem frameReceived (bytes : List Byte) : Statement (.frameReceived bytes) := fun _ => rfl

theorem forwardSend (outIdle : Bool) : Statement (.forwardSend outIdle) := fun _ => rfl

theorem ownFrameSend (outIdle inIdle : Bool) : Statement (.ownFrameSend outIdle inIdle) := fun _ => rfl

theorem returnTimerExpiry (entry : Fin 16) : Statement (.returnTimerExpiry entry) := fun _ => rfl

theorem retryTimerExpiry (entry : Fin 16) : Statement (.retryTimerExpiry entry) := fun _ => rfl

theorem handoverAccept : Statement .handoverAccept := fun _ => rfl

theorem chunkOfferAccept : Statement .chunkOfferAccept := fun _ => rfl

theorem recallTimerExpiry (block : Byte) : Statement (.recallTimerExpiry block) := fun _ => rfl

theorem waitTimerExpiry (claim : ClaimIdx) : Statement (.waitTimerExpiry claim) := fun _ => rfl

theorem reaskTimerExpiry (claim : ClaimIdx) : Statement (.reaskTimerExpiry claim) := fun _ => rfl

theorem holdTimerExpiry (claim : ClaimIdx) : Statement (.holdTimerExpiry claim) := fun _ => rfl

theorem ask : Statement .ask := fun _ => rfl

theorem withdraw : Statement .withdraw := fun _ => rfl

theorem withdrawn : Statement .withdrawn := fun _ => rfl

theorem grant : Statement .grant := fun _ => rfl

theorem deny : Statement .deny := fun _ => rfl

theorem chunkAtHome : Statement .chunkAtHome := fun _ => rfl

theorem chunkAtClaim : Statement .chunkAtClaim := fun _ => rfl

theorem recallCopy : Statement .recallCopy := fun _ => rfl

theorem dropped : Statement .dropped := fun _ => rfl

theorem returned : Statement .returned := fun _ => rfl

theorem notHeld : Statement .notHeld := fun _ => rfl

theorem announce : Statement .announce := fun _ => rfl

theorem unknownKindFrame : Statement .unknownKindFrame := fun _ => rfl

end Sys2Proof.Laws.OperandChecks
end

