-- ==== Sys2Proof/Laws/Sent.lean ====
section
/-! SUPPORT. What each operation sends (`State.SentAs`): the frames and the mail that claims and records hand over, whatever else
the operation changes. -/

namespace Sys2Proof.Machine

namespace State.SentAs

variable {x y u v : State}

theorem refl (s : State) : s.SentAs s := ⟨rfl, rfl, rfl, rfl⟩

theorem trans (h : x.SentAs y) (k : y.SentAs u) : x.SentAs u :=
  ⟨h.1.trans k.1, h.2.1.trans k.2.1, h.2.2.1.trans k.2.2.1, h.2.2.2.trans k.2.2.2⟩

theorem symm (h : x.SentAs y) : y.SentAs x := ⟨h.1.symm, h.2.1.symm, h.2.2.1.symm, h.2.2.2.symm⟩

theorem of_eq (h : x = y) : x.SentAs y := h ▸ refl x

/-- Handing a frame over depends on the port and on the sending side alone. -/
theorem handOver (h : x.SentAs u) (hp : x.port = u.port) (d : Station) (m : Lease) (o : Owner) :
    (x.handOver d m o).SentAs (u.handOver d m o) := by
  obtain ⟨h1, h2, h3, h4⟩ := h
  have hc : ∀ d, x.canAccept d = u.canAccept d := fun d => by unfold State.canAccept; rw [h1]
  have hr : ∀ (l : List TxEntry) (a b : State), a.outBuf = b.outBuf →
      (l.foldl State.releaseOut a).outBuf = (l.foldl State.releaseOut b).outBuf := by
    intro l
    induction l with
    | nil => exact fun a b e => e
    | cons t l ih =>
      intro a b e
      refine ih _ _ ?_
      unfold State.releaseOut
      repeat' split
      · exact e
      · unfold State.setOutBuf; dsimp only; rw [e]
      · unfold State.setOutBuf; dsimp only; rw [e]
  have hf : ∀ k, (x.failAll d k [{ owner := o, msg := m, sent := false }]).SentAs
      (u.failAll d k [{ owner := o, msg := m, sent := false }]) := by
    intro k
    obtain ⟨a, ha⟩ := Within.releaseOuts_eq (x.txq.filter (·.dest == d)) x
    obtain ⟨b, hb⟩ := Within.releaseOuts_eq (u.txq.filter (·.dest == d)) u
    have e := hr (x.txq.filter (·.dest == d)) x u h3
    have ea : a = b := by
      rw [ha] at e
      rw [h1, hb] at e
      exact e
    unfold State.failAll State.pushMail
    dsimp only
    rw [ha, hb, ea]
    refine ⟨?_, ?_, rfl, ?_⟩ <;> dsimp only
    · rw [h1]
    · rw [h2]
    · rw [h1, h2, h4]
  unfold State.handOver
  rw [hp, h2, hc]
  split
  · exact ⟨h1, h2, h3, h4⟩
  · split
    · exact ⟨congrArg (· ++ [TxEntry.fresh d m o none .waiting]) h1, rfl, h3, h4⟩
    · split
      · exact ⟨h1, rfl, h3, h4⟩
      · exact hf _

theorem pushMail (h : x.SentAs u) (m : Mail) : (x.pushMail m).SentAs (u.pushMail m) :=
  ⟨h.1, h.2.1, h.2.2.1, by show x.mail ++ _ = u.mail ++ _; rw [h.2.2.2]⟩

theorem dirSend (h : x.SentAs u) (hp : x.port = u.port) (ho : x.own = u.own) (d : Station) (m : Lease) :
    (x.dirSend d m).SentAs (u.dirSend d m) := by
  unfold State.dirSend
  rw [ho]
  split
  · exact h.pushMail _
  · exact h.handOver hp _ _ _

theorem sendHome (h : x.SentAs u) (hp : x.port = u.port) (ho : x.own = u.own) (c : ClaimIdx) (m : Lease)
    (hb : (x.claim c).block = (u.claim c).block) (hu : (x.claim c).use = (u.claim c).use) :
    (x.sendHome c m).SentAs (u.sendHome c m) := by
  unfold State.sendHome
  rw [hb, ho, hu]
  split
  · split
    · exact h.pushMail _
    · exact h.handOver hp _ _ _
  · exact h

theorem disown (h : x.SentAs u) (c : ClaimIdx) : (x.disown c).SentAs (u.disown c) :=
  ⟨by unfold State.disown; dsimp only; rw [h.1], by unfold State.disown; dsimp only; rw [h.2.1], h.2.2.1, h.2.2.2⟩

/-- What claim `c` has left of itself among the frames is nothing: letting go of them again changes nothing. -/
theorem disown_disown (s : State) (c : ClaimIdx) : ((s.disown c).disown c).SentAs (s.disown c) :=
  of_eq (State.disown_disown s c)

end State.SentAs

variable (s : State) (c : ClaimIdx)

/-! ### Claims -/

theorem State.setClaim_sent (v : Claim) : (s.setClaim c v).SentAs s := ⟨rfl, rfl, rfl, rfl⟩
theorem State.modClaim_sent (f : Claim → Claim) : (s.modClaim c f).SentAs s := ⟨rfl, rfl, rfl, rfl⟩
theorem State.setClaimTurn_sent (v : Turn) : (s.setClaimTurn v).SentAs s := ⟨rfl, rfl, rfl, rfl⟩
theorem State.freeBorrow_sent : (s.freeBorrow c).SentAs s := ⟨rfl, rfl, rfl, rfl⟩
theorem State.removeItem_sent (x : Subject) : (s.removeItem x).SentAs s := ⟨rfl, rfl, rfl, rfl⟩

theorem State.notice_sent (x : Subject) (n : Notice) : (s.notice x n).SentAs s := by
  rw [State.notice_eq]; exact .refl _

theorem State.completePending_sent (st : Status) (g : Option Byte) (w : Option Word) :
    (s.completePending c st g w).SentAs s := by
  unfold State.completePending
  split
  · exact ⟨rfl, rfl, rfl, rfl⟩
  · exact .refl _

theorem State.completeCancel_sent (st : Status) : (s.completeCancel c st).SentAs s := by
  unfold State.completeCancel
  split
  · exact ⟨rfl, rfl, rfl, rfl⟩
  · exact .refl _

theorem State.completeLease_sent : (s.completeLease c).SentAs s := by
  unfold State.completeLease
  dsimp only
  split
  · exact s.completePending_sent c _ _ _
  · exact .refl _

/-- The end of a lease sends nothing; the frames the claim had handed over are its own no longer. -/
theorem State.endLease_sent (r : EndReason) (a b : Status) : (s.endLease c r a b).SentAs (s.disown c) := by
  have h := (State.freeBorrow_sent ((s.completePending c a none none).completeCancel c b) c).trans
    ((State.completeCancel_sent _ c b).trans (s.completePending_sent c a none none))
  have k := h.disown c
  unfold State.endLease
  dsimp only
  revert k
  generalize ((((s.completePending c a none none).completeCancel c b).freeBorrow c).disown c) = u
  intro k
  have k' := (State.setClaimTurn_sent u (u.claimTurn.leave c.val)).trans k
  split
  · exact (State.removeItem_sent _ _).trans ((State.setClaim_sent _ _ _).trans k')
  · exact (State.setClaim_sent _ _ _).trans k'

theorem State.giveUp_sent (k : WithdrawCause) :
    ((s.claim c).held = none → (s.giveUp c k).SentAs (s.disown c)) ∧
      ((s.claim c).held ≠ none → (s.giveUp c k).SentAs s) := by
  unfold State.giveUp
  cases h : (s.claim c).held with
  | none => exact ⟨fun _ => s.endLease_sent c _ _ _, fun x => absurd rfl x⟩
  | some m =>
    refine ⟨(fun x => nomatch x), fun _ => ?_⟩
    exact (State.completeCancel_sent _ c _).trans ((State.completePending_sent _ c _ _ _).trans (s.modClaim_sent c _))

/-- An ASK with the claim's present tag. -/
theorem State.claimAsk_sent (m : Mode) (f : Bool) (b : Block) (hb : (s.claim c).block = some b) :
    (s.claimAsk c m f).SentAs (s.sendHome c (.ask b m { claim := c, use := (s.claim c).use })) := by
  rw [State.claimAsk_eq s c m f b hb]
  refine (s.setClaim_sent c _).sendHome rfl rfl c _ ?_ ?_
  · rw [State.claim_setClaim_same]
  · rw [State.claim_setClaim_same]

/-- A WITHDRAW with the claim's present tag. -/
theorem State.withdrawAsk_sent (k : WithdrawCause) (b : Block) (hb : (s.claim c).block = some b) :
    (s.withdrawAsk c k).SentAs (s.sendHome c (.withdraw b { claim := c, use := (s.claim c).use })) := by
  unfold State.withdrawAsk
  dsimp only
  have h1 := State.claim_modClaim s c (fun cl => { cl with state := .withdrawing, wait := .off, cause := some k })
  have h2 := s.modClaim_sent c (fun cl => { cl with state := .withdrawing, wait := .off, cause := some k })
  have h3 : (s.modClaim c (fun cl => { cl with state := .withdrawing, wait := .off, cause := some k })).port = s.port := rfl
  have h4 : (s.modClaim c (fun cl => { cl with state := .withdrawing, wait := .off, cause := some k })).own = s.own := rfl
  revert h1 h2 h3 h4
  generalize s.modClaim c (fun cl => { cl with state := .withdrawing, wait := .off, cause := some k }) = u
  intro h1 h2 h3 h4
  have hb' : (u.claim c).block = some b := by rw [h1]; exact hb
  have hu' : (u.claim c).use = (s.claim c).use := by rw [h1]
  rw [hb']
  dsimp only
  unfold State.tagOf
  rw [hu']
  exact h2.sendHome h3 h4 c _ (by rw [hb', hb]) hu'

theorem State.finishGive_sent :
    ((s.claim c).state ≠ .demoting → (s.finishGive c).SentAs (s.disown c)) ∧
      ((s.claim c).state = .demoting → (s.finishGive c).SentAs s) := by
  unfold State.finishGive
  dsimp only
  refine ⟨fun h => ?_, fun h => ?_⟩
  · split
    · exact absurd (by assumption) h
    · exact s.endLease_sent c _ _ _
    · exact (State.notice_sent _ _ _).trans (s.endLease_sent c _ _ _)
  · rw [h]
    exact (State.notice_sent _ _ _).trans ((State.modClaim_sent _ _ _).trans (s.setClaimTurn_sent _))

/-- A DROPPED to the home, another station. -/
theorem State.startDrop_begun (k : GiveCause) (b : Block) (g : Byte) (hb : (s.claim c).block = some b)
    (hg : (s.claim c).gen = some g) (h : b.home ≠ s.own) : s.DropBegun (s.startDrop c k) c (s.claim c) b g k := by
  refine ⟨(State.startDrop_spec s c k b g hb hg h).2.2, ?_⟩
  rw [← State.sendHome_remote s c _ b hb h]
  unfold State.startDrop
  dsimp only
  have m1 := State.claim_modClaim s c (fun cl => { cl with state := .dropping, deferred := none, giving := some k })
  have m2 := s.modClaim_sent c (fun cl => { cl with state := .dropping, deferred := none, giving := some k })
  have m3 : (s.modClaim c (fun cl => { cl with state := .dropping, deferred := none, giving := some k })).port = s.port := rfl
  have m4 : (s.modClaim c (fun cl => { cl with state := .dropping, deferred := none, giving := some k })).own = s.own := rfl
  revert m1 m2 m3 m4
  generalize (s.modClaim c (fun cl => { cl with state := .dropping, deferred := none, giving := some k })) = u
  intro m1 m2 m3 m4
  have hb' : (u.claim c).block = some b := by rw [m1]; exact hb
  have hg' : (u.claim c).gen = some g := by rw [m1]; exact hg
  rw [hb', hg']
  dsimp only
  rw [if_neg (by rw [State.sendHome_own, m4]; exact h)]
  exact m2.sendHome m3 m4 c _ (by rw [hb', hb]) (by rw [m1])

/-- A DROPPED to this part's directory, which ends the lease. -/
theorem State.startDrop_own_sent (k : GiveCause) (b : Block) (g : Byte) (hb : (s.claim c).block = some b)
    (hg : (s.claim c).gen = some g) (h : b.home = s.own) :
    (s.startDrop c k).SentAs ((s.disown c).pushMail (.toDirectory (.dropped b g))) := by
  unfold State.startDrop
  dsimp only
  have m1 := State.claim_modClaim s c (fun cl => { cl with state := .dropping, deferred := none, giving := some k })
  have m2 := s.modClaim_sent c (fun cl => { cl with state := .dropping, deferred := none, giving := some k })
  have m4 : (s.modClaim c (fun cl => { cl with state := .dropping, deferred := none, giving := some k })).own = s.own := rfl
  revert m1 m2 m4
  generalize (s.modClaim c (fun cl => { cl with state := .dropping, deferred := none, giving := some k })) = u
  intro m1 m2 m4
  have hb' : (u.claim c).block = some b := by rw [m1]; exact hb
  have hg' : (u.claim c).gen = some g := by rw [m1]; exact hg
  rw [hb', hg']
  dsimp only
  rw [if_pos (by rw [State.sendHome_own, m4]; exact h), State.sendHome_own_block u c _ b hb' (by rw [m4]; exact h)]
  refine ((State.finishGive_sent (u.pushMail (.toDirectory (.dropped b g))) c).1 (show (u.claim c).state ≠ .demoting by rw [m1]; exact fun e => nomatch e)).trans ?_
  exact (m2.disown c).pushMail _

theorem State.sendReturned_sent (b : Block) (g : Byte) (r : Return) (hb : (s.claim c).block = some b)
    (hg : (s.claim c).gen = some g) (hr : (s.claim c).ret = some r) :
    (s.sendReturned c).SentAs (s.sendHome c (.returned b g r.kept (Fin.ofNat 33 r.count))) := by
  unfold State.sendReturned
  dsimp only
  rw [hb, hg, hr]
  dsimp only
  exact (s.setClaimTurn_sent (s.claimTurn.leave c.val)).sendHome rfl rfl c _ rfl rfl

/-- The return of a copy homed at another station. -/
theorem State.startReturn_begun (kept : Bool) (k : GiveCause) (b : Block) (g : Byte) (hb : (s.claim c).block = some b)
    (hg : (s.claim c).gen = some g) (h : b.home ≠ s.own) :
    s.ReturnBegun (s.startReturn c kept k) c (s.claim c) b g kept k := by
  have hw : s.writeWaits c = true ↔ ∃ a, s.access = some a ∧ a.data ≠ none ∧ a.owner = some (c, (s.claim c).use) := by
    unfold State.writeWaits
    cases s.access with
    | none => simp
    | some a => cases hd : a.data <;> simp [hd]
  have key : (s.writeWaits c = true → (s.startReturn c kept k).claim c = (s.claim c).returningAs kept k
        { kept := kept, fixed := false, count := 0, todo := [] } ∧ (s.startReturn c kept k).SentAs s ∧
        (s.startReturn c kept k).claimTurn = s.claimTurn.join c.val) ∧
      (s.writeWaits c = false → (s.startReturn c kept k).claim c = (s.claim c).returningAs kept k
        { kept := kept, fixed := true, count := (s.claim c).dirty.length, todo := (s.claim c).dirty } ∧
        ((s.claim c).dirty ≠ [] → (s.startReturn c kept k).SentAs s ∧
          (s.startReturn c kept k).claimTurn = s.claimTurn.join c.val) ∧
        ((s.claim c).dirty = [] → (s.startReturn c kept k).SentAs
          (s.handOver b.home (.returned b g kept 0) (.claims (some (c, (s.claim c).use)))))) := by
    rw [← State.sendHome_remote s c _ b hb h]
    unfold State.startReturn
    dsimp only
    have m1 := State.claim_modClaim s c (·.givingBack kept k)
    have m2 := s.modClaim_sent c (·.givingBack kept k)
    have m3 : (s.modClaim c (·.givingBack kept k)).port = s.port := rfl
    have m4 : (s.modClaim c (·.givingBack kept k)).own = s.own := rfl
    have m5 : (s.modClaim c (·.givingBack kept k)).claimTurn = s.claimTurn := rfl
    have m6 : (s.modClaim c (·.givingBack kept k)).access = s.access := rfl
    revert m1 m2 m3 m4 m5 m6
    generalize (s.modClaim c (·.givingBack kept k)) = u
    intro m1 m2 m3 m4 m5 m6
    have hb' : (u.claim c).block = some b := by rw [m1]; exact hb
    have hg' : (u.claim c).gen = some g := by rw [m1]; exact hg
    rw [hb', hg']
    dsimp only
    rw [if_neg (by rw [m4]; exact h)]
    have t1 : (u.setClaimTurn (u.claimTurn.join c.val)).claim c = (s.claim c).givingBack kept k := m1
    have t2 := (u.setClaimTurn_sent (u.claimTurn.join c.val)).trans m2
    have t3 : (u.setClaimTurn (u.claimTurn.join c.val)).port = s.port := m3
    have t4 : (u.setClaimTurn (u.claimTurn.join c.val)).own = s.own := m4
    have t5 : (u.setClaimTurn (u.claimTurn.join c.val)).claimTurn = s.claimTurn.join c.val := by
      show u.claimTurn.join c.val = _; rw [m5]
    have t6 : (u.setClaimTurn (u.claimTurn.join c.val)).writeWaits c = s.writeWaits c := by
      show (u.access.any fun a => a.data.isSome && a.owner == some (c, (u.claim c).use)) = _
      rw [m6, m1]; rfl
    revert t1 t2 t3 t4 t5 t6
    generalize u.setClaimTurn (u.claimTurn.join c.val) = v
    intro t1 t2 t3 t4 t5 t6
    rw [t6]
    refine ⟨fun e => ?_, fun e => ?_⟩
    · rw [if_pos e]
      exact ⟨by rw [State.claim_modClaim, t1]; rfl, (v.modClaim_sent c _).trans t2, t5⟩
    · rw [if_neg (by rw [e]; decide)]
      refine ⟨by rw [(State.fixReturn_spec v c kept).2.2, t1]; rfl, ?_⟩
      unfold State.fixReturn
      dsimp only
      generalize hf : (fun cl : Claim => { cl with
        ret := some { kept := kept, fixed := true, count := cl.dirty.length, todo := cl.dirty } }) = f
      have w1 := State.claim_modClaim v c f
      have w2 := (v.modClaim_sent c f).trans t2
      have w3 : (v.modClaim c f).port = s.port := t3
      have w4 : (v.modClaim c f).own = s.own := t4
      have w5 : (v.modClaim c f).claimTurn = s.claimTurn.join c.val := t5
      revert w1 w2 w3 w4 w5
      generalize v.modClaim c f = w
      intro w1 w2 w3 w4 w5
      subst hf
      have d1 : (w.claim c).dirty = (s.claim c).dirty := by rw [w1, t1]; rfl
      rw [d1]
      refine ⟨fun hd => ?_, fun hd => ?_⟩
      · rw [if_neg (by simpa using hd)]
        exact ⟨w2, w5⟩
      · rw [hd, if_pos (by rfl)]
        refine (State.sendReturned_sent w c b g { kept := kept, fixed := true, count := 0, todo := [] } (by rw [w1, t1]; exact hb)
          (by rw [w1, t1]; exact hg) ?_).trans ?_
        · have hr : (w.claim c).ret = some (Return.mk kept true (v.claim c).dirty.length (v.claim c).dirty) := by rw [w1]
          have hv : (v.claim c).dirty = [] := by rw [t1]; exact hd
          rw [hr, hv]; rfl
        · exact w2.sendHome w3 w4 c _ (by rw [w1, t1]; rfl) (by rw [w1, t1]; rfl)
  have hw' : (¬ ∃ a, s.access = some a ∧ a.data ≠ none ∧ a.owner = some (c, (s.claim c).use)) → s.writeWaits c = false := by
    intro e
    cases hq : s.writeWaits c with
    | false => rfl
    | true => exact absurd (hw.1 hq) e
  exact ⟨fun e => key.1 (hw.2 e), fun e => (key.2 (hw' e)).1, fun e d => (key.2 (hw' e)).2.1 d,
    fun e d => (key.2 (hw' e)).2.2 d⟩

/-- A RETURNED to this part's directory, which ends the lease or leaves it HELD SHARED. -/
theorem State.startReturn_own_sent (kept : Bool) (k : GiveCause) (b : Block) (g : Byte) (hb : (s.claim c).block = some b)
    (hg : (s.claim c).gen = some g) (h : b.home = s.own) :
    (kept = false → (s.startReturn c kept k).SentAs ((s.disown c).pushMail (.toDirectory (.returned b g kept 0)))) ∧
      (kept = true → (s.startReturn c kept k).SentAs (s.pushMail (.toDirectory (.returned b g kept 0)))) := by
  unfold State.startReturn
  dsimp only
  have m1 := State.claim_modClaim s c (·.givingBack kept k)
  have m2 := s.modClaim_sent c (·.givingBack kept k)
  have m4 : (s.modClaim c (·.givingBack kept k)).own = s.own := rfl
  revert m1 m2 m4
  generalize (s.modClaim c (·.givingBack kept k)) = u
  intro m1 m2 m4
  have hb' : (u.claim c).block = some b := by rw [m1]; exact hb
  have hg' : (u.claim c).gen = some g := by rw [m1]; exact hg
  rw [hb', hg']
  dsimp only
  rw [if_pos (by rw [m4]; exact h), State.sendHome_own_block u c _ b hb' (by rw [m4]; exact h)]
  refine ⟨fun hk => ?_, fun hk => ?_⟩
  · refine ((State.finishGive_sent (u.pushMail (.toDirectory (.returned b g kept 0))) c).1 (show (u.claim c).state ≠ .demoting by
      rw [m1, hk]; exact fun e => nomatch e)).trans ?_
    exact (m2.disown c).pushMail _
  · refine ((State.finishGive_sent (u.pushMail (.toDirectory (.returned b g kept 0))) c).2 (show (u.claim c).state = .demoting by
      rw [m1, hk]; rfl)).trans ?_
    exact m2.pushMail _

/-- An upgrading claim drops its copy, keeps its request, and its item says so. -/
theorem State.dropCopy_spec (b : Block) (g : Byte) (hb : (s.claim c).block = some b) (hg : (s.claim c).gen = some g) :
    (s.dropCopy c).claim c = { s.claim c with held := none } ∧ (s.dropCopy c).SentAs (s.sendHome c (.dropped b g)) ∧
      ∃ i ∈ (s.dropCopy c).attention, i.subject = .claim c ∧
        i.notice = .claim .copyDropped (s.claim c).use (s.claim c).block := by
  unfold State.dropCopy
  dsimp only
  rw [hb, hg]
  dsimp only
  refine ⟨?_, ?_, ?_⟩
  · rw [State.claimNotice_claim, State.sendHome_claim, State.claim_modClaim]
    congr 1
  · refine (State.notice_sent _ _ _).trans ?_
    exact (s.modClaim_sent c _).sendHome rfl rfl c _ (by rw [State.claim_modClaim]) (by rw [State.claim_modClaim])
  · unfold State.claimNotice State.notice
    split
    · rename_i hany
      rw [List.any_eq_true] at hany
      obtain ⟨i, hi, he⟩ := hany
      refine ⟨_, List.mem_map.2 ⟨i, hi, rfl⟩, ?_⟩
      rw [if_pos (by simpa using he)]
      exact ⟨rfl, by rw [hb]⟩
    · exact ⟨_, List.mem_append.2 (Or.inr (List.mem_singleton.2 rfl)), rfl, by rw [hb]⟩

/-! ### Records -/

variable {s c}

theorem State.SentAs.foldl {α : Type} (l : List α) (f : State → α → State) {x u : State} (h : x.SentAs u)
    (hp : x.port = u.port) (ho : x.own = u.own)
    (step : ∀ a b e, a.SentAs b → a.port = b.port → a.own = b.own →
      (f a e).SentAs (f b e) ∧ (f a e).port = (f b e).port ∧ (f a e).own = (f b e).own) :
    (l.foldl f x).SentAs (l.foldl f u) := by
  induction l generalizing x u with
  | nil => exact h
  | cons e l ih =>
    obtain ⟨h1, h2, h3⟩ := step x u e h hp ho
    exact ih h1 h2 h3

variable (s : State) (n : Byte)

theorem State.sendRecalls_sent (r : DirRecord) (k : Recall) (h : s.record? n = some r) (hk : r.recalling = some k) :
    s.sendRecalls n = s.recallsTo n k.kind (r.copiesOf k.kind k.awaiting) := by
  have e : r.recallTargets = r.copiesOf k.kind k.awaiting := by
    unfold DirRecord.recallTargets DirRecord.copiesOf
    rw [hk]
    dsimp only
    cases k.kind <;> dsimp only <;> cases r.holder with
    | none => rfl
    | some d =>
      dsimp only
      by_cases hd : k.awaiting.contains d.station = true
      · rw [if_pos hd]; unfold Option.toList List.map List.filter; dsimp only; rw [hd]; rfl
      · rw [if_neg hd]; unfold Option.toList List.map List.filter; dsimp only; rw [Bool.eq_false_iff.2 hd]; rfl
  have b : ∀ (l : List Reader) (u : State), u.own = s.own →
      l.foldl (fun t d => t.dirSend d.station (.recallCopy (t.ownBlock n) d.gen k.kind)) u =
        l.foldl (fun t d => t.dirSend d.station (.recallCopy (s.ownBlock n) d.gen k.kind)) u := by
    intro l
    induction l with
    | nil => exact fun _ _ => rfl
    | cons d l ih =>
      intro u hu
      rw [List.foldl_cons, List.foldl_cons]
      have : u.ownBlock n = s.ownBlock n := by unfold State.ownBlock; rw [hu]
      rw [this]
      exact ih _ (by rw [State.dirSend_own, hu])
  unfold State.sendRecalls State.recallsTo
  rw [h]
  dsimp only
  rw [hk]
  dsimp only
  rw [e]
  exact b _ s rfl

theorem State.recallsTo_congr {x u : State} (h : x.SentAs u) (hp : x.port = u.port) (ho : x.own = u.own) (n : Byte)
    (k : RecallKind) (l : List Reader) : (x.recallsTo n k l).SentAs (u.recallsTo n k l) := by
  have hb : x.ownBlock n = u.ownBlock n := by unfold State.ownBlock; rw [ho]
  unfold State.recallsTo
  rw [hb]
  refine State.SentAs.foldl l _ h hp ho ?_
  intro a b e h1 h2 h3
  exact ⟨h1.dirSend h2 h3 _ _, by simp [h2], by simp [h3]⟩

/-- A recall that begins hands over one RECALL to each station awaited. -/
theorem State.beginRecall_sent (kind : RecallKind) (a : List Station) (r : DirRecord) (h : s.record? n = some r) :
    (s.beginRecall n kind a).SentAs (s.recallsTo n kind (r.copiesOf kind a)) := by
  unfold State.beginRecall
  dsimp only
  generalize hf : (fun r : DirRecord => { r with
    recalling := some { kind := kind, awaiting := a, sends := 1, timer := s.startPausable } }) = f
  have h1 : (s.modRecord n f).record? n = some (f r) := by rw [State.record?_modRecord, h]; rfl
  have h2 : (s.modRecord n f).SentAs s := by unfold State.modRecord; rw [h]; exact ⟨rfl, rfl, rfl, rfl⟩
  have h3 := (RecordOnly.modRecord s n f).port
  have h4 : (s.modRecord n f).own = s.own := by unfold State.modRecord; rw [h]; rfl
  rw [State.sendRecalls_sent _ n (f r) { kind := kind, awaiting := a, sends := 1, timer := s.startPausable } h1 (by subst hf; rfl)]
  subst hf
  exact State.recallsTo_congr h2 h3 h4 n kind _

theorem State.denials_congr {x u : State} (h : x.SentAs u) (hp : x.port = u.port) (ho : x.own = u.own) (n : Byte)
    (reason : DenyReason) (l : List Request) : (x.denials n reason l).SentAs (u.denials n reason l) := by
  have hb : x.ownBlock n = u.ownBlock n := by unfold State.ownBlock; rw [ho]
  unfold State.denials
  rw [hb]
  refine State.SentAs.foldl l _ h hp ho ?_
  intro a b e h1 h2 h3
  exact ⟨h1.dirSend h2 h3 _ _, by simp [h2], by simp [h3]⟩

/-- Denials name the block, which no denial changes. -/
theorem State.foldl_deny (reason : DenyReason) (l : List Request) :
    l.foldl (fun t q => t.dirSend q.station (.deny (t.ownBlock n) reason q.tag)) s = s.denials n reason l := by
  have b : ∀ (l : List Request) (u : State), u.own = s.own →
      l.foldl (fun t q => t.dirSend q.station (.deny (t.ownBlock n) reason q.tag)) u =
        l.foldl (fun t q => t.dirSend q.station (.deny (s.ownBlock n) reason q.tag)) u := by
    intro l
    induction l with
    | nil => exact fun _ _ => rfl
    | cons d l ih =>
      intro u hu
      rw [List.foldl_cons, List.foldl_cons]
      have : u.ownBlock n = s.ownBlock n := by unfold State.ownBlock; rw [hu]
      rw [this]
      exact ih _ (by rw [State.dirSend_own, hu])
  exact b l s rfl

/-- The queue of a record that becomes DAMAGED is denied so. -/
theorem State.damage_sent (r : DirRecord) (h : s.record? n = some r) :
    (s.damage n).SentAs (s.denials n .damaged r.queue) := by
  unfold State.damage
  rw [h]
  dsimp only
  rw [State.foldl_deny]
  refine State.denials_congr (u := s) ?_ ?_ ?_ n .damaged r.queue
  · exact ⟨rfl, rfl, rfl, rfl⟩
  · rfl
  · rfl

/-! ### A record served -/

/-- Only record `n` and what is sent have changed before its head is served. -/
theorem State.servedAs_of {u y : State} {n : Byte} {r : DirRecord} {sent : State} (h1 : y.record? n = some r)
    (h2 : RecordOnly u y n) (h3 : y.SentAs sent) :
    u.ServedAs (y.serve n) n r sent := ⟨y, rfl, h1, h2.other, h3, h2.claims, h2.outside⟩

/-- A change of one record sends nothing. -/
theorem State.modRecord_sent (s : State) (n : Byte) (f : DirRecord → DirRecord) : (s.modRecord n f).SentAs s := by
  unfold State.modRecord
  split <;> exact ⟨rfl, rfl, rfl, rfl⟩

theorem State.endTransfer_sent (s : State) (n : Byte) : (s.endTransfer n).SentAs s := State.modRecord_sent s n _

/-- The end of a recall changes the transfer and recall parts alone. -/
theorem DirRecord.overIfDone_keeps (r : DirRecord) :
    r.overIfDone.gen = r.gen ∧ r.overIfDone.holder = r.holder ∧ r.overIfDone.readers = r.readers ∧
      r.overIfDone.queue = r.queue ∧ r.overIfDone.lost = r.lost ∧ ∀ k ∈ r.overIfDone.recalling, r.recalling = some k := by
  unfold DirRecord.overIfDone
  split
  · exact ⟨rfl, rfl, rfl, rfl, rfl, fun _ h => nomatch h⟩
  · exact ⟨rfl, rfl, rfl, rfl, rfl, fun _ h => h⟩

/-- A record that settles has neither transfer nor recall, and its head is served (R21). -/
theorem State.settle_servedAs {u s : State} {n : Byte} {r : DirRecord} {sent : State} (h : s.record? n = some r)
    (h2 : RecordOnly u s n) (h3 : s.SentAs sent) :
    u.ServedAs (s.settle n) n { r with transfer := none, recalling := none } sent := by
  unfold State.settle
  refine State.servedAs_of ?_ (h2.trans ((RecordOnly.endTransfer s n).trans (RecordOnly.modRecord _ n _)))
    ((State.modRecord_sent _ n _).trans ((State.endTransfer_sent s n).trans h3))
  rw [State.record?_modRecord, State.record?_endTransfer s n r h]
  rfl

/-- After an answer a recall that awaits nobody is over, and the head is served (R21, R32). -/
theorem State.afterAnswer_servedAs {u s : State} {n : Byte} {r : DirRecord} {sent : State} (h : s.record? n = some r)
    (h2 : RecordOnly u s n) (h3 : s.SentAs sent) : u.ServedAs (s.afterAnswer n) n r.overIfDone sent := by
  unfold State.afterAnswer DirRecord.overIfDone
  rw [h]
  dsimp only
  unfold DirRecord.recallOver
  split
  · exact State.settle_servedAs h h2 h3
  · exact State.servedAs_of h h2 h3

/-- What the holder's RETURNED does once no write is outstanding (R29). -/
theorem State.handleReturned_spec {u s : State} {n : Byte} {r : DirRecord} {d : Holder} {sent : State} (kept : Bool)
    (count : Fin 33) (h : s.record? n = some r) (hd : r.holder = some d) (h2 : RecordOnly u s n) (h3 : s.SentAs sent) :
    (count.val = d.returned.length → u.ServedAs (s.handleReturned n kept count) n
      (DirRecord.overIfDone { r with
        holder := none, readers := if kept then [{ station := d.station, gen := d.gen }] else r.readers,
        recalling := r.recalling.map fun k => { k with awaiting := k.awaiting.filter (· != d.station) } }) sent) ∧
    (count.val ≠ d.returned.length → s.handleReturned n kept count = s.damage n) := by
  unfold State.handleReturned
  rw [h]
  dsimp only
  rw [hd]
  dsimp only
  refine ⟨fun e => ?_, fun e => if_neg e⟩
  rw [if_pos e]
  exact State.afterAnswer_servedAs (State.record?_setRecord_same _ _ _ _ h) (h2.trans (RecordOnly.setRecord _ _ _)) h3

/-- What the lost holder's RETURNED does once no write is outstanding (R35). -/
theorem State.handleLostReturned_spec {u s : State} {n : Byte} {r : DirRecord} {d : Holder} {sent : State} (kept : Bool)
    (count : Fin 33) (h : s.record? n = some r) (hd : r.lost = some d) (h2 : RecordOnly u s n) (h3 : s.SentAs sent) :
    (count.val = d.returned.length → u.ServedAs (s.handleLostReturned n kept count) n
      (DirRecord.overIfDone { r with
        lost := none, readers := if kept then [{ station := d.station, gen := d.gen }] else r.readers }) sent) ∧
    (count.val ≠ d.returned.length →
      s.handleLostReturned n kept count = s.setRecord n { r with lost := some { d with held := none } }) := by
  unfold State.handleLostReturned
  rw [h]
  dsimp only
  rw [hd]
  dsimp only
  refine ⟨fun e => ?_, fun e => if_neg e⟩
  rw [if_pos e]
  exact State.afterAnswer_servedAs (State.record?_setRecord_same _ _ _ _ h) (h2.trans (RecordOnly.setRecord _ _ _)) h3

/-- A holder whose GRANT has failed is removed without damage, and the head is served (R32, R81). -/
theorem State.loseCopy_granted {s : State} {p : Station} {frames : List FailedFrame} {n : Byte} {r : DirRecord} {d : Holder}
    (h : s.record? n = some r) (hd : r.holder = some d) (hp : d.station = p)
    (hf : grantFailed frames (s.ownBlock n) d.gen = true) :
    s.ServedAs (s.loseCopy p false frames n) n (DirRecord.overIfDone { r with
      holder := none, recalling := r.recalling.map fun k => { k with awaiting := k.awaiting.filter (· != p) } }) s := by
  unfold State.loseCopy
  rw [h]
  dsimp only
  have e1 : r.holderIs p = true := by unfold DirRecord.holderIs; rw [hd]; simp [hp]
  rw [if_pos e1, if_pos (by rw [hd]; exact hf)]
  refine State.afterAnswer_servedAs ?_ (RecordOnly.modRecord s n _) (State.modRecord_sent s n _)
  rw [State.record?_modRecord, h]
  rfl

/-- Any other record that the lost station holds becomes DAMAGED (R38, step 4). -/
theorem State.loseCopy_damaged {s : State} {p : Station} {purge : Bool} {frames : List FailedFrame} {n : Byte} {r : DirRecord}
    {d : Holder} (h : s.record? n = some r) (hd : r.holder = some d) (hp : d.station = p)
    (hf : purge = true ∨ grantFailed frames (s.ownBlock n) d.gen = false) : s.loseCopy p purge frames n = s.damage n := by
  unfold State.loseCopy
  rw [h]
  dsimp only
  have e1 : r.holderIs p = true := by unfold DirRecord.holderIs; rw [hd]; simp [hp]
  rw [if_pos e1, if_neg]
  rw [hd]
  rcases hf with hf | hf
  · rw [hf]; simp
  · simp [hf]

end Sys2Proof.Machine
end

