-- ==== Sys2Proof/Tests/Slice0.lean ====
section
/-! SUPPORT. Small tests on fixed values: the operand checks, the codes and bytes the spec writes out, and, for the hypotheses of
every statement, a concrete state that meets them. -/

namespace Sys2Proof.Tests

open Sys2Proof.Machine

-- one test at a time: a waiting kernel check holds a thread each, and their stacks fill the memory limit
set_option Elab.async false

/-! ### Small states -/

/-- The next state, if there is one. -/
def next? (o : Host.Outcome State Fault Refusal) : Option State :=
  match o with
  | .next s => some s
  | _ => none

/-- A command record from its four words. -/
def words (a b c d : Nat) : CommandRecord := #v[BitVec.ofNat 32 a, BitVec.ofNat 32 b, BitVec.ofNat 32 c, BitVec.ofNat 32 d]

/-- The command `a` with arguments `b`, `c`, `d`, as number 0. -/
def queued (a b c d : Nat) : Queued := { record := words a b c d, seq := 0 }

/-- The state with that command alone in the queue. -/
def withCommand (s : State) (a b c d : Nat) : State := { s with cmdq := [queued a b c d] }

/-- Station 4 with incarnation 1, two home and two borrow frames, hold period 10, recall limit 5, wait limit 50 and retry
delay 10, as spec 11 sets them. -/
def configured : State := { State.reset with startRec := #v[4, 1, 2, 2, 10, 5, 50, 10] }

/-- The same station ATTACHED. -/
def attached : State :=
  { configured with
    station := .attached, port := .active, homeCount := 2, borrowCount := 2, records := [.initial, .initial],
    borrow := [none, none] }

/-- A block of station 9. -/
def farBlock : Block := { home := 9, index := 17 }

/-- A block of this station. -/
def ownBlock : Block := { home := 4, index := 1 }

/-- The tag of claim 0's use 3. -/
def tag0 : Tag := { claim := 0, use := 3 }

/-- Claim 0 in use 3 on a block, in borrow frame 2. -/
def claimOn (b : Block) : Claim :=
  { Claim.free 3 with block := some b, frame := some 2, gen := some 7 }

def askingOn (b : Block) : Claim :=
  { claimOn b with
    state := .asking, sought := some .exclusive, askStanding := true, wait := .start, reask := .start,
    pendingCmd := some { seq := 5, code := 5, tag := 0 } }

def heldOn (b : Block) (m : Mode) : Claim := { claimOn b with state := .held, held := some m }

def fillingOn (b : Block) : Claim :=
  { claimOn b with state := .filling, sought := some .shared, pendingCmd := some { seq := 5, code := 5, tag := 0 } }

/-- The state with claim 0 as given. -/
def withClaim (s : State) (cl : Claim) : State := s.setClaim 0 cl

/-- The state with record 1 as given. -/
def withRecord (s : State) (r : DirRecord) : State := s.setRecord 1 r

def holder9 : Holder := { station := 9, gen := 3, returned := [], writes := 0, held := none }

def lent : DirRecord := { DirRecord.initial with gen := 3, holder := some holder9 }

def sharedBy9 : DirRecord := { DirRecord.initial with gen := 3, readers := [{ station := 9, gen := 3 }] }

def ask9 (m : Mode) : Request := { station := 9, mode := m, tag := tag0 }

/-- The state with a frame carrying `m` from station 9, incarnation 2, at the head of the receive queue. -/
def withFrame (s : State) (m : Lease) : State :=
  { s with rx := [{ frame := { encodeLease 9 2 4 m [] with resp := 0 }, buf := none }] }

/-- The same with a payload buffer, for a CHUNK. -/
def withChunk (s : State) (m : Lease) : State :=
  { s with rx := [{ frame := { encodeLease 9 2 4 m [] with resp := 0 }, buf := some 0 }] }

/-- An entry CIRCULATING to station 9. -/
def flying (m : Lease) (o : Owner) : TxEntry :=
  { TxEntry.fresh 9 m o none .circulating with returnTimer := .start }

/-- The returned copy of an entry's frame, with its response. -/
def copyOf (s : State) (e : TxEntry) (resp : Byte) : List Byte := ({ s.entryFrame e with hop := 3, resp := resp }).bytes

/-- The window with entry 0 as given. -/
def withEntry (s : State) (m : Option (Target × Limit)) : State := s.setEntry 0 { mapping := m, fault := none }

/-- A waiting access to frame 5, granted. -/
def granted (owner : Option (ClaimIdx × UseNum)) (data : Option Word) : Access :=
  { frame := 2, owner := owner, word := 2047, lbe := 0b1000, data := data }

def withAccess (s : State) (a : Access) : State := { s with access := some a, arbPort := some .window }

/-- A granted chunk move. -/
def withMove (s : State) (m : Move) : State := { s with moves := [m], arbPort := some .ring }

/-- The conditions of `State.Handing` as one test. -/
def hands (s : State) (p : Station) (m : Lease) : Bool :=
  match s.handable with
  | some e => !s.probeOutstanding && sourceOf s.own e.frame.src == some p && e.frame.kind == m.kindCode
      && decodeLease e.frame == some m
  | none => false

theorem hands_spec (s : State) (p : Station) (m : Lease) (h : hands s p m = true) : ∃ e, s.Handing e p m := by
  unfold hands at h
  split at h
  · rename_i e he
    simp only [Bool.and_eq_true, beq_iff_eq, Bool.not_eq_true'] at h
    exact ⟨e, he, h.1.1.1, h.1.1.2, h.1.2, h.2⟩
  · cases h

/-! ### Operand checks: an ill-formed term for each -/

theorem test_wellFormed_refuses_writes_without_bytes :
    (Instr.post 0).wellFormed = false ∧ (Instr.pop 0).wellFormed = false ∧ (Instr.ack 5 0).wellFormed = false ∧
      (Instr.resetControl 1 0).wellFormed = false ∧ (Instr.intEnable 3 0).wellFormed = false ∧
      (Instr.cmdStage 2 9 0).wellFormed = false ∧ (Instr.startRecordWrite 7 1 0).wellFormed = false := by decide

theorem test_wellFormed_refuses_ignored_write_of_a_register :
    (Instr.registerWriteIgnored 4 0 1).wellFormed = false ∧ (Instr.registerWriteIgnored 34 1 15).wellFormed = false ∧
      (Instr.registerWriteIgnored 5 0 1).wellFormed = true ∧ (Instr.registerWriteIgnored 4 0 0).wellFormed = true := by
  decide

/-! ### Codes and bytes the spec writes out -/

/-- The check value of the generator over "123456789" with the register preset to ones (R93). -/
theorem test_crc_check_value :
    crc16 [0x31, 0x32, 0x33, 0x34, 0x35, 0x36, 0x37, 0x38, 0x39] = 0x29B1#16 := by decide +kernel

/-- Spec 10, 10.1: claim 20 at use 9 has tag 329; its DENY(FULL) carries 129 and 73. -/
theorem test_deny_arguments :
    ({ claim := 20, use := 9 } : Tag).toNat = 329 ∧
      (Lease.deny farBlock .full { claim := 20, use := 9 }).arg1 = 129 ∧
      (Lease.deny farBlock .full { claim := 20, use := 9 }).arg2 = 73 ∧ Tag.ofParts true 73 = { claim := 20, use := 9 } := by
  decide

/-- Spec 10, 10.1, the example: a GRANT from station 2 to station 11. -/
theorem test_grant_frame :
    (encodeLease 2 4 11 (.grant { home := 2, index := 30 } 11 .exclusive true { claim := 0, use := 6 }) []).body =
      [11, 2, 5, 0, 0, 4, 2, 30, 11, 2, 6, 0] := by decide

/-- A frame reads back; a frame with one bit changed is not intact. -/
theorem test_frame_reads_back :
    let f := encodeLease 2 4 11 (.grant { home := 2, index := 30 } 11 .exclusive true { claim := 0, use := 6 }) []
    parseFrame f.bytes = some f ∧
      decodeLease f = some (.grant { home := 2, index := 30 } 11 .exclusive true { claim := 0, use := 6 }) ∧
      intact (f.bytes.set 3 1) = false := by decide +kernel

/-- Spec 10, 10.1: the values that fail validation. -/
theorem test_validation_refuses :
    grantOfCode 5 = none ∧ grantOfCode 0 = none ∧ grantOfCode 3 = none ∧ grantOfCode 9 = none ∧
      decodeLease { encodeLease 9 2 4 (.withdraw farBlock tag0) [] with arg1 := 1 } = none ∧
      decodeLease { encodeLease 9 2 4 (.returned farBlock 3 false 32) [] with arg2 := 33 } = none ∧
      decodeLease { encodeLease 9 2 4 (.notHeld farBlock 3) [] with home := 16 } = none ∧
      decodeLease { encodeLease 9 2 4 (.notHeld farBlock 3) [] with len := 1 } = none := by decide

/-- Spec 11, the example "station 4 comes up": STRAPS for F = 256, and the head of START's completion. -/
theorem test_register_words :
    ({ State.reset with straps := 2 } : State).strapsWord = 0x01000002#32 ∧
      (Completion.plain { seq := 0, code := 1, tag := 1 } .ok none none none).word0 = 0x00FC0100#32 ∧
      (Completion.plain { seq := 0, code := 1, tag := 1 } .ok none none none).headWord1 = 0x00000001#32 ∧
      (Item.mk (.peer 2) (.peer .present (some 1)) false).word0 = 0x342#32 ∧ attached.stationStatusWord = 0x12#32 ∧
      ({ State.reset with prevInc := some 1 } : State).prevIncWord = 0x101#32 := by decide

/-- The registers that read as EMPTY after reset (R193, R195), and what a read shows while RST# is held (R198). -/
theorem test_registers_after_reset :
    State.reset.readRegister 8 = 0x3E000#32 ∧ State.reset.readRegister 16 = 0xFF#32 ∧ State.reset.readRegister 22 = 0 ∧
      ({ State.reset with rstHeld := true } : State).readRegister 16 = allOnes := by decide

/-! ### The hypotheses of the statements: the machine and the resets -/

theorem witness_StepRunsFrontCommand :
    let s : State := { State.reset with pending := [.handoverAccept, .forwardSend true] }
    s.pending = .handoverAccept :: [.forwardSend true] ∧ next? (step s) = some { s with pending := [.forwardSend true] } := by
  decide +kernel

theorem witness_EmptyQueueStepCountsOneMicrosecond :
    State.reset.pending = [] ∧ next? (step State.reset) = some State.reset := by decide +kernel

theorem witness_EveryStepKeepsSoundness : attached.Sound ∧ next? (step attached) = some attached :=
  ⟨{ memory := rfl, queues := by unfold State.QueuesFit; decide, commands := by unfold State.Reserved; decide +kernel,
     moves := by decide, items := by unfold State.ItemsDistinct; decide,
     faults := by unfold State.FaultsListed; decide +kernel,
     outgoing :=
      { reads := .nil, reserved := fun b hb => (nomatch hb), entries := .nil, reading := fun e he => (nomatch he),
        filled := fun e he => (nomatch he) },
     inbound := { distinct := .nil, occupied := fun b hb => (nomatch hb) } }, by decide +kernel⟩

theorem witness_MemoryAndRegistersChangeByTheirCommandsAlone :
    next? (exec (.forwardSend true) State.reset) = some State.reset ∧
      next? (exec (.cmdStage 0 7 1) State.reset) ≠ some State.reset ∧
      next? (exec (.intEnable 3 1) State.reset) ≠ some State.reset := by decide +kernel

theorem witness_StationResetRestoresBlocks :
    State.reset.resetRequested = false ∧ ({ State.reset with resetRequested := true } : State).resetRequested = true ∧
      (next? (exec (.stationReset .control 3) { attached with resetRequested := true })).any (fun t =>
        t.station == .unconfigured && t.straps == 3 && t.frames == 512) = true := by decide +kernel

/-- The last byte within reach of 64 frames. -/
theorem witness_StationResetKeepsMemory :
    attached.arbPort = none ∧ (next? (exec (.stationReset .pin 0) attached)).isSome = true ∧
      524287 < attached.frames * Config.frameBytes ∧ ¬ 524288 < attached.frames * Config.frameBytes := by decide +kernel

theorem witness_InterruptedChunkWriteLeavesOldOrNewBytes :
    let s := withMove { State.reset with inBuf := #v[some (List.replicate 256 5), none, none, none] }
      (.write 0 63 31 (.home 1 9 3) true)
    s.arbPort = some .ring ∧ s.moves = [.write 0 63 31 (.home 1 9 3) true] ∧
      s.inBuf.get 0 = some (List.replicate 256 5) ∧ (List.replicate 256 (5 : Byte)).length = Config.chunkBytes := by
  decide +kernel

theorem witness_RstReleaseSamplesStraps :
    let s : State := { State.reset with rstHeld := true }
    s.rstHeld = true ∧ State.reset.rstHeld = false ∧
      ([0, 1, 2, 3].map fun f => (next? (exec (.rstReleased f) s)).map State.frames) =
        [some 64, some 128, some 256, some 512] := by decide +kernel

/-! ### Register writes -/

/-- A post into the last place, into a full queue, and with the reservation full. -/
theorem witness_PostAppendsStagedRecord :
    let s : State := { State.reset with cmdq := List.replicate 15 (queued 2 0 0 0), inFlight := 16 }
    let full : State := { State.reset with cmdq := List.replicate 16 (queued 2 0 0 0), inFlight := 16 }
    s.rstHeld = false ∧ (1 : BitVec 4) ≠ 0 ∧ s.cmdq.length < 16 ∧ s.reservationOpen = false ∧ 16 ≤ full.cmdq.length ∧
      (next? (exec (.post 1) s)).map (·.postResult) = some (.accepted 0) ∧
      (next? (exec (.post 8) full)).map (·.postResult) = some .queueFull := by decide +kernel

theorem witness_PopRemovesHeadCompletion :
    let s : State := { State.reset with inFlight := 16 }
    s.rstHeld = false ∧ s.cmdq = [] ∧ s.reservationOpen = false := by decide +kernel

/-- An empty list, an ENTRY item that matches, one that does not, and a STATION item. -/
theorem witness_AckRemovesOnlyTheMatchingHead :
    let f : FaultRecord := { kind := .unmapped, offset := 0, write := false, width := 4 }
    let i : Item := { subject := .entry 31, notice := .entry f, replaced := false }
    let s : State := { State.reset with attention := [i] }
    let u : State := { s with attention := [{ i with subject := .station }] }
    State.reset.attention = [] ∧ s.attention = [i] ∧ i.subject.code = ((31 : Word).extractLsb' 0 8).toNat ∧
      i.subject.code ≠ ((30 : Word).extractLsb' 0 8).toNat ∧ Subject.station.code = ((80 : Word).extractLsb' 0 8).toNat ∧
      (next? (exec (.ack 31 1) s)).map (·.attention) = some [] ∧
      (next? (exec (.ack 30 1) s)).map (·.attention) = some [i] ∧
      (next? (exec (.ack 80 1) u)).map (·.attention) = some [] := by decide +kernel

theorem witness_ControlWritesSetTheirBits :
    State.reset.rstHeld = false ∧ (2 : BitVec 4).getLsbD 0 = false ∧ (1 : BitVec 4).getLsbD 0 = true ∧
      (1 : Word).getLsbD 0 = true ∧ (2 : Word).getLsbD 0 = false := by decide

theorem witness_FieldWritesReplaceEnabledBytes :
    State.reset.rstHeld = false ∧ State.reset.station = .unconfigured ∧ attached.station ≠ .unconfigured ∧
      (next? (exec (.cmdStage 3 0x11223344 0b0101) State.reset)).map (fun t => t.staging.get 3) = some 0x00220044 ∧
      (next? (exec (.startRecordWrite 7 0xAABBCCDD 0b1110) State.reset)).map (fun t => t.startRec.get 7) = some 0xCC00 := by
  decide +kernel

theorem witness_IgnoredRegisterWritesChangeNothing :
    ({ State.reset with rstHeld := true } : State).rstHeld = true ∧
      next? (exec (.cmdStage 0 5 0) State.reset) = some State.reset := by decide +kernel

/-! ### Commands of the queue -/

theorem witness_UnconfiguredCommandsCompleteNotStarted :
    (withCommand State.reset 2 0 0 0).takeable = some (queued 2 0 0 0) ∧ State.reset.station = .unconfigured ∧
      ([2, 3, 4, 5, 6, 7, 8, 9, 10, 11].all fun k => isCode k (words k 0 0 0)) = true ∧
      isInspectBlock (words 12 1 0 0) = true ∧ isInspectClaim (words 12 2 0 0) = true := by decide +kernel

theorem witness_UnknownCodeCompletesBadArgument :
    (withCommand State.reset 31 0 0 0).takeable = some (queued 31 0 0 0) ∧ isUnknown (words 31 0 0 0) = true ∧
      isUnknown (words 0 0 0 0) = true ∧ isUnknown (words 13 0 0 0) = true ∧ isUnknown (words 12 0 0 0) = false := by
  decide +kernel

/-- The limits of each range: a record at them passes, and one past each is named by its order number. -/
theorem witness_StartChecksAreTheTableOfRanges :
    ({ State.reset with straps := 3, startRec := #v[15, 255, 256, 64, 255, 26, 255, 255] } : State).startFailure = none ∧
      ([#v[16, 1, 0, 0, 0, 1, 0, 1], #v[0, 256, 0, 0, 0, 1, 0, 1], #v[0, 1, 65, 0, 0, 1, 0, 1], #v[0, 1, 1, 64, 0, 1, 0, 1],
        #v[0, 1, 0, 0, 256, 255, 0, 1], #v[0, 1, 0, 0, 10, 1, 0, 1], #v[0, 1, 0, 0, 0, 1, 256, 1],
        #v[0, 1, 0, 0, 0, 1, 0, 0]].map fun r => ({ State.reset with startRec := r } : State).startFailure) =
        [some 1, some 2, some 3, some 4, some 5, some 6, some 7, some 8] ∧
      ({ configured with prevInc := some 1 } : State).startFailure = some 2 := by decide +kernel

theorem witness_StartTakesEffect :
    let s := withCommand configured 1 0 0 0
    s.takeable = some (queued 1 0 0 0) ∧ isCode 1 (words 1 0 0 0) = true ∧ s.station = .unconfigured ∧
      s.startFailure = none ∧ s.txq = [] ∧ s.handover = [] ∧ (withCommand State.reset 1 0 0 0).startFailure = some 2 ∧
      (withCommand attached 1 0 0 0).station ≠ .unconfigured ∧
      (next? (exec .start s)).map (fun t => (t.station, t.port, t.records.length)) = some (.joining, .active, 2) := by
  decide +kernel

theorem witness_AttachEntersJoining :
    let s : State := { withCommand attached 2 0 0 0 with station := .detached, port := .bypass }
    s.takeable = some (queued 2 0 0 0) ∧ isCode 2 (words 2 0 0 0) = true ∧ s.station = .detached ∧ s.txq = [] ∧
      s.handover = [] ∧ (withCommand attached 2 0 0 0).station ≠ .detached := by decide +kernel

theorem witness_DetachEntersDetaching :
    let s := withCommand attached 3 0 0 0
    s.takeable = some (queued 3 0 0 0) ∧ isCode 3 (words 3 0 0 0) = true ∧ s.station = .attached ∧ s.port ≠ .stalled ∧
      ({ s with port := .stalled } : State).port = .stalled ∧
      (next? (exec .detach { s with station := .unconfigured })).map (fun t => t.cplq.map (·.status)) =
        some [.notStarted] ∧
      (next? (exec .detach { s with station := .joining })).map (fun t => t.cplq.map (·.status)) = some [.badState] ∧
      (next? (exec .detach s)).map (·.station) = some .detached := by decide +kernel

theorem witness_ResumeRestartsStalledPort :
    let s : State := { withCommand attached 4 0 0 0 with port := .stalled }
    s.takeable = some (queued 4 0 0 0) ∧ isCode 4 (words 4 0 0 0) = true ∧ s.port = .stalled ∧ attached.port ≠ .stalled := by
  decide +kernel

/-- Each check of ACQUIRE fails somewhere, in its order. -/
theorem witness_AcquireChecksInOrder :
    let taken := withClaim attached (heldOn farBlock .shared)
    let full : State := { attached with claims := Vector.replicate 32 (heldOn ownBlock .shared) }
    argStation 16 = none ∧ argBlockIndex 256 = none ∧ argMode 3 = none ∧ argMode 0 = none ∧
      argStation 15 = some 15 ∧ argBlockIndex 255 = some 255 ∧
      ({ attached with station := .detaching } : State).station ≠ .attached ∧ attached.homeCount ≤ (2 : Byte).toNat ∧
      taken.blockClaimed farBlock = true ∧ attached.blockClaimed farBlock = false ∧ full.freeClaim = none ∧
      full.blockClaimed farBlock = false ∧ ({ attached with borrow := [] } : State).freeBorrowPlace = none := by
  decide +kernel

theorem witness_AcquireTakesClaimAndAsks :
    let s := withCommand attached 5 9 17 2
    s.takeable = some (queued 5 9 17 2) ∧ isCode 5 (words 5 9 17 2) = true ∧ argStation 9 = some 9 ∧
      argBlockIndex 17 = some 17 ∧ argMode 2 = some .exclusive ∧ s.blockClaimed farBlock = false ∧
      s.freeClaim = some 0 ∧ s.station = .attached ∧ s.freeBorrowPlace = some 0 ∧ s.port ≠ .bypass ∧ s.handover = [] ∧
      s.canAccept 9 = true ∧ (next? (exec .acquire s)).map (fun t => (t.claim 0).state) = some .asking ∧
      (next? (exec .acquire (withCommand attached 5 4 1 2))).map (fun t => (t.claim 0).state) = some .held := by
  decide +kernel

theorem witness_UpgradeAsksForExclusive :
    let s := withClaim (withCommand attached 6 0 0 0) (heldOn farBlock .shared)
    s.takeable = some (queued 6 0 0 0) ∧ isCode 6 (words 6 0 0 0) = true ∧ argIndex32 0 = some 0 ∧ argIndex32 32 = none ∧
      (s.claim 0).state = .held ∧ (s.claim 0).held = some .shared ∧ (s.claim 0).homedAt s.own = false ∧
      (s.claim 1).state ≠ .held ∧ (withClaim attached (heldOn ownBlock .shared) |>.claim 0).homedAt 4 = true := by
  decide +kernel

theorem witness_ReleaseGivesTheCopyUp :
    let s := withClaim (withCommand attached 7 0 0 0) (heldOn farBlock .exclusive)
    let u := withClaim (withCommand attached 7 0 0 0) (heldOn ownBlock .shared)
    s.takeable = some (queued 7 0 0 0) ∧ isCode 7 (words 7 0 0 0) = true ∧ (s.claim 0).state = .held ∧
      (s.claim 0).block = some farBlock ∧ (s.claim 0).gen = some 7 ∧ (s.claim 0).held = some .exclusive ∧
      (u.claim 0).block = some ownBlock ∧ ownBlock.home = u.own ∧
      (next? (exec .release s)).map (fun t => (t.claim 0).state) = some .returning ∧
      (next? (exec .release u)).map (fun t => (t.claim 0).state) = some .free := by decide +kernel

theorem witness_CancelActsByClaimState :
    let s := withClaim (withCommand attached 8 0 0 0) (askingOn farBlock)
    let u := withClaim s { askingOn farBlock with askStanding := false }
    s.takeable = some (queued 8 0 0 0) ∧ isCode 8 (words 8 0 0 0) = true ∧ (s.claim 0).state = .asking ∧
      (s.claim 0).askStanding = true ∧ (u.claim 0).askStanding = false ∧ (u.claim 0).held = none ∧
      (withClaim s { askingOn farBlock with held := some .shared } |>.claim 0).held ≠ none ∧
      (withClaim s (fillingOn farBlock) |>.claim 0).state = .filling ∧ (s.claim 1).state ≠ .asking ∧
      (next? (exec .cancel s)).map (fun t => (t.claim 0).state) = some .withdrawing ∧
      (next? (exec .cancel u)).map (fun t => (t.claim 0).state) = some .free := by decide +kernel

/-- The first and the last private-frame number, and a claim target. -/
theorem witness_MapSetsTheEntry :
    let s := withClaim (withCommand attached 9 31 0x20001 4) (heldOn farBlock .shared)
    s.takeable = some (queued 9 31 0x20001 4) ∧ isCode 9 (words 9 31 0x20001 4) = true ∧ argIndex32 31 = some 31 ∧
      argLimit 0x20001 = some .readWrite ∧ argTargetIsClaim 0x20001 = some false ∧ argTargetIsClaim 0x10002 = some true ∧
      s.homeCount + s.borrowCount ≤ 4 ∧ 63 < s.frames ∧ (s.claim 0).state ≠ .free ∧
      (next? (exec .map s)).map (fun t => (t.window.get 31).mapping) = some (some (.privateFrame 4, .readWrite)) := by
  decide +kernel

theorem witness_UnmapEmptiesTheEntry :
    let cl := { claimOn farBlock with state := .ended }
    let s := withEntry (withClaim (withCommand attached 10 0 0 0) cl) (some (.claim 0, .readWrite))
    s.takeable = some (queued 10 0 0 0) ∧ isCode 10 (words 10 0 0 0) = true ∧ (s.window.get 0).claim = some 0 ∧
      (s.claim 0).state = .ended ∧ s.refCount 0 = 1 ∧ argIndex32 31 = some 31 ∧ argIndex32 32 = none ∧
      (next? (exec .unmap s)).map (fun t => (t.claim 0).state) = some .free := by decide +kernel

theorem witness_RestoreRepairsDamagedRecord :
    let s := withRecord (withCommand attached 11 1 0 0) { lent with holder := none, lost := some holder9 }
    s.takeable = some (queued 11 1 0 0) ∧ isCode 11 (words 11 1 0 0) = true ∧
      (s.record? 1).map DirRecord.state = some .damaged ∧ (s.record? 0).map DirRecord.state = some .atHome ∧
      s.record? 2 = none := by decide +kernel

theorem witness_InspectChangesNothing :
    let s := withCommand attached 12 1 1 0
    s.takeable = some (queued 12 1 1 0) ∧ isInspectBlock (words 12 1 1 0) = true ∧ s.record? 1 = some .initial ∧
      isInspectClaim (words 12 2 31 0) = true ∧ argIndex32 31 = some 31 ∧ (words 12 0 0 0).argA ≠ 1 := by decide +kernel

/-! ### The window and the DRAM port -/

/-- One state for each refusal of the check tables. -/
theorem witness_RefusedAccessFaultsTheEntry :
    let naming := fun (cl : Claim) => withEntry (withClaim attached cl) (some (.claim 0, .readWrite))
    let kind := fun (s : State) (lwr : Bool) => (next? (exec (.windowAccess 0 15 0 lwr) s)).bind
      fun t => (t.window.get 0).fault.map (·.kind)
    accessEntry 0 = 0 ∧ accessEntry 0xFFFF = 31 ∧ attached.entryListed 0 = false ∧ attached.access = none ∧
      kind attached false = some .unmapped ∧
      kind (withEntry attached (some (.privateFrame 5, .readOnly))) true = some .writeLimit ∧
      kind (naming (fillingOn farBlock)) false = some .notReady ∧ kind (naming (askingOn farBlock)) true = some .notReady ∧
      kind (naming { claimOn farBlock with state := .ended }) false = some .leaseEnded ∧
      kind (naming (heldOn farBlock .shared)) true = some .sharedOnly ∧
      kind (naming { heldOn farBlock .exclusive with state := .demoting }) true = some .leaseBusy := by decide +kernel

theorem witness_AllowedAccessWaitsOthersEndAtOnce :
    let own' := withEntry attached (some (.privateFrame 63, .readOnly))
    let held := withEntry (withClaim attached (heldOn farBlock .exclusive)) (some (.claim 0, .readWrite))
    let upgrading := withEntry (withClaim attached { askingOn farBlock with held := some .shared }) (some (.claim 0, .readOnly))
    (next? (exec (.windowAccess 0 15 0 false) own')).bind (·.access) =
        some { frame := 63, owner := none, word := 0, lbe := 15, data := none } ∧
      (next? (exec (.windowAccess 2047 1 9 true) held)).bind (·.access) =
        some { frame := 2, owner := some (0, 3), word := 2047, lbe := 1, data := some 9 } ∧
      ((next? (exec (.windowAccess 0 1 0 false) upgrading)).bind (·.access)).isSome = true ∧
      (withAccess attached (granted none none)).access ≠ none := by decide +kernel

theorem witness_GrantedReadReturnsEnabledBytes :
    let s := withAccess { attached with dram := [(24575, 0xA5)] } (granted none none)
    let dead := withAccess attached (granted (some (0, 3)) none)
    s.arbPort = some .window ∧ (granted none none).frame < s.frames ∧ s.accessAlive (granted none none) = true ∧
      dead.accessAlive (granted (some (0, 3)) none) = false ∧
      (next? (exec .windowGrant s)).bind (·.busRead) = some 0xA5FFFFFF ∧
      (next? (exec .windowGrant dead)).bind (·.busRead) = some 0xFFFFFFFF := by decide +kernel

/-- A write to a claim HELD EXCLUSIVE, one that a return waits for, and one whose lease has ended. -/
theorem witness_GrantedWriteStoresEnabledBytes :
    let a := granted (some (0, 3)) (some 0x5A000000)
    let held := withAccess (withClaim attached (heldOn farBlock .exclusive)) a
    let back := withAccess (withClaim attached { heldOn farBlock .exclusive with
      state := .returning, ret := some { kept := false, fixed := false, count := 0, todo := [] } }) a
    held.accessAlive a = true ∧ (held.claim 0).homedAt held.own = false ∧ (back.claim 0).ret.isSome = true ∧
      (withAccess attached a).accessAlive a = false ∧
      (next? (exec .windowGrant held)).map (fun t => (t.dram, (t.claim 0).dirty)) = some ([(24575, 0x5A)], [31]) ∧
      (next? (exec .windowGrant back)).map (fun t => (t.claim 0).ret.map (·.count)) = some (some 1) ∧
      (next? (exec .windowGrant (withAccess attached a))).map (·.dram) = some [] := by decide +kernel

theorem witness_ChunkReadTakesASnapshot :
    let e := TxEntry.fresh 9 (.chunk ownBlock 3 0) .directory (some 0) .reading
    let s := withMove { attached with outBuf := #v[.reading, .free, .free, .free], txq := [e] } (.read 0 63 31)
    let gone := withMove { attached with outBuf := #v[.discarding, .free, .free, .free] } (.read 0 0 0)
    s.arbPort = some .ring ∧ s.moves = [.read 0 63 31] ∧ 63 < s.frames ∧ s.outBuf.get 0 = .reading ∧
      gone.outBuf.get 0 = .discarding ∧
      (next? (exec .chunkReadMoveEnd s)).map (fun t => t.txq.map (·.st)) = some [.waiting] := by decide +kernel

theorem witness_ChunkWriteStoresItsPayload :
    let s := withMove { attached with inBuf := #v[some (List.replicate 256 1), none, none, none] }
      (.write 0 63 31 (.home 1 9 3) false)
    s.arbPort = some .ring ∧ 63 < s.frames ∧ s.inBuf.get 0 = some (List.replicate 256 1) ∧
      (List.replicate 256 (1 : Byte)).length = Config.chunkBytes := by decide +kernel

/-- A write of a holder's chunk, the last write before a RETURNED held for it, and the 32nd chunk of a fill. -/
theorem witness_CompletedWriteIsCounted :
    let home := withMove (withRecord attached { lent with holder := some { holder9 with writes := 1 } })
      (.write 0 1 5 (.home 1 9 3) true)
    let last := withMove (withRecord attached { lent with holder := some { holder9 with
      writes := 1, held := some { kept := true, count := 1 } } }) (.write 0 1 5 (.home 1 9 3) true)
    let fill := withMove (withClaim attached { fillingOn farBlock with received := (List.finRange 32).take 31 })
      (.write 0 2 31 (.claim 0 3 7) true)
    holder9.isFrom 9 3 = true ∧
      (next? (exec .chunkWriteMoveEnd home)).bind (fun t => (t.record? 1).bind fun r => r.holder.map (·.returned)) =
        some [5] ∧
      (next? (exec .chunkWriteMoveEnd last)).bind (fun t => (t.record? 1).map (·.readers)) =
        some [{ station := 9, gen := 3 }] ∧
      (fill.claim 0).pendingCmd.isSome = true ∧ (fill.claim 0).deferred = none ∧
      (next? (exec .chunkWriteMoveEnd fill)).map (fun t => (t.claim 0).state) = some .held := by decide +kernel

/-! ### The ring port and the timers -/

theorem witness_ReceivedFramesAreTakenAndForwarded :
    let f := encodeLease 9 2 4 (.notHeld ownBlock 3) []
    parseFrame [] = none ∧ attached.port ≠ .bypass ∧ State.reset.port = .bypass ∧ parseFrame f.bytes = some f ∧
      f.src.toNat ≠ attached.own.val ∧ f.dest.toNat = attached.own.val ∧ respCode f.resp = 0 ∧ f.len ≠ 1 ∧
      attached.freeInBuf = some 0 ∧
      ({ attached with inBuf := Vector.replicate 4 (some []) } : State).freeInBuf = none ∧
      (next? (exec (.frameReceived f.bytes) attached)).map (fun t => (t.rx.length, t.fwd.map (·.resp))) = some (1, [1]) := by
  decide +kernel

/-- Forwarded at hop count 14, discarded at 15; the buffer takes 540 bytes. -/
theorem witness_forwarding_limits :
    let f := encodeLease 9 2 7 .announce []
    (attached.forward { f with hop := 14 }).fwd.length = 1 ∧ (attached.forward { f with hop := 15 }).fwd = [] ∧
      ({ attached with fwd := List.replicate 37 f } : State).forwardBytes + f.size ≤ 540 ∧
      540 < ({ attached with fwd := List.replicate 38 f } : State).forwardBytes + f.size := by decide +kernel

theorem witness_StrippedCopyIsTheOutcome :
    let drop := flying (.dropped farBlock 7) (.claims (some (0, 3)))
    let s := withClaim { attached with txq := [drop] } { heldOn farBlock .shared with state := .dropping, giving := some .release }
    let chunk := flying (.chunk ownBlock 3 31) .directory
    let d := withRecord { attached with txq := [chunk] } { lent with
      transfer := some { target := 9, mode := .exclusive, tag := tag0, next := 32 } }
    let back := fun (s : State) (e : TxEntry) (r : Byte) => next? (exec (.frameReceived (copyOf s e r)) s)
    s.txq.findIdx? (s.awaits { s.entryFrame drop with hop := 3, resp := 1 }) = some 0 ∧ drop.dest ≠ s.own ∧
      (back s drop 1).map (fun t => ((t.claim 0).state, t.txq, (t.peers.get 9).presence)) = some (.free, [], .present) ∧
      (back s drop 0).map (fun t => (t.peers.get 9).presence) = some .absent ∧
      (back s drop 2).map (fun t => t.txq.map (·.st)) = some [.retry] ∧
      (back { s with txq := [{ drop with busy := 32 }] } drop 2).map (·.txq) = some [] ∧
      (s.record? 1).bind (·.recalling) = none ∧
      ((d.record? 1).bind (·.transfer)).any (·.target == chunk.dest) = true := by decide +kernel

theorem witness_returned_and_demoted_outcomes :
    let e := flying (.returned farBlock 7 true 1) (.claims (some (0, 3)))
    let s := fun (st : ClaimState) => withClaim { attached with txq := [e] }
      { heldOn farBlock .exclusive with state := st, giving := some .recalled }
    let back := fun (s : State) => (next? (exec (.frameReceived (copyOf s e 1)) s)).map fun t => (t.claim 0).state
    back (s .returning) = some .free ∧ back (s .demoting) = some .held ∧
      attached.txq.findIdx? (attached.awaits (encodeLease 4 1 9 .announce [])) = none ∧
      attached.isProbe (encodeLease 4 1 9 .announce []) = false := by decide +kernel

theorem witness_DeliveryFailureEndsTheDestination :
    let f : Failure := { dest := 9, kind := .absent, frames := [{
      owner := .claims (some (0, 3)), msg := .dropped farBlock 7, sent := true }] }
    let s := withClaim attached (heldOn farBlock .shared)
    f.dest ≠ s.own ∧ (s.claim 0).live = true ∧
      f.frames.any (fun x => x.owner == .claims (some (0, (s.claim 0).use))) = true := by decide +kernel

theorem witness_SelfProbeOutcomes :
    let e := { TxEntry.fresh 4 .announce .station none .circulating with returnTimer := .start }
    let s : State := { attached with
      station := .joining, txq := [e], probeOutstanding := true, lifeCmd := some { seq := 0, code := 1, tag := 0 } }
    let f : Frame := { s.entryFrame e with hop := 3 }
    let back := fun (r : Byte) => next? (exec (.frameReceived (copyOf s e r)) s)
    f.src.toNat = s.own.val ∧ f.inc = s.inc ∧ s.awaits f e = true ∧ e.dest = s.own ∧ respCode f.resp = 0 ∧
      s.handover = [] ∧ s.mail = [] ∧ s.heldFrame = none ∧ s.isProbe f = true ∧ attached.probeOut = false ∧
      s.isProbe { f with inc := 9 } = true ∧ attached.isProbe (encodeLease 4 9 7 .announce []) = false ∧
      (back 0).map (fun t => t.txq.length) = some 15 ∧ (back 1).map (·.station) = some .unconfigured := by decide +kernel

theorem witness_SegmentsCarryForwardedThenOwnFrames :
    let f := encodeLease 9 2 7 .announce []
    let w := TxEntry.fresh 9 (.notHeld farBlock 3) .directory none .waiting
    let s : State := { attached with txq := [w] }
    ({ attached with fwd := [f] } : State).fwd = [f] ∧ s.port = .active ∧ s.fwd = [] ∧ s.txq.findIdx? s.ready = some 0 ∧
      ({ s with txq := [flying (.notHeld farBlock 2) .directory, w] } : State).ready w = false ∧
      (next? (exec (.ownFrameSend true true) s)).map (fun t => t.txq.map (·.st)) = some [.circulating] := by decide +kernel

theorem witness_PortAcceptsWhatIsHandedOver :
    let h : Handed := { dest := 9, msg := .notHeld farBlock 3, owner := .directory }
    let reading := TxEntry.fresh 9 (.chunk ownBlock 3 0) .directory (some 0) .reading
    let d := withRecord { attached with dirTurn := { todo := [1], done := [] } } { lent with
      transfer := some { target := 9, mode := .exclusive, tag := tag0, next := 31 } }
    let c := withClaim { attached with claimTurn := { todo := [0], done := [] } } { heldOn farBlock .exclusive with
      state := .returning, ret := some { kept := false, fixed := true, count := 1, todo := [31] } }
    ({ attached with handover := [h] } : State).canAccept 9 = true ∧
      ({ attached with txq := [reading] } : State).canAccept 9 = false ∧ d.dirOffer = some 1 ∧ d.claimOffer = none ∧
      c.claimOffer = some 0 ∧ c.dirOffer = none ∧ d.freeOutBuf = some 0 ∧ attached.dirOffer = none ∧
      (next? (exec .chunkOfferAccept d)).map (fun t => t.moves) = some [.read 0 1 31] ∧
      (next? (exec .chunkOfferAccept c)).map (fun t => t.handover.map (·.msg)) = some [.returned farBlock 7 false 1] := by
  decide +kernel

/-- The seventh and the eighth expiry, and a timer that does not run. -/
theorem witness_SendTimersMakeEntriesDue :
    let e := flying (.notHeld farBlock 3) .directory
    let s := fun (n : Nat) => ({ attached with txq := [{ e with expiry := n }] } : State)
    let retry := { e with st := .retry, returnTimer := .off, retryTimer := .start }
    (next? (exec (.returnTimerExpiry 0) (s 6))).map (·.port) = some .active ∧
      (next? (exec (.returnTimerExpiry 0) (s 7))).map (·.port) = some .stalled ∧
      (next? (exec (.returnTimerExpiry 0) { s 7 with port := .stalled })).map (fun t => t.txq.map (·.st)) =
        some [.due true] ∧
      (next? (exec (.retryTimerExpiry 0) { attached with txq := [retry] })).map (fun t => t.txq.map (·.st)) =
        some [.due false] ∧ retry.st ≠ .circulating ∧ (s 0).txq[1]? = none := by decide +kernel

/-- The third and the fourth send, of a holder and of readers. -/
theorem witness_RecallTimerResendsThenExhausts :
    let k : Recall := { kind := .surrender, awaiting := [9], sends := 3, timer := .start }
    let s := fun (r : DirRecord) => withRecord attached r
    let after := fun (r : DirRecord) => (next? (exec (.recallTimerExpiry 1) (s r))).bind fun t => (t.record? 1).map DirRecord.state
    k.timer.mode = .running ∧ after { lent with recalling := some k } = some .recalling ∧
      after { lent with recalling := some { k with sends := 4 } } = some .damaged ∧
      after { sharedBy9 with recalling := some { k with kind := .drop, sends := 4 } } = some .atHome ∧
      lent.holder.any (fun h => k.awaiting.contains h.station) = true ∧
      sharedBy9.holder.any (fun h => k.awaiting.contains h.station) = false := by decide +kernel

theorem witness_ClaimTimersAct :
    let s := withClaim attached (askingOn farBlock)
    let idle := withClaim attached { askingOn farBlock with askStanding := false }
    let hold := fun (m : Mode) (k : RecallKind) => withClaim attached { heldOn farBlock m with
      hold := .start, deferred := some (k, 7) }
    let after := fun (s : State) (i : Instr) => (next? (exec i s)).map fun t => (t.claim 0).state
    (s.claim 0).wait.mode = .running ∧ (s.claim 0).reask.mode = .running ∧
      after s (.waitTimerExpiry 0) = some .withdrawing ∧ after idle (.waitTimerExpiry 0) = some .free ∧
      (next? (exec (.reaskTimerExpiry 0) idle)).map (fun t => t.txq.length) = some 1 ∧
      after (hold .shared .drop) (.holdTimerExpiry 0) = some .dropping ∧
      after (hold .exclusive .surrender) (.holdTimerExpiry 0) = some .returning ∧
      after (hold .exclusive .demote) (.holdTimerExpiry 0) = some .demoting ∧
      (withClaim attached { heldOn farBlock .shared with hold := .start } |>.claim 0).deferred = none := by decide +kernel

/-! ### Frames handed onward -/

theorem witness_HeadOfReceiveQueueIsHandedOnward :
    let s := withFrame attached .announce
    let ill := withFrame attached (.withdraw farBlock tag0)
    s.handable.isSome = true ∧ attached.handable = none ∧ s.probeOutstanding = false ∧ sourceOf 4 9 = some 9 ∧
      sourceOf 4 4 = none ∧ (s.handable.map fun e => decodeLease e.frame) = some (some .announce) ∧
      decodeLease { encodeLease 9 2 4 (.withdraw farBlock tag0) [] with arg1 := 9 } = none ∧
      (ill.handable.map fun e => isKind 3 e.frame) = some true ∧
      (next? (exec .announce s)).map (fun t => (t.peers.get 9).inc) = some (some 2) := by decide +kernel

/-- An ASK for each case of the table, and a WITHDRAW that finds its request and one that does not. -/
theorem witness_RequestsFollowTheTableOfCases :
    let m := Lease.ask ownBlock .shared tag0
    let s := fun (r : DirRecord) => withRecord (withFrame attached m) r
    let sent := fun (s : State) => (next? (exec .ask s)).map fun t => t.txq.map (·.msg)
    hands (withFrame attached (.ask farBlock .shared tag0)) 9 (.ask farBlock .shared tag0) = true ∧
      hands (withFrame attached (.ask { home := 4, index := 2 } .shared tag0)) 9 (.ask { home := 4, index := 2 } .shared tag0)
        = true ∧ attached.record? 2 = none ∧ hands (s .initial) 9 m = true ∧
      sent (s { DirRecord.initial with lost := some holder9 }) = some [.deny ownBlock .damaged tag0] ∧
      sent { s .initial with station := .detaching, txq := [flying .announce .station] } =
        some [.announce, .deny ownBlock .leaving tag0] ∧
      sent (s { DirRecord.initial with queue := List.replicate 24 { ask9 .shared with station := 8 } }) =
        some [.deny ownBlock .full tag0] ∧
      ((next? (exec .ask (s .initial))).bind fun t => (t.record? 1).map DirRecord.state) = some .sending ∧
      hands (withFrame attached (.withdraw ownBlock tag0)) 9 (.withdraw ownBlock tag0) = true := by decide +kernel

theorem witness_withdraw_cases :
    let busy := { lent with
      recalling := some { kind := .demote, awaiting := [9], sends := 1, timer := .start }, queue := [ask9 .shared] }
    let s := withRecord (withFrame attached (.withdraw ownBlock tag0)) busy
    let again := withRecord (withFrame attached (.ask ownBlock .shared tag0)) busy
    busy.queue.find? (·.station == 9) = some (ask9 .shared) ∧
      (next? (exec .withdraw s)).map (fun t => t.txq.map (·.msg)) = some [.withdrawn ownBlock tag0] ∧
      (next? (exec .ask again)).map (fun t => t.txq) = some [] := by decide +kernel

/-- A settled record for each row of the two service tables. -/
theorem witness_ServiceFollowsTheTables :
    let run := fun (r : DirRecord) (q : Request) => ((withRecord attached { r with queue := [q] }).serve 1).record? 1
    let kind := fun (r : DirRecord) (q : Request) => ((run r q).bind (·.recalling)).map (·.kind)
    lent.settled = true ∧ sharedBy9.settled = true ∧ ({ lent with lost := some holder9 } : DirRecord).settled = false ∧
      kind lent { ask9 .shared with station := 8 } = some .demote ∧
      kind lent { ask9 .exclusive with station := 8 } = some .surrender ∧
      (run lent (ask9 .exclusive)).map (·.queue) = some [] ∧ (run sharedBy9 (ask9 .shared)).map (·.gen) = some 3 ∧
      (run sharedBy9 { ask9 .shared with station := 4 }).map (fun r => (r.gen, r.readers.length, r.transfer)) =
        some (4, 2, none) ∧
      (run sharedBy9 (ask9 .exclusive)).map (fun r => (r.holder.map (·.station), r.transfer)) = some (some 9, none) ∧
      (run .initial (ask9 .exclusive)).map (fun r => r.transfer.isSome) = some true ∧
      kind sharedBy9 { ask9 .exclusive with station := 8 } = some .drop := by decide +kernel

theorem witness_AnswersOfReadersAndStaleAnswers :
    let s := fun (r : DirRecord) (m : Lease) => withRecord (withFrame attached m) r
    hands (s sharedBy9 (.dropped ownBlock 3)) 9 (.dropped ownBlock 3) = true ∧
      hands (s sharedBy9 (.notHeld ownBlock 3)) 9 (.notHeld ownBlock 3) = true ∧ ownBlock.home = attached.own ∧
      hands (s sharedBy9 (.dropped ownBlock 2)) 9 (.dropped ownBlock 2) = true ∧
      hands (s sharedBy9 (.returned ownBlock 2 false 0)) 9 (.returned ownBlock 2 false 0) = true ∧
      hands (withRecord (withChunk attached (.chunk ownBlock 2 31)) sharedBy9) 9 (.chunk ownBlock 2 31) = true ∧
      ((next? (exec .dropped (s sharedBy9 (.dropped ownBlock 3)))).bind fun t => (t.record? 1).map (·.readers)) = some [] ∧
      ((next? (exec .dropped (s sharedBy9 (.dropped ownBlock 2)))).bind fun t => t.record? 1) = some sharedBy9 := by
  decide +kernel

theorem witness_AnswersOfTheHolder :
    let s := fun (r : DirRecord) (m : Lease) => withRecord (withFrame attached m) r
    let state := fun (o : Host.Outcome State Fault Refusal) => (next? o).bind fun t => (t.record? 1).map DirRecord.state
    let busy := { lent with holder := some { holder9 with writes := 1 } }
    holder9.isFrom 9 3 = true ∧ state (exec .dropped (s lent (.dropped ownBlock 3))) = some .damaged ∧
      state (exec .notHeld (s lent (.notHeld ownBlock 3))) = some .damaged ∧
      ((next? (exec .chunkAtHome (withRecord (withChunk attached (.chunk ownBlock 3 31)) lent))).map (·.moves)) =
        some [.write 0 1 31 (.home 1 9 3) true] ∧
      state (exec .returned (s lent (.returned ownBlock 3 false 0))) = some .atHome ∧
      state (exec .returned (s lent (.returned ownBlock 3 true 0))) = some .shared ∧
      state (exec .returned (s lent (.returned ownBlock 3 false 32))) = some .damaged ∧
      state (exec .returned (s busy (.returned ownBlock 3 false 1))) = some .lent ∧
      hands (withRecord (withChunk attached (.chunk ownBlock 3 31)) lent) 9 (.chunk ownBlock 3 31) = true := by
  decide +kernel

theorem witness_GrantsAreAcceptedOrGivenBack :
    let g := fun (data : Bool) => Lease.grant farBlock 8 .exclusive data tag0
    let s := fun (cl : Claim) (m : Lease) => withClaim (withFrame attached m) cl
    let after := fun (cl : Claim) (m : Lease) => (next? (exec .grant (s cl m))).map fun t => (t.claim 0).state
    let upgrading := { askingOn farBlock with held := some .shared }
    hands (s (askingOn farBlock) (g true)) 9 (g true) = true ∧
      hands (s (askingOn farBlock) (.grant ownBlock 8 .shared true tag0)) 9 (.grant ownBlock 8 .shared true tag0) = true ∧
      (s (askingOn farBlock) (g true)).tagged farBlock tag0 = true ∧
      after (askingOn farBlock) (g true) = some .filling ∧ after upgrading (g false) = some .held ∧
      after { upgrading with state := .withdrawing, cause := some .cancelled } (g false) = some .held ∧
      after (askingOn farBlock) (g false) = some .asking ∧
      after { heldOn farBlock .exclusive with gen := some 8 } (g false) = some .held ∧
      (next? (exec .grant (s (.free 3) (g true)))).map (fun t => t.txq.map (·.msg)) =
        some [.returned farBlock 8 false 0] := by decide +kernel

theorem witness_DenialsAndWithdrawnsEndTheAttempt :
    let s := fun (cl : Claim) (m : Lease) => withClaim (withFrame attached m) cl
    let after := fun (i : Instr) (cl : Claim) (m : Lease) => (next? (exec i (s cl m))).map fun t => (t.claim 0).state
    let d := fun (r : DenyReason) => Lease.deny farBlock r tag0
    let w := { askingOn farBlock with state := .withdrawing, cause := some .timedOut }
    hands (s (askingOn farBlock) (d .full)) 9 (d .full) = true ∧ after .deny (askingOn farBlock) (d .full) = some .asking ∧
      after .deny (askingOn farBlock) (d .already) = some .free ∧
      after .deny { askingOn farBlock with held := some .shared } (d .damaged) = some .held ∧
      after .deny w (d .full) = some .free ∧ after .deny (fillingOn farBlock) (d .full) = some .asking ∧
      after .deny (heldOn farBlock .shared) (d .full) = some .held ∧
      hands (s w (.withdrawn farBlock tag0)) 9 (.withdrawn farBlock tag0) = true ∧
      after .withdrawn w (.withdrawn farBlock tag0) = some .free ∧
      after .withdrawn { w with held := some .shared } (.withdrawn farBlock tag0) = some .held ∧
      after .withdrawn (askingOn farBlock) (.withdrawn farBlock tag0) = some .asking := by decide +kernel

theorem witness_RecallsAndFillChunks :
    let s := fun (cl : Claim) (k : RecallKind) => withClaim (withFrame attached (.recallCopy farBlock 7 k)) cl
    let after := fun (cl : Claim) (k : RecallKind) => (next? (exec .recallCopy (s cl k))).map fun t => (t.claim 0).state
    let deferred := fun (cl : Claim) (k : RecallKind) =>
      (next? (exec .recallCopy (s cl k))).map fun t => (t.claim 0).deferred
    let fill := withClaim (withChunk attached (.chunk farBlock 7 31)) (fillingOn farBlock)
    hands (s (heldOn farBlock .shared) .drop) 9 (.recallCopy farBlock 7 .drop) = true ∧
      (s (.free 0) .drop).recalled farBlock 7 = none ∧ (s (heldOn farBlock .shared) .drop).recalled farBlock 7 = some 0 ∧
      after (heldOn farBlock .shared) .drop = some .dropping ∧
      after (heldOn farBlock .exclusive) .surrender = some .returning ∧
      after (heldOn farBlock .exclusive) .demote = some .demoting ∧
      after { heldOn farBlock .exclusive with state := .demoting } .surrender = some .demoting ∧
      deferred (fillingOn farBlock) .drop = some (some (.drop, 7)) ∧
      deferred { heldOn farBlock .exclusive with hold := .start } .demote = some (some (.demote, 7)) ∧
      (next? (exec .recallCopy (s { askingOn farBlock with held := some .shared } .drop))).map (fun t => (t.claim 0).held) =
        some none ∧
      hands fill 9 (.chunk farBlock 7 31) = true ∧ fill.filler farBlock 7 = some 0 ∧
      (next? (exec .chunkAtClaim fill)).map (·.moves) = some [.write 0 2 31 (.claim 0 3 7) true] ∧
      (withChunk attached (.chunk farBlock 7 31)).filler farBlock 7 = none := by decide +kernel

theorem witness_FramesAndMessagesReadBack :
    (Lease.grant farBlock 8 .shared false tag0).onRing = false ∧ (Lease.chunk farBlock 7 31).onRing = true ∧
      (Lease.chunk farBlock 7 31).hasPayload = true ∧ (List.replicate 256 (9 : Byte)).length = Config.chunkBytes ∧
      decodeLease (encodeLease 9 2 4 (.returned farBlock 7 true 32) []) = some (.returned farBlock 7 true 32) ∧
      parseFrame (encodeLease 9 2 4 (.notHeld farBlock 3) []).bytes = some (encodeLease 9 2 4 (.notHeld farBlock 3) []) := by
  decide +kernel

/-! ### The clauses of the statements, one by one -/

/-- Each state of the arbiter that a reset keeps memory in, and the requested reset. -/
theorem witness_StationResetKeepsMemory_clauses :
    let read := withAccess attached (granted none none)
    let dead := withAccess attached (granted (some (0, 3)) (some 9))
    let move := withMove attached (.read 0 0 0)
    read.arbPort = some .window ∧ (granted none none).data = none ∧ dead.accessAlive (granted (some (0, 3)) (some 9)) = false ∧
      move.arbPort = some .ring ∧ move.moves = [.read 0 0 0] ∧
      (next? (exec (.stationReset .control 0) { read with resetRequested := true })).map (fun t => t.busRead.isSome) =
        some true ∧
      (next? (exec (.stationReset .pin 0) dead)).map (fun t => (t.busRead.isSome, t.access)) = some (false, none) := by
  decide +kernel

/-- A granted window write of one byte at the end of frame 2, and that byte's address. -/
theorem witness_InterruptedChunkWriteLeavesOldOrNewBytes_window :
    let a := granted none (some 0x5A000000)
    let s := withAccess attached a
    s.arbPort = some .window ∧ s.access = some a ∧ a.data = some 0x5A000000 ∧ s.accessAlive a = true ∧
      a.lbe.getLsbD 3 = true ∧ a.lbe.getLsbD 2 = false ∧ dramAddr a.frame (a.word * 4 + 3) = 24575 ∧
      24575 < s.frames * Config.frameBytes ∧ (next? (exec (.stationReset .pin 0) s)).isSome = true := by decide +kernel

/-- A POST of UNMAP is carried out as the row UNMAP does, and POST_RESULT shows it. -/
theorem witness_PostAppendsStagedRecord_taking :
    let s : State := { attached with staging := words 10 31 0 0 }
    let x := s.post
    x.takeable = some (queued 10 31 0 0) ∧ Instr.unmap ∈ commandRows.map (·.1) ∧ isCode 10 (words 10 31 0 0) = true ∧
      (next? (exec .unmap x)).map State.takeAll = some x.takeAll ∧ next? (exec (.post 1) s) = some x.takeAll ∧
      x.takeAll.cplq.map (·.status) = [.ok] ∧ attached.takeable = none ∧
      State.readRegister { attached with postResult := .accepted 255 } 5 = 0xFF01#32 ∧
      State.readRegister { attached with postResult := .queueFull } 5 = 2 := by decide +kernel

/-- A head completion with every field at its limit, one with every field absent, and the reads of each. -/
theorem witness_PopRemovesHeadCompletion_reads :
    let full : Completion := {
      ticket := { seq := 255, code := 31, tag := 0xFFFF }, status := .stalled, claim := some 31, gen := some 255,
      byteA := 1, byteB := 2, word1 := some 3, word2 := some 4 }
    let s : State := { attached with cplq := [full, .plain { seq := 1, code := 2, tag := 3 } .ok none none none] }
    let u := (next? (exec (.pop 1) s)).getD s
    ([8, 9, 10, 11].map s.readRegister) = [0x017E7FFF#32, 0x02FFFFFF#32, 3, 4] ∧
      ([8, 9, 10, 11].map u.readRegister) = [0x00FC0201#32, 3, allOnes, allOnes] ∧ attached.cplq = [] := by decide +kernel

/-- An item of each kind, with its subject at the end of its range. -/
theorem witness_ControlWritesSetTheirBits_reads :
    let read := fun (x : Subject) (n : Notice) =>
      let s : State := { attached with attention := [{ subject := x, notice := n, replaced := true }] }
      [16, 17, 18].map s.readRegister
    read (.entry 31) (.entry { kind := .leaseBusy, offset := 8191, write := true, width := 4 }) =
        [0x1061F#32, 0x1FFF#32, 0x401#32] ∧
      read (.claim 31) (.claim .lost 15 (some { home := 15, index := 255 })) = [0x1043F#32, 0xF#32, 0xFFF#32] ∧
      read (.peer 15) (.peer .present (some 255)) = [0x1034F#32, 0x1FF#32, 0] ∧
      read .station (.station .numberConflict none) = [0x10250#32, 0, 0] ∧
      State.readRegister { attached with cplEnable := true, attention := [] } 20 = 1 ∧
      State.readRegister { attached with cplEnable := true, cplq := [.plain { seq := 1, code := 2, tag := 3 } .ok none none none] }
        21 = 5 := by decide +kernel

/-- The first and the last offset of each range of registers, the offsets beside them, and a write without bytes. -/
theorem test_registerWrite_offsets :
    registerWrite 3 9 1 = .cmdStage 3 9 1 ∧ registerWrite 4 9 1 = .post 1 ∧ registerWrite 5 9 1 = .registerWriteIgnored 5 9 1 ∧
      registerWrite 12 9 8 = .pop 8 ∧ registerWrite 19 9 1 = .ack 9 1 ∧ registerWrite 20 9 1 = .intEnable 9 1 ∧
      registerWrite 24 9 1 = .startRecordWrite 0 9 1 ∧ registerWrite 31 9 1 = .startRecordWrite 7 9 1 ∧
      registerWrite 32 9 1 = .registerWriteIgnored 32 9 1 ∧ registerWrite 34 1 15 = .resetControl 1 15 ∧
      registerWrite 63 9 1 = .registerWriteIgnored 63 9 1 ∧ registerWrite 4 9 0 = .registerWriteIgnored 4 9 0 := by decide

/-- In DETACHING: a record recalled, claims given up, an end condition that holds, and one that does not. -/
theorem witness_DetachEntersDetaching_teardown :
    let u : State := { attached with station := .detaching, lifeCmd := some { seq := 1, code := 3, tag := 0 } }
    let tear := fun (cl : Claim) => ((withClaim u cl).tearClaim 0).claim 0
    let asked := withRecord (withCommand attached 3 0 0 0) { DirRecord.initial with
      queue := [ask9 .shared, { ask9 .shared with station := 4 }] }
    u.mail = [] ∧ u.heldFrame = none ∧ u.teardownDue = false ∧ u.detachDone = true ∧
      u.settleEvent.station = .detached ∧ u.settleEvent.cplq.map (·.status) = [.ok] ∧
      (withRecord u lent).teardownDue = true ∧ ({ u with rx := [{ frame := encodeLease 9 2 4 .announce [], buf := none }] }
        : State).detachDone = false ∧
      (((withRecord u lent).tearRecord 1).record? 1).bind (·.recalling.map (·.kind)) = some .surrender ∧
      (((withRecord u sharedBy9).tearRecord 1).record? 1).bind (·.recalling.map (·.kind)) = some .drop ∧
      (tear (askingOn farBlock)).state = .withdrawing ∧ (tear { askingOn farBlock with askStanding := false }).state = .free ∧
      (tear (heldOn farBlock .shared)).state = .dropping ∧ (tear (heldOn farBlock .exclusive)).state = .returning ∧
      tear (fillingOn farBlock) = fillingOn farBlock ∧ farBlock.home ≠ u.own ∧ asked.records.length ≤ 256 ∧
      (next? (exec .detach asked)).map (fun t => t.txq.map (·.msg)) = some [.deny ownBlock .leaving tag0] := by
  decide +kernel

/-- What UPGRADE, RELEASE and CANCEL hand to another station, and what they tell this part's directory. -/
theorem witness_lease_commands_send :
    let sent := fun (i : Instr) (s : State) => (next? (exec i s)).map fun t => t.txq.map (·.msg)
    let s := fun (k : Nat) (cl : Claim) => withClaim (withCommand attached k 0 0 0) cl
    let dirty := s 7 { heldOn farBlock .exclusive with dirty := [31] }
    let written := { s 7 (heldOn farBlock .exclusive) with access := some (granted (some (0, 3)) (some 9)) }
    let idle := { askingOn farBlock with askStanding := false, held := some .shared }
    sent .upgrade (s 6 (heldOn farBlock .shared)) = some [.ask farBlock .exclusive tag0] ∧
      sent .release (s 7 (heldOn farBlock .shared)) = some [.dropped farBlock 7] ∧
      sent .release (s 7 (heldOn farBlock .exclusive)) = some [.returned farBlock 7 false 0] ∧
      (next? (exec .release dirty)).map (fun t => (t.txq, t.claimTurn.todo)) = some ([], [0]) ∧
      (next? (exec .release written)).map (fun t => (t.claim 0).ret.map (·.fixed)) = some (some false) ∧
      sent .cancel (s 8 (askingOn farBlock)) = some [.withdraw farBlock tag0] ∧
      (next? (exec .cancel (s 8 idle))).map (fun t => (t.claim 0).held) = some (some .shared) ∧
      (next? (exec .release (s 7 (heldOn ownBlock .exclusive)))).map (fun t => t.cplq.map (·.status)) = some [.ok] := by
  decide +kernel

/-- The numbers beside MAP's ranges, a FREE claim, and an ENDED claim whose last entry is mapped anew. -/
theorem witness_MapSetsTheEntry_clauses :
    let status := fun (a b c : Nat) =>
      (next? (exec .map (withClaim (withCommand attached 9 a b c) (heldOn farBlock .shared)))).map fun t => t.cplq.map (·.status)
    let gone := withEntry (withClaim (withCommand attached 9 0 0x10001 63) { claimOn farBlock with state := .ended })
      (some (.claim 0, .readWrite))
    status 32 0x10001 4 = some [.badArgument] ∧ status 31 0x1 4 = some [.badArgument] ∧
      status 31 0x10003 4 = some [.badArgument] ∧ status 31 0x10001 3 = some [.badArgument] ∧
      status 31 0x10001 64 = some [.badArgument] ∧ status 31 0x10002 32 = some [.badArgument] ∧
      status 31 0x10002 1 = some [.badState] ∧ status 31 0x10002 0 = some [.ok] ∧ status 31 0x20001 63 = some [.ok] ∧
      (gone.window.get 0).claim = some 0 ∧ (gone.claim 0).state = .ended ∧
      (next? (exec .map gone)).map (fun t => (t.claim 0).state) = some .free := by decide +kernel

/-- The refusals of INSPECT, and the two layouts with fields at their limits. -/
theorem witness_InspectChangesNothing_layouts :
    let status := fun (i : Instr) (a b : Nat) =>
      (next? (exec i (withCommand attached 12 a b 0))).map fun t => t.cplq.map (·.status)
    let reader : Nat → Reader := fun k => { station := Fin.ofNat 16 (k + 1), gen := 3 }
    let readers := { sharedBy9 with readers := (List.range 16).map reader }
    let busy := { lent with queue := List.replicate 16 (ask9 .shared), recalling := some {
      kind := .demote, awaiting := List.replicate 15 9, sends := 4, timer := .start } }
    let cl : Claim := { heldOn { home := 15, index := 255 } .exclusive with
      frame := some 511, endReason := some .denied, received := List.finRange 32, dirty := List.finRange 32 }
    status .inspectBlock 1 2 = some [.noBlock] ∧ status .inspectBlock 0 0 = some [.badArgument] ∧
      status .inspectClaim 2 32 = some [.badArgument] ∧
      readers.words = (0x87654321#32, 0xFFEDCBA9#32) ∧ lent.words = (0x309#32, 0) ∧ busy.byteA = 0x84#8 ∧
      busy.byteB.extractLsb' 0 6 = 0x3F#6 ∧ cl.word1 = 0x71FF7FFF#32 ∧ cl.word2 32 = 0x202020#32 := by decide +kernel

/-- The item of the lease comes before the peer's (R104), and the announcements are counted down to the end of joining. -/
theorem witness_StrippedCopyIsTheOutcome_clauses :
    let drop := flying (.dropped farBlock 7) (.claims (some (0, 3)))
    let s := withClaim { attached with txq := [drop] }
      { heldOn farBlock .shared with state := .dropping, giving := some .recalled }
    let ann := flying .announce .station
    let j := fun (n : Nat) => ({ attached with
      station := .joining, txq := [ann], announceAwaited := n, lifeCmd := some { seq := 0, code := 1, tag := 0 } } : State)
    let back := fun (s : State) (e : TxEntry) => next? (exec (.frameReceived (copyOf s e 1)) s)
    (s.claim 0).giving = some .recalled ∧ (s.peers.get 9).presence ≠ .present ∧
      (back s drop).map (fun t => t.attention.map (·.subject)) = some [.claim 0, .peer 9] ∧
      (back (j 2) ann).map (fun t => (t.announceAwaited, t.station)) = some (1, .joining) ∧
      (back (j 1) ann).map (fun t => (t.station, t.prevInc, t.cplq.map (·.status))) = some (.attached, some 1, [.ok]) := by
  decide +kernel

/-- A peer lost from each kind of record. -/
theorem witness_DeliveryFailureEndsTheDestination_records :
    let t9 := fun (m : Mode) => ({ target := 9, mode := m, tag := tag0, next := 31 } : Transfer)
    let lost := fun (r : DirRecord) (frames : List FailedFrame) => (withRecord attached r).losePeer 9 false frames
    let state := fun (s : State) => (s.record? 1).map DirRecord.state
    let last : FailedFrame := { owner := .directory, msg := .chunk ownBlock 3 31, sent := true }
    let f : Failure := { dest := 9, kind := .absent, frames := [{ owner := .station, msg := .announce, sent := true }] }
    state (lost lent []) = some .damaged ∧ state (lost sharedBy9 []) = some .atHome ∧
      (lost { sharedBy9 with queue := [ask9 .exclusive] } []).txq.map (·.msg) = [.deny ownBlock .full tag0] ∧
      state (lost { lent with transfer := some (t9 .exclusive) } []) = some .atHome ∧
      state (lost { lent with transfer := some (t9 .exclusive) } [last]) = some .damaged ∧
      state (lost { sharedBy9 with transfer := some (t9 .shared) } []) = some .atHome ∧
      (withRecord attached .initial).losePeer 9 false [] = withRecord attached .initial ∧
      (State.announceFailed { attached with station := .joining, announceAwaited := 1 } f).station = .attached ∧
      (State.announceFailed { attached with station := .joining, announceAwaited := 15 } f).announceAwaited = 14 := by
  decide +kernel

/-- The self probe that fails after 32 retries. -/
theorem witness_SelfProbeOutcomes_busy :
    let e := { TxEntry.fresh 4 .announce .station none .circulating with returnTimer := .start, busy := 32 }
    let s : State := { attached with station := .joining, txq := [e], probeOutstanding := true }
    2 ≤ (respCode 2).val ∧ 2 ≤ (respCode 3).val ∧
      (next? (exec (.frameReceived (copyOf s e 2)) s)).map (fun t => t.txq.length) = some 15 := by decide +kernel

/-- The last place of the hand-over list, and none left. -/
theorem witness_PortAcceptsWhatIsHandedOver_limits :
    let h : Handed := { dest := 9, msg := .notHeld farBlock 3, owner := .directory }
    let s := fun (n : Nat) => ({ attached with handover := List.replicate n h } : State)
    let full : State := { attached with txq := List.replicate 16 (flying .announce .station) }
    State.reset.handOver 9 .announce .station = State.reset ∧ (full.handOver 9 .announce .station).handover.length = 1 ∧
      ((s 63).handOver 9 .announce .station).handover.length = 64 ∧
      ((s 64).handOver 9 .announce .station).handover = [] ∧
      ((s 64).handOver 9 .announce .station).mail.length = 1 := by decide +kernel

/-- The RECALLs of a resend, and the denials of a recall exhausted. -/
theorem witness_RecallTimerResendsThenExhausts_sends :
    let k : Recall := { kind := .surrender, awaiting := [9], sends := 3, timer := .start }
    let sent := fun (r : DirRecord) => (next? (exec (.recallTimerExpiry 1) (withRecord attached r))).map
      fun t => t.txq.map (·.msg)
    let reader4 : Reader := { station := 4, gen := 2 }
    sent { lent with recalling := some k } = some [.recallCopy ownBlock 3 .surrender] ∧
      sent { sharedBy9 with readers := reader4 :: sharedBy9.readers, recalling := some { k with kind := .drop } } =
        some [.recallCopy ownBlock 3 .drop] ∧
      sent { lent with recalling := some { k with sends := 4 }, queue := [{ ask9 .shared with station := 8 }] } =
        some [.deny ownBlock .damaged tag0] := by decide +kernel

/-- What the claim timers send, an own claim whose hold period ends, and an upgrading claim with a deferred recall. -/
theorem witness_ClaimTimersAct_sends :
    let sent := fun (cl : Claim) (i : Instr) => (next? (exec i (withClaim attached cl))).map fun t => t.txq.map (·.msg)
    let hold := fun (b : Block) (m : Mode) (k : RecallKind) =>
      ({ heldOn b m with hold := .start, deferred := some (k, 7) } : Claim)
    let after := fun (cl : Claim) => (next? (exec (.holdTimerExpiry 0) (withClaim attached cl))).map fun t => (t.claim 0).state
    let up := { askingOn farBlock with held := some .shared, hold := .start, deferred := some (.drop, 7) }
    sent (askingOn farBlock) (.waitTimerExpiry 0) = some [.withdraw farBlock tag0] ∧
      sent (askingOn farBlock) (.reaskTimerExpiry 0) = some [.ask farBlock .exclusive tag0] ∧
      sent (hold farBlock .shared .drop) (.holdTimerExpiry 0) = some [.dropped farBlock 7] ∧
      sent (hold farBlock .exclusive .demote) (.holdTimerExpiry 0) = some [.returned farBlock 7 true 0] ∧
      sent up (.holdTimerExpiry 0) = some [.dropped farBlock 7] ∧ after up = some .asking ∧
      after (hold ownBlock .shared .drop) = some .free ∧ after (hold ownBlock .exclusive .surrender) = some .free ∧
      after (hold ownBlock .exclusive .demote) = some .held := by decide +kernel

/-- A source that is no peer, a kind byte past the last, and a peer that comes back with another incarnation. -/
theorem witness_HeadOfReceiveQueueIsHandedOnward_purge :
    let own : State := { attached with rx := [{ frame := encodeLease 4 2 4 .announce [], buf := none }] }
    let f12 : State := { attached with rx := [{ frame := { encodeLease 9 2 4 .announce [] with kind := 12 }, buf := none }] }
    let old : State := { attached with peers := attached.peers.set 9 { presence := .present, inc := some 1 } }
    let s := withClaim (withRecord (withFrame old .announce) lent) (askingOn farBlock)
    (own.handable.map fun e => sourceOf own.own e.frame.src) = some none ∧
      (f12.handable.map fun e => decide (11 < e.frame.kind.toNat)) = some true ∧ (s.peers.get 9).inc = some 1 ∧
      (next? (exec .announce s)).map (fun t => ((t.claim 0).state, (t.record? 1).map DirRecord.state)) =
        some (.free, some .damaged) ∧
      (next? (exec .announce s)).map (fun t => (t.cplq.map (·.status), t.attention.map (·.subject))) =
        some ([.lost], [.claim 0, .peer 9]) ∧
      (s.peerChecks 9 1).attention = [] ∧ (attached.peerChecks 9 0).attention.length = 1 := by decide +kernel

/-- Two requests in one queue: a denial and a grant in one event, and the GRANT and RECALL that go out. -/
theorem witness_ServiceFollowsTheTables_queue :
    let q8 := { ask9 .shared with station := 8 }
    let run := fun (r : DirRecord) (q : List Request) => (withRecord attached { r with queue := q }).serve 1
    let both := run sharedBy9 [ask9 .shared, q8]
    both.txq.map (·.msg) = [.deny ownBlock .already tag0, .grant ownBlock 4 .shared true tag0] ∧
      (both.record? 1).map (fun r => (r.queue, r.readers.length, r.state)) = some ([], 2, .sending) ∧
      (run lent [q8, ask9 .shared]).txq.map (·.msg) = [.recallCopy ownBlock 3 .demote] ∧
      ((run lent [q8, ask9 .shared]).record? 1).map (fun r => r.queue.length) = some 2 := by decide +kernel

/-- A CHUNK or RETURNED that matches a reader ends a transfer to it (R26), and no other transfer. -/
theorem witness_AnswersOfReadersAndStaleAnswers_ignored :
    let to9 := { sharedBy9 with transfer := some { target := 9, mode := .shared, tag := tag0, next := 5 } }
    let to8 := { sharedBy9 with transfer := some { target := 8, mode := .shared, tag := tag0, next := 5 } }
    let s := fun (r : DirRecord) (m : Lease) => withRecord (withFrame attached m) r
    let after := fun (r : DirRecord) (m : Lease) (i : Instr) => (next? (exec i (s r m))).bind fun t => t.record? 1
    hands (s to9 (.returned ownBlock 3 false 0)) 9 (.returned ownBlock 3 false 0) = true ∧
      hands (withRecord (withChunk attached (.chunk ownBlock 3 31)) to9) 9 (.chunk ownBlock 3 31) = true ∧
      after to9 (.returned ownBlock 3 false 0) .returned = some sharedBy9 ∧
      after to8 (.returned ownBlock 3 false 0) .returned = some to8 ∧
      ((next? (exec .chunkAtHome (withRecord (withChunk attached (.chunk ownBlock 3 31)) to9))).bind fun t => t.record? 1) =
        some sharedBy9 ∧
      (after { to9 with queue := [{ ask9 .shared with station := 8 }] } (.notHeld ownBlock 3) .notHeld).map
        (fun r => (r.readers.map (·.station), r.queue)) = some ([8], []) := by decide +kernel

/-- What a lost holder answers, with and without a RETURNED held. -/
theorem witness_AnswersOfTheHolder_lost :
    let lost := fun (h : Holder) => ({ DirRecord.initial with gen := 3, lost := some h } : DirRecord)
    let after := fun (r : DirRecord) (m : Lease) (i : Instr) =>
      (next? (exec i (withRecord (withFrame attached m) r))).bind fun t => t.record? 1
    let held := { holder9 with writes := 1, held := some { kept := true, count := 1 } }
    after (lost holder9) (.dropped ownBlock 3) .dropped = some (lost holder9) ∧
      after (lost holder9) (.returned ownBlock 3 true 0) .returned = some sharedBy9 ∧
      after (lost holder9) (.returned ownBlock 3 false 32) .returned = some (lost holder9) ∧
      after (lost { holder9 with writes := 1 }) (.returned ownBlock 3 true 1) .returned = some (lost held) ∧
      after (lost held) (.returned ownBlock 3 true 1) .returned = some (lost held) ∧
      ((next? (exec .chunkAtHome (withRecord (withChunk attached (.chunk ownBlock 3 31)) (lost holder9)))).map
        (·.moves.length)) = some 1 := by decide +kernel

/-- A grant without data to a withdrawing claim without a copy is given back, and the request given up. -/
theorem witness_GrantsAreAcceptedOrGivenBack_withdrawing :
    let m := Lease.grant farBlock 8 .exclusive false tag0
    let k : Ticket := { seq := 6, code := 8, tag := 0 }
    let cl := { askingOn farBlock with state := .withdrawing, cause := some .cancelled, pendingCancel := some k }
    let s := withClaim (withFrame attached m) cl
    hands s 9 m = true ∧ s.tagged farBlock tag0 = true ∧ cl.pendingCmd.isSome = true ∧
      (next? (exec .grant s)).map (fun t => ((t.claim 0).state, t.txq.map (·.msg), t.cplq.map (·.status))) =
        some (.free, [.returned farBlock 8 false 0], [.cancelled, .ok]) := by decide +kernel

/-- A recall of a kind that does not fit, a resend while one is deferred, and an upgrading claim in its hold period. -/
theorem witness_RecallsAndFillChunks_clauses :
    let s := fun (cl : Claim) (k : RecallKind) => withClaim (withFrame attached (.recallCopy farBlock 7 k)) cl
    let after := fun (cl : Claim) (k : RecallKind) => (next? (exec .recallCopy (s cl k))).map fun t => t.claim 0
    let sent := fun (cl : Claim) (k : RecallKind) => (next? (exec .recallCopy (s cl k))).map fun t => t.txq.map (·.msg)
    let up := { askingOn farBlock with held := some .shared, hold := .start }
    let twice := { heldOn farBlock .exclusive with hold := .start, deferred := some (.demote, 7) }
    (heldOn farBlock .shared).fits .surrender = false ∧
      after (heldOn farBlock .shared) .surrender = some (heldOn farBlock .shared) ∧
      after twice .surrender = some twice ∧ after up .drop = some { up with deferred := some (.drop, 7) } ∧
      sent { up with hold := .off } .drop = some [.dropped farBlock 7] ∧
      sent (heldOn farBlock .exclusive) .surrender = some [.returned farBlock 7 false 0] ∧
      sent (.free 0) .drop = some [.notHeld farBlock 7] := by decide +kernel

/-! ### Orders and outcomes inside one event -/

/-- A frame of an ended lease has no outcome for the claim's later uses (R68). -/
theorem test_ended_lease_leaves_its_frames :
    let drop := flying (.dropped farBlock 7) (.claims (some (0, 3)))
    let s := withClaim { attached with txq := [drop] } (heldOn farBlock .shared)
    let t := s.endLease 0 .lost .lost .lost
    t.txq.map (·.owner) = [.claims none] ∧ (t.failClaims [{ owner := .claims none, msg := drop.msg, sent := true }]).claims = t.claims
      := by decide +kernel

/-- The completions of one event stand in ascending claim index, and a taken command's own claim comes first (R163). -/
theorem test_completions_of_one_event :
    let cpl := fun (c : ClaimIdx) => Completion.plain { seq := 1, code := 5, tag := 0 } .lost (some c) none none
    let s : State := { attached with cplq := [cpl 9, cpl 7, cpl 3] }
    (s.orderFrom 1).cplq = [cpl 9, cpl 3, cpl 7] ∧ (s.claimFirst 0 3).cplq = [cpl 3, cpl 9, cpl 7] := by decide +kernel

/-- An upgrading claim with nothing standing is released in its own turn, before the claims above it (R72). -/
theorem test_teardown_takes_claims_in_order :
    let k : Ticket := { seq := 5, code := 6, tag := 0 }
    let up := { askingOn farBlock with askStanding := false, held := some .shared, pendingCmd := some k }
    let far2 : Block := { home := 9, index := 18 }
    let s : State := (withClaim { attached with station := .detaching } up).setClaim 1
      { heldOn far2 .shared with frame := some 3 }
    (s.tearClaim 0).cplq.map (·.status) = [.cancelled] ∧ ((s.tearClaim 0).claim 0).state = .dropping ∧
      s.tearClaims.txq.map (·.msg) = [.dropped farBlock 7, .dropped far2 7] := by decide +kernel

/-- A failed GRANT of an upgrade leaves the record undamaged and serves its head; another failed frame, and a purge, damage it. -/
theorem witness_DeliveryFailureEndsTheDestination_grant :
    let g : FailedFrame := { owner := .directory, msg := .grant ownBlock 3 .exclusive false tag0, sent := true }
    let k : Recall := { kind := .surrender, awaiting := [9], sends := 1, timer := .start }
    let after := fun (r : DirRecord) (purge : Bool) (frames : List FailedFrame) =>
      ((withRecord attached r).loseCopy 9 purge frames 1).record? 1
    let waited := { lent with recalling := some k, queue := [{ ask9 .exclusive with station := 8 }] }
    after lent false [g] = some { lent with holder := none } ∧
      (after waited false [g]).bind (·.holder.map (·.station)) = some 8 ∧
      after lent false [{ g with msg := .grant ownBlock 2 .exclusive false tag0 }] = some lent.damaged ∧
      after lent false [{ g with owner := .station }] = some lent.damaged ∧ after lent true [g] = some lent.damaged := by
  decide +kernel

/-- The holder's answers to a recall begun for a waiting request, and those that come while its RETURNED is held. -/
theorem witness_AnswersOfTheHolder_recalled :
    let k : Recall := { kind := .surrender, awaiting := [9], sends := 1, timer := .start }
    let r := { lent with recalling := some k, queue := [{ ask9 .exclusive with station := 8 }] }
    let busy := { r with holder := some { holder9 with writes := 1 } }
    let held := { lent with holder := some { holder9 with writes := 1, held := some { kept := false, count := 1 } } }
    let after := fun (r : DirRecord) (m : Lease) (i : Instr) => next? (exec i (withRecord (withFrame attached m) r))
    let sent := fun (o : Option State) => o.map fun t => t.txq.map (·.msg)
    let record := fun (o : Option State) => o.bind fun t => t.record? 1
    hands (withRecord (withFrame attached (.returned ownBlock 3 false 0)) r) 9 (.returned ownBlock 3 false 0) = true ∧
      sent (after r (.dropped ownBlock 3) .dropped) = some [.deny ownBlock .damaged tag0] ∧
      sent (after r (.notHeld ownBlock 3) .notHeld) = some [.deny ownBlock .damaged tag0] ∧
      sent (after r (.returned ownBlock 3 false 5) .returned) = some [.deny ownBlock .damaged tag0] ∧
      sent (after r (.returned ownBlock 3 false 0) .returned) = some [.grant ownBlock 4 .exclusive true tag0] ∧
      (record (after busy (.returned ownBlock 3 false 1) .returned)).bind (·.recalling.map (·.timer.mode)) = some .stopped ∧
      (record (next? (exec .chunkAtHome (withRecord (withChunk attached (.chunk ownBlock 3 0)) r)))).bind
        (·.holder.map (·.writes)) = some 1 ∧
      record (after held (.dropped ownBlock 3) .dropped) = some held ∧
      record (after held (.notHeld ownBlock 3) .notHeld) = some held ∧
      record (after held (.returned ownBlock 3 true 1) .returned) = some held ∧
      record (next? (exec .chunkAtHome (withRecord (withChunk attached (.chunk ownBlock 3 31)) held))) = some held := by
  decide +kernel

/-- The last write with a RETURNED held and a request waiting, the lost holder's last write, and the end of a fill with a recall
deferred, in the hold period and with a hold period of 0. -/
theorem witness_CompletedWriteIsCounted_clauses :
    let m := Move.write 0 1 5 (.home 1 9 3) true
    let back := fun (n : Fin 33) => { holder9 with writes := 1, held := some { kept := false, count := n } }
    let k : Recall := { kind := .surrender, awaiting := [9], sends := 1, timer := .start }
    let r := fun (n : Fin 33) => { lent with
      holder := some (back n), recalling := some k, queue := [{ ask9 .exclusive with station := 8 }] }
    let lost := fun (n : Fin 33) => ({ DirRecord.initial with gen := 3, lost := some (back n) } : DirRecord)
    let ends := fun (r : DirRecord) => next? (exec .chunkWriteMoveEnd (withMove (withRecord attached r) m))
    let sent := fun (r : DirRecord) => (ends r).map fun t => t.txq.map (·.msg)
    let record := fun (r : DirRecord) => (ends r).bind fun t => t.record? 1
    let fill := fun (s : State) (kind : RecallKind) (mode : Mode) => (next? (exec .chunkWriteMoveEnd (withMove (withClaim s
      { fillingOn farBlock with
        received := (List.finRange 32).take 31, sought := some mode, deferred := some (kind, 7) })
      (.write 0 2 31 (.claim 0 3 7) true)))).map fun t => ((t.claim 0).state, t.txq.map (·.msg))
    let none0 : State := { attached with startRec := attached.startRec.set 4 0 }
    sent (r 1) = some [.grant ownBlock 4 .exclusive true tag0] ∧ sent (r 2) = some [.deny ownBlock .damaged tag0] ∧
      (record (lost 1)).map DirRecord.state = some .atHome ∧ (record (lost 2)).map DirRecord.state = some .damaged ∧
      fill attached .drop .shared = some (.held, []) ∧ fill none0 .drop .shared = some (.dropping, [.dropped farBlock 7]) ∧
      fill none0 .surrender .exclusive = some (.returning, [.returned farBlock 7 false 0]) ∧
      fill none0 .demote .exclusive = some (.demoting, [.returned farBlock 7 true 0]) := by decide +kernel

/-- The end of a transfer with a request waiting: the next head is served. -/
theorem witness_StrippedCopyIsTheOutcome_queue :
    let chunk := { flying (.chunk ownBlock 3 31) .directory with buf := some 0 }
    let outBuf := attached.outBuf.set 0 (.full (List.replicate 256 7))
    let s := withRecord { attached with txq := [chunk], outBuf := outBuf } { lent with
      transfer := some { target := 9, mode := .exclusive, tag := tag0, next := 32 },
      queue := [{ ask9 .exclusive with station := 8 }] }
    s.txq.findIdx? (s.awaits { s.entryFrame chunk with hop := 3, resp := 1 }) = some 0 ∧
      ((s.record? 1).bind (·.transfer)).any (·.target == chunk.dest) = true ∧
      (s.outcomeTaken 0 chunk).settleEvent.txq.map (·.msg) = [.recallCopy ownBlock 3 .surrender] := by decide +kernel

/-- A frame held for the self probe: handled after the announcements, or discarded. -/
theorem witness_SelfProbeOutcomes_held :
    let e := { TxEntry.fresh 4 .announce .station none .circulating with returnTimer := .start }
    let held : RxEntry := { frame := { encodeLease 9 2 4 (.withdraw ownBlock tag0) [] with resp := 0 }, buf := none }
    let s : State := withRecord { attached with
      station := .joining, txq := [e], probeOutstanding := true, heldFrame := some held,
      lifeCmd := some { seq := 0, code := 1, tag := 0 } } { lent with queue := [ask9 .shared] }
    let back := fun (r : Byte) => next? (exec (.frameReceived (copyOf s e r)) s)
    sourceOf s.own held.frame.src = some 9 ∧ decodeLease held.frame = some (.withdraw ownBlock tag0) ∧
      (back 0).map (fun t => (t.txq.length, t.txq.getLast?.map (·.msg), t.heldFrame, (t.peers.get 9).presence)) =
        some (16, some (.withdrawn ownBlock tag0), none, .present) ∧
      (back 1).map (fun t => (t.station, t.heldFrame)) = some (.unconfigured, none) := by decide +kernel

end Sys2Proof.Tests
end

section
/-! PROOFS. UNMAP (R152, R174): it empties its entry, and the CLAIM item of an ENDED claim goes with the last reference. -/

namespace Sys2Proof.Machine

variable (s : State)

/-! ### A command taken, and its completion, leave the rest of the part alone -/

@[simp] theorem State.removeHead_outside : s.removeHead.outside = { s.outside with cmdq := s.cmdq.tail } := rfl
@[simp] theorem State.removeHead_window : s.removeHead.window = s.window := rfl
@[simp] theorem State.removeHead_cplq : s.removeHead.cplq = s.cplq := rfl
@[simp] theorem State.removeHead_claim (c : ClaimIdx) : s.removeHead.claim c = s.claim c := rfl

section
variable (t : Ticket) (st : Status) (cl : Option ClaimIdx) (g : Option Byte) (w : Option Word)

@[simp] theorem State.complete_outside : (s.complete t st cl g w).outside = s.outside := rfl
@[simp] theorem State.complete_window : (s.complete t st cl g w).window = s.window := rfl
@[simp] theorem State.complete_cplq : (s.complete t st cl g w).cplq = s.cplq ++ [.plain t st cl g w] := rfl
@[simp] theorem State.complete_attention : (s.complete t st cl g w).attention = s.attention := rfl
@[simp] theorem State.complete_claim (c : ClaimIdx) : (s.complete t st cl g w).claim c = s.claim c := rfl
@[simp] theorem State.complete_refCount (c : ClaimIdx) : (s.complete t st cl g w).refCount c = s.refCount c := rfl

end

/-! ### The CLAIM item of a claim that loses its last reference (R70) -/

theorem State.subject_ne_of_mem_removeItem {u : Subject} {i : Item} (h : i ∈ (s.removeItem u).attention) :
    i.subject ≠ u := by
  simpa using (List.mem_filter.mp h).2

theorem State.dropReference_refCount (c d : ClaimIdx) : (s.dropReference c).refCount d = s.refCount d := by
  unfold State.dropReference
  split <;> rfl

/-- An ENDED claim that no entry names any more takes its item with it. -/
theorem State.dropReference_clears_item {c : ClaimIdx} (hended : (s.claim c).state = .ended) (hrefs : s.refCount c = 0) :
    ∀ i ∈ (s.dropReference c).attention, i.subject ≠ .claim c := by
  unfold State.dropReference
  rw [if_pos ⟨hended, hrefs⟩]
  exact fun _ => State.subject_ne_of_mem_removeItem _

theorem State.setMapping_of_claim {e : EntryIdx} {c : ClaimIdx} (hc : (s.window.get e).claim = some c)
    (m : Option (Target × Limit)) :
    s.setMapping e m = ((s.setEntry e { mapping := m, fault := none }).removeItem (.entry e)).dropReference c := by
  unfold State.setMapping
  simp only [hc]

/-- The item's half of `State.setMapping_spec`: the mapping that takes an ENDED claim's last reference removes its item. -/
theorem State.setMapping_clears_claim_item {e : EntryIdx} {c : ClaimIdx} (m : Option (Target × Limit))
    (hc : (s.window.get e).claim = some c) (hended : (s.claim c).state = .ended)
    (hrefs : (s.setMapping e m).refCount c = 0) : ∀ i ∈ (s.setMapping e m).attention, i.subject ≠ .claim c := by
  rw [s.setMapping_of_claim hc m] at hrefs ⊢
  rw [State.dropReference_refCount] at hrefs
  exact State.dropReference_clears_item _ hended hrefs

/-! ### UNMAP -/

theorem State.doUnmap_badArgument {q : Queued} (h : argIndex32 q.record.argA = none) :
    s.doUnmap q = s.answer q .badArgument := by
  unfold State.doUnmap
  rw [h]

theorem State.doUnmap_entry {q : Queued} {e : EntryIdx} (h : argIndex32 q.record.argA = some e) :
    s.doUnmap q = (s.setMapping e none).complete q.ticket .ok (s.window.get e).claim none none := by
  unfold State.doUnmap
  rw [h]

/-- In a started station the row takes the UNMAP at the head. -/
theorem exec_unmap_taken {s : State} {q : Queued} (hq : s.takeable = some q) (hcode : isCode 10 q.record = true)
    (hstarted : s.station ≠ .unconfigured) : exec .unmap s = .next (s.removeHead.doUnmap q).settleEvent := by
  have hrow : exec .unmap s = .next (s.takeRow (isCode 10) fun s q => s.ifStarted q State.doUnmap) := rfl
  rw [hrow, State.takeRow_eq hq hcode, State.ifStarted_started hstarted]

/-- Settles O33: the effect on the entry and the claim is `State.setMapping_spec` with the item's part beside it, and the
completion that follows touches neither. -/
theorem unmapEmptiesTheEntry : Obligations.UnmapEmptiesTheEntry := by
  intro s q hq hcode hstarted
  rw [exec_unmap_taken hq hcode hstarted]
  refine ⟨fun hbad => by rw [State.doUnmap_badArgument _ hbad], fun e he => ⟨_, rfl, ?_⟩⟩
  rw [State.doUnmap_entry _ he]
  have hspec := s.removeHead.setMapping_spec e none
  have hitem := fun c => s.removeHead.setMapping_clears_claim_item (e := e) (c := c) none
  simp only [State.removeHead_outside, State.removeHead_window, State.removeHead_cplq, State.removeHead_claim]
    at hspec hitem ⊢
  obtain ⟨hout, hentry, hcpl, hother, hfreed, hkept⟩ := hspec
  have hwindow : (s.removeHead.setMapping e none).window = s.window.set e.val .empty e.isLt := congrArg Outside.window hout
  simp only [State.complete_outside, State.complete_window, State.complete_cplq, State.complete_attention,
    State.complete_claim, State.complete_refCount]
  refine ⟨hwindow, ?outside, ?completion, hentry, hother, ?freed, hkept⟩
  case outside => rw [hout, hwindow]; rfl
  case completion => rw [hcpl]
  case freed => exact fun c hc hended hrefs => ⟨hfreed c hc hended hrefs, hitem c hc hended hrefs⟩

end Sys2Proof.Machine
end

section
/-! PROOFS. ACK (R150, R185): it removes the head of the attention list when its subject code is the one written, and
re-arms the entry of an ENTRY item. INT# (R187): it follows the two queues and their enables. -/

namespace Sys2Proof.Machine

variable {s : State} {i : Item} {rest : List Item} {code : Nat}

/-! ### An entry re-armed: its fault is dropped, its target kept -/

def Entry.rearmed (v : Entry) : Entry := { v with fault := none }

theorem Entry.rearmed_state (v : Entry) :
    v.rearmed.state = if v.mapping.isSome then .active else .empty := rfl

/-! ### What an acknowledgement of a subject code does, by the head of the list -/

theorem State.ackSubject_nil (hnil : s.attention = []) : s.ackSubject code = s := by
  unfold State.ackSubject
  rw [hnil]

theorem State.ackSubject_mismatch (hlist : s.attention = i :: rest) (hcode : i.subject.code ≠ code) :
    s.ackSubject code = s := by
  unfold State.ackSubject
  rw [hlist]
  exact if_neg hcode

theorem State.ackSubject_entry {e : EntryIdx} (hlist : s.attention = i :: rest) (hcode : i.subject.code = code)
    (hsubject : i.subject = .entry e) :
    s.ackSubject code = { s with attention := rest }.setEntry e (s.window.get e).rearmed := by
  unfold State.ackSubject
  rw [hlist]
  refine (if_pos hcode).trans ?_
  rw [hsubject]
  rfl

theorem State.ackSubject_not_entry (hlist : s.attention = i :: rest) (hcode : i.subject.code = code)
    (hsubject : ∀ e, i.subject ≠ .entry e) : s.ackSubject code = { s with attention := rest } := by
  unfold State.ackSubject
  rw [hlist]
  refine (if_pos hcode).trans ?_
  split
  case h_1 e he => exact absurd he (hsubject e)
  case h_2 => rfl

/-! ### ACK -/

/-- With RST# released and the low byte enabled, the write acknowledges the code in bits 7:0. -/
theorem exec_ack_taken (ld : Word) {lbe : BitVec 4} (hrst : s.rstHeld = false) (hlow : lbe.getLsbD 0 = true) :
    exec (.ack ld lbe) s = .next (s.ackSubject (ld.extractLsb' 0 8).toNat) := by
  have hrow : exec (.ack ld lbe) s = execAck ld lbe s := rfl
  rw [hrow, execAck, hrst, hlow]
  rfl

/-- Settles O15, by the head of the attention list: none, one of another code, an ENTRY item, any other item. -/
theorem ackRemovesOnlyTheMatchingHead : Obligations.AckRemovesOnlyTheMatchingHead := by
  intro ld lbe s hrst hlow
  rw [exec_ack_taken ld hrst hlow]
  refine ⟨fun hnil => by rw [State.ackSubject_nil hnil], ?_⟩
  intro i rest hlist
  refine ⟨?mismatch, fun hcode => ⟨?entry, ?other⟩⟩
  case mismatch => exact fun hcode => by rw [State.ackSubject_mismatch hlist hcode]
  case other => exact fun hsubject => by rw [State.ackSubject_not_entry hlist hcode hsubject]
  case entry =>
    intro e hsubject
    refine ⟨_, rfl, ?_⟩
    rw [State.ackSubject_entry hlist hcode hsubject]
    have hentry : ({ s with attention := rest }.setEntry e (s.window.get e).rearmed).window.get e =
        (s.window.get e).rearmed := by
      rw [State.window_setEntry, if_pos rfl]
    refine ⟨rfl, ?fault, ?mapping, ?state, ?others⟩
    case fault => rw [hentry]; rfl
    case mapping => rw [hentry]; rfl
    case state => rw [hentry, Entry.rearmed_state]
    case others => exact fun d hd => by rw [State.window_setEntry, if_neg hd.symm]

/-! ### INT# -/

theorem State.completionPending_iff (s : State) : s.completionPending = true ↔ s.cplq ≠ [] := by
  simp [State.completionPending]

theorem State.attentionPending_iff (s : State) : s.attentionPending = true ↔ s.attention ≠ [] := by
  simp [State.attentionPending]

/-- Settles O17: the line is the disjunction of the two enabled queues, each pending exactly when it is not empty. -/
theorem interruptLineFollowsQueuesAndEnables : Obligations.InterruptLineFollowsQueuesAndEnables := by
  intro s
  rw [State.intAsserted, Bool.or_eq_true, Bool.and_eq_true, Bool.and_eq_true, State.completionPending_iff,
    State.attentionPending_iff]

end Sys2Proof.Machine
end

section
/-! PROOFS. The step, and what every step keeps: the row of each command, soundness, the one fault, and memory and software's
registers. -/

namespace Sys2Proof.Machine

/-! ### The rows of the command queue (R161, R192) -/

theorem isCode_iff {k : Nat} {r : CommandRecord} : isCode k r = true ↔ r.code.toNat = k := beq_iff_eq

theorem isInspectBlock_iff {r : CommandRecord} : isInspectBlock r = true ↔ r.code.toNat = 12 ∧ r.argA ≠ 2 := by
  rw [isInspectBlock, Bool.and_eq_true, isCode_iff, bne_iff_ne]

theorem isInspectClaim_iff {r : CommandRecord} : isInspectClaim r = true ↔ r.code.toNat = 12 ∧ r.argA = 2 := by
  rw [isInspectClaim, Bool.and_eq_true, isCode_iff, beq_iff_eq]

theorem isUnknown_iff {r : CommandRecord} : isUnknown r = true ↔ r.code.toNat = 0 ∨ 12 < r.code.toNat := by
  rw [isUnknown, Bool.or_eq_true, isCode_iff, decide_eq_true_iff]

theorem State.runCommand_inspectBlock {q : Queued} (s : State) (h : isInspectBlock q.record = true) :
    s.ifStarted q State.doInspectBlock = s.runCommand q := by
  obtain ⟨hcode, harg⟩ := isInspectBlock_iff.mp h
  have hclaim : isInspectClaim q.record = false :=
    Bool.eq_false_iff.mpr fun hc => harg (isInspectClaim_iff.mp hc).2
  rw [State.runCommand, hcode, hclaim]
  rfl

theorem State.runCommand_inspectClaim {q : Queued} (s : State) (h : isInspectClaim q.record = true) :
    s.ifStarted q State.doInspectClaim = s.runCommand q := by
  rw [State.runCommand, (isInspectClaim_iff.mp h).1, h]
  rfl

theorem State.runCommand_unknown {q : Queued} (s : State) (h : isUnknown q.record = true) :
    s.doUnknown q = s.runCommand q := by
  have hcode := isUnknown_iff.mp h
  unfold State.runCommand
  split
  case h_13 => rfl
  all_goals omega

/-- The action of a command row is that of the command unit on the commands of the row. -/
theorem exec_commandRow {row : Instr × (CommandRecord → Bool)} (hrow : row ∈ commandRows) :
    ∃ act : State → Queued → State, (∀ s, exec row.1 s = .next (s.takeRow row.2 act)) ∧
      ∀ s q, row.2 q.record = true → act s q = s.runCommand q := by
  simp only [commandRows, List.mem_cons, List.not_mem_nil, or_false] at hrow
  rcases hrow with rfl | rfl | rfl | rfl | rfl | rfl | rfl | rfl | rfl | rfl | rfl | rfl | rfl | rfl
  all_goals refine ⟨_, fun s => rfl, fun s q h => ?_⟩
  iterate 11
    · rw [State.runCommand, isCode_iff.mp h]
      rfl
  · exact s.runCommand_inspectBlock h
  · exact s.runCommand_inspectClaim h
  · exact s.runCommand_unknown h

/-- Every command is one row's. -/
theorem commandRow_of_record (r : CommandRecord) : ∃ row ∈ commandRows, row.2 r = true := by
  refine Classical.byContradiction fun hnone => ?_
  simp only [commandRows, List.mem_cons, List.not_mem_nil, or_false, exists_eq_or_imp, exists_eq_left, isCode_iff,
    isInspectBlock_iff, isInspectClaim_iff, isUnknown_iff] at hnone
  omega

/-! ### Soundness, command by command -/

/-- The buffer reserved for a chunk is free, and so is an entry of the transmit queue (R102). -/
theorem State.chunkRoom_spec {s : State} {b : Fin 4} (h : s.chunkRoom = some b) :
    s.outBuf.get b = .free ∧ s.txq.length < Config.txCapacity := by
  unfold State.chunkRoom at h
  split at h
  · rename_i hroom
    simp only [Bool.and_eq_true, decide_eq_true_eq] at hroom
    have hfree := List.find?_some (p := fun b => s.outBuf.get b == .free) h
    exact ⟨eq_of_beq hfree, hroom.1.2⟩
  · cases h

namespace State.Sound

variable {s t : State}

theorem exec_commandRow {row : Instr × (CommandRecord → Bool)} (hs : s.Sound) (hrow : row ∈ commandRows)
    (h : exec row.1 s = .next t) : t.Sound := by
  obtain ⟨act, hexec, hact⟩ := Machine.exec_commandRow hrow
  rw [hexec] at h
  cases h
  exact hs.takeRow _ _ hact

theorem claim_tickets_atReset (c : ClaimIdx) : (State.reset.claim c).tickets = 0 := by
  unfold State.claim
  rw [get_eq_getElem]
  simp only [State.reset, Vector.getElem_replicate]
  rfl

theorem atReset : State.reset.Sound where
  memory := rfl
  queues := ⟨Nat.zero_le _, Nat.zero_le _, Nat.zero_le _, Nat.zero_le _, Nat.zero_le _⟩
  commands := by
    refine ⟨?_, Nat.zero_le _⟩
    simp only [State.tickets, claim_tickets_atReset]
    exact Nat.le_refl _
  moves := Nat.zero_le _
  items := List.nodup_nil
  faults := fun e => by
    rw [get_eq_getElem]
    simp [State.reset, State.entryListed, Entry.empty]
  outgoing := ⟨List.nodup_nil, fun _ h => absurd h List.not_mem_nil, List.nodup_nil,
    fun _ h => absurd h List.not_mem_nil, fun _ h => absurd h List.not_mem_nil⟩
  inbound := ⟨List.nodup_nil, fun _ h => absurd h List.not_mem_nil⟩

theorem stationResetValues (hs : s.Sound) : s.stationResetValues.Sound :=
  atReset.update (s.wf_interruptedDram _ hs.memory) (Nat.zero_le _) rfl rfl

theorem sampleStraps (hs : s.Sound) (fsel : BitVec 2) : (s.sampleStraps fsel).Sound :=
  hs.update (Memory.wf_below _ _ hs.memory) hs.queues.2.2.2.1 rfl rfl

theorem execStationReset {cause : ResetCause} {fsel : BitVec 2} (hs : s.Sound)
    (h : execStationReset cause fsel s = .next t) : t.Sound := by
  unfold Machine.execStationReset at h
  split at h
  · cases h
    exact hs.stationResetValues.same rfl rfl rfl rfl
  · cases h
    split
    · exact hs.stationResetValues.sampleStraps fsel
    · exact hs

/-! ### The window -/

theorem endAtOnce (hs : s.Sound) (lwr : Bool) : (s.endAtOnce lwr).Sound := hs.same rfl rfl rfl rfl

theorem takeAccess (hs : s.Sound) (la : BitVec 16) (lbe : BitVec 4) (ld : Word) (lwr : Bool) :
    (s.takeAccess la lbe ld lwr).Sound := by
  unfold State.takeAccess
  dsimp only
  split
  · exact hs.endAtOnce lwr
  · split
    · exact ((SoundWith.of_sound hs).refuseAccess _ _).sound
    · rename_i frame owner _
      let waiting : State := { s with access := some {
        frame := frame, owner := owner, word := accessWord la, lbe := lbe, data := if lwr then some ld else none } }
      have hwaiting : waiting.Sound := hs.same rfl rfl rfl rfl
      exact hwaiting.within (Within.refl _).arbStart

/-- A granted write marks its chunk at its claim, which has no command more to complete. -/
theorem writeAccess (hs : s.Sound) (a : Access) (w : Word) : (s.writeAccess a w).Sound := by
  have hm : State.Sound { s with dram := s.dram.setCells (a.cells w) } :=
    hs.update (Memory.wf_setCells _ _ hs.memory) hs.queues.2.2.2.1 rfl rfl
  unfold State.writeAccess
  dsimp only
  split
  · exact hm
  · refine hm.within ((Within.refl _).modClaim ?_)
    unfold Claim.marked
    split <;> rfl

theorem carryOut (hs : s.Sound) (a : Access) : (s.carryOut a).Sound := by
  unfold State.carryOut
  split
  · exact hs.same rfl rfl rfl rfl
  · refine State.Sound.endAtOnce ?_ true
    split
    · exact hs.writeAccess a _
    · exact hs

theorem endAccess (hs : s.Sound) (a : Access) : (s.endAccess a).Sound := by
  have hend : (State.arbEnd { s with access := none } .window).Sound := hs.same rfl rfl rfl rfl
  unfold State.endAccess
  dsimp only
  split
  · split
    · exact hend.within (Within.refl _).writeEnded
    · exact hend
  · exact hend

theorem execWindowGrant (hs : s.Sound) (h : execWindowGrant s = .next t) : t.Sound := by
  unfold Machine.execWindowGrant at h
  split at h
  · split at h <;> cases h
    exact ((hs.carryOut _).endAccess _).settleEvent
  · cases h
    exact hs

/-! ### The ends of chunk moves -/

theorem execChunkReadMoveEnd (hs : s.Sound) (h : execChunkReadMoveEnd s = .next t) : t.Sound := by
  unfold Machine.execChunkReadMoveEnd at h
  split at h
  · split at h <;> cases h
    exact (hs.readEnds _ _ _ _ ‹_› _).settleEvent
  · cases h
    exact hs

theorem execChunkWriteMoveEnd (hs : s.Sound) (h : execChunkWriteMoveEnd s = .next t) : t.Sound := by
  unfold Machine.execChunkWriteMoveEnd at h
  split at h
  · rename_i b f c asker report rest _ hmoves
    split at h <;> cases h
    have hend := hs.writeEnds b f c asker report rest hmoves _
      (Memory.wf_setBytes (((s.inBuf.get b).getD []).take Config.chunkBytes) s.dram (chunkAddr f c) hs.memory)
    refine State.Sound.settleEvent ?_
    split
    · refine hend.within ?_
      unfold State.reportWrite
      split
      · exact (Within.refl _).homeWritten
      · exact (Within.refl _).claimWritten
    · exact hend
  · cases h
    exact hs

/-! ### The ring port -/

theorem execOwnFrameSend (hs : s.Sound) {outIdle inIdle : Bool} (h : execOwnFrameSend outIdle inIdle s = .next t) :
    t.Sound := by
  cases h
  split
  · split
    · exact hs.sendEntry _ ‹_›
    · exact hs
  · exact hs

theorem execForwardSend (hs : s.Sound) {outIdle : Bool} (h : execForwardSend outIdle s = .next t) : t.Sound := by
  cases h
  split
  · split
    · exact hs.forwardSend _ _ ‹_› _
    · exact hs
  · exact hs

theorem execHandoverAccept (hs : s.Sound) (h : execHandoverAccept s = .next t) : t.Sound := by
  cases h
  split
  · split
    · exact (hs.handoverAccept _ _ ‹_› ‹_›).settleEvent
    · exact hs
  · exact hs

theorem execFrameReceived (hs : s.Sound) {bytes : List Byte} (h : execFrameReceived bytes s = .next t) : t.Sound := by
  cases h
  split
  · exact hs
  · split
    · exact (hs.sortFrame _).settleEvent
    · exact hs

theorem acceptDirChunk (hs : s.Sound) {n : Nat} {b : Fin 4} (hb : s.chunkRoom = some b) :
    (s.acceptDirChunk n b).Sound := by
  obtain ⟨hfree, hroom⟩ := State.chunkRoom_spec hb
  unfold State.acceptDirChunk
  split
  · split
    · exact (hs.acceptChunk _ _ _ _ _ _ _ hfree hroom).within (Within.refl _).dirAccepted
    · exact hs
  · exact hs

theorem acceptClaimChunk (hs : s.Sound) {c : ClaimIdx} {b : Fin 4} (hb : s.chunkRoom = some b) :
    (s.acceptClaimChunk c b).Sound := by
  obtain ⟨hfree, hroom⟩ := State.chunkRoom_spec hb
  unfold State.acceptClaimChunk
  dsimp only
  split
  · split
    · exact (hs.acceptChunk _ _ _ _ _ _ _ hfree hroom).within (Within.refl _).claimAccepted
    · exact hs
  · exact hs

theorem execChunkOfferAccept (hs : s.Sound) (h : execChunkOfferAccept s = .next t) : t.Sound := by
  cases h
  split
  · refine State.Sound.settleEvent ?_
    cases s.dirOffer with
    | none => exact hs
    | some n => exact hs.acceptDirChunk ‹_›
  · refine State.Sound.settleEvent ?_
    cases s.claimOffer with
    | none => exact hs
    | some n => exact hs.acceptClaimChunk ‹_›
  · exact hs

/-! ### Timers -/

theorem setTxEntry {i : Nat} {e f : TxEntry} (hs : s.Sound) (he : s.txq[i]? = some e) (hb : f.buf = e.buf)
    (h1 : e.st ≠ .reading) (h2 : f.st ≠ .reading) : State.Sound { s with txq := s.txq.set i f } :=
  hs.setEntryState i e f he hb h1 h2 rfl rfl

theorem enterStalled (hs : s.Sound) : s.enterStalled.Sound := by
  have hport : State.Sound { s with port := .stalled } := hs.same rfl rfl rfl rfl
  exact hport.within ((Within.refl _).mapPausable.notice Within.stationNoEntry)

theorem execReturnTimerExpiry {entry : Fin 16} (hs : s.Sound) (h : execReturnTimerExpiry entry s = .next t) : t.Sound := by
  cases h
  split
  · rename_i e he
    split
    · rename_i hrun
      have hst : e.st ≠ .reading := fun k => by rw [k] at hrun; exact nomatch hrun.1
      unfold State.returnExpired
      dsimp only
      split
      · have hdue : State.Sound { s with
            txq := s.txq.set entry.val { e with st := .due true, expiry := e.expiry + 1, returnTimer := .off } } :=
          hs.setTxEntry he rfl hst nofun
        split
        · exact hdue.enterStalled
        · exact hdue
      · exact hs.setTxEntry he rfl hst nofun
    · exact hs
  · exact hs

theorem execRetryTimerExpiry {entry : Fin 16} (hs : s.Sound) (h : execRetryTimerExpiry entry s = .next t) : t.Sound := by
  cases h
  split
  · rename_i e he
    split
    · rename_i hrun
      have hst : e.st ≠ .reading := fun k => by rw [k] at hrun; exact nomatch hrun.1
      exact hs.setTxEntry he rfl hst nofun
    · exact hs
  · exact hs

/-- One µs changes timers alone. -/
theorem tick (hs : s.Sound) : s.tick.Sound := by
  have hclaim : ∀ c, (s.tick.claim c).tickets = (s.claim c).tickets := by
    intro c
    unfold State.claim State.tick
    rw [get_eq_getElem, get_eq_getElem, Vector.getElem_map]
    rfl
  have htickets : s.tick.tickets = s.tickets := by
    unfold State.tickets
    simp only [hclaim]
    rfl
  obtain ⟨reads, reserved, entries, reading, filled⟩ := Within.outgoing_map (t := s)
    (f := fun e => { e with
      returnTimer := e.returnTimer.tick Config.returnLimit, retryTimer := e.retryTimer.tick s.retryLimit })
    (fun _ _ => rfl) (fun _ _ => Iff.rfl) hs.outgoing
  refine SoundWith.sound ⟨hs.memory, ⟨?_, hs.queues.2⟩, ⟨?_, hs.commands.2⟩, hs.items, hs.faults,
    ⟨reads, reserved, entries, reading, filled⟩, ⟨hs.inbound.distinct, hs.inbound.occupied⟩⟩
  · exact Nat.le_trans (Nat.le_of_eq (List.length_map _)) hs.queues.1
  · rw [htickets]
    exact hs.commands.1

/-! ### Writes in the register window -/

theorem execWindowAccess {la : BitVec 16} {lbe : BitVec 4} {ld : Word} {lwr : Bool} (hs : s.Sound)
    (h : execWindowAccess la lbe ld lwr s = .next t) : t.Sound := by
  cases h
  split
  · exact hs
  · split
    · exact hs.endAtOnce lwr
    · exact hs.takeAccess la lbe ld lwr

theorem registerWrite (hs : s.Sound) {u : State} {p : Prop} [Decidable p]
    (h : (Host.Outcome.next (if p then u else s) : Host.Outcome State Fault Refusal) = .next t) (hu : u.Sound) : t.Sound := by
  cases h
  split
  · exact hu
  · exact hs

end State.Sound

/-- Every command leaves a sound state sound. -/
theorem State.Sound.exec {s t : State} (hs : s.Sound) (i : Instr) (h : exec i s = .next t) : t.Sound := by
  have command := fun {row : Instr × (CommandRecord → Bool)} => hs.exec_commandRow (t := t) (row := row)
  have handed : ∀ {row : Frame → Bool},
      (Host.Outcome.next (s.handRow row) : Host.Outcome State Fault Refusal) = .next t → t.Sound := by
    intro row h
    cases h
    exact hs.handRow _
  have expired : ∀ {u : State}, u.Sound →
      (Host.Outcome.next u.settleEvent : Host.Outcome State Fault Refusal) = .next t → t.Sound := by
    intro u hu h
    cases h
    exact hu.settleEvent
  cases i with
  | powerOnReset fsel =>
    cases h
    exact State.Sound.atReset.same rfl rfl rfl rfl
  | stationReset cause fsel => exact hs.execStationReset h
  | rstReleased fsel => exact hs.registerWrite h ((hs.sampleStraps fsel).same rfl rfl rfl rfl)
  | post lbe => exact hs.registerWrite h hs.post.takeAll
  | pop lbe => exact hs.registerWrite h hs.pop.takeAll
  | ack ld lbe => exact hs.registerWrite h ((SoundWith.of_sound hs).ackSubject _).sound
  | resetControl ld lbe => exact hs.registerWrite h (hs.same rfl rfl rfl rfl)
  | intEnable ld lbe => exact hs.registerWrite h (hs.same rfl rfl rfl rfl)
  | cmdStage reg ld lbe =>
    cases h
    split
    · exact hs
    · exact hs.same rfl rfl rfl rfl
  | startRecordWrite field ld lbe => exact hs.registerWrite h (hs.same rfl rfl rfl rfl)
  | registerWriteIgnored la ld lbe =>
    cases h
    exact hs
  | start => exact command (row := (.start, isCode 1)) (by simp [commandRows]) h
  | attach => exact command (row := (.attach, isCode 2)) (by simp [commandRows]) h
  | detach => exact command (row := (.detach, isCode 3)) (by simp [commandRows]) h
  | resume => exact command (row := (.resume, isCode 4)) (by simp [commandRows]) h
  | acquire => exact command (row := (.acquire, isCode 5)) (by simp [commandRows]) h
  | upgrade => exact command (row := (.upgrade, isCode 6)) (by simp [commandRows]) h
  | release => exact command (row := (.release, isCode 7)) (by simp [commandRows]) h
  | cancel => exact command (row := (.cancel, isCode 8)) (by simp [commandRows]) h
  | map => exact command (row := (.map, isCode 9)) (by simp [commandRows]) h
  | unmap => exact command (row := (.unmap, isCode 10)) (by simp [commandRows]) h
  | restore => exact command (row := (.restore, isCode 11)) (by simp [commandRows]) h
  | inspectBlock => exact command (row := (.inspectBlock, isInspectBlock)) (by simp [commandRows]) h
  | inspectClaim => exact command (row := (.inspectClaim, isInspectClaim)) (by simp [commandRows]) h
  | unknownCommand => exact command (row := (.unknownCommand, isUnknown)) (by simp [commandRows]) h
  | windowAccess la lbe ld lwr => exact hs.execWindowAccess h
  | windowGrant => exact hs.execWindowGrant h
  | chunkReadMoveEnd => exact hs.execChunkReadMoveEnd h
  | chunkWriteMoveEnd => exact hs.execChunkWriteMoveEnd h
  | frameReceived bytes => exact hs.execFrameReceived h
  | forwardSend outIdle => exact hs.execForwardSend h
  | ownFrameSend outIdle inIdle => exact hs.execOwnFrameSend h
  | returnTimerExpiry entry => exact hs.execReturnTimerExpiry h
  | retryTimerExpiry entry => exact hs.execRetryTimerExpiry h
  | handoverAccept => exact hs.execHandoverAccept h
  | chunkOfferAccept => exact hs.execChunkOfferAccept h
  | recallTimerExpiry block => exact expired (hs.within (Within.refl _).recallExpired) h
  | waitTimerExpiry claim => exact expired (hs.within (Within.refl _).waitExpired) h
  | reaskTimerExpiry claim => exact expired (hs.within (Within.refl _).reaskExpired) h
  | holdTimerExpiry claim => exact expired (hs.within (Within.refl _).holdExpired) h
  | ask => exact handed h
  | withdraw => exact handed h
  | withdrawn => exact handed h
  | grant => exact handed h
  | deny => exact handed h
  | chunkAtHome => exact handed h
  | chunkAtClaim => exact handed h
  | recallCopy => exact handed h
  | dropped => exact handed h
  | returned => exact handed h
  | notHeld => exact handed h
  | announce => exact handed h
  | unknownKindFrame => exact handed h

/-- Settles O3. -/
theorem resetStateIsSound : Obligations.ResetStateIsSound := State.Sound.atReset

/-- Settles O4, by the command at the front of the queue: `State.Sound.exec`, and one µs of the time base on an empty queue. -/
theorem everyStepKeepsSoundness : Obligations.EveryStepKeepsSoundness := by
  intro s t hs h
  unfold step at h
  split at h
  · refine State.Sound.exec ?_ _ h
    exact hs.same rfl rfl rfl rfl
  · cases h
    exact hs.tick

/-- Settles O1: `step` is defined by the front of the queue. -/
theorem stepRunsFrontCommand : Obligations.StepRunsFrontCommand := by
  intro s c rest hpending
  rw [step, hpending]

/-- Settles O2: `State.tick`, read claim by claim. -/
theorem emptyQueueStepCountsOneMicrosecond : Obligations.EmptyQueueStepCountsOneMicrosecond := by
  intro s hpending
  refine ⟨s.tick, by rw [step, hpending], fun c => ?_, rfl, rfl, rfl⟩
  unfold State.claim State.tick
  rw [get_eq_getElem, get_eq_getElem, Vector.getElem_map]

end Sys2Proof.Machine
end

section
/-! PROOFS. The one fault, the end of an event, and what changes memory and the registers that software writes. -/

namespace Sys2Proof.Machine

/-- Settles O5, by the command: three arms of `exec` test the frame they are granted, and every other arm answers a next
state. -/
theorem onlyGrantsBeyondReachStop : Obligations.OnlyGrantsBeyondReachStop := by
  intro i s
  cases i
  case stationReset cause fsel => exact .inl (by cases cause <;> exact ⟨_, rfl⟩)
  case windowGrant =>
    show (∃ t, execWindowGrant s = .next t) ∨ execWindowGrant s = .fault .dramBeyondReach ∧ _
    unfold execWindowGrant
    split
    · rename_i a hport haccess
      split
      · exact .inr ⟨rfl, .inl ⟨rfl, hport, a, haccess, ‹_›⟩⟩
      · exact .inl ⟨_, rfl⟩
    · exact .inl ⟨_, rfl⟩
  case chunkReadMoveEnd =>
    show (∃ t, execChunkReadMoveEnd s = .next t) ∨ execChunkReadMoveEnd s = .fault .dramBeyondReach ∧ _
    unfold execChunkReadMoveEnd
    split
    · rename_i b f c rest hport hmoves
      split
      · exact .inr ⟨rfl, .inr (.inl ⟨rfl, hport, b, f, c, rest, hmoves, ‹_›⟩)⟩
      · exact .inl ⟨_, rfl⟩
    · exact .inl ⟨_, rfl⟩
  case chunkWriteMoveEnd =>
    show (∃ t, execChunkWriteMoveEnd s = .next t) ∨ execChunkWriteMoveEnd s = .fault .dramBeyondReach ∧ _
    unfold execChunkWriteMoveEnd
    split
    · rename_i b f c k r rest hport hmoves
      split
      · exact .inr ⟨rfl, .inr (.inr ⟨rfl, hport, b, f, c, k, r, rest, hmoves, ‹_›⟩)⟩
      · exact .inl ⟨_, rfl⟩
    · exact .inl ⟨_, rfl⟩
  all_goals exact .inl ⟨_, rfl⟩

/-- Settles O6: an event's end stays inside the exchanges. -/
theorem endOfEventKeepsOutside : Obligations.EndOfEventKeepsOutside := State.outside_settleEvent

/-! ### Memory, and the registers that software writes -/

/-- The registers that software writes, with the pins: what is kept, but for the buses, the access and the memory. -/
def State.registers (s : State) : Outside := { s.kept with busRead := none, rout := [], access := none, dram := [] }

theorem State.registers_of_kept {s t : State} (h : t.kept = s.kept) : t.registers = s.registers := by
  unfold State.registers
  rw [h]

/-- What a command may change: no register, and memory only if the command is a grant that writes. -/
structure KeepsRegisters (i : Instr) (s t : State) : Prop where
  registers : t.registers = s.registers
  memory : i ≠ .windowGrant → i ≠ .chunkWriteMoveEnd → t.dram = s.dram

theorem KeepsRegisters.of_kept {i : Instr} {s t : State} (h : t.kept = s.kept) : KeepsRegisters i s t :=
  ⟨State.registers_of_kept h, fun _ _ => congrArg Outside.dram h⟩

theorem State.readByte_congr {s t : State} (hd : t.dram = s.dram) (he : t.dramEpoch = s.dramEpoch) (a : Nat) :
    t.readByte a = s.readByte a := by
  unfold State.readByte
  rw [hd, he]

theorem KeepsRegisters.readByte {i : Instr} {s t : State} (h : KeepsRegisters i s t) (h1 : i ≠ .windowGrant)
    (h2 : i ≠ .chunkWriteMoveEnd) (a : Nat) : t.readByte a = s.readByte a :=
  State.readByte_congr (h.memory h1 h2) (congrArg Outside.dramEpoch h.registers) a

theorem State.kept_takeAccess_registers (s : State) (la : BitVec 16) (lbe : BitVec 4) (ld : Word) (lwr : Bool) :
    (s.takeAccess la lbe ld lwr).registers = s.registers ∧ (s.takeAccess la lbe ld lwr).dram = s.dram := by
  unfold State.takeAccess State.refuseAccess State.startAccess
  dsimp only
  split
  · exact ⟨rfl, rfl⟩
  · split
    · rw [State.notice_eq]
      exact ⟨rfl, rfl⟩
    · rw [State.arbStart_eq]
      exact ⟨rfl, rfl⟩

theorem State.registers_carryOut (s : State) (a : Access) : (s.carryOut a).registers = s.registers := by
  unfold State.carryOut
  split
  · rfl
  · split
    · unfold State.writeAccess
      dsimp only
      split <;> rfl
    · rfl

theorem State.kept_endAccess_registers (s : State) (a : Access) : (s.endAccess a).registers = s.registers := by
  unfold State.endAccess
  dsimp only
  split
  · split
    · rw [State.registers_of_kept (State.kept_of_internal (Within.refl (State.arbEnd _ _)).writeEnded)]
      rfl
    · rfl
  · rfl

theorem execWindowGrant_keepsRegisters {s t : State} (h : execWindowGrant s = .next t) :
    KeepsRegisters .windowGrant s t := by
  refine ⟨?_, fun h => absurd rfl h⟩
  unfold execWindowGrant at h
  split at h
  · split at h <;> cases h
    rw [State.registers_of_kept (State.kept_settleEvent _), State.kept_endAccess_registers, State.registers_carryOut]
  · cases h
    rfl

theorem execChunkReadMoveEnd_kept {s t : State} (h : execChunkReadMoveEnd s = .next t) : t.kept = s.kept := by
  unfold execChunkReadMoveEnd at h
  split at h
  · split at h <;> cases h
    rw [State.kept_settleEvent]
    unfold State.payloadRead
    split <;> rfl
  · cases h
    rfl

theorem execChunkWriteMoveEnd_keepsRegisters {s t : State} (h : execChunkWriteMoveEnd s = .next t) :
    KeepsRegisters .chunkWriteMoveEnd s t := by
  refine ⟨?_, fun _ h => absurd rfl h⟩
  unfold execChunkWriteMoveEnd at h
  split at h
  · split at h <;> cases h
    rw [State.registers_of_kept (State.kept_settleEvent _)]
    split
    · unfold State.reportWrite
      split
      · rw [State.registers_of_kept (State.kept_of_internal (Within.refl _).homeWritten)]
        rfl
      · rw [State.registers_of_kept (State.kept_of_internal (Within.refl _).claimWritten)]
        rfl
    · rfl
  · cases h
    rfl

theorem State.kept_acceptChunk (s : State) (d : Station) (m : Lease) (o : Owner) (b : Fin 4) (f : Nat) (c : ChunkIdx)
    (next : Offerer) : (s.acceptChunk d m o b f c next).kept = s.kept := by
  unfold State.acceptChunk
  dsimp only
  rw [State.raiseMove_eq]
  rfl

theorem State.kept_acceptDirChunk (s : State) (n : Nat) (b : Fin 4) : (s.acceptDirChunk n b).kept = s.kept := by
  unfold State.acceptDirChunk
  split
  · split
    · rw [State.kept_of_internal (Within.refl _).dirAccepted, State.kept_acceptChunk]
    · rfl
  · rfl

theorem State.kept_acceptClaimChunk (s : State) (c : ClaimIdx) (b : Fin 4) : (s.acceptClaimChunk c b).kept = s.kept := by
  unfold State.acceptClaimChunk
  dsimp only
  split
  · split
    · rw [State.kept_of_internal (Within.refl _).claimAccepted, State.kept_acceptChunk]
    · rfl
  · rfl

theorem execChunkOfferAccept_kept {s t : State} (h : execChunkOfferAccept s = .next t) : t.kept = s.kept := by
  cases h
  split
  · rw [State.kept_settleEvent]
    cases s.dirOffer with
    | none => rfl
    | some n => exact State.kept_acceptDirChunk s n _
  · rw [State.kept_settleEvent]
    cases s.claimOffer with
    | none => rfl
    | some n => exact State.kept_acceptClaimChunk s _ _
  · rfl

theorem execReturnTimerExpiry_kept {entry : Fin 16} {s t : State} (h : execReturnTimerExpiry entry s = .next t) :
    t.kept = s.kept := by
  cases h
  unfold State.returnExpired
  dsimp only
  repeat' split
  · refine (State.kept_of_internal ((Within.refl _).mapPausable.notice Within.stationNoEntry)).trans ?_
    rfl
  all_goals rfl

/-- No command but a reset and a write in the register window changes a register that software writes; only the grants that
write change memory. -/
theorem exec_keepsRegisters {i : Instr} {s t : State} (h : exec i s = .next t) (hreset : ∀ f, i ≠ .powerOnReset f)
    (hstation : ∀ c f, i ≠ .stationReset c f) (hrelease : ∀ f, i ≠ .rstReleased f)
    (hwrite : Laws.OperandChecks.registerWrite i = false) : KeepsRegisters i s t := by
  have command : ∀ {row : Instr × (CommandRecord → Bool)}, row ∈ commandRows → exec row.1 s = .next t →
      t.kept = s.kept := by
    intro row hrow h
    obtain ⟨act, hexec, hact⟩ := exec_commandRow hrow
    rw [hexec] at h
    cases h
    exact State.kept_takeRow _ _ _ hact
  have handed : ∀ {row : Frame → Bool}, (Host.Outcome.next (s.handRow row) : Host.Outcome State Fault Refusal) = .next t →
      KeepsRegisters i s t := by
    intro row h
    cases h
    exact .of_kept (State.kept_handRow _ _)
  have expired : ∀ {u : State}, (Host.Outcome.next u.settleEvent : Host.Outcome State Fault Refusal) = .next t →
      Internal s u → KeepsRegisters i s t := by
    intro u h hu
    cases h
    exact .of_kept ((State.kept_settleEvent u).trans (State.kept_of_internal hu))
  cases i with
  | powerOnReset fsel => exact absurd rfl (hreset _)
  | stationReset cause fsel => exact absurd rfl (hstation _ _)
  | rstReleased fsel => exact absurd rfl (hrelease _)
  | post lbe => cases hwrite
  | pop lbe => cases hwrite
  | ack ld lbe => cases hwrite
  | resetControl ld lbe => cases hwrite
  | intEnable ld lbe => cases hwrite
  | cmdStage reg ld lbe => cases hwrite
  | startRecordWrite field ld lbe => cases hwrite
  | registerWriteIgnored la ld lbe => cases hwrite
  | start => exact .of_kept (command (row := (.start, isCode 1)) (by simp [commandRows]) h)
  | attach => exact .of_kept (command (row := (.attach, isCode 2)) (by simp [commandRows]) h)
  | detach => exact .of_kept (command (row := (.detach, isCode 3)) (by simp [commandRows]) h)
  | resume => exact .of_kept (command (row := (.resume, isCode 4)) (by simp [commandRows]) h)
  | acquire => exact .of_kept (command (row := (.acquire, isCode 5)) (by simp [commandRows]) h)
  | upgrade => exact .of_kept (command (row := (.upgrade, isCode 6)) (by simp [commandRows]) h)
  | release => exact .of_kept (command (row := (.release, isCode 7)) (by simp [commandRows]) h)
  | cancel => exact .of_kept (command (row := (.cancel, isCode 8)) (by simp [commandRows]) h)
  | map => exact .of_kept (command (row := (.map, isCode 9)) (by simp [commandRows]) h)
  | unmap => exact .of_kept (command (row := (.unmap, isCode 10)) (by simp [commandRows]) h)
  | restore => exact .of_kept (command (row := (.restore, isCode 11)) (by simp [commandRows]) h)
  | inspectBlock => exact .of_kept (command (row := (.inspectBlock, isInspectBlock)) (by simp [commandRows]) h)
  | inspectClaim => exact .of_kept (command (row := (.inspectClaim, isInspectClaim)) (by simp [commandRows]) h)
  | unknownCommand => exact .of_kept (command (row := (.unknownCommand, isUnknown)) (by simp [commandRows]) h)
  | windowAccess la lbe ld lwr =>
    cases h
    split
    · exact .of_kept rfl
    · split
      · exact ⟨rfl, fun _ _ => rfl⟩
      · obtain ⟨hregisters, hdram⟩ := s.kept_takeAccess_registers la lbe ld lwr
        exact ⟨hregisters, fun _ _ => hdram⟩
  | windowGrant => exact execWindowGrant_keepsRegisters h
  | chunkReadMoveEnd => exact .of_kept (execChunkReadMoveEnd_kept h)
  | chunkWriteMoveEnd => exact execChunkWriteMoveEnd_keepsRegisters h
  | frameReceived bytes =>
    cases h
    split
    · exact .of_kept rfl
    · split
      · exact .of_kept ((State.kept_settleEvent _).trans (State.kept_sortFrame s _))
      · exact .of_kept rfl
  | forwardSend outIdle =>
    cases h
    repeat' split
    all_goals exact ⟨rfl, fun _ _ => rfl⟩
  | ownFrameSend outIdle inIdle =>
    cases h
    unfold State.sendEntry
    repeat' split
    all_goals exact ⟨rfl, fun _ _ => rfl⟩
  | returnTimerExpiry entry => exact .of_kept (execReturnTimerExpiry_kept h)
  | retryTimerExpiry entry =>
    cases h
    repeat' split
    all_goals exact .of_kept rfl
  | handoverAccept =>
    cases h
    split
    · split
      · exact .of_kept ((State.kept_settleEvent _).trans rfl)
      · exact .of_kept rfl
    · exact .of_kept rfl
  | chunkOfferAccept => exact .of_kept (execChunkOfferAccept_kept h)
  | recallTimerExpiry block => exact expired h (Within.refl s).recallExpired
  | waitTimerExpiry claim => exact expired h (Within.refl s).waitExpired
  | reaskTimerExpiry claim => exact expired h (Within.refl s).reaskExpired
  | holdTimerExpiry claim => exact expired h (Within.refl s).holdExpired
  | ask => exact handed h
  | withdraw => exact handed h
  | withdrawn => exact handed h
  | grant => exact handed h
  | deny => exact handed h
  | chunkAtHome => exact handed h
  | chunkAtClaim => exact handed h
  | recallCopy => exact handed h
  | dropped => exact handed h
  | returned => exact handed h
  | notHeld => exact handed h
  | announce => exact handed h
  | unknownKindFrame => exact handed h

theorem State.kept_takeAll (s : State) : s.takeAll.kept = s.kept := State.kept_takeLoop _ _

theorem State.kept_ackSubject_registers (s : State) (code : Nat) :
    (s.ackSubject code).registers = s.registers ∧ (s.ackSubject code).dram = s.dram := by
  unfold State.ackSubject
  repeat' split
  all_goals exact ⟨rfl, rfl⟩

/-- What O7 allows command `i` to change on the way from `s` to `t`. -/
def ChangedByOwnCommands (i : Instr) (s t : State) : Prop :=
  (i ≠ .windowGrant → i ≠ .chunkWriteMoveEnd → ∀ a, t.readByte a = s.readByte a) ∧
  ((∀ r d l, i ≠ .cmdStage r d l) → t.staging = s.staging) ∧
  ((∀ r d l, i ≠ .startRecordWrite r d l) → t.startRec = s.startRec) ∧
  ((∀ d l, i ≠ .intEnable d l) → t.cplEnable = s.cplEnable ∧ t.attEnable = s.attEnable) ∧
  ((∀ l, i ≠ .post l) → t.seqNext = s.seqNext ∧ t.postResult = s.postResult) ∧
  ((∀ d l, i ≠ .resetControl d l) → t.resetRequested = s.resetRequested) ∧
  t.straps = s.straps ∧ t.rstHeld = s.rstHeld

theorem KeepsRegisters.changedByOwnCommands {i : Instr} {s t : State} (hk : KeepsRegisters i s t) :
    ChangedByOwnCommands i s t :=
  have hr := hk.registers
  ⟨fun h1 h2 => hk.readByte h1 h2, fun _ => congrArg Outside.staging hr, fun _ => congrArg Outside.startRec hr,
    fun _ => ⟨congrArg Outside.cplEnable hr, congrArg Outside.attEnable hr⟩,
    fun _ => ⟨congrArg Outside.seqNext hr, congrArg Outside.postResult hr⟩,
    fun _ => congrArg Outside.resetRequested hr, congrArg Outside.straps hr, congrArg Outside.rstHeld hr⟩

theorem ChangedByOwnCommands.of_kept {i : Instr} {s t : State} (h : t.kept = s.kept) : ChangedByOwnCommands i s t :=
  (KeepsRegisters.of_kept h).changedByOwnCommands

/-- POST sets its counter and its result; the commands then taken keep what is kept. -/
theorem changedBy_post (lbe : BitVec 4) (s : State) : ChangedByOwnCommands (.post lbe) s s.post.takeAll := by
  have hk : s.post.takeAll.kept = { s.kept with seqNext := s.post.seqNext, postResult := s.post.postResult } := by
    rw [State.kept_takeAll]
    unfold State.post
    split <;> rfl
  exact ⟨fun _ _ => State.readByte_congr (congrArg Outside.dram hk) (congrArg Outside.dramEpoch hk),
    fun _ => congrArg Outside.staging hk, fun _ => congrArg Outside.startRec hk,
    fun _ => ⟨congrArg Outside.cplEnable hk, congrArg Outside.attEnable hk⟩, fun hother => absurd rfl (hother _),
    fun _ => congrArg Outside.resetRequested hk, congrArg Outside.straps hk, congrArg Outside.rstHeld hk⟩

/-- Settles O7: the writes in the register window one by one, every other command by `exec_keepsRegisters`. -/
theorem memoryAndRegistersChangeByTheirCommandsAlone : Obligations.MemoryAndRegistersChangeByTheirCommandsAlone := by
  intro i s t h hreset hstation hrelease
  show ChangedByOwnCommands i s t
  by_cases hwrite : Laws.OperandChecks.registerWrite i = false
  · exact (exec_keepsRegisters h hreset hstation hrelease hwrite).changedByOwnCommands
  cases i
  case post lbe =>
    cases h
    split
    · exact changedBy_post lbe s
    · exact ChangedByOwnCommands.of_kept rfl
  case pop lbe =>
    cases h
    split
    · exact ChangedByOwnCommands.of_kept (State.kept_takeAll _)
    · exact ChangedByOwnCommands.of_kept rfl
  case ack ld lbe =>
    cases h
    split
    · obtain ⟨hregisters, hdram⟩ := s.kept_ackSubject_registers (ld.extractLsb' 0 8).toNat
      exact (KeepsRegisters.mk hregisters fun _ _ => hdram).changedByOwnCommands
    · exact ChangedByOwnCommands.of_kept rfl
  case resetControl ld lbe =>
    cases h
    split
    · exact ⟨fun _ _ _ => rfl, fun _ => rfl, fun _ => rfl, fun _ => ⟨rfl, rfl⟩, fun _ => ⟨rfl, rfl⟩,
        fun hother => absurd rfl (hother _ _), rfl, rfl⟩
    · exact ChangedByOwnCommands.of_kept rfl
  case intEnable ld lbe =>
    cases h
    split
    · exact ⟨fun _ _ _ => rfl, fun _ => rfl, fun _ => rfl, fun hother => absurd rfl (hother _ _), fun _ => ⟨rfl, rfl⟩,
        fun _ => rfl, rfl, rfl⟩
    · exact ChangedByOwnCommands.of_kept rfl
  case cmdStage reg ld lbe =>
    cases h
    split
    · exact ChangedByOwnCommands.of_kept rfl
    · exact ⟨fun _ _ _ => rfl, fun hother => absurd rfl (hother _ _ _), fun _ => rfl, fun _ => ⟨rfl, rfl⟩,
        fun _ => ⟨rfl, rfl⟩, fun _ => rfl, rfl, rfl⟩
  case startRecordWrite field ld lbe =>
    cases h
    split
    · exact ⟨fun _ _ _ => rfl, fun _ => rfl, fun hother => absurd rfl (hother _ _ _), fun _ => ⟨rfl, rfl⟩,
        fun _ => ⟨rfl, rfl⟩, fun _ => rfl, rfl, rfl⟩
    · exact ChangedByOwnCommands.of_kept rfl
  case registerWriteIgnored la ld lbe =>
    cases h
    exact ChangedByOwnCommands.of_kept rfl
  all_goals exact absurd rfl hwrite

end Sys2Proof.Machine
end

section
/-! PROOFS. The resets: what every block holds after one, and what becomes of the DRAM. -/

namespace Sys2Proof.Machine

/-! ### The blocks -/

/-- The fields that a reset leaves to the pins, the buses, the DRAM and the previous incarnation are set aside. -/
def State.blocks (s : State) : State :=
  { s with
    pending := [], freeCount := 0, rstHeld := false, resetRequested := false, busRead := none, straps := 0, dram := [],
    dramEpoch := Vector.replicate 4 0, prevInc := none }

theorem State.blocksReset_of_blocks {t : State} (h : t.blocks = State.reset) : t.BlocksReset where
  arbiter := ⟨congrArg State.arbPort h, congrArg State.arbTurn h, congrArg State.moves h⟩
  partition := ⟨congrArg State.homeCount h, congrArg State.borrowCount h, congrArg State.borrow h⟩
  directory := congrArg State.records h
  claims := fun c => by
    have hc : t.claims = Vector.replicate 32 (.free 0) := congrArg State.claims h
    rw [State.claim, hc, get_eq_getElem, Vector.getElem_replicate]
  port := ⟨congrArg State.port h, congrArg State.byp h, congrArg State.txq h, congrArg State.handover h,
    congrArg State.fwd h, congrArg State.rx h, congrArg State.chunkTurn h⟩
  buffers := fun b => by
    have ho : t.outBuf = Vector.replicate 4 .free := congrArg State.outBuf h
    have hi : t.inBuf = Vector.replicate 4 none := congrArg State.inBuf h
    rw [ho, hi, get_eq_getElem, get_eq_getElem, Vector.getElem_replicate, Vector.getElem_replicate]
    exact ⟨rfl, rfl⟩
  station := ⟨congrArg State.station h, congrArg State.probeOutstanding h, congrArg State.announceAwaited h,
    congrArg State.lifeCmd h, congrArg State.heldFrame h⟩
  startRecord := fun i => by
    have hs : t.startRec = Vector.replicate 8 0 := congrArg State.startRec h
    rw [hs, get_eq_getElem, Vector.getElem_replicate]
  peers := fun p => by
    have hp : t.peers = Vector.replicate 16 .initial := congrArg State.peers h
    rw [hp, get_eq_getElem, Vector.getElem_replicate]
  window := by
    refine ⟨fun e => ?_, congrArg State.access h⟩
    have hw : t.window = Vector.replicate 32 .empty := congrArg State.window h
    rw [hw, get_eq_getElem, Vector.getElem_replicate]
  commands := ⟨congrArg State.cmdq h, congrArg State.cplq h, congrArg State.inFlight h, congrArg State.seqNext h,
    congrArg State.postResult h⟩
  staging := fun i => by
    have hs : t.staging = Vector.replicate 4 0 := congrArg State.staging h
    rw [hs, get_eq_getElem, Vector.getElem_replicate]
  attention := ⟨congrArg State.attention h, congrArg State.cplEnable h, congrArg State.attEnable h,
    congrArg State.intAsserted h⟩

/-- Settles O8: both states have the blocks of `State.reset`, and an empty DRAM list reads free values. -/
theorem powerOnResetRestoresResetValues : Obligations.PowerOnResetRestoresResetValues :=
  ⟨⟨State.blocksReset_of_blocks rfl, rfl, rfl, rfl⟩,
    fun _ _ => ⟨_, rfl, State.blocksReset_of_blocks rfl, rfl, rfl, rfl, rfl, rfl, rfl, fun _ => rfl⟩⟩

/-! ### Register words as sums of their fields -/

theorem getLsbD_ofNat32 (n i : Nat) (hi : i < 32) : (BitVec.ofNat 32 n).getLsbD i = decide (n / 2 ^ i % 2 = 1) := by
  rw [BitVec.getLsbD_ofNat, Nat.testBit_eq_decide_div_mod_eq, decide_eq_true hi, Bool.true_and]

theorem extract_ofNat32_toNat (n k w : Nat) :
    ((BitVec.ofNat 32 n).extractLsb' k w).toNat = n % 2 ^ 32 / 2 ^ k % 2 ^ w := by
  rw [BitVec.extractLsb'_toNat, BitVec.toNat_ofNat, Nat.shiftRight_eq_div_pow]

/-- Bits 7:0 of an incarnation word show the incarnation, 0 where there is none, and bit 8 whether there is one. -/
theorem incWord_fields (inc : Option Byte) :
    (BitVec.ofNat 32 (incWord inc)).extractLsb' 0 8 = inc.getD 0 ∧
      (BitVec.ofNat 32 (incWord inc)).getLsbD 8 = inc.isSome := by
  rw [getLsbD_ofNat32 _ _ (by decide)]
  refine ⟨BitVec.eq_of_toNat_eq ?_, ?_⟩
  · rw [extract_ofNat32_toNat]
    cases inc with
    | none => rfl
    | some b =>
      have := b.isLt
      simp only [incWord, bit, Option.map_some, Option.getD_some, Option.isSome_some, if_true]
      omega
  · cases inc with
    | none => rfl
    | some b =>
      have := b.isLt
      simp only [incWord, bit, Option.map_some, Option.getD_some, Option.isSome_some, if_true, decide_eq_true_eq]
      omega

/-- STRAPS shows the straps in bits 1:0 and F in bits 25:16. -/
theorem State.strapsWord_fields (s : State) :
    s.strapsWord.extractLsb' 0 2 = s.straps ∧ (s.strapsWord.extractLsb' 16 10).toNat = s.frames := by
  have hall : ∀ x : BitVec 2, (BitVec.ofNat 32 (x.toNat + 2 ^ 16 * frameCountOf x)).extractLsb' 0 2 = x ∧
      ((BitVec.ofNat 32 (x.toNat + 2 ^ 16 * frameCountOf x)).extractLsb' 16 10).toNat = frameCountOf x := by decide
  exact hall s.straps

/-- Settles O9. -/
theorem stationResetRestoresBlocks : Obligations.StationResetRestoresBlocks := by
  intro fsel s
  refine ⟨⟨_, rfl, State.blocksReset_of_blocks rfl, rfl, rfl, rfl, rfl⟩, fun hrequest => ?_, fun hnone => ?_⟩
  · have hexec : exec (.stationReset .control fsel) s = .next (s.stationResetValues.sampleStraps fsel) := by
      show Host.Outcome.next (if s.resetRequested then _ else s) = _
      rw [hrequest, if_pos rfl]
    have hinc := incWord_fields s.prevInc
    have hstraps := (s.stationResetValues.sampleStraps fsel).strapsWord_fields
    refine ⟨_, hexec, State.blocksReset_of_blocks rfl, rfl, rfl, rfl, rfl, rfl, ?_, rfl, rfl, hinc.1, hinc.2, hstraps.1,
      hstraps.2⟩
    intro la hla
    simp only [List.mem_cons, List.not_mem_nil, or_false] at hla
    rcases hla with rfl | rfl | rfl | rfl | rfl | rfl | rfl | rfl | rfl | rfl | rfl | rfl | rfl | rfl | rfl | rfl | rfl |
      rfl | rfl | rfl | rfl
    all_goals rfl
  · show Host.Outcome.next (if s.resetRequested then _ else s) = _
    rw [hnone]
    rfl

/-! ### The straps sampled (R1) -/

/-- The address keeps its entry below the limit and loses it above. -/
theorem Memory.get_below (m : Memory) (limit a : Nat) : (m.below limit).get a = if a < limit then m.get a else none := by
  induction m with
  | nil => rw [show Memory.below [] limit = [] from rfl, Memory.get, ite_self]
  | cons c rest ih =>
    obtain ⟨x, v⟩ := c
    have ih : Memory.get (rest.filter fun c => c.1 < limit) a = if a < limit then Memory.get rest a else none := ih
    unfold Memory.below
    rw [List.filter_cons]
    split
    · rename_i hx
      rw [Memory.get, Memory.get, ih]
      split
      · rename_i hax
        subst hax
        rw [if_pos (of_decide_eq_true hx)]
      · rfl
    · rename_i hx
      rw [ih, Memory.get]
      split
      · rw [if_neg]
        rintro rfl
        exact hx (decide_eq_true ‹_›)
      · rfl

/-- A byte within reach lies in a band that the straps bring into reach. -/
theorem bandOf_le_straps {straps : BitVec 2} {a : Nat} (h : a < frameCountOf straps * Config.frameBytes) :
    (bandOf a).val ≤ straps.toNat := by
  have hcount : ∀ x : BitVec 2, x.toNat = 0 ∧ frameCountOf x = 64 ∨ x.toNat = 1 ∧ frameCountOf x = 128 ∨
      x.toNat = 2 ∧ frameCountOf x = 256 ∨ x.toNat = 3 ∧ frameCountOf x = 512 := by decide
  have hc := hcount straps
  have hbytes : Config.frameBytes = 8192 := rfl
  unfold bandOf
  rw [hbytes] at h ⊢
  split
  · exact Nat.zero_le _
  · split
    · show 1 ≤ _
      omega
    · split
      · show 2 ≤ _
        omega
      · show 3 ≤ _
        omega

/-- Sampling the straps keeps each byte within reach before and after. -/
theorem State.readByte_sampleStraps (s : State) (fsel : BitVec 2) {a : Nat} (hbefore : a < s.frames * Config.frameBytes)
    (hafter : a < frameCountOf fsel * Config.frameBytes) : (s.sampleStraps fsel).readByte a = s.readByte a := by
  have hepoch : (s.sampleStraps fsel).dramEpoch.get (bandOf a) = s.dramEpoch.get (bandOf a) := by
    have hband := bandOf_le_straps hbefore
    have hget : ∀ b : Fin 4, (s.sampleStraps fsel).dramEpoch.get b =
        if s.straps.toNat < b.val then s.freeCount + 1 else s.dramEpoch.get b := by
      intro b
      rw [get_eq_getElem]
      match b with
      | 0 => rfl
      | 1 => rfl
      | 2 => rfl
      | 3 => rfl
    rw [hget, if_neg (Nat.not_lt.mpr hband)]
  have hget : (s.sampleStraps fsel).dram.get a = s.dram.get a := by
    show (s.dram.below (frameCountOf fsel * Config.frameBytes)).get a = _
    rw [Memory.get_below, if_pos hafter]
  unfold State.readByte
  rw [hepoch, hget]

/-- Settles O12. -/
theorem rstReleaseSamplesStraps : Obligations.RstReleaseSamplesStraps := by
  intro fsel s
  refine ⟨fun hheld => ⟨fun la => by rw [State.readRegister, hheld, if_pos rfl], ?_⟩, fun hheld => ?_⟩
  · have hexec : exec (.rstReleased fsel) s = .next { s.sampleStraps fsel with rstHeld := false } := by
      show Host.Outcome.next (if s.rstHeld then _ else s) = _
      rw [hheld, if_pos rfl]
    have hcount : ∀ x : BitVec 2, frameCountOf x = if x = 0 then 64 else if x = 1 then 128 else if x = 2 then 256 else 512 := by
      decide
    have hstraps := State.strapsWord_fields { s.sampleStraps fsel with rstHeld := false }
    exact ⟨_, hexec, rfl, rfl, hcount fsel, rfl, rfl, fun _ hbefore hafter => s.readByte_sampleStraps fsel hbefore hafter,
      hstraps.1, hstraps.2, rfl⟩
  · show Host.Outcome.next (if s.rstHeld then _ else s) = _
    rw [hheld]
    rfl

/-! ### What a station reset interrupts -/

/-- The reset reaches `t`, whose DRAM is that of the blocks reset, seen through the straps in force after it. -/
structure StationResetFrom (s t : State) : Prop where
  access : t.access = none
  moves : t.moves = []
  bus : t.busRead = s.interruptedBus (s.freeCount + 1)
  memory : ∀ a, a < s.frames * Config.frameBytes → a < t.frames * Config.frameBytes →
    t.readByte a = s.stationResetValues.readByte a

/-- A station reset that is taken resets; a RESET_CONTROL reset that nobody requested does nothing (log 26). -/
theorem exec_stationReset_cases {cause : ResetCause} {fsel : BitVec 2} {s t : State}
    (h : exec (.stationReset cause fsel) s = .next t) :
    StationResetFrom s t ∨ (cause = .control ∧ s.resetRequested = false ∧ t = s) := by
  cases cause with
  | pin =>
    cases h
    exact .inl ⟨rfl, rfl, rfl, fun _ _ _ => rfl⟩
  | control =>
    have h : Host.Outcome.next (if s.resetRequested then s.stationResetValues.sampleStraps fsel else s) = .next t := h
    by_cases hrequest : s.resetRequested = true
    · rw [if_pos hrequest] at h
      cases h
      exact .inl ⟨rfl, rfl, rfl, fun _ hbefore hafter => State.readByte_sampleStraps _ fsel hbefore hafter⟩
    · rw [if_neg hrequest] at h
      cases h
      exact .inr ⟨rfl, Bool.eq_false_iff.mpr hrequest, rfl⟩

theorem State.interruptedBus_isSome (s : State) (n : Nat) {a : Access} (ha : s.access = some a) :
    (s.interruptedBus n).isSome = a.data.isNone := by
  unfold State.interruptedBus
  rw [ha]
  cases hd : a.data with
  | none => simp [hd]
  | some w => simp [hd]

/-- A reset that cuts no granted write leaves the DRAM as it was. -/
theorem State.interruptedDram_of_no_write (s : State) (n : Nat)
    (h : s.arbPort = none ∨
      (s.arbPort = some .window ∧ ∀ a, s.access = some a → a.data = none ∨ s.accessAlive a = false) ∨
      (s.arbPort = some .ring ∧ ∀ b f c k r rest, s.moves ≠ .write b f c k r :: rest)) :
    s.interruptedDram n = s.dram := by
  unfold State.interruptedDram
  split
  case h_1 b f c k r rest hport hmoves =>
    rcases h with h | h | h
    · rw [hport] at h
      cases h
    · rw [hport] at h
      cases h.1
    · exact absurd hmoves (h.2 b f c k r rest)
  case h_2 a hport haccess =>
    rcases h with h | h | h
    · rw [hport] at h
      cases h
    · rcases h.2 a haccess with hread | hdead
      · rw [hread]
      · rw [hdead]
        split <;> rfl
    · rw [hport] at h
      cases h.1
  case h_3 => rfl

/-- Settles O10. -/
theorem stationResetKeepsMemory : Obligations.StationResetKeepsMemory := by
  intro cause fsel s t h hcut
  rcases exec_stationReset_cases h with hreset | ⟨rfl, hnone, rfl⟩
  · refine ⟨fun a hbefore hafter => ?_, fun _ => ⟨hreset.access, hreset.moves, fun a ha => ?_⟩⟩
    · rw [hreset.memory a hbefore hafter]
      exact State.readByte_congr (t := s.stationResetValues) (s.interruptedDram_of_no_write _ hcut) rfl a
    · rw [hreset.bus, s.interruptedBus_isSome _ ha]
  · refine ⟨fun _ _ _ => rfl, fun htaken => ?_⟩
    rcases htaken with htaken | htaken
    · cases htaken
    · rw [hnone] at htaken
      cases htaken

/-! ### A chunk write cut short -/

/-- Each byte written by cells cut short is old or new; an address that no cell names is as it was. -/
theorem Memory.get_interrupted (n : Nat) (cells : List (Nat × Byte)) (m : Memory) (x : Nat) :
    (cells.foldl (interruptedByte n) m).get x = m.get x ∨
      ∃ c ∈ cells, c.1 = x ∧ (cells.foldl (interruptedByte n) m).get x = some c.2 := by
  induction cells generalizing m with
  | nil => exact .inl rfl
  | cons c rest ih =>
    rw [List.foldl_cons]
    rcases ih (interruptedByte n m c) with hsame | ⟨d, hd, hdx, hnew⟩
    · rw [hsame]
      unfold interruptedByte
      split
      · rw [Memory.get_set]
        split
        · exact .inr ⟨c, List.mem_cons_self, (Eq.symm ‹_›), rfl⟩
        · exact .inl rfl
      · exact .inl rfl
    · exact .inr ⟨d, List.mem_cons_of_mem _ hd, hdx, hnew⟩

theorem mem_chunkCells {f : Nat} {c : ChunkIdx} {payload : List Byte} {x : Nat × Byte}
    (h : x ∈ chunkCells f c payload) :
    ∃ j, j < Config.chunkBytes ∧ x = (chunkAddr f c + j, payload.getD j 0) := by
  unfold chunkCells at h
  obtain ⟨⟨v, j⟩, hmem, rfl⟩ := List.mem_map.mp h
  obtain ⟨_, hj, hv⟩ := List.mem_zipIdx hmem
  rw [List.length_take] at hj
  refine ⟨j, by omega, ?_⟩
  simp only [Nat.sub_zero, List.getElem_take] at hv
  rw [hv, List.getD_eq_getElem?_getD, List.getElem?_eq_getElem (by omega), Option.getD_some]

/-- The DRAM after a reset that cuts a chunk write: each byte of the chunk old or new, every other as it was (log 2). -/
theorem State.readByte_interruptedChunk {s : State} {b : Fin 4} {f : Nat} {c : ChunkIdx} {k : Asker} {r : Bool}
    {rest : List Move} {payload : List Byte} (hport : s.arbPort = some .ring)
    (hmoves : s.moves = .write b f c k r :: rest) (hbuf : s.inBuf.get b = some payload) (a : Nat) :
    s.stationResetValues.readByte a = s.readByte a ∨
      ∃ j, j < Config.chunkBytes ∧ a = chunkAddr f c + j ∧ s.stationResetValues.readByte a = payload.getD j 0 := by
  have hdram : s.stationResetValues.dram =
      (chunkCells f c payload).foldl (interruptedByte (s.freeCount + 1)) s.dram := by
    show s.interruptedDram _ = _
    unfold State.interruptedDram
    rw [hport, hmoves]
    simp only [hbuf, Option.getD_some]
  unfold State.readByte
  rw [hdram]
  rcases Memory.get_interrupted (s.freeCount + 1) (chunkCells f c payload) s.dram a with hsame | ⟨x, hx, rfl, hnew⟩
  · rw [hsame]
    exact .inl rfl
  · obtain ⟨j, hj, rfl⟩ := mem_chunkCells hx
    rw [hnew]
    exact .inr ⟨j, hj, rfl, rfl⟩

/-- What that says of one address, in the chunk or outside it. -/
theorem old_or_new_of_interrupted {a base : Nat} {old new : Byte} {payload : List Byte}
    (h : new = old ∨ ∃ j, j < Config.chunkBytes ∧ a = base + j ∧ new = payload.getD j 0) :
    (a < base ∨ base + Config.chunkBytes ≤ a → new = old) ∧
      ∀ j, j < Config.chunkBytes → a = base + j → new = old ∨ new = payload.getD j 0 := by
  rcases h with h | ⟨i, hi, rfl, h⟩
  · exact ⟨fun _ => h, fun _ _ _ => .inl h⟩
  · refine ⟨fun hout => by omega, fun j _ hj => .inr ?_⟩
    rw [h, Nat.add_left_cancel hj]

/-! ### A window write cut short -/

theorem Memory.getD_setCells_lane (m : Memory) (a : Access) (w : Word) (v : Nat → Byte) (d : Nat) :
    (∀ k, k < 4 → a.lbe.getLsbD k = true → d = dramAddr a.frame (a.word * 4 + k) →
      ((m.setCells (a.cells w)).get d).getD (v d) = lane w k) ∧
    ((∀ k, k < 4 → a.lbe.getLsbD k = true → d ≠ dramAddr a.frame (a.word * 4 + k)) →
      ((m.setCells (a.cells w)).get d).getD (v d) = (m.get d).getD (v d)) := by
  constructor
  · rintro k hk hlbe rfl
    rw [Memory.get_setCells_of_mem (v := lane w k)]
    · rfl
    · intro c hc haddr
      obtain ⟨j, hj, _, rfl⟩ := (a.mem_cells w c).mp hc
      have hjk : j = k := by
        have : dramAddr a.frame (a.word * 4 + j) = dramAddr a.frame (a.word * 4 + k) := haddr
        unfold dramAddr at this
        omega
      rw [hjk]
    · exact ⟨_, (a.mem_cells w _).mpr ⟨k, hk, hlbe, rfl⟩, rfl⟩
  · intro hout
    rw [Memory.get_setCells_outside]
    intro c hc haddr
    obtain ⟨j, hj, hlbe, rfl⟩ := (a.mem_cells w c).mp hc
    exact hout j hj hlbe haddr.symm

/-- The DRAM after a reset that cuts a granted window write: as it was, or with all its cells (log 3). -/
theorem State.interruptedDram_window {s : State} (n : Nat) {a : Access} {w : Word} (hport : s.arbPort = some .window)
    (haccess : s.access = some a) (hdata : a.data = some w) :
    s.interruptedDram n = s.dram ∨ s.interruptedDram n = s.dram.setCells (a.cells w) := by
  unfold State.interruptedDram
  rw [hport, haccess]
  simp only [hdata]
  split
  · exact .inr rfl
  · exact .inl rfl

/-- Settles O11: the interrupted chunk write byte by byte, the interrupted window write by whether it landed. -/
theorem interruptedChunkWriteLeavesOldOrNewBytes : Obligations.InterruptedChunkWriteLeavesOldOrNewBytes := by
  refine ⟨?chunk, ?window⟩
  case chunk =>
    intro fsel s t b f c k r rest payload hport hmoves hbuf hlength
    have hold := fun a => old_or_new_of_interrupted (State.readByte_interruptedChunk hport hmoves hbuf a)
    refine ⟨fun h => ?_, fun h => ?_⟩
    · cases h
      exact ⟨fun a => (hold a).1, fun j hj => (hold _).2 j hj rfl⟩
    · intro a hbefore hafter
      rcases exec_stationReset_cases h with hreset | ⟨_, _, rfl⟩
      · rw [hreset.memory a hbefore hafter]
        exact hold a
      · exact ⟨fun _ => rfl, fun _ _ _ => .inl rfl⟩
  case window =>
    intro cause fsel s t a w hport haccess hdata halive h
    rcases exec_stationReset_cases h with hreset | ⟨_, _, rfl⟩
    · rcases State.interruptedDram_window (s.freeCount + 1) hport haccess hdata with hdram | hdram
      · refine .inl fun d hbefore hafter => ?_
        rw [hreset.memory d hbefore hafter]
        exact State.readByte_congr (t := s.stationResetValues) hdram rfl d
      · refine .inr fun d hbefore hafter => ?_
        have hread : s.stationResetValues.readByte d = ((s.dram.setCells (a.cells w)).get d).getD
            (Config.undefinedByte (s.dramEpoch.get (bandOf d)) d) := by
          rw [← hdram]
          rfl
        rw [hreset.memory d hbefore hafter, hread]
        exact s.dram.getD_setCells_lane a w (fun d => Config.undefinedByte (s.dramEpoch.get (bandOf d)) d) d
    · exact .inl fun _ _ _ => rfl

end Sys2Proof.Machine
end

section
/-! PROOFS. The register window: POST and POP with the taking they allow, the writes that set fields and enables, and the words
that reads return. -/

namespace Sys2Proof.Machine

/-! ### No command changes the queue behind it -/

theorem State.cmdq_of_internal {pay : Option (Fin 4)} {s t : State} (h : Within pay s t) : t.cmdq = s.cmdq :=
  congrArg Outside.cmdq h.outside

theorem State.cmdq_settleEvent (s : State) : s.settleEvent.cmdq = s.cmdq :=
  State.cmdq_of_internal (Within.refl s).settleEvent

theorem State.cmdq_endTaken (t s : State) (c : ClaimIdx) : (t.endTaken s c).cmdq = t.cmdq :=
  State.cmdq_of_internal (Within.refl t).settleEvent.bringForward

theorem State.cmdq_setMapping (s : State) (e : EntryIdx) (m : Option (Target × Limit)) :
    (s.setMapping e m).cmdq = s.cmdq := congrArg Outside.cmdq (s.setMapping_spec e m).1

theorem State.cmdq_enterJoining (s : State) (t : Ticket) : (s.enterJoining t).cmdq = s.cmdq := by
  unfold State.enterJoining
  rw [State.cmdq_of_internal (Within.refl _).handOver]

theorem State.cmdq_takeClaim (s : State) (c : ClaimIdx) (b : Block) (m : Mode) (f : Nat) (t : Ticket) :
    (s.takeClaim c b m f t).cmdq = s.cmdq := by
  unfold State.takeClaim
  rw [State.cmdq_of_internal (Within.refl _).claimAsk]
  rfl

theorem State.cmdq_doStart (s : State) (q : Queued) : (s.doStart q).cmdq = s.cmdq := by
  unfold State.doStart
  split
  · split
    · rfl
    · unfold State.startEffect
      rw [State.cmdq_enterJoining]
  · rfl

theorem State.cmdq_doAttach (s : State) (q : Queued) : (s.doAttach q).cmdq = s.cmdq := by
  unfold State.doAttach
  split
  · exact s.cmdq_enterJoining _
  · rfl

theorem State.cmdq_doDetach (s : State) (q : Queued) : (s.doDetach q).cmdq = s.cmdq := by
  unfold State.doDetach
  split
  · split
    · rfl
    · unfold State.takenFirst
      rw [State.cmdq_of_internal (Within.refl _).bringForward, State.cmdq_settleEvent,
        State.cmdq_of_internal (Within.refl _).denyAllPeers]
  · rfl

theorem State.cmdq_doResume (s : State) (q : Queued) : (s.doResume q).cmdq = s.cmdq := by
  unfold State.doResume
  split <;> rfl

theorem State.cmdq_acquireBlock (s : State) (q : Queued) (b : Block) (m : Mode) : (s.acquireBlock q b m).cmdq = s.cmdq := by
  unfold State.acquireBlock
  split
  · rfl
  · split
    · rfl
    · split
      · rfl
      · split
        · rfl
        · split
          · rw [State.cmdq_endTaken, State.cmdq_takeClaim]
          · split
            · rfl
            · rw [State.cmdq_endTaken, State.cmdq_takeClaim]

theorem State.cmdq_doAcquire (s : State) (q : Queued) : (s.doAcquire q).cmdq = s.cmdq := by
  unfold State.doAcquire
  split
  · exact s.cmdq_acquireBlock _ _ _
  · rfl

theorem State.cmdq_doUpgrade (s : State) (q : Queued) : (s.doUpgrade q).cmdq = s.cmdq := by
  unfold State.doUpgrade
  dsimp only
  split
  · rfl
  · split
    · rfl
    · split
      · rfl
      · rw [State.cmdq_endTaken, State.cmdq_of_internal (Within.refl _).claimAsk]
        rfl

theorem State.cmdq_doRelease (s : State) (q : Queued) : (s.doRelease q).cmdq = s.cmdq := by
  unfold State.doRelease
  split
  · rfl
  · split
    · rw [State.cmdq_endTaken, State.cmdq_of_internal (Within.refl _).letGo]
      rfl
    · rfl

theorem State.cmdq_doCancel (s : State) (q : Queued) : (s.doCancel q).cmdq = s.cmdq := by
  unfold State.doCancel
  split
  · rfl
  · split
    · rw [State.cmdq_endTaken, State.cmdq_of_internal (Within.refl _).giveUpAsk]
      rfl
    · rfl
    · rfl

theorem State.cmdq_doMap (s : State) (q : Queued) : (s.doMap q).cmdq = s.cmdq := by
  unfold State.doMap
  dsimp only
  split
  · split
    · exact s.cmdq_setMapping _ _
    · rfl
  · split
    · rfl
    · split
      · rfl
      · exact s.cmdq_setMapping _ _
  · rfl

theorem State.cmdq_doUnmap (s : State) (q : Queued) : (s.doUnmap q).cmdq = s.cmdq := by
  unfold State.doUnmap
  split
  · rfl
  · exact s.cmdq_setMapping _ _

theorem State.cmdq_doRestore (s : State) (q : Queued) : (s.doRestore q).cmdq = s.cmdq := by
  unfold State.doRestore
  split
  · rfl
  · split
    · rfl
    · split <;> rfl

theorem State.cmdq_doInspectBlock (s : State) (q : Queued) : (s.doInspectBlock q).cmdq = s.cmdq := by
  unfold State.doInspectBlock
  split
  · split <;> rfl
  · rfl

theorem State.cmdq_doInspectClaim (s : State) (q : Queued) : (s.doInspectClaim q).cmdq = s.cmdq := by
  unfold State.doInspectClaim
  split <;> rfl

theorem State.cmdq_ifStarted (s : State) (q : Queued) {act : State → Queued → State} (h : (act s q).cmdq = s.cmdq) :
    (s.ifStarted q act).cmdq = s.cmdq := by
  unfold State.ifStarted
  split
  · rfl
  · exact h

theorem State.cmdq_runCommand (s : State) (q : Queued) : (s.runCommand q).cmdq = s.cmdq := by
  unfold State.runCommand
  split
  · exact s.cmdq_doStart q
  · exact s.cmdq_ifStarted q (s.cmdq_doAttach q)
  · exact s.cmdq_ifStarted q (s.cmdq_doDetach q)
  · exact s.cmdq_ifStarted q (s.cmdq_doResume q)
  · exact s.cmdq_ifStarted q (s.cmdq_doAcquire q)
  · exact s.cmdq_ifStarted q (s.cmdq_doUpgrade q)
  · exact s.cmdq_ifStarted q (s.cmdq_doRelease q)
  · exact s.cmdq_ifStarted q (s.cmdq_doCancel q)
  · exact s.cmdq_ifStarted q (s.cmdq_doMap q)
  · exact s.cmdq_ifStarted q (s.cmdq_doUnmap q)
  · exact s.cmdq_ifStarted q (s.cmdq_doRestore q)
  · refine s.cmdq_ifStarted q ?_
    split
    · exact s.cmdq_doInspectClaim q
    · exact s.cmdq_doInspectBlock q
  · rfl

/-! ### Taking (R160; log 9) -/

theorem State.takeAll_of_none {s : State} (h : s.takeable = none) : s.takeAll = s := by
  unfold State.takeAll
  cases s.cmdq.length with
  | zero => rfl
  | succ k => rw [State.takeLoop, h]

theorem State.takeable_of_closed {s : State} (h : s.reservationOpen = false) : s.takeable = none := by
  rw [State.takeable, h]
  rfl

theorem State.takeable_of_empty {s : State} (h : s.cmdq = []) : s.takeable = none := by
  rw [State.takeable, h]
  exact ite_self _

/-- Taking all is taking the head, and taking all from there. -/
theorem State.takeAll_step {s : State} {q : Queued} (h : s.takeable = some q) :
    s.takeAll = (s.removeHead.runCommand q).settleEvent.takeAll := by
  obtain ⟨_, rest, hcmdq⟩ := State.takeable_spec h
  have hqueue : (s.removeHead.runCommand q).settleEvent.cmdq = rest := by
    rw [State.cmdq_settleEvent, State.cmdq_runCommand]
    show s.cmdq.tail = rest
    rw [hcmdq, List.tail_cons]
  unfold State.takeAll
  rw [hqueue, hcmdq, List.length_cons, State.takeLoop, h]

/-- A head that can be taken is carried out as its row does, and the taking goes on from there. -/
theorem State.takeAll_row {s : State} {q : Queued} (h : s.takeable = some q) {row : Instr × (CommandRecord → Bool)}
    (hmem : row ∈ commandRows) (hrow : row.2 q.record = true) :
    ∃ y : State, exec row.1 s = .next y ∧ s.takeAll = y.takeAll := by
  obtain ⟨act, hexec, hact⟩ := exec_commandRow hmem
  refine ⟨_, hexec s, ?_⟩
  rw [State.takeRow_eq h hrow, hact _ _ hrow, State.takeAll_step h]

theorem State.writeTaken_of {s : State} {lbe : BitVec 4} (hheld : s.rstHeld = false) (hlbe : lbe ≠ 0) :
    s.writeTaken lbe = true := by
  rw [State.writeTaken, hheld, bne_iff_ne.mpr hlbe]
  rfl

theorem State.readRegister_released {s : State} (hheld : s.rstHeld = false) (la : BitVec 6) :
    s.readRegister la = s.registerWord la := by
  rw [State.readRegister, hheld]
  rfl

theorem State.takeAll_readRegister {x : State} (hheld : x.rstHeld = false) :
    x.takeAll.readRegister 5 = x.postResultWord := by
  have htaken : x.takeAll.rstHeld = false := (congrArg Outside.rstHeld x.kept_takeAll).trans hheld
  have hresult : x.takeAll.postResult = x.postResult := (State.takeLoop_keeps _ _).1
  rw [State.readRegister_released htaken]
  show x.takeAll.postResultWord = x.postResultWord
  rw [State.postResultWord, hresult]
  rfl

/-- Settles O13. -/
theorem postAppendsStagedRecord : Obligations.PostAppendsStagedRecord := by
  refine ⟨fun lbe s hheld hlbe => ?_, fun q => commandRow_of_record q.record,
    fun x => ⟨State.takeAll_of_none, fun q hq row hmem hrow => State.takeAll_row hq hmem hrow⟩⟩
  have hexec : exec (.post lbe) s = .next s.post.takeAll := by
    show Host.Outcome.next (if s.writeTaken lbe then _ else s) = _
    rw [State.writeTaken_of hheld hlbe, if_pos rfl]
  have hroom : s.cmdq.length < 16 → s.post = { s with
      cmdq := s.cmdq ++ [{ record := s.staging, seq := s.seqNext }], seqNext := s.seqNext + 1,
      postResult := .accepted s.seqNext } := fun h => if_pos h
  have hfull : 16 ≤ s.cmdq.length → s.post = { s with postResult := .queueFull } := fun h => if_neg (Nat.not_lt.mpr h)
  have hpost : s.post.staging = s.staging ∧ s.post.rstHeld = false := by
    rcases Nat.lt_or_ge s.cmdq.length 16 with h | h
    · rw [hroom h]
      exact ⟨rfl, hheld⟩
    · rw [hfull h]
      exact ⟨rfl, hheld⟩
  obtain ⟨hresult, hseq, hstaging⟩ := State.takeLoop_keeps s.post.cmdq.length s.post
  refine ⟨s.post, hexec, hroom, hfull, hresult, hseq, hstaging.trans hpost.1, fun h => ?_, fun h => ?_,
    fun h => State.takeAll_of_none (State.takeable_of_closed h)⟩
  · rw [State.takeAll_readRegister hpost.2, hroom h]
    rfl
  · rw [State.takeAll_readRegister hpost.2, hfull h]
    rfl

/-! ### The head completion (R193) -/

theorem Status.code_lt (st : Status) : st.code < 20 := by cases st <;> decide

theorem claimField_lt (c : Option ClaimIdx) : (c.map (·.val)).getD 63 < 64 := by
  cases c with
  | none => decide
  | some c => exact Nat.lt_of_lt_of_le c.isLt (by decide)

/-- The fields of CPL_HEAD0. -/
theorem Completion.word0_fields (c : Completion) :
    c.word0.extractLsb' 0 8 = c.ticket.seq ∧ c.word0.extractLsb' 8 5 = c.ticket.code ∧
      (c.word0.extractLsb' 13 5).toNat = c.status.code ∧
      (c.word0.extractLsb' 18 6).toNat = ((c.claim.map (·.val)).getD 0x3F) ∧ c.word0.extractLsb' 24 8 = c.byteA := by
  have hseq := c.ticket.seq.isLt
  have hcode := c.ticket.code.isLt
  have hstatus := c.status.code_lt
  have hclaim := claimField_lt c.claim
  have hbyte := c.byteA.isLt
  unfold Completion.word0
  refine ⟨BitVec.eq_of_toNat_eq ?_, BitVec.eq_of_toNat_eq ?_, ?_, ?_, BitVec.eq_of_toNat_eq ?_⟩
  all_goals
    rw [extract_ofNat32_toNat]
    omega

theorem genField_toNat (g : Option Byte) : (g.getD 0).toNat = (g.map (·.toNat)).getD 0 := by cases g <;> rfl

/-- The fields of CPL_HEAD1. -/
theorem Completion.headWord1_fields (c : Completion) :
    c.headWord1.extractLsb' 0 16 = c.ticket.tag ∧ c.headWord1.extractLsb' 16 8 = c.gen.getD 0 ∧
      c.headWord1.extractLsb' 24 8 = c.byteB := by
  have htag := c.ticket.tag.isLt
  have hgen := (c.gen.getD 0).isLt
  have hbyte := c.byteB.isLt
  unfold Completion.headWord1
  rw [← genField_toNat]
  refine ⟨BitVec.eq_of_toNat_eq ?_, BitVec.eq_of_toNat_eq ?_, BitVec.eq_of_toNat_eq ?_⟩
  all_goals
    rw [extract_ofNat32_toNat]
    omega

/-- Settles O14. -/
theorem popRemovesHeadCompletion : Obligations.PopRemovesHeadCompletion := by
  refine ⟨fun lbe s hheld hlbe => ⟨{ s with cplq := s.cplq.tail }, ?_, rfl, fun h => ?_, fun h => ?_, ?_⟩,
    fun s hheld => ⟨fun c rest hcplq => ?_, fun hcplq => ?_⟩, rfl⟩
  · show Host.Outcome.next (if s.writeTaken lbe then _ else s) = _
    rw [State.writeTaken_of hheld hlbe, if_pos rfl]
  · exact State.takeAll_of_none (State.takeable_of_empty h)
  · exact State.takeAll_of_none (State.takeable_of_closed h)
  · exact fun q hq row hmem hrow => State.takeAll_row hq hmem hrow
  · obtain ⟨hseq, hcode, hstatus, hclaim, hbyteA⟩ := c.word0_fields
    obtain ⟨htag, hgen, hbyteB⟩ := c.headWord1_fields
    have head : ∀ k, s.completionHead k = match k with
        | 0 => c.word0
        | 1 => c.headWord1
        | 2 => c.word1.getD allOnes
        | _ => c.word2.getD allOnes := by
      intro k
      rw [State.completionHead, hcplq] <;> rfl
    simp only [State.readRegister_released hheld]
    show (s.completionHead 0).extractLsb' 0 8 = _ ∧ (s.completionHead 0).extractLsb' 8 5 = _ ∧
      ((s.completionHead 0).extractLsb' 13 5).toNat = _ ∧ ((s.completionHead 0).extractLsb' 18 6).toNat = _ ∧
      (s.completionHead 0).extractLsb' 24 8 = _ ∧ (s.completionHead 1).extractLsb' 0 16 = _ ∧
      (s.completionHead 1).extractLsb' 16 8 = _ ∧ (s.completionHead 1).extractLsb' 24 8 = _ ∧
      s.completionHead 2 = _ ∧ s.completionHead 3 = _
    rw [head 0, head 1, head 2, head 3]
    exact ⟨hseq, hcode, hstatus, hclaim, hbyteA, htag, hgen, hbyteB, rfl, rfl⟩
  · have head : ∀ k, s.completionHead k = if k = 0 then BitVec.ofNat 32 (2 ^ 13 * emptyStatus) else 0 := by
      intro k
      rw [State.completionHead, hcplq]
    simp only [State.readRegister_released hheld]
    exact ⟨head 0, head 1, head 2, head 3⟩

/-! ### Enables, and the head of the attention list (R184, R188, R195) -/

theorem Subject.code_lt (x : Subject) : x.code < 256 := by
  cases x with
  | entry e => exact Nat.lt_of_lt_of_le e.isLt (by decide)
  | claim c => exact Nat.lt_of_lt_of_le (Nat.add_lt_add_left c.isLt 32) (by decide)
  | peer p => exact Nat.lt_of_lt_of_le (Nat.add_lt_add_left p.isLt 64) (by decide)
  | station => decide

theorem Notice.reasonCode_lt (n : Notice) : n.reasonCode < 16 := by
  rcases n with f | ⟨r, u, b⟩ | ⟨r, i⟩ | ⟨r, i⟩
  · rcases f with ⟨k, o, w, x⟩
    cases k <;> exact of_decide_eq_true rfl
  all_goals cases r <;> exact of_decide_eq_true rfl

theorem bit_eq (b : Bool) : b = true ∧ bit b = 1 ∨ b = false ∧ bit b = 0 := by cases b <;> simp [bit]

/-- The fields of ATT_HEAD0. -/
theorem Item.word0_fields (i : Item) :
    (i.word0.extractLsb' 0 8).toNat = i.subject.code ∧ (i.word0.extractLsb' 8 4).toNat = i.notice.reasonCode ∧
      i.word0.getLsbD 16 = i.replaced := by
  have hsubject := i.subject.code_lt
  have hreason := i.notice.reasonCode_lt
  have hbit := bit_eq i.replaced
  unfold Item.word0
  rw [extract_ofNat32_toNat, extract_ofNat32_toNat, getLsbD_ofNat32 _ _ (by decide)]
  refine ⟨by omega, by omega, ?_⟩
  rcases hbit with ⟨h, hb⟩ | ⟨h, hb⟩
  · rw [hb, h]
    exact decide_eq_true (by omega)
  · rw [hb, h]
    exact decide_eq_false (by omega)

/-- A word of bits from bit 0 up: each of the first three is read back, and above them it is 0. -/
theorem bits_word (a b c : Bool) :
    (BitVec.ofNat 32 (bit a + 2 * bit b + 4 * bit c)).getLsbD 0 = a ∧
      (BitVec.ofNat 32 (bit a + 2 * bit b + 4 * bit c)).getLsbD 1 = b ∧
      (BitVec.ofNat 32 (bit a + 2 * bit b + 4 * bit c)).getLsbD 2 = c ∧
      (BitVec.ofNat 32 (bit a + 2 * bit b + 4 * bit c)).extractLsb' 3 29 = 0 := by
  cases a <;> cases b <;> cases c <;> decide

theorem enables_word (a b : Bool) :
    (BitVec.ofNat 32 (bit a + 2 * bit b)).getLsbD 0 = a ∧ (BitVec.ofNat 32 (bit a + 2 * bit b)).getLsbD 1 = b ∧
      (BitVec.ofNat 32 (bit a + 2 * bit b)).extractLsb' 2 30 = 0 := by
  cases a <;> cases b <;> decide

/-- The words of an ENTRY item. -/
theorem Item.entry_fields {i : Item} {f : FaultRecord} (h : i.notice = .entry f) (hoffset : f.offset < 8192)
    (hwidth : f.width ≤ 4) :
    (i.word1.extractLsb' 0 13).toNat = f.offset ∧ i.word2.getLsbD 0 = f.write ∧
      (i.word2.extractLsb' 8 3).toNat = f.width := by
  unfold Item.word1 Item.word2
  rw [h]
  dsimp only
  rw [extract_ofNat32_toNat, extract_ofNat32_toNat, getLsbD_ofNat32 _ _ (by decide)]
  rcases bit_eq f.write with ⟨hw, hb⟩ | ⟨hw, hb⟩
  · exact ⟨by omega, by rw [hb, hw]; exact decide_eq_true (by omega), by omega⟩
  · exact ⟨by omega, by rw [hb, hw]; exact decide_eq_false (by omega), by omega⟩

/-- The words of a CLAIM item. -/
theorem Item.claim_fields {i : Item} {r : ClaimReason} {u : UseNum} {b : Option Block} (h : i.notice = .claim r u b) :
    i.word1.extractLsb' 0 4 = u ∧ ∀ blk, b = some blk →
      i.word2.extractLsb' 0 8 = blk.index ∧ (i.word2.extractLsb' 8 4).toNat = blk.home.val := by
  have hu := u.isLt
  unfold Item.word1 Item.word2
  rw [h]
  refine ⟨BitVec.eq_of_toNat_eq ?_, ?_⟩
  · rw [extract_ofNat32_toNat]
    dsimp only
    omega
  · rintro blk rfl
    have hindex := blk.index.isLt
    have hhome := blk.home.isLt
    simp only [Option.map_some, Option.getD_some]
    refine ⟨BitVec.eq_of_toNat_eq ?_, ?_⟩
    · rw [extract_ofNat32_toNat]
      omega
    · rw [extract_ofNat32_toNat]
      omega

/-- The words of a PEER or STATION item. -/
theorem Item.inc_fields {i : Item} {inc : Option Byte}
    (h : (∃ r, i.notice = .peer r inc) ∨ ∃ r, i.notice = .station r inc) :
    i.word1.extractLsb' 0 8 = inc.getD 0 ∧ i.word1.getLsbD 8 = inc.isSome ∧ i.word2 = 0 := by
  have hinc := incWord_fields inc
  unfold Item.word1 Item.word2
  rcases h with ⟨r, h⟩ | ⟨r, h⟩
  · rw [h]
    exact ⟨hinc.1, hinc.2, rfl⟩
  · rw [h]
    exact ⟨hinc.1, hinc.2, rfl⟩

/-- Settles O16. -/
theorem controlWritesSetTheirBits : Obligations.ControlWritesSetTheirBits := by
  intro s hheld
  refine ⟨fun ld lbe => ⟨fun hlbe hbit => ?_, fun _ hbit => ?_, fun hlow => ?_, fun hlow => ?_⟩, ?_, ?_, fun hnil => ?_,
    fun i rest hlist => ?_⟩
  · show Host.Outcome.next (if s.writeTaken lbe && ld.getLsbD 0 then _ else s) = _
    rw [State.writeTaken_of hheld hlbe, hbit]
    rfl
  · show Host.Outcome.next (if s.writeTaken lbe && ld.getLsbD 0 then _ else s) = _
    rw [hbit, Bool.and_false]
    rfl
  · show Host.Outcome.next (if !s.rstHeld && lbe.getLsbD 0 then _ else s) = _
    rw [hheld, hlow]
    rfl
  · show Host.Outcome.next (if !s.rstHeld && lbe.getLsbD 0 then _ else s) = _
    rw [hheld, hlow]
    rfl
  · rw [State.readRegister_released hheld]
    exact enables_word s.cplEnable s.attEnable
  · rw [State.readRegister_released hheld]
    exact bits_word s.completionPending s.attentionPending s.intAsserted
  · have head : ∀ k, s.attentionHead k = if k = 0 then BitVec.ofNat 32 emptySubject else 0 := by
      intro k
      rw [State.attentionHead, hnil]
    simp only [State.readRegister_released hheld]
    exact ⟨head 0, head 1, head 2⟩
  · have head : s.readRegister 16 = i.word0 ∧ s.readRegister 17 = i.word1 ∧ s.readRegister 18 = i.word2 := by
      simp only [State.readRegister_released hheld]
      show s.attentionHead 0 = _ ∧ s.attentionHead 1 = _ ∧ s.attentionHead 2 = _
      simp only [State.attentionHead, hlist, and_self]
    obtain ⟨h0, h1, h2⟩ := head
    rw [h0, h1, h2]
    obtain ⟨hsubject, hreason, hreplaced⟩ := i.word0_fields
    refine ⟨hsubject.trans ?_, hreason.trans ?_, hreplaced, fun f hf ho hw => Item.entry_fields hf ho hw,
      fun r u b hn => Item.claim_fields hn, fun inc hn => Item.inc_fields hn⟩
    · cases i.subject <;> rfl
    · rcases i.notice with f | ⟨r, u, b⟩ | ⟨r, inc⟩ | ⟨r, inc⟩
      · rcases f with ⟨k, o, w, x⟩
        cases k <;> rfl
      all_goals cases r <;> rfl

/-! ### Fields written by bytes (R118, R157, R196, R197) -/

theorem lane_mergeWord (old new : Word) (lbe : BitVec 4) {k : Nat} (hk : k < 4) :
    lane (mergeWord old new lbe) k = if lbe.getLsbD k then lane new k else lane old k := by
  obtain ⟨h0, h1, h2, h3⟩ := lane_ofLanes (mergeLane old new lbe 0) (mergeLane old new lbe 1) (mergeLane old new lbe 2)
    (mergeLane old new lbe 3)
  match k, hk with
  | 0, _ => exact h0
  | 1, _ => exact h1
  | 2, _ => exact h2
  | 3, _ => exact h3

theorem extract_setWidth16 (w : Word) {k : Nat} (hk : k < 2) : (w.setWidth 16).extractLsb' (8 * k) 8 = lane w k := by
  refine BitVec.eq_of_toNat_eq ?_
  rw [lane, BitVec.extractLsb'_toNat, BitVec.extractLsb'_toNat, BitVec.toNat_setWidth, Nat.shiftRight_eq_div_pow,
    Nat.shiftRight_eq_div_pow]
  match k, hk with
  | 0, _ => omega
  | 1, _ => omega

theorem lane_setWidth32 (h : BitVec 16) {k : Nat} (hk : k < 2) : lane (h.setWidth 32) k = h.extractLsb' (8 * k) 8 := by
  have hlt := h.isLt
  refine BitVec.eq_of_toNat_eq ?_
  rw [lane, BitVec.extractLsb'_toNat, BitVec.extractLsb'_toNat, BitVec.toNat_setWidth, Nat.shiftRight_eq_div_pow,
    Nat.shiftRight_eq_div_pow]
  match k, hk with
  | 0, _ => omega
  | 1, _ => omega

theorem extract_mergeHalf (old : BitVec 16) (new : Word) (lbe : BitVec 4) {k : Nat} (hk : k < 2) :
    (mergeHalf old new lbe).extractLsb' (8 * k) 8 =
      if lbe.getLsbD k then lane new k else old.extractLsb' (8 * k) 8 := by
  rw [mergeHalf, extract_setWidth16 _ hk, lane_mergeWord _ _ _ (by omega), lane_setWidth32 _ hk]

/-- Settles O18. -/
theorem fieldWritesReplaceEnabledBytes : Obligations.FieldWritesReplaceEnabledBytes := by
  refine ⟨fun ld lbe s hheld => ⟨fun reg => ?_, fun field => ⟨fun hstation => ?_, fun hstation => ?_⟩⟩,
    fun s hheld => ⟨fun reg => ?_, fun field => ?_⟩⟩
  · have hexec : exec (.cmdStage reg ld lbe) s = .next { s with
        staging := s.staging.set reg.val (mergeWord (s.staging.get reg) ld lbe) reg.isLt } := by
      show Host.Outcome.next (if s.rstHeld then s else _) = _
      rw [hheld]
      rfl
    refine ⟨_, hexec, rfl, fun k hk => ?_, fun r hr => ?_⟩
    · dsimp only
      rw [get_set, if_pos rfl, lane_mergeWord _ _ _ hk]
    · exact (get_set _ _ _ _).trans (if_neg hr.symm)
  · have hexec : exec (.startRecordWrite field ld lbe) s = .next { s with
        startRec := s.startRec.set field.val (mergeHalf (s.startRec.get field) ld lbe) field.isLt } := by
      show Host.Outcome.next (if !s.rstHeld && s.station == .unconfigured then _ else s) = _
      rw [hheld, hstation]
      rfl
    refine ⟨_, hexec, rfl, fun k hk => ?_, fun f hf => ?_⟩
    · dsimp only
      rw [get_set, if_pos rfl, extract_mergeHalf _ _ _ hk]
    · exact (get_set _ _ _ _).trans (if_neg hf.symm)
  · show Host.Outcome.next (if !s.rstHeld && s.station == .unconfigured then _ else s) = _
    rw [beq_false_of_ne hstation, Bool.and_false]
    rfl
  · rw [State.readRegister_released hheld]
    match reg with
    | 0 => rfl
    | 1 => rfl
    | 2 => rfl
    | 3 => rfl
  · rw [State.readRegister_released hheld]
    match field with
    | 0 => rfl
    | 1 => rfl
    | 2 => rfl
    | 3 => rfl
    | 4 => rfl
    | 5 => rfl
    | 6 => rfl
    | 7 => rfl

/-! ### Ignored writes, and the state registers -/

theorem registerCommand_ignored {la : BitVec 6} (ld : Word) (lbe : BitVec 4)
    (hla : la ∉ ([0, 1, 2, 3, 4, 12, 19, 20, 24, 25, 26, 27, 28, 29, 30, 31, 34] : List (BitVec 6))) :
    registerCommand la ld lbe = .registerWriteIgnored la ld lbe := by
  have listed : ∀ {n : Nat}, la.toNat = n →
      BitVec.ofNat 6 n ∈ ([0, 1, 2, 3, 4, 12, 19, 20, 24, 25, 26, 27, 28, 29, 30, 31, 34] : List (BitVec 6)) → False := by
    rintro n rfl hmem
    rw [BitVec.ofNat_toNat, BitVec.setWidth_eq] at hmem
    exact hla hmem
  unfold registerCommand
  split
  case h_18 => rfl
  all_goals exact (listed ‹_› (by decide)).elim

theorem State.registerWord_unassigned (s : State) {la : BitVec 6}
    (hla : la ∉ ([0, 1, 2, 3, 5, 8, 9, 10, 11, 16, 17, 18, 20, 21, 22, 24, 25, 26, 27, 28, 29, 30, 31, 32, 33] :
      List (BitVec 6))) : s.registerWord la = 0 := by
  have listed : ∀ {n : Nat}, la.toNat = n →
      BitVec.ofNat 6 n ∈ ([0, 1, 2, 3, 5, 8, 9, 10, 11, 16, 17, 18, 20, 21, 22, 24, 25, 26, 27, 28, 29, 30, 31, 32, 33] :
        List (BitVec 6)) → False := by
    rintro n rfl hmem
    rw [BitVec.ofNat_toNat, BitVec.setWidth_eq] at hmem
    exact hla hmem
  unfold State.registerWord
  split
  case h_26 => rfl
  all_goals exact (listed ‹_› (by decide)).elim

/-- With no byte enabled, or RST# held, no register write is taken. -/
theorem State.writeTaken_dropped {s : State} {lbe : BitVec 4} (h : lbe = 0 ∨ s.rstHeld = true) :
    s.writeTaken lbe = false ∧ (!s.rstHeld && lbe.getLsbD 0) = false := by
  rcases h with rfl | h
  · exact ⟨Bool.and_false _, Bool.and_false _⟩
  · rw [State.writeTaken, h]
    exact ⟨rfl, rfl⟩

theorem ofLanes_lane (w : Word) : ofLanes (lane w 0) (lane w 1) (lane w 2) (lane w 3) = w := by
  unfold ofLanes lane
  rw [BitVec.extractLsb'_append_extractLsb'_eq_extractLsb' (start₂ := 8 * 3) (start₁ := 8 * 2) (len₁ := 8) rfl,
    BitVec.extractLsb'_append_extractLsb'_eq_extractLsb' (start₂ := 8 * 2) (start₁ := 8 * 1) (len₁ := 8) rfl,
    BitVec.extractLsb'_append_extractLsb'_eq_extractLsb' (start₂ := 8 * 1) (start₁ := 8 * 0) (len₁ := 8) rfl]
  exact BitVec.extractLsb'_eq_self

/-- A write with no byte enabled leaves a staging register as it was, and a start record register. -/
theorem mergeWord_none (old new : Word) : mergeWord old new 0 = old := by
  have hlane : ∀ k, mergeLane old new 0 k = lane old k := fun k => if_neg (by simp)
  rw [mergeWord, hlane, hlane, hlane, hlane, ofLanes_lane]

theorem mergeHalf_none (old : BitVec 16) (new : Word) : mergeHalf old new 0 = old := by
  rw [mergeHalf, mergeWord_none, BitVec.setWidth_setWidth_of_le _ (by decide), BitVec.setWidth_eq]

theorem set_get_self {n : Nat} {α : Type} (v : Vector α n) (i : Fin n) : v.set i.val (v.get i) i.isLt = v :=
  Vector.set_getElem_self i.isLt

theorem exec_cmdStage_dropped {s : State} {lbe : BitVec 4} (h : lbe = 0 ∨ s.rstHeld = true) (reg : Fin 4) (ld : Word) :
    exec (.cmdStage reg ld lbe) s = .next s := by
  show Host.Outcome.next (if s.rstHeld then s else _) = _
  rcases h with rfl | h
  · rw [mergeWord_none, set_get_self, ite_self]
  · rw [h, if_pos rfl]

theorem exec_startRecordWrite_dropped {s : State} {lbe : BitVec 4} (h : lbe = 0 ∨ s.rstHeld = true) (field : Fin 8)
    (ld : Word) : exec (.startRecordWrite field ld lbe) s = .next s := by
  show Host.Outcome.next (if !s.rstHeld && s.station == .unconfigured then _ else s) = _
  rcases h with rfl | h
  · rw [mergeHalf_none, set_get_self, ite_self]
  · rw [h]
    rfl

/-- STATION_STATUS shows the station state in bits 2:0 and the port state in bits 5:4. -/
theorem stationStatus_fields (x : StationState) (y : PortState) :
    ((BitVec.ofNat 32 (x.code + 16 * y.code)).extractLsb' 0 3).toNat = x.code ∧
      ((BitVec.ofNat 32 (x.code + 16 * y.code)).extractLsb' 4 2).toNat = y.code := by
  cases x <;> cases y <;> decide

/-- Settles O19. -/
theorem ignoredRegisterWritesChangeNothing : Obligations.IgnoredRegisterWritesChangeNothing := by
  refine ⟨fun s la r f ld lbe => ⟨rfl, fun hdrop => ?_⟩, fun ld lbe hlbe => ?_, fun la ld => rfl, fun s hheld => ?_⟩
  · obtain ⟨hwrite, hlow⟩ := State.writeTaken_dropped hdrop
    refine ⟨?_, ?_, ?_, ?_, ?_, exec_cmdStage_dropped hdrop r ld, exec_startRecordWrite_dropped hdrop f ld⟩
    · show Host.Outcome.next (if s.writeTaken lbe then _ else s) = _
      rw [hwrite]
      rfl
    · show Host.Outcome.next (if s.writeTaken lbe then _ else s) = _
      rw [hwrite]
      rfl
    · show Host.Outcome.next (if !s.rstHeld && lbe.getLsbD 0 then _ else s) = _
      rw [hlow]
      rfl
    · show Host.Outcome.next (if s.writeTaken lbe && ld.getLsbD 0 then _ else s) = _
      rw [hwrite]
      rfl
    · show Host.Outcome.next (if !s.rstHeld && lbe.getLsbD 0 then _ else s) = _
      rw [hlow]
      rfl
  · have enabled : ∀ la, registerWrite la ld lbe = registerCommand la ld lbe := fun la => if_neg hlbe
    simp only [enabled]
    refine ⟨fun r => ?_, fun f => ?_, rfl, rfl, rfl, rfl, rfl, fun la hla => registerCommand_ignored ld lbe hla⟩
    · match r with
      | 0 => rfl
      | 1 => rfl
      | 2 => rfl
      | 3 => rfl
    · match f with
      | 0 => rfl
      | 1 => rfl
      | 2 => rfl
      | 3 => rfl
      | 4 => rfl
      | 5 => rfl
      | 6 => rfl
      | 7 => rfl
  · simp only [State.readRegister_released hheld]
    obtain ⟨hstation, hport⟩ := stationStatus_fields s.station s.port
    obtain ⟨hinc, hpresent⟩ := incWord_fields s.prevInc
    refine ⟨hstation.trans ?_, hport.trans ?_, hinc, hpresent, fun la hla => s.registerWord_unassigned hla⟩
    · cases s.station <;> rfl
    · cases s.port <;> rfl

end Sys2Proof.Machine
end

section
/-! PROOFS. The commands of the station and of the window: what START checks and does, ATTACH, RESUME, MAP, RESTORE, and the
commands refused before START. -/

namespace Sys2Proof.Machine

variable {s : State} {q : Queued}

/-! ### Taking a command of one row -/

theorem exec_started {i : Instr} {row : CommandRecord → Bool} {act : State → Queued → State}
    (hexec : exec i s = .next (s.takeRow row fun s q => s.ifStarted q act)) (hq : s.takeable = some q)
    (hrow : row q.record = true) (hstarted : s.station ≠ .unconfigured) :
    exec i s = .next (act s.removeHead q).settleEvent := by
  rw [hexec, State.takeRow_eq hq hrow, State.ifStarted_started hstarted]

theorem exec_unstarted {i : Instr} {row : CommandRecord → Bool} {act : State → Queued → State}
    (hexec : exec i s = .next (s.takeRow row fun s q => s.ifStarted q act)) (hq : s.takeable = some q)
    (hrow : row q.record = true) (hstation : s.station = .unconfigured) :
    exec i s = .next (s.removeHead.answer q .notStarted).settleEvent := by
  rw [hexec, State.takeRow_eq hq hrow, State.ifStarted_unconfigured hstation]

/-- The head leaves and is in flight, and its completion takes it out of flight again. -/
theorem State.removeHead_complete (t : Ticket) (st : Status) (c : Option ClaimIdx) (g : Option Byte) (w : Option Word) :
    s.removeHead.complete t st c g w = { s with cmdq := s.cmdq.tail, cplq := s.cplq ++ [.plain t st c g w] } := rfl

/-- Settles O20. -/
theorem unconfiguredCommandsCompleteNotStarted : Obligations.UnconfiguredCommandsCompleteNotStarted := by
  intro s q hq hstation i hi hrow
  simp only [List.mem_cons, List.not_mem_nil, or_false] at hi
  rcases hi with rfl | rfl | rfl | rfl | rfl | rfl | rfl | rfl | rfl | rfl | rfl | rfl
  all_goals exact exec_unstarted rfl hq hrow hstation

/-- Settles O21. -/
theorem unknownCodeCompletesBadArgument : Obligations.UnknownCodeCompletesBadArgument := by
  intro s q hq hrow
  refine ⟨s.removeHead.doUnknown q, ?_, rfl, rfl, rfl, rfl⟩
  show Host.Outcome.next (s.takeRow isUnknown State.doUnknown) = _
  rw [State.takeRow_eq hq hrow]

/-! ### The checks of START -/

theorem State.startCheckFails_range {j : Nat} (h : s.StartCheckFails j) : 1 ≤ j ∧ j < 9 := by
  refine ⟨Nat.one_le_iff_ne_zero.mpr fun h0 => ?_, Nat.lt_of_not_le fun h9 => ?_⟩
  · rw [h0] at h
    exact h
  · obtain ⟨k, rfl⟩ := Nat.exists_eq_add_of_le' h9
    exact h

open Classical in
theorem find?_decide_cons (p : Nat → Prop) (a : Nat) (l : List Nat) :
    (a :: l).find? (fun j => decide (p j)) = if p a then some a else l.find? fun j => decide (p j) := by
  by_cases h : p a
  · rw [if_pos h, List.find?_cons_of_pos]
    exact decide_eq_true h
  · rw [if_neg h, List.find?_cons_of_neg]
    rwa [decide_eq_true_eq]

open Classical in
/-- The checks are tried in order. -/
theorem State.startFailure_eq_find :
    s.startFailure = (List.range' 1 8).find? fun j => decide (s.StartCheckFails j) := by
  show _ = [1, 2, 3, 4, 5, 6, 7, 8].find? _
  simp only [find?_decide_cons, List.find?_nil]
  simp only [State.startFailure, State.StartCheckFails, gt_iff_lt]

theorem State.startFailure_none_iff : s.startFailure = none ↔ ∀ j, ¬ s.StartCheckFails j := by
  rw [State.startFailure_eq_find, List.find?_range'_eq_none]
  simp only [Bool.not_eq_true', decide_eq_false_iff_not]
  exact ⟨fun h j hj => h j (State.startCheckFails_range hj).1 (State.startCheckFails_range hj).2 hj, fun h j _ _ => h j⟩

theorem State.startFailure_some_iff {k : Nat} :
    s.startFailure = some k ↔ s.StartCheckFails k ∧ ∀ j, j < k → ¬ s.StartCheckFails j := by
  rw [State.startFailure_eq_find, List.find?_range'_eq_some]
  simp only [Bool.not_eq_true', decide_eq_false_iff_not, decide_eq_true_eq, List.mem_range'_1]
  exact ⟨fun ⟨hk, _, h⟩ => ⟨hk, fun j hj hf => h j (State.startCheckFails_range hf).1 hj hf⟩,
    fun ⟨hk, h⟩ => ⟨hk, State.startCheckFails_range hk, fun j _ => h j⟩⟩

/-- Settles O22. -/
theorem startChecksAreTheTableOfRanges : Obligations.StartChecksAreTheTableOfRanges := by
  refine fun s => ⟨?_, fun k => State.startFailure_some_iff⟩
  rw [State.startFailure_none_iff]
  constructor
  · intro h
    have h1 := h 1
    have h2 := h 2
    have h3 := h 3
    have h4 := h 4
    have h5 := h 5
    have h6 := h 6
    have h7 := h 7
    have h8 := h 8
    simp only [State.StartCheckFails, not_or] at h1 h2 h3 h4 h5 h6 h7 h8
    refine ⟨?_, ?_, ?_, h2.2.2, ?_⟩
    all_goals omega
  · intro h j hj
    obtain ⟨hnumber, hinc0, hinc, hprev, hhome, hhomeFrames, hborrow, hframes, hhold, hrecall0, hrecall, hratio, hwait,
      hretry0, hretry⟩ := h
    obtain ⟨hj1, hj9⟩ := State.startCheckFails_range hj
    by_cases hsecond : j = 2
    · subst hsecond
      exact hj.elim (by omega) fun h => h.elim (by omega) hprev
    · have hothers : j = 1 ∨ j = 3 ∨ j = 4 ∨ j = 5 ∨ j = 6 ∨ j = 7 ∨ j = 8 := by omega
      rcases hothers with rfl | rfl | rfl | rfl | rfl | rfl | rfl
      all_goals
        simp only [State.StartCheckFails] at hj
        omega

/-! ### START, ATTACH and RESUME -/

theorem exec_start (hq : s.takeable = some q) (hcode : isCode 1 q.record = true) :
    exec .start s = .next (s.removeHead.doStart q).settleEvent := by
  show Host.Outcome.next (s.takeRow (isCode 1) State.doStart) = _
  rw [State.takeRow_eq hq hcode]

/-- Settles O23. -/
theorem startTakesEffect : Obligations.StartTakesEffect := by
  intro s q hq hcode
  rw [exec_start hq hcode]
  refine ⟨fun hstation hpass htxq hlist => ⟨s.removeHead.doStart q, rfl, ?_⟩, fun k hstation hfail => ?_,
    fun hstation => ?_⟩
  · have heffect : s.removeHead.doStart q = s.removeHead.startEffect q.ticket := by
      rw [State.doStart, if_pos (show s.removeHead.station = .unconfigured from hstation),
        show s.removeHead.startFailure = none from hpass]
    rw [heffect, State.startEffect, State.enterJoining_eq]
    · exact ⟨rfl, rfl, rfl, rfl, rfl, rfl, rfl, rfl, rfl, rfl, rfl, rfl, rfl, rfl, rfl⟩
    · exact htxq
    · exact hlist
  · rw [State.doStart, if_pos (show s.removeHead.station = .unconfigured from hstation),
      show s.removeHead.startFailure = some k from hfail]
  · rw [State.doStart, if_neg (show ¬ s.removeHead.station = .unconfigured from hstation)]

/-- Settles O24. -/
theorem attachEntersJoining : Obligations.AttachEntersJoining := by
  intro s q hq hcode hstarted
  rw [exec_started rfl hq hcode hstarted]
  refine ⟨fun hstation htxq hlist => ⟨s.removeHead.doAttach q, rfl, ?_⟩, fun hstation => ?_⟩
  · rw [State.doAttach, if_pos (show s.removeHead.station = .detached from hstation),
      State.enterJoining_eq _ _ (show s.removeHead.txq = [] from htxq) hlist]
    exact ⟨rfl, rfl, rfl, rfl, rfl, rfl, rfl, rfl, rfl, rfl, rfl, rfl, rfl⟩
  · rw [State.doAttach, if_neg (show ¬ s.removeHead.station = .detached from hstation)]

theorem State.claim_mapPausable (f : Timer → Timer) (c : ClaimIdx) :
    (s.mapPausable f).claim c = { s.claim c with wait := f (s.claim c).wait, reask := f (s.claim c).reask } := by
  unfold State.claim State.mapPausable
  simp only [get_eq_getElem, Vector.getElem_map]

theorem TxEntry.resumed_fields (e : TxEntry) :
    e.resumed.busy = 0 ∧ e.resumed.expiry = 0 ∧ e.resumed.st = (if e.st = .retry then .due false else e.st) ∧
      e.resumed.returnTimer = e.returnTimer ∧ e.resumed.msg = e.msg ∧ e.resumed.dest = e.dest ∧
      e.resumed.owner = e.owner ∧ e.resumed.buf = e.buf := by
  unfold TxEntry.resumed
  split
  all_goals exact ⟨rfl, rfl, rfl, rfl, rfl, rfl, rfl, rfl⟩

/-- Settles O26. -/
theorem resumeRestartsStalledPort : Obligations.ResumeRestartsStalledPort := by
  intro s q hq hcode hstarted
  rw [exec_started rfl hq hcode hstarted]
  refine ⟨fun hport => ⟨s.removeHead.doResume q, rfl, ?_⟩, fun hport => ?_⟩
  · rw [State.doResume, if_pos (show s.removeHead.port = .stalled from hport)]
    refine ⟨rfl, List.length_map _, fun j e he => ⟨e.resumed, ?_, e.resumed_fields⟩,
      fun c => State.claim_mapPausable (s := s.removeHead) _ c, rfl, rfl, rfl, rfl⟩
    show (s.txq.map TxEntry.resumed)[j]? = _
    rw [List.getElem?_map, he]
    rfl
  · rw [State.doResume, if_neg (show ¬ s.removeHead.port = .stalled from hport)]

/-! ### MAP -/

/-- The claim that a target names. -/
def Target.claim? : Target → Option ClaimIdx
  | .claim c => some c
  | .privateFrame _ => none

theorem State.doMap_private {f : Nat} {e : EntryIdx} {limit : Limit} (he : argIndex32 q.record.argA = some e)
    (hl : argLimit q.record.argB = some limit) (hk : argTargetIsClaim q.record.argB = some false)
    (hf : q.record.argC = f) (hlow : s.homeCount + s.borrowCount ≤ f) (hhigh : f < s.frames) :
    s.doMap q = (s.setMapping e (some (.privateFrame f, limit))).answer q .ok := by
  unfold State.doMap
  rw [he, hl, hk]
  dsimp only
  rw [hf, if_pos ⟨hlow, hhigh⟩]

theorem State.doMap_claim {c : ClaimIdx} {e : EntryIdx} {limit : Limit} (he : argIndex32 q.record.argA = some e)
    (hl : argLimit q.record.argB = some limit) (hk : argTargetIsClaim q.record.argB = some true)
    (hc : argIndex32 q.record.argC = some c) :
    s.doMap q = if (s.claim c).state = .free then s.answerClaim q .badState c
      else (s.setMapping e (some (.claim c, limit))).answerClaim q .ok c := by
  unfold State.doMap
  rw [he, hl, hk]
  dsimp only
  rw [hc]

theorem State.doMap_badArgument
    (h : argIndex32 q.record.argA = none ∨ argLimit q.record.argB = none ∨ argTargetIsClaim q.record.argB = none ∨
      (argTargetIsClaim q.record.argB = some false ∧
        (q.record.argC < s.homeCount + s.borrowCount ∨ s.frames ≤ q.record.argC)) ∨
      (argTargetIsClaim q.record.argB = some true ∧ argIndex32 q.record.argC = none)) :
    s.doMap q = s.answer q .badArgument := by
  unfold State.doMap
  dsimp only
  split
  · rename_i e limit he hk hl
    rw [he, hl, hk] at h
    refine if_neg fun hin => ?_
    simp only [reduceCtorEq, false_or, true_and, false_and, or_false, Option.some.injEq, Bool.false_eq_true] at h
    omega
  · rename_i e limit he hk hl
    rw [he, hl, hk] at h
    simp only [reduceCtorEq, false_or, true_and, false_and, Option.some.injEq, Bool.true_eq_false] at h
    rw [h]
  · rfl

/-- What a mapping leaves of the claim that the entry named. -/
theorem State.setMapping_unreferenced {e : EntryIdx} {m : Option (Target × Limit)} {c : ClaimIdx}
    (h : (s.window.get e).claim ≠ some c ∨ (s.claim c).state ≠ .ended ∨ (s.setMapping e m).refCount c ≠ 0) :
    (s.setMapping e m).claim c = s.claim c := by
  obtain ⟨-, -, -, hother, -, hkept⟩ := s.setMapping_spec e m
  by_cases hc : (s.window.get e).claim = some c
  · exact hkept c hc (h.resolve_left (not_not_intro hc))
  · exact hother c hc

/-- Settles O32. -/
theorem mapSetsTheEntry : Obligations.MapSetsTheEntry := by
  intro s q hq hcode hstarted
  rw [exec_started rfl hq hcode hstarted]
  refine ⟨fun e limit g he hl hg => ⟨s.removeHead.doMap q, rfl, ?_⟩, fun hbad => ?_, fun c ha hl hk hc hfree => ?_⟩
  · have hmap : s.removeHead.doMap q =
        (s.removeHead.setMapping e (some (g, limit))).complete q.ticket .ok g.claim? none none := by
      rcases hg with ⟨f, rfl, hk, hf, hlow, hhigh⟩ | ⟨c, rfl, hk, hc, hlive⟩
      · exact State.doMap_private (s := s.removeHead) he hl hk hf hlow hhigh
      · rw [State.doMap_claim he hl hk hc, if_neg (show ¬ (s.removeHead.claim c).state = .free from hlive)]
        rfl
    rw [hmap]
    obtain ⟨houtside, hitem, hcplq, hother, hfreed, hkept⟩ := s.removeHead.setMapping_spec e (some (g, limit))
    refine ⟨houtside, ?_, hitem, fun c hc hended href => ⟨hfreed c hc hended href, ?_⟩, fun c hc => ?_⟩
    · show (s.removeHead.setMapping e (some (g, limit))).cplq ++ _ = _
      rw [hcplq]
      cases g <;> rfl
    · exact State.setMapping_clears_claim_item _ _ hc hended href
    · exact State.setMapping_unreferenced hc
  · rw [State.doMap_badArgument (s := s.removeHead) hbad]
  · obtain ⟨e, he⟩ := Option.ne_none_iff_exists'.mp ha
    obtain ⟨limit, hl⟩ := Option.ne_none_iff_exists'.mp hl
    rw [State.doMap_claim he hl hk hc, if_pos (show (s.removeHead.claim c).state = .free from hfree)]

/-! ### RESTORE -/

/-- Settles O34. -/
theorem restoreRepairsDamagedRecord : Obligations.RestoreRepairsDamagedRecord := by
  intro s q hq hcode hstarted
  rw [exec_started rfl hq hcode hstarted]
  refine ⟨fun hnone => ?_, fun n r hn hr => ⟨fun hstate => ?_, fun hstate => ⟨s.removeHead.doRestore q, rfl, ?_⟩⟩⟩
  · unfold State.doRestore
    cases hn : argBlockIndex q.record.argA with
    | none => rfl
    | some n =>
      rw [hn] at hnone
      dsimp only
      rw [show s.removeHead.record? n = none from hnone]
  · unfold State.doRestore
    rw [hn]
    dsimp only
    rw [show s.removeHead.record? n = some r from hr]
    dsimp only
    rw [if_neg hstate]
  · unfold State.doRestore
    rw [hn]
    dsimp only
    rw [show s.removeHead.record? n = some r from hr]
    dsimp only
    rw [if_pos hstate]
    exact ⟨rfl, rfl, rfl, rfl⟩

end Sys2Proof.Machine
end

section
/-! PROOFS. INSPECT: what it completes with, and the layout of the summary of a record and of a claim. -/

namespace Sys2Proof.Machine

/-! ### Fields of bytes and words -/

theorem getLsbD_ofNat8 (n i : Nat) (hi : i < 8) : (BitVec.ofNat 8 n).getLsbD i = decide (n / 2 ^ i % 2 = 1) := by
  rw [BitVec.getLsbD_ofNat, Nat.testBit_eq_decide_div_mod_eq, decide_eq_true hi, Bool.true_and]

theorem extract_ofNat8_toNat (n k w : Nat) :
    ((BitVec.ofNat 8 n).extractLsb' k w).toNat = n % 2 ^ 8 / 2 ^ k % 2 ^ w := by
  rw [BitVec.extractLsb'_toNat, BitVec.toNat_ofNat, Nat.shiftRight_eq_div_pow]

/-- The bit that `bit` put there is the one read back. -/
theorem decide_bit (b : Bool) : decide (bit b = 1) = b := by cases b <;> rfl

theorem bit_lt (b : Bool) : bit b < 2 := by cases b <;> decide

theorem packStations_lt (l : List Station) : packStations l < 16 ^ l.length := by
  induction l with
  | nil => decide
  | cons p ps ih =>
    have hp := p.isLt
    rw [packStations, List.length_cons, Nat.pow_succ]
    omega

theorem packStations_digit (l : List Station) (k : Nat) :
    packStations l / 16 ^ k % 16 = (l[k]?.map (·.val)).getD 0 := by
  induction l generalizing k with
  | nil =>
    rw [packStations, Nat.zero_div]
    rfl
  | cons p ps ih =>
    have hp := p.isLt
    cases k with
    | zero =>
      simp only [packStations, Nat.pow_zero, Nat.div_one, List.getElem?_cons_zero, Option.map_some, Option.getD_some]
      omega
    | succ k =>
      rw [List.getElem?_cons_succ, ← ih, packStations, Nat.pow_succ', ← Nat.div_div_eq_div_mul]
      congr 2
      omega

/-! ### The summary of a record -/

theorem RecordState.code_lt (x : RecordState) : x.code < 8 := by cases x <;> decide

theorem DirRecord.byteA_fields (r : DirRecord) (h : r.queue.length ≤ 16) :
    (r.byteA.extractLsb' 0 3).toNat = r.state.code ∧ (r.byteA.extractLsb' 3 5).toNat = r.queue.length := by
  have hcode := r.state.code_lt
  unfold DirRecord.byteA
  rw [extract_ofNat8_toNat, extract_ofNat8_toNat]
  omega

theorem DirRecord.byteB_sending {r : DirRecord} {t : Transfer} (hs : r.state = .sending) (ht : r.transfer = some t) :
    r.byteB = BitVec.ofNat 8 (t.next + 64 * t.mode.code) := by
  unfold DirRecord.byteB
  rw [hs, ht]

theorem DirRecord.byteB_recalling {r : DirRecord} {k : Recall} (hs : r.state = .recalling)
    (hk : r.recalling = some k) :
    r.byteB = BitVec.ofNat 8 (k.awaiting.length + 16 * (k.sends - 1) + 64 * k.kind.code) := by
  unfold DirRecord.byteB
  rw [hs, hk]

theorem DirRecord.byteB_other {r : DirRecord} (hs : r.state ≠ .sending) (hk : r.state ≠ .recalling) : r.byteB = 0 := by
  unfold DirRecord.byteB
  split
  · exact absurd ‹_› hs
  · exact absurd ‹_› hk
  · rfl

theorem DirRecord.words_readers {r : DirRecord} (h : r.readers ≠ []) :
    r.words = (BitVec.ofNat 32 (packStations (((r.readers.map (·.station)).take 15).take 8)),
      BitVec.ofNat 32 (packStations (((r.readers.map (·.station)).take 15).drop 8) + 2 ^ 28 * (r.readers.length - 1))) := by
  unfold DirRecord.words
  rw [if_neg (by rwa [List.isEmpty_iff])]

theorem DirRecord.words_holder {r : DirRecord} {h : Holder} (hr : r.readers = [])
    (hh : r.holder = some h ∨ r.holder = none ∧ r.lost = some h) :
    r.words = (BitVec.ofNat 32 (h.station.val + 256 * h.gen.toNat), 0) := by
  unfold DirRecord.words
  rw [if_pos (by rw [hr]; rfl)]
  rcases hh with hh | ⟨hn, hl⟩
  · rw [hh]
  · rw [hn, hl]

/-- The first eight readers stand in result word 1, the next seven in word 2 below the count. -/
theorem DirRecord.words_fields {r : DirRecord} (h : r.readers ≠ []) (hlen : r.readers.length ≤ 16) :
    (r.words.2.extractLsb' 28 4).toNat = r.readers.length - 1 ∧
      (∀ k, k < 8 → (r.words.1.extractLsb' (4 * k) 4).toNat = ((r.readers[k]?.map (·.station.val)).getD 0)) ∧
      ∀ k, k < 7 → (r.words.2.extractLsb' (4 * k) 4).toNat = ((r.readers[k + 8]?.map (·.station.val)).getD 0) := by
  rw [DirRecord.words_readers h]
  have hfirst := packStations_lt (((r.readers.map (·.station)).take 15).take 8)
  have hnext := packStations_lt (((r.readers.map (·.station)).take 15).drop 8)
  have hfirst : packStations (((r.readers.map (·.station)).take 15).take 8) < 16 ^ 8 :=
    Nat.lt_of_lt_of_le hfirst (Nat.pow_le_pow_right (by decide) (List.length_take_le _ _))
  have hnext : packStations (((r.readers.map (·.station)).take 15).drop 8) < 16 ^ 7 :=
    Nat.lt_of_lt_of_le hnext (Nat.pow_le_pow_right (by decide) (by
      rw [List.length_drop, List.length_take]
      omega))
  refine ⟨?_, fun k hk => ?_, fun k hk => ?_⟩
  · rw [extract_ofNat32_toNat]
    omega
  · have hdigit := packStations_digit (((r.readers.map (·.station)).take 15).take 8) k
    rw [List.getElem?_take_of_lt hk, List.getElem?_take_of_lt (by omega), List.getElem?_map, Option.map_map] at hdigit
    refine Eq.trans ?_ hdigit
    rw [extract_ofNat32_toNat]
    have hvalues : k = 0 ∨ k = 1 ∨ k = 2 ∨ k = 3 ∨ k = 4 ∨ k = 5 ∨ k = 6 ∨ k = 7 := by omega
    rcases hvalues with rfl | rfl | rfl | rfl | rfl | rfl | rfl | rfl
    all_goals omega
  · have hdigit := packStations_digit (((r.readers.map (·.station)).take 15).drop 8) k
    rw [List.getElem?_drop, List.getElem?_take_of_lt (by omega), List.getElem?_map, Option.map_map,
      Nat.add_comm 8 k] at hdigit
    refine Eq.trans ?_ hdigit
    rw [extract_ofNat32_toNat]
    have hvalues : k = 0 ∨ k = 1 ∨ k = 2 ∨ k = 3 ∨ k = 4 ∨ k = 5 ∨ k = 6 := by omega
    rcases hvalues with rfl | rfl | rfl | rfl | rfl | rfl | rfl
    all_goals omega

/-! ### The summary of a claim -/

theorem ClaimState.code_lt (x : ClaimState) : x.code < 16 := by cases x <;> decide

theorem modeCode_lt (m : Option Mode) : modeCode m < 4 := by
  rcases m with _ | m
  · decide
  · cases m <;> decide

theorem endCode_lt (e : Option EndReason) : (e.map EndReason.code).getD 0 < 8 := by
  rcases e with _ | e
  · decide
  · cases e <;> decide

theorem deferredCode_lt (d : Option (RecallKind × Byte)) : (d.map (·.1.code)).getD 0 < 4 := by
  rcases d with _ | ⟨k, g⟩
  · exact Nat.zero_lt_succ 3
  · show k.code < 4
    cases k <;> decide

theorem Claim.byteA_fields (c : Claim) :
    (c.byteA.extractLsb' 0 4).toNat = c.state.code ∧ c.byteA.extractLsb' 4 4 = c.use := by
  have hcode := c.state.code_lt
  have huse := c.use.isLt
  unfold Claim.byteA
  refine ⟨?_, BitVec.eq_of_toNat_eq ?_⟩
  all_goals
    rw [extract_ofNat8_toNat]
    omega

theorem Claim.byteB_fields (c : Claim) :
    (c.byteB.extractLsb' 0 2).toNat = modeCode c.held ∧ (c.byteB.extractLsb' 2 2).toNat = modeCode c.sought ∧
      c.byteB.getLsbD 4 = c.holdRunning ∧ (c.byteB.extractLsb' 5 2).toNat = (c.deferred.map (·.1.code)).getD 0 ∧
      c.byteB.getLsbD 7 = c.askStanding := by
  have hheld := modeCode_lt c.held
  have hsought := modeCode_lt c.sought
  have hdeferred := deferredCode_lt c.deferred
  have hhold := bit_lt c.holdRunning
  have hask := bit_lt c.askStanding
  unfold Claim.byteB
  rw [extract_ofNat8_toNat, extract_ofNat8_toNat, extract_ofNat8_toNat, getLsbD_ofNat8 _ _ (by decide),
    getLsbD_ofNat8 _ _ (by decide)]
  refine ⟨by omega, by omega, ?_, by omega, ?_⟩
  · refine Eq.trans (decide_eq_decide.mpr ?_) (decide_bit c.holdRunning)
    omega
  · refine Eq.trans (decide_eq_decide.mpr ?_) (decide_bit c.askStanding)
    omega

/-- The block, the flags, the frame and the end reason stand in bits of their own. -/
theorem summaryWord_fields {n f e : Nat} {hasBlock hasGen hasFrame : Bool} (hn : n < 2 ^ 12) (hf : f < 2 ^ 9) (he : e < 8) :
    let w : Word := BitVec.ofNat 32 (n + 2 ^ 12 * bit hasBlock + 2 ^ 13 * bit hasGen + 2 ^ 14 * bit hasFrame + 2 ^ 16 * f
      + 2 ^ 28 * e)
    (w.extractLsb' 0 8).toNat = n % 256 ∧ (w.extractLsb' 8 4).toNat = n / 256 ∧ w.getLsbD 12 = hasBlock ∧
      w.getLsbD 13 = hasGen ∧ w.getLsbD 14 = hasFrame ∧ (w.extractLsb' 16 9).toNat = f ∧
      (w.extractLsb' 28 3).toNat = e := by
  have hb := bit_lt hasBlock
  have hg := bit_lt hasGen
  have hr := bit_lt hasFrame
  intro w
  rw [extract_ofNat32_toNat, extract_ofNat32_toNat, extract_ofNat32_toNat, extract_ofNat32_toNat,
    getLsbD_ofNat32 _ _ (by decide), getLsbD_ofNat32 _ _ (by decide), getLsbD_ofNat32 _ _ (by decide)]
  refine ⟨by omega, by omega, ?_, ?_, ?_, by omega, by omega⟩
  · refine Eq.trans (decide_eq_decide.mpr ?_) (decide_bit hasBlock)
    omega
  · refine Eq.trans (decide_eq_decide.mpr ?_) (decide_bit hasGen)
    omega
  · refine Eq.trans (decide_eq_decide.mpr ?_) (decide_bit hasFrame)
    omega

theorem blockField_lt (b : Option Block) : (b.map fun b => b.index.toNat + 256 * b.home.val).getD 0 < 2 ^ 12 := by
  cases b with
  | none => decide
  | some b =>
    have hindex := b.index.isLt
    have hhome := b.home.isLt
    simp only [Option.map_some, Option.getD_some]
    omega

theorem Claim.word2_fields (c : Claim) {refs : Nat} (hr : c.received.length ≤ 32) (hd : c.dirty.length ≤ 32)
    (hrefs : refs ≤ 32) :
    ((c.word2 refs).extractLsb' 0 6).toNat = c.received.length ∧
      ((c.word2 refs).extractLsb' 8 6).toNat = c.dirty.length ∧ ((c.word2 refs).extractLsb' 16 6).toNat = refs := by
  unfold Claim.word2
  rw [extract_ofNat32_toNat, extract_ofNat32_toNat, extract_ofNat32_toNat]
  omega

/-! ### INSPECT -/

theorem State.doInspectBlock_record {s : State} {q : Queued} {n : Byte} {r : DirRecord} (ha : q.record.argA = 1)
    (hb : argBlockIndex q.record.argB = some n) (hr : s.record? n = some r) :
    s.doInspectBlock q = s.writeCompletion
      { ticket := q.ticket, status := .ok, claim := none, gen := some r.gen, byteA := r.byteA, byteB := r.byteB,
        word1 := some r.words.1, word2 := some r.words.2 } := by
  unfold State.doInspectBlock
  rw [if_pos ha, hb, Option.bind_some, hr]

theorem State.doInspectClaim_claim {s : State} {q : Queued} {c : ClaimIdx} (hc : argIndex32 q.record.argB = some c) :
    s.doInspectClaim q = s.writeCompletion
      { ticket := q.ticket, status := .ok, claim := some c, gen := (s.claim c).gen, byteA := (s.claim c).byteA,
        byteB := (s.claim c).byteB, word1 := some (s.claim c).word1,
        word2 := some ((s.claim c).word2 (s.refCount c)) } := by
  unfold State.doInspectClaim
  rw [hc]

/-- Settles O35. -/
theorem inspectChangesNothing : Obligations.InspectChangesNothing := by
  refine ⟨fun s q hq hstarted => ⟨fun n r hrow ha hb hr => ?_, fun c hrow hc => ?_, fun hrow ha => ?_,
    fun hrow ha hb => ?_, fun hrow hc => ?_⟩, fun r hqueue => ?_, fun c refs => ?_⟩
  · rw [exec_started rfl hq hrow hstarted, State.doInspectBlock_record (s := s.removeHead) ha hb hr]
    exact ⟨_, rfl, rfl, rfl⟩
  · rw [exec_started rfl hq hrow hstarted, State.doInspectClaim_claim hc]
    exact ⟨_, rfl, rfl, rfl⟩
  · rw [exec_started rfl hq hrow hstarted, State.doInspectBlock, if_neg ha]
  · rw [exec_started rfl hq hrow hstarted, State.doInspectBlock, if_pos ha,
      show (argBlockIndex q.record.argB).bind s.removeHead.record? = none from hb]
  · rw [exec_started rfl hq hrow hstarted, State.doInspectClaim, hc]
  · obtain ⟨hcode, hlength⟩ := r.byteA_fields hqueue
    refine ⟨hcode.trans (by cases r.state <;> rfl), hlength, fun t hs ht hnext => ?_, fun k hs hk haw hsends => ?_,
      DirRecord.byteB_other, DirRecord.words_fields, fun h hr hh => ?_, fun hr hh hl => ?_⟩
    · have hmode : t.mode.code < 4 := by cases t.mode <;> decide
      rw [DirRecord.byteB_sending hs ht, extract_ofNat8_toNat, extract_ofNat8_toNat]
      omega
    · have hkind : k.kind.code < 4 := by cases k.kind <;> decide
      rw [DirRecord.byteB_recalling hs hk, extract_ofNat8_toNat, extract_ofNat8_toNat, extract_ofNat8_toNat]
      omega
    · have hstation := h.station.isLt
      have hgen := h.gen.isLt
      rw [DirRecord.words_holder hr hh]
      refine ⟨?_, BitVec.eq_of_toNat_eq ?_, rfl⟩
      all_goals
        rw [extract_ofNat32_toNat]
        omega
    · rw [DirRecord.words, if_pos (by rw [hr]; rfl), hh, hl]
  · obtain ⟨hcode, huse⟩ := c.byteA_fields
    obtain ⟨hheld, hsought, hhold, hdeferred, hask⟩ := c.byteB_fields
    refine ⟨hcode.trans (by cases c.state <;> rfl), huse, hheld, hsought, hhold, hdeferred, hask, fun f hf hlt => ?_,
      fun hframe => ?_, c.word2_fields⟩
    · have hword := summaryWord_fields (n := (c.block.map fun b => b.index.toNat + 256 * b.home.val).getD 0)
        (hasBlock := c.block.isSome) (hasGen := c.gen.isSome) (hasFrame := c.frame.isSome) (blockField_lt c.block)
        (show c.frame.getD 0 < 2 ^ 9 by rw [hf]; exact hlt) (endCode_lt c.endReason)
      exact hword.2.2.2.2.2.1.trans (by rw [hf]; rfl)
    · have hlt : c.frame.getD 0 < 2 ^ 9 := by
        rcases hframe with hf | ⟨f, hf, hlt⟩
        · rw [hf]
          decide
        · rw [hf]
          exact hlt
      obtain ⟨hindex, hhome, hblock, hgen, hframe, -, hreason⟩ :=
        summaryWord_fields (n := (c.block.map fun b => b.index.toNat + 256 * b.home.val).getD 0)
          (hasBlock := c.block.isSome) (hasGen := c.gen.isSome) (hasFrame := c.frame.isSome) (blockField_lt c.block)
          hlt (endCode_lt c.endReason)
      refine ⟨fun b hb => ?_, hblock, hgen, hframe, hreason.trans ?_⟩
      · have hbi := b.index.isLt
        rw [hb] at hindex hhome
        simp only [Option.map_some, Option.getD_some] at hindex hhome
        refine ⟨BitVec.eq_of_toNat_eq ?_, ?_⟩
        · refine Eq.trans ?_ (hindex.trans (by omega))
          rw [Claim.word1, hb]
          rfl
        · refine Eq.trans ?_ (hhome.trans (by omega))
          rw [Claim.word1, hb]
          rfl
      · rcases c.endReason with _ | e
        · rfl
        · cases e <;> rfl

end Sys2Proof.Machine
end

section
/-! PROOFS. The lease commands: the checks of ACQUIRE and what it, UPGRADE, RELEASE and CANCEL do to their claim and send. -/

namespace Sys2Proof.Machine

variable {s t x : State} {q : Queued} {c : ClaimIdx}

/-! ### What a claim sends, seen from the state before the command -/

theorem State.SentAs.accepted {d : Station} {m : Lease} {o : Owner} (h : x.SentAs (s.handOver d m o))
    (hport : s.port ≠ .bypass) (hlist : s.handover = []) (haccept : s.canAccept d = true) :
    x.txq = s.txq ++ [TxEntry.fresh d m o none .waiting] := by
  rw [h.1, State.handOver_accepted s d m o hport hlist haccept]

theorem State.SentAs.mail_pushMail {m : Mail} (h : x.SentAs (s.pushMail m)) : x.mail = s.mail ++ [m] := h.2.2.2

theorem State.SentAs.sendHome_own {b : Block} {m : Lease} (h : t.SentAs s) (hblock : (t.claim c).block = some b)
    (hhome : b.home = t.own) : (t.sendHome c m).SentAs (s.pushMail (.toDirectory m)) := by
  rw [State.sendHome_own_block t c m b hblock hhome]
  exact h.pushMail _

theorem State.SentAs.sendHome_remote {b : Block} {m : Lease} {n : UseNum} (h : t.SentAs s) (hport : t.port = s.port)
    (hblock : (t.claim c).block = some b) (huse : (t.claim c).use = n) (hhome : b.home ≠ t.own) :
    (t.sendHome c m).SentAs (s.handOver b.home m (.claims (some (c, n)))) := by
  rw [State.sendHome_remote t c m b hblock hhome, huse]
  exact h.handOver hport _ _ _

theorem State.DropBegun.of_sentAs {v : Claim} {b : Block} {g : Byte} {k : GiveCause} (h : t.DropBegun x c v b g k)
    (hsent : t.SentAs s) (hport : t.port = s.port) : s.DropBegun x c v b g k :=
  ⟨h.claim, h.sent.trans (hsent.handOver hport _ _ _)⟩

theorem State.ReturnBegun.of_sentAs {v : Claim} {b : Block} {g : Byte} {kept : Bool} {k : GiveCause}
    (h : t.ReturnBegun x c v b g kept k) (hsent : t.SentAs s) (hport : t.port = s.port)
    (haccess : t.access = s.access) (hturn : t.claimTurn = s.claimTurn) : s.ReturnBegun x c v b g kept k := by
  obtain ⟨hwaiting, hfixed, hoffered, hfinished⟩ := h
  rw [haccess] at hwaiting hfixed hoffered hfinished
  rw [hturn] at hwaiting hoffered
  refine ⟨fun ha => ?_, hfixed, fun ha hd => ?_, fun ha hd => (hfinished ha hd).trans (hsent.handOver hport _ _ _)⟩
  · obtain ⟨hclaim, hx, hjoin⟩ := hwaiting ha
    exact ⟨hclaim, hx.trans hsent, hjoin⟩
  · obtain ⟨hx, hjoin⟩ := hoffered ha hd
    exact ⟨hx.trans hsent, hjoin⟩

/-! ### ACQUIRE -/

/-- The last five checks of ACQUIRE, in order. -/
theorem State.acquireBlock_refused {home : Station} {n : Byte} {mode : Mode} {st : Status}
    (hcheck : (home ≠ s.own ∧ s.station ≠ .attached ∧ st = .notAttached) ∨
      (home = s.own ∧ s.homeCount ≤ n.toNat ∧ st = .noBlock) ∨
      ((home = s.own ∨ s.station = .attached) ∧ (home = s.own → n.toNat < s.homeCount) ∧
        ((s.blockClaimed { home := home, index := n } = true ∧ st = .duplicate) ∨
          (s.blockClaimed { home := home, index := n } = false ∧
            ((s.freeClaim = none ∧ st = .noClaim) ∨
              (s.freeClaim ≠ none ∧ home ≠ s.own ∧ s.freeBorrowPlace = none ∧ st = .noFrame)))))) :
    s.acquireBlock q { home := home, index := n } mode = s.answer q st := by
  unfold State.acquireBlock
  dsimp only
  rcases hcheck with ⟨hremote, hstation, rfl⟩ | ⟨rfl, hlow, rfl⟩ | ⟨hstation, hrange, hcheck⟩
  · rw [if_pos ⟨hremote, hstation⟩]
  · rw [if_neg fun h => h.1 rfl, if_pos ⟨rfl, hlow⟩]
  rw [if_neg fun h => hstation.elim h.1 h.2, if_neg fun h => absurd (hrange h.1) (Nat.not_lt.mpr h.2)]
  rcases hcheck with ⟨hclaimed, rfl⟩ | ⟨hclaimed, hcheck⟩
  · rw [if_pos hclaimed]
  rw [if_neg (by rw [hclaimed]; decide)]
  rcases hcheck with ⟨hfree, rfl⟩ | ⟨hfree, hremote, hpool, rfl⟩
  · rw [hfree]
  · obtain ⟨c, hfree⟩ := Option.ne_none_iff_exists'.mp hfree
    rw [hfree]
    dsimp only
    rw [if_neg hremote, hpool]

/-- Settles O27. -/
theorem acquireChecksInOrder : Obligations.AcquireChecksInOrder := by
  intro s q st hq hcode hstarted hcheck
  have hact : s.removeHead.doAcquire q = s.removeHead.answer q st := by
    unfold State.doAcquire
    rcases hcheck with ⟨hnone, rfl⟩ | ⟨home, n, mode, ha, hb, hc, hcheck⟩
    · split
      · rename_i ha hb hc
        rw [ha, hb, hc] at hnone
        simp at hnone
      · rfl
    · rw [ha, hb, hc]
      exact State.acquireBlock_refused (s := s.removeHead) hcheck
  rw [exec_started rfl hq hcode hstarted, hact]

/-- The claim as it asks for the first time. -/
def Claim.acquiring (cl : Claim) (wait : Timer) (b : Block) (mode : Mode) (frame : Nat) (t : Ticket) : Claim :=
  { Claim.free (cl.use + 1) with
    state := .asking, block := some b, sought := some mode, frame := some frame, askStanding := true, wait := wait,
    pendingCmd := some t }

theorem State.setClaim_setClaim (s : State) (c : ClaimIdx) (v w : Claim) :
    (s.setClaim c v).setClaim c w = s.setClaim c w := by
  unfold State.setClaim
  rw [Vector.set_set]

theorem State.takeClaim_eq (s : State) (c : ClaimIdx) (b : Block) (mode : Mode) (frame : Nat) (t : Ticket) :
    s.takeClaim c b mode frame t =
      (s.setClaim c ((s.claim c).acquiring s.startWaitTimer b mode frame t)).sendHome c
        (.ask b mode { claim := c, use := (s.claim c).use + 1 }) := by
  unfold State.takeClaim
  rw [State.claimAsk_eq (b := b) _ c mode true (by rw [State.claim_setClaim_same]), State.setClaim_setClaim]
  simp only [State.claim_setClaim_same]
  rfl

theorem State.takeClaim_spec (s : State) (c : ClaimIdx) (b : Block) (mode : Mode) (frame : Nat) (t : Ticket) :
    (s.takeClaim c b mode frame t).claim c = (s.claim c).acquiring s.startWaitTimer b mode frame t ∧
      (∀ d, d ≠ c → (s.takeClaim c b mode frame t).claim d = s.claim d) ∧
      (s.takeClaim c b mode frame t).records = s.records ∧ (s.takeClaim c b mode frame t).cplq = s.cplq ∧
      (s.takeClaim c b mode frame t).inFlight = s.inFlight ∧ (s.takeClaim c b mode frame t).borrow = s.borrow ∧
      (s.takeClaim c b mode frame t).outside = s.outside := by
  rw [State.takeClaim_eq]
  refine ⟨by rw [State.sendHome_claim, State.claim_setClaim_same], fun d hd => ?_, ?_, ?_, ?_, ?_, ?_⟩
  · rw [State.sendHome_claim]
    exact (ClaimOnly.setClaim s c _).other d hd
  · rw [State.sendHome_records]
    rfl
  · rw [State.sendHome_cplq]
    rfl
  · rw [State.sendHome_inFlight]
    rfl
  · rw [State.sendHome_borrow]
    rfl
  · exact (ClaimOnly.sendHome _ c _).outside

theorem State.takeClaim_own (s : State) (c : ClaimIdx) {b : Block} (mode : Mode) (frame : Nat) (t : Ticket)
    (h : b.home = s.own) : (s.takeClaim c b mode frame t).SentAs
      (s.pushMail (.toDirectory (.ask b mode { claim := c, use := (s.claim c).use + 1 }))) := by
  rw [State.takeClaim_eq]
  exact (s.setClaim_sent c _).sendHome_own (by rw [State.claim_setClaim_same]; rfl) h

theorem State.takeClaim_remote (s : State) (c : ClaimIdx) {b : Block} (mode : Mode) (frame : Nat) (t : Ticket)
    (h : b.home ≠ s.own) : (s.takeClaim c b mode frame t).SentAs
      (s.handOver b.home (.ask b mode { claim := c, use := (s.claim c).use + 1 })
        (.claims (some (c, (s.claim c).use + 1)))) := by
  rw [State.takeClaim_eq]
  exact (s.setClaim_sent c _).sendHome_remote rfl (by rw [State.claim_setClaim_same]; rfl)
    (by rw [State.claim_setClaim_same]; rfl) h

/-- ACQUIRE that passes its checks: the claim is taken with its frame, the place of a remote block's in the pool marked first. -/
theorem State.acquireBlock_taken {b : Block} {mode : Mode} (hclaimed : s.blockClaimed b = false)
    (hfree : s.freeClaim = some c) (hown : b.home = s.own → b.index.toNat < s.homeCount)
    (hremote : b.home ≠ s.own → s.station = .attached ∧ s.freeBorrowPlace ≠ none) :
    ∃ (pool : List (Option ClaimIdx)) (frame : Nat),
      s.acquireBlock q b mode = (State.takeClaim { s with borrow := pool } c b mode frame q.ticket).endTaken s c ∧
      (b.home = s.own → frame = b.index.toNat ∧ pool = s.borrow) ∧
      (b.home ≠ s.own → ∃ k, s.freeBorrowPlace = some k ∧ frame = s.homeCount + k ∧ pool = s.borrow.set k (some c)) := by
  unfold State.acquireBlock
  rw [if_neg fun h => h.2 (hremote h.1).1, if_neg fun h => absurd (hown h.1) (Nat.not_lt.mpr h.2),
    if_neg (by rw [hclaimed]; decide), hfree]
  dsimp only
  by_cases hhome : b.home = s.own
  · rw [if_pos hhome]
    exact ⟨s.borrow, _, rfl, fun _ => ⟨rfl, rfl⟩, fun h => absurd hhome h⟩
  · obtain ⟨k, hk⟩ := Option.ne_none_iff_exists'.mp (hremote hhome).2
    rw [if_neg hhome, hk]
    exact ⟨_, _, rfl, fun h => absurd h hhome, fun _ => ⟨k, rfl, rfl, rfl⟩⟩

/-- Settles O28. -/
theorem acquireTakesClaimAndAsks : Obligations.AcquireTakesClaimAndAsks := by
  intro s q home n mode c hq hcode hstarted ha hb hc hclaimed hfree hown hremote
  obtain ⟨pool, frame, htaken, hownFrame, hremoteFrame⟩ := State.acquireBlock_taken (s := s.removeHead) (q := q)
    (b := { home := home, index := n }) (mode := mode) hclaimed hfree hown hremote
  have hexec : s.removeHead.doAcquire q = s.removeHead.acquireBlock q { home := home, index := n } mode := by
    unfold State.doAcquire
    rw [ha, hb, hc]
  rw [exec_started rfl hq hcode hstarted, hexec, htaken]
  obtain ⟨hclaim, hother, hrecords, hcplq, hflight, hborrow, houtside⟩ := State.takeClaim_spec
    { s.removeHead with borrow := pool } c { home := home, index := n } mode frame q.ticket
  have hsent (h : home ≠ s.own) := (State.takeClaim_remote { s.removeHead with borrow := pool } c
    (b := { home := home, index := n }) mode frame q.ticket h).trans
      (State.SentAs.handOver (x := { s.removeHead with borrow := pool }) (u := s) ⟨rfl, rfl, rfl, rfl⟩ rfl _ _ _)
  refine ⟨_, rfl, ⟨frame, fun h => ?_, fun h => ?_, hclaim⟩, hother, hrecords, hcplq, hflight, fun h => ?_, hsent,
    fun h hport hlist haccept => (hsent h).accepted hport hlist haccept, houtside⟩
  · exact ⟨(hownFrame h).1, hborrow.trans (hownFrame h).2⟩
  · obtain ⟨k, hk, hframe, hpool⟩ := hremoteFrame h
    exact ⟨k, hk, hframe, hborrow.trans hpool⟩
  · exact (State.takeClaim_own _ c _ _ _ h).mail_pushMail

/-! ### UPGRADE -/

theorem State.claimAsk_spec (s : State) (c : ClaimIdx) (mode : Mode) :
    ClaimOnly s (s.claimAsk c mode true) c ∧ (s.claimAsk c mode true).cplq = s.cplq ∧
      (s.claimAsk c mode true).claim c = { s.claim c with
        state := .asking, sought := some mode, askStanding := true, wait := s.startWaitTimer, reask := .off } := by
  unfold State.claimAsk
  dsimp only
  split
  · exact ⟨(ClaimOnly.modClaim s c _).trans (ClaimOnly.sendHome _ c _), State.sendHome_cplq _ _ _,
      (State.sendHome_claim _ _ _ _).trans (State.claim_modClaim s c _)⟩
  · exact ⟨ClaimOnly.modClaim s c _, rfl, State.claim_modClaim s c _⟩

/-- The command `q`, taken, is the pending command of claim `c`. -/
def State.pendingOn (s : State) (q : Queued) (c : ClaimIdx) : State :=
  s.removeHead.modClaim c fun cl => { cl with pendingCmd := some q.ticket }

theorem State.pendingOn_claim (s : State) (q : Queued) (c : ClaimIdx) :
    (s.pendingOn q c).claim c = { s.claim c with pendingCmd := some q.ticket } := State.claim_modClaim s.removeHead c _

theorem State.pendingOn_other (s : State) (q : Queued) {c d : ClaimIdx} (h : d ≠ c) :
    (s.pendingOn q c).claim d = s.claim d := (ClaimOnly.modClaim s.removeHead c _).other d h

theorem State.pendingOn_sent (s : State) (q : Queued) (c : ClaimIdx) : (s.pendingOn q c).SentAs s := ⟨rfl, rfl, rfl, rfl⟩

theorem State.doUpgrade_asks (hc : argIndex32 q.record.argA = some c) (hstate : (s.claim c).state = .held)
    (hheld : (s.claim c).held = some .shared) (hhome : (s.claim c).homedAt s.own = true ∨ s.station = .attached) :
    s.doUpgrade q =
      ((s.modClaim c fun cl => { cl with pendingCmd := some q.ticket }).claimAsk c .exclusive true).endTaken s c := by
  unfold State.doUpgrade
  rw [hc]
  dsimp only
  rw [if_neg (by rw [hstate, hheld]; exact fun h => h.elim (· rfl) (· rfl)), if_neg]
  rintro ⟨hremote, hstation⟩
  rcases hhome with hhome | hhome
  · rw [hhome] at hremote
    cases hremote
  · exact hstation hhome

/-- Settles O29. -/
theorem upgradeAsksForExclusive : Obligations.UpgradeAsksForExclusive := by
  intro s q hq hcode hstarted
  rw [exec_started rfl hq hcode hstarted]
  refine ⟨fun hbad => ?_, fun c hc => ⟨fun hstate => ?_, fun hstate hheld hremote hstation => ?_,
    fun hstate hheld hhome => ⟨(s.pendingOn q c).claimAsk c .exclusive true, ?_, ?_⟩⟩⟩
  · rw [State.doUpgrade, hbad]
  · unfold State.doUpgrade
    rw [hc]
    dsimp only
    rw [if_pos (show (s.removeHead.claim c).state ≠ .held ∨ (s.removeHead.claim c).held ≠ some .shared from hstate)]
  · unfold State.doUpgrade
    rw [hc]
    dsimp only [State.removeHead_claim]
    rw [if_neg (by rw [hstate, hheld]; exact fun h => h.elim (· rfl) (· rfl)),
      if_pos ⟨by rw [show s.removeHead.own = s.own from rfl, hremote]; rfl, hstation⟩]
  · rw [State.doUpgrade_asks (s := s.removeHead) hc hstate hheld hhome]
    rfl
  · obtain ⟨honly, hcplq, hclaim⟩ := State.claimAsk_spec (s.pendingOn q c) c .exclusive
    have hsent (b : Block) (hb : (s.claim c).block = some b) :=
      State.claimAsk_sent (s.pendingOn q c) c .exclusive true b (by rw [State.pendingOn_claim]; exact hb)
    have hremote (b : Block) (hb : (s.claim c).block = some b) (hhome : b.home ≠ s.own) :
        ((s.pendingOn q c).claimAsk c .exclusive true).SentAs
          (s.handOver b.home (.ask b .exclusive { claim := c, use := (s.claim c).use })
            (.claims (some (c, (s.claim c).use)))) := by
      refine (hsent b hb).trans ?_
      rw [State.pendingOn_claim]
      exact (s.pendingOn_sent q c).sendHome_remote rfl (by rw [State.pendingOn_claim]; exact hb)
        (by rw [State.pendingOn_claim]) hhome
    refine ⟨?_, fun d hd => (honly.other d hd).trans (s.pendingOn_other q hd), honly.records, hcplq,
      fun b hb hhome => ?_, fun b hb hhome => ⟨hremote b hb hhome, (hremote b hb hhome).accepted⟩, honly.outside⟩
    · rw [hclaim, State.pendingOn_claim]
      rfl
    · have hpush := (hsent b hb).trans ((s.pendingOn_sent q c).sendHome_own
        (by rw [State.pendingOn_claim]; exact hb) hhome)
      rw [State.pendingOn_claim] at hpush
      exact hpush.mail_pushMail

/-! ### RELEASE -/

/-- What a claim of mode `m` tells this part's directory when it lets its own block go. -/
def ownGiven (m : Mode) (b : Block) (g : Byte) : Lease := if m = .shared then .dropped b g else .returned b g false 0

/-- An own claim lets go: once the directory has been told, in `u`, the lease ends at once. -/
theorem State.letGo_own {b : Block} {g : Byte} {m : Mode} (hb : (s.claim c).block = some b)
    (hg : (s.claim c).gen = some g) (hm : (s.claim c).held = some m) (hhome : b.home = s.own) :
    ∃ u : State, s.letGo c .release = u.endLease c .released .ok .ok ∧ ClaimOnly s u c ∧ u.cplq = s.cplq ∧
      (u.claim c).use = (s.claim c).use ∧ (u.claim c).pendingCmd = (s.claim c).pendingCmd ∧
      (u.claim c).pendingCancel = (s.claim c).pendingCancel ∧
      u.SentAs (s.pushMail (.toDirectory (ownGiven m b g))) := by
  unfold State.letGo
  rw [hm]
  cases m with
  | shared =>
    rw [if_pos rfl]
    unfold State.startDrop
    dsimp only
    have hclaim := State.claim_modClaim s c fun cl =>
      { cl with state := .dropping, deferred := none, giving := some .release }
    rw [hclaim]
    dsimp only
    rw [hb, hg]
    dsimp only
    rw [if_pos (by rw [State.sendHome_own]; exact hhome), State.finishGive_release]
    · refine ⟨_, rfl, (ClaimOnly.modClaim s c _).trans (.sendHome _ c _), State.sendHome_cplq _ _ _, ?_, ?_, ?_,
        (s.modClaim_sent c _).sendHome_own (by rw [hclaim]; exact hb) hhome⟩
      all_goals rw [State.sendHome_claim, hclaim]
    · rw [State.sendHome_claim, hclaim]
      exact fun h => nomatch h
    · rw [State.sendHome_claim, hclaim]
  | exclusive =>
    rw [if_neg (by decide)]
    unfold State.startReturn
    dsimp only
    have hclaim := State.claim_modClaim s c (·.givingBack false .release)
    rw [hclaim, show ((s.claim c).givingBack false .release).block = some b from hb,
      show ((s.claim c).givingBack false .release).gen = some g from hg]
    dsimp only
    rw [if_pos (show b.home = (s.modClaim c _).own from hhome), State.finishGive_release]
    · refine ⟨_, rfl, (ClaimOnly.modClaim s c _).trans (.sendHome _ c _), State.sendHome_cplq _ _ _, ?_, ?_, ?_,
        (s.modClaim_sent c _).sendHome_own (by rw [State.claim_modClaim]; exact hb) hhome⟩
      all_goals
        rw [State.sendHome_claim, State.claim_modClaim]
        rfl
    · rw [State.sendHome_claim, State.claim_modClaim]
      exact fun h => nomatch h
    · rw [State.sendHome_claim, State.claim_modClaim]
      rfl

theorem State.letGo_shared (h : (s.claim c).held = some .shared) (k : GiveCause) : s.letGo c k = s.startDrop c k := by
  unfold State.letGo
  rw [if_pos h]

theorem State.letGo_exclusive (h : (s.claim c).held = some .exclusive) (k : GiveCause) :
    s.letGo c k = s.startReturn c false k := by
  unfold State.letGo
  rw [if_neg (by rw [h]; decide)]

theorem ClaimOnly.letGo (s : State) (c : ClaimIdx) (k : GiveCause) : ClaimOnly s (s.letGo c k) c := by
  unfold State.letGo
  split
  · exact .startDrop s c k
  · exact .startReturn s c false k

/-- Settles O30. -/
theorem releaseGivesTheCopyUp : Obligations.ReleaseGivesTheCopyUp := by
  intro s q hq hcode hstarted
  rw [exec_started rfl hq hcode hstarted]
  refine ⟨fun hbad => ?_, fun c hc => ⟨fun hstate => ?_, fun b g m hstate hb hg hm => ?_⟩⟩
  · rw [State.doRelease, hbad]
  · unfold State.doRelease
    rw [hc]
    dsimp only
    rw [if_neg (show ¬ (s.removeHead.claim c).state = .held from hstate)]
  · have hact : s.removeHead.doRelease q = ((s.pendingOn q c).letGo c .release).endTaken s.removeHead c := by
      unfold State.doRelease
      rw [hc]
      dsimp only
      rw [if_pos (show (s.removeHead.claim c).state = .held from hstate)]
      rfl
    rw [hact]
    have hclaim := s.pendingOn_claim q c
    have hb' : ((s.pendingOn q c).claim c).block = some b := by rw [hclaim]; exact hb
    have hg' : ((s.pendingOn q c).claim c).gen = some g := by rw [hclaim]; exact hg
    have hm' : ((s.pendingOn q c).claim c).held = some m := by rw [hclaim]; exact hm
    have honly := ClaimOnly.letGo (s.pendingOn q c) c .release
    refine ⟨_, rfl, honly.records, fun d hd => (honly.other d hd).trans (s.pendingOn_other q hd), fun hhome => ?_,
      fun hhome => ?_, honly.outside⟩
    · refine ⟨?_, ?_, ?_⟩
      · rintro rfl
        rw [State.letGo_shared hm', ← hclaim]
        exact (State.startDrop_begun _ c .release b g hb' hg' hhome).of_sentAs (s.pendingOn_sent q c) rfl
      · rintro rfl
        rw [State.letGo_exclusive hm', ← hclaim]
        exact (State.startReturn_begun _ c false .release b g hb' hg' hhome).of_sentAs (s.pendingOn_sent q c) rfl rfl rfl
      · cases m with
        | shared =>
          rw [State.letGo_shared hm']
          exact (State.startDrop_spec _ c .release b g hb' hg' hhome).2.1
        | exclusive =>
          rw [State.letGo_exclusive hm']
          exact (State.startReturn_spec _ c false .release b g hb' hg' hhome).2.1
    · obtain ⟨u, hletGo, hu, hcplq, huse, hcmd, hcancel, hsent⟩ := State.letGo_own hb' hg' hm' hhome
      obtain ⟨-, -, hended, hdone⟩ := State.endLease_spec u c .released .ok .ok
      rw [hletGo, hended, hdone, huse, hcmd, hcancel, hcplq, show u.refCount c = s.refCount c from hu.refCount c, hclaim]
      refine ⟨?_, ?_, ?_, ?_, fun hnone => ?_, (State.endLease_sent u c _ _ _).trans
        ((hsent.disown c).trans (((s.pendingOn_sent q c).disown c).pushMail _))⟩
      · split <;> rfl
      · split <;> rfl
      · split <;> rfl
      · split <;> rfl
      · dsimp only
        rw [hnone, show (s.pendingOn q c).cplq = s.cplq from rfl]
        simp only [Option.toList, List.map_cons, List.map_nil, List.append_nil]

/-! ### CANCEL -/

/-- The cancel `q`, taken, is pending on claim `c`. -/
def State.cancelOn (s : State) (q : Queued) (c : ClaimIdx) : State :=
  s.removeHead.modClaim c fun cl => { cl with pendingCancel := some q.ticket }

theorem State.cancelOn_claim (s : State) (q : Queued) (c : ClaimIdx) :
    (s.cancelOn q c).claim c = { s.claim c with pendingCancel := some q.ticket } := State.claim_modClaim s.removeHead c _

theorem State.cancelOn_other (s : State) (q : Queued) {c d : ClaimIdx} (h : d ≠ c) :
    (s.cancelOn q c).claim d = s.claim d := (ClaimOnly.modClaim s.removeHead c _).other d h

theorem State.cancelOn_sent (s : State) (q : Queued) (c : ClaimIdx) : (s.cancelOn q c).SentAs s := ⟨rfl, rfl, rfl, rfl⟩

theorem State.doCancel_asking (hc : argIndex32 q.record.argA = some c) (hstate : (s.claim c).state = .asking) :
    s.doCancel q =
      ((s.modClaim c fun cl => { cl with pendingCancel := some q.ticket }).giveUpAsk c .cancelled).endTaken s c := by
  unfold State.doCancel
  rw [hc]
  dsimp only
  rw [hstate]

theorem State.giveUpAsk_standing (h : (s.claim c).askStanding = true) (k : WithdrawCause) :
    s.giveUpAsk c k = s.withdrawAsk c k := by
  unfold State.giveUpAsk
  rw [if_pos h]

theorem State.giveUpAsk_waiting (h : (s.claim c).askStanding = false) (k : WithdrawCause) :
    s.giveUpAsk c k = (s.modClaim c fun cl => { cl with reask := .off }).giveUp c k := by
  unfold State.giveUpAsk
  rw [if_neg (by rw [h]; decide)]

/-- Settles O31. -/
theorem cancelActsByClaimState : Obligations.CancelActsByClaimState := by
  intro s q hq hcode hstarted
  rw [exec_started rfl hq hcode hstarted]
  refine ⟨fun hbad => ?_, fun c hc => ⟨fun hstate hask => ?_, fun hstate hask => ?_, fun hstate => ?_,
    fun hasking hfilling => ?_⟩⟩
  · rw [State.doCancel, hbad]
  · rw [State.doCancel_asking (s := s.removeHead) hc hstate]
    have hclaim := s.cancelOn_claim q c
    obtain ⟨honly, hcplq, hwithdrawn⟩ := State.withdrawAsk_spec (s.cancelOn q c) c .cancelled
    refine ⟨(s.cancelOn q c).withdrawAsk c .cancelled, ?_, ?_, fun b hb => ⟨fun hhome => ?_, fun hhome => ?_⟩,
      fun d hd => (honly.other d hd).trans (s.cancelOn_other q hd), honly.records, hcplq, honly.outside⟩
    · rw [← State.giveUpAsk_standing (by rw [hclaim]; exact hask)]
      rfl
    · rw [hwithdrawn, hclaim]
    · refine (State.withdrawAsk_sent _ c .cancelled b (by rw [hclaim]; exact hb)).trans ?_
      rw [hclaim]
      exact (s.cancelOn_sent q c).sendHome_remote rfl (by rw [hclaim]; exact hb) (by rw [hclaim]) hhome
    · refine (State.withdrawAsk_sent _ c .cancelled b (by rw [hclaim]; exact hb)).trans ?_
      rw [hclaim]
      exact (s.cancelOn_sent q c).sendHome_own (by rw [hclaim]; exact hb) hhome
  · rw [State.doCancel_asking (s := s.removeHead) hc hstate]
    have hwaiting : ((s.cancelOn q c).claim c).askStanding = false := by
      rw [s.cancelOn_claim]
      exact hask
    have hclaim : ((s.cancelOn q c).modClaim c fun cl => { cl with reask := .off }).claim c =
        { s.claim c with pendingCancel := some q.ticket, reask := .off } := by
      rw [State.claim_modClaim, s.cancelOn_claim]
    have hgiven := State.giveUpAsk_waiting hwaiting .cancelled
    generalize hu : ((s.cancelOn q c).modClaim c fun cl => { cl with reask := .off }) = u at hclaim hgiven
    have hbefore : ClaimOnly s.removeHead u c := by
      rw [← hu]
      exact (ClaimOnly.modClaim _ c _).trans (.modClaim _ c _)
    have hsent : u.SentAs s := by
      rw [← hu]
      exact ⟨rfl, rfl, rfl, rfl⟩
    have hcplq : u.cplq = s.cplq := by
      rw [← hu]
      rfl
    obtain ⟨honly, -, hfree, hshared, hdone⟩ := State.giveUp_spec u c .cancelled
    obtain ⟨hsentFree, hsentShared⟩ := State.giveUp_sent u c .cancelled
    rw [hclaim] at hfree hshared hdone hsentFree hsentShared
    refine ⟨u.giveUp c .cancelled, ?_, fun d hd => (honly.other d hd).trans (hbefore.other d hd),
      honly.records.trans hbefore.records, fun t ht => ?_, fun hnone => ⟨?_, (hsentFree hnone).trans (hsent.disown c)⟩,
      fun hheld => ?_, honly.outside.trans hbefore.outside⟩
    · rw [← hgiven]
      rfl
    · rw [hdone, hcplq]
      dsimp only
      rw [ht, List.append_assoc]
      rfl
    · rw [hfree hnone, show u.refCount c = s.refCount c from hbefore.refCount c]
    · rw [hshared hheld]
      exact ⟨rfl, rfl, rfl, rfl, rfl, rfl, (hsentShared hheld).trans hsent⟩
  · unfold State.doCancel
    rw [hc]
    dsimp only
    rw [show (s.removeHead.claim c).state = .filling from hstate]
  · unfold State.doCancel
    rw [hc]
    dsimp only
    split
    · exact absurd ‹_› hasking
    · exact absurd ‹_› hfilling
    · rfl

end Sys2Proof.Machine
end

section
/-! PROOFS. DETACH: the denial of the peers' requests, the teardown of records and claims, and the end of the detach. -/

namespace Sys2Proof.Machine

/-! ### The entry into DETACHING -/

/-- Record `r` with the requests of this station alone. -/
def DirRecord.withoutPeers (r : DirRecord) (own : Station) : DirRecord :=
  { r with queue := r.queue.filter (·.station == own) }

theorem DirRecord.withoutPeers_twice (r : DirRecord) (own : Station) :
    (r.withoutPeers own).withoutPeers own = r.withoutPeers own := by
  unfold DirRecord.withoutPeers
  simp only [List.filter_filter, Bool.and_self]

theorem State.denyPeers_own (s : State) (n : Byte) : (s.denyPeers n).own = s.own :=
  own_of_outside (State.denyPeers_spec s n).1.outside

/-- Records, turns and what is sent alone change, over all the records denied. -/
theorem State.foldl_denyPeers_eq (l : List Byte) (s : State) :
    (∃ r d q k o m, l.foldl State.denyPeers s =
      { s with records := r, dirTurn := d, txq := q, handover := k, outBuf := o, mail := m }) ∧
      (l.foldl State.denyPeers s).records.length = s.records.length := by
  induction l generalizing s with
  | nil => exact ⟨⟨_, _, _, _, _, _, rfl⟩, rfl⟩
  | cons n l ih =>
    obtain ⟨⟨r, d, q, k, o, m, heq⟩, hlength, -⟩ := (State.denyPeers_spec s n).1
    obtain ⟨⟨r', d', q', k', o', m', heq'⟩, hlength'⟩ := ih (s.denyPeers n)
    refine ⟨⟨r', d', q', k', o', m', ?_⟩, hlength'.trans hlength⟩
    rw [List.foldl_cons, heq', heq]

theorem State.record?_denyPeers (s : State) (n m : Byte) :
    (s.denyPeers n).record? m = if m = n then (s.record? m).map (·.withoutPeers s.own) else s.record? m := by
  obtain ⟨honly, hrecord⟩ := State.denyPeers_spec s n
  split
  · next h =>
    rw [h, hrecord]
    rfl
  · next h => exact honly.other m h

theorem State.record?_foldl_denyPeers (l : List Byte) (s : State) (m : Byte) :
    (l.foldl State.denyPeers s).record? m =
      if m ∈ l then (s.record? m).map (·.withoutPeers s.own) else s.record? m := by
  induction l generalizing s with
  | nil => rfl
  | cons n l ih =>
    rw [List.foldl_cons, ih, State.denyPeers_own, State.record?_denyPeers]
    by_cases hn : m = n
    · rw [if_pos hn, if_pos (List.mem_cons.mpr (Or.inl hn))]
      split
      · rw [Option.map_map]
        congr 1
        exact funext fun r => r.withoutPeers_twice s.own
      · rfl
    · rw [if_neg hn]
      by_cases hl : m ∈ l
      · rw [if_pos hl, if_pos (List.mem_cons_of_mem n hl)]
      · rw [if_neg hl, if_neg fun h => (List.mem_cons.mp h).elim hn hl]

theorem State.mem_recordIdxs {s : State} {n : Byte} {r : DirRecord} (h : s.record? n = some r) : n ∈ s.recordIdxs := by
  obtain ⟨hlt, -⟩ := List.getElem?_eq_some_iff.mp h
  exact List.mem_map.mpr ⟨n.toNat, List.mem_range.mpr hlt, BitVec.ofNat_toNat 8 n⟩

theorem State.recordIdxs_nodup {s : State} (h : s.records.length ≤ 256) : s.recordIdxs.Nodup := by
  refine List.pairwise_map.mpr (List.Pairwise.imp_of_mem (fun {i j} hi hj hne heq => hne ?_) List.nodup_range)
  have hi := List.mem_range.mp hi
  have hj := List.mem_range.mp hj
  have heq := congrArg BitVec.toNat heq
  rw [BitVec.toNat_ofNat, BitVec.toNat_ofNat] at heq
  omega

/-- The requests of peers that wait at record `n` of `s`. -/
def State.peerRequests (s : State) (n : Byte) : List Request :=
  (s.record? n).toList.flatMap fun r : DirRecord => r.queue.filter (·.station != s.own)

theorem State.denyPeers_sent (s : State) (n : Byte) :
    (s.denyPeers n).SentAs (s.denials n .leaving (s.peerRequests n)) := by
  unfold State.denyPeers State.peerRequests
  cases hr : s.record? n with
  | none => exact .refl s
  | some r =>
    dsimp only
    rw [State.foldl_deny, Option.toList_some, List.flatMap_singleton]
    exact State.denials_congr (x := s.setRecord n _) (u := s) ⟨rfl, rfl, rfl, rfl⟩ rfl rfl n .leaving _

theorem State.denials_port (s : State) (n : Byte) (reason : DenyReason) (l : List Request) :
    (s.denials n reason l).port = s.port ∧ (s.denials n reason l).own = s.own := by
  unfold State.denials
  generalize s.ownBlock n = b
  induction l generalizing s with
  | nil => exact ⟨rfl, rfl⟩
  | cons d l ih =>
    obtain ⟨hport, hown⟩ := ih (s.dirSend d.station (.deny b reason d.tag))
    exact ⟨hport.trans (State.dirSend_port _ _ _), hown.trans (State.dirSend_own _ _ _)⟩

/-- The records of `l` denied one after the other: what is sent follows from their content in `s`. -/
theorem State.foldl_denyPeers_sent {s : State} (l : List Byte) (hl : l.Nodup) (x u : State) (hsent : x.SentAs u)
    (hport : x.port = u.port) (hx : x.own = s.own) (hu : u.own = s.own)
    (hrecord : ∀ n ∈ l, x.record? n = s.record? n) :
    (l.foldl State.denyPeers x).SentAs (l.foldl (fun t n => t.denials n .leaving (s.peerRequests n)) u) := by
  induction l generalizing x u with
  | nil => exact hsent
  | cons n l ih =>
    obtain ⟨hn, hl⟩ := List.nodup_cons.mp hl
    have hrequests : x.peerRequests n = s.peerRequests n := by
      unfold State.peerRequests
      rw [hrecord n List.mem_cons_self, hx]
    have hstep : (x.denyPeers n).SentAs (u.denials n .leaving (s.peerRequests n)) := by
      rw [← hrequests]
      exact (x.denyPeers_sent n).trans (State.denials_congr hsent hport (hx.trans hu.symm) n .leaving _)
    obtain ⟨hport', hown'⟩ := u.denials_port n .leaving (s.peerRequests n)
    refine ih hl _ _ hstep ?_ ((x.denyPeers_own n).trans hx) (hown'.trans hu) fun m hm => ?_
    · rw [hport', ← hport]
      exact (State.denyPeers_spec x n).1.port
    · rw [State.record?_denyPeers, if_neg fun h : m = n => hn (h ▸ hm), hrecord m (List.mem_cons_of_mem n hm)]

/-- Denials with the block spelled out as that of `s`. -/
theorem State.foldl_denials_eq {s : State} (l : List Byte) (u : State) (hu : u.own = s.own) :
    l.foldl (fun t n => t.denials n .leaving (s.peerRequests n)) u =
      l.foldl (fun (t : State) (n : Byte) => ((s.record? n).toList.flatMap fun r : DirRecord =>
        r.queue.filter (·.station != s.own)).foldl
          (fun (t : State) (d : Request) => t.dirSend d.station (.deny (s.ownBlock n) .leaving d.tag)) t) u := by
  induction l generalizing u with
  | nil => rfl
  | cons n l ih =>
    rw [List.foldl_cons, List.foldl_cons, ih _ ((u.denials_port n _ _).2.trans hu)]
    unfold State.denials State.ownBlock
    rw [hu]
    rfl

/-! ### The teardown of a record -/

theorem DirRecord.state_lent {r : DirRecord} (h : r.state = .lent) : ∃ k, r.holder = some k := by
  unfold DirRecord.state at h
  repeat' split at h
  all_goals cases h
  exact Option.isSome_iff_exists.mp ‹_›

theorem DirRecord.state_shared {r : DirRecord} (h : r.state = .shared) : r.holder = none := by
  unfold DirRecord.state at h
  repeat' split at h
  all_goals cases h
  exact Option.not_isSome_iff_eq_none.mp ‹_›

theorem DirRecord.tearable_iff {r : DirRecord} {own : Station} :
    r.tearable own = true ↔ (r.state = .shared ∨ r.state = .lent) ∧ r.queue = [] ∧ r.namesPeer own = true := by
  simp only [DirRecord.tearable, Bool.and_eq_true, Bool.or_eq_true, beq_iff_eq, List.isEmpty_iff, and_assoc]

theorem DirRecord.namesPeer_iff {r : DirRecord} {own : Station} :
    r.namesPeer own = true ↔ (∃ d ∈ r.readers, d.station ≠ own) ∨ ∃ h, r.holder = some h ∧ h.station ≠ own := by
  simp only [DirRecord.namesPeer, Bool.or_eq_true, List.any_eq_true, Option.any_eq_true, bne_iff_ne]

theorem State.tearRecord_lent {u : State} {n : Byte} {r : DirRecord} {h : Holder} (hr : u.record? n = some r)
    (hstate : r.state = .lent) (hqueue : r.queue = []) (hh : r.holder = some h) (hpeer : h.station ≠ u.own) :
    u.tearRecord n = u.beginRecall n .surrender [h.station] := by
  unfold State.tearRecord
  rw [hr]
  dsimp only
  rw [if_pos (DirRecord.tearable_iff.mpr
    ⟨Or.inr hstate, hqueue, DirRecord.namesPeer_iff.mpr (Or.inr ⟨h, hh, hpeer⟩)⟩), hh]

theorem State.tearRecord_shared {u : State} {n : Byte} {r : DirRecord} (hr : u.record? n = some r)
    (hstate : r.state = .shared) (hqueue : r.queue = []) (hpeer : ∃ d ∈ r.readers, d.station ≠ u.own) :
    u.tearRecord n = u.beginRecall n .drop ((r.readers.map (·.station)).filter (· != u.own)) := by
  unfold State.tearRecord
  rw [hr]
  dsimp only
  rw [if_pos (DirRecord.tearable_iff.mpr ⟨Or.inl hstate, hqueue, DirRecord.namesPeer_iff.mpr (Or.inl hpeer)⟩),
    DirRecord.state_shared hstate]

theorem State.tearRecord_untouched {u : State} {n : Byte} {r : DirRecord} (hr : u.record? n = some r)
    (h : (r.state ≠ .shared ∧ r.state ≠ .lent) ∨ r.queue ≠ [] ∨ r.namesPeer u.own = false) : u.tearRecord n = u := by
  unfold State.tearRecord
  rw [hr]
  refine if_neg fun htear => ?_
  obtain ⟨hstate, hqueue, hpeer⟩ := DirRecord.tearable_iff.mp htear
  rcases h with ⟨hshared, hlent⟩ | h | h
  · exact hstate.elim hshared hlent
  · exact h hqueue
  · cases h.symm.trans hpeer

/-! ### The teardown of a claim -/

theorem Claim.homedAt_of_block {cl : Claim} {b : Block} {p : Station} (hb : cl.block = some b) (h : b.home ≠ p) :
    cl.homedAt p = false := by
  unfold Claim.homedAt
  rw [hb]
  exact beq_eq_false_iff_ne.mpr h

theorem Claim.tearable_iff {cl : Claim} {own : Station} :
    cl.tearable own = true ↔ cl.homedAt own = false ∧ (cl.state = .asking ∨ cl.state = .held) := by
  simp only [Claim.tearable, Claim.remote, Claim.live, Bool.and_eq_true, Bool.or_eq_true, beq_iff_eq, bne_iff_ne,
    Bool.not_eq_true']
  constructor
  · exact fun h => ⟨h.1.2, h.2⟩
  · rintro ⟨hhome, hstate | hstate⟩
    all_goals
      rw [hstate]
      exact ⟨⟨⟨nofun, nofun⟩, hhome⟩, by decide⟩

variable {u : State} {c : ClaimIdx} {b : Block}

theorem State.tearClaim_asking (hhome : (u.claim c).homedAt u.own = false) (hstate : (u.claim c).state = .asking) :
    u.tearClaim c = if ((u.giveUpAsk c .cancelled).claim c).state = .held then
      (u.giveUpAsk c .cancelled).letGo c .teardown else u.giveUpAsk c .cancelled := by
  unfold State.tearClaim
  dsimp only
  rw [if_pos (Claim.tearable_iff.mpr ⟨hhome, Or.inl hstate⟩), if_pos hstate]

theorem State.tearClaim_held (hhome : (u.claim c).homedAt u.own = false) (hstate : (u.claim c).state = .held) :
    u.tearClaim c = u.letGo c .teardown := by
  unfold State.tearClaim
  dsimp only
  rw [if_pos (Claim.tearable_iff.mpr ⟨hhome, Or.inr hstate⟩), if_neg (by rw [hstate]; decide)]

theorem State.tearClaim_untouched (hasking : (u.claim c).state ≠ .asking) (hheld : (u.claim c).state ≠ .held) :
    u.tearClaim c = u := by
  unfold State.tearClaim
  exact if_neg fun h => (Claim.tearable_iff.mp h).2.elim hasking hheld

theorem State.tearClaim_standing (hb : (u.claim c).block = some b) (hhome : b.home ≠ u.own)
    (hstate : (u.claim c).state = .asking) (hask : (u.claim c).askStanding = true) :
    u.tearClaim c = u.withdrawAsk c .cancelled := by
  rw [State.tearClaim_asking (Claim.homedAt_of_block hb hhome) hstate, State.giveUpAsk_standing hask, if_neg]
  rw [(State.withdrawAsk_spec u c .cancelled).2.2]
  exact nofun

theorem Claim.home_ne {cl : Claim} {b : Block} {p : Station} (hb : cl.block = some b) (h : cl.homedAt p = false) :
    b.home ≠ p := by
  unfold Claim.homedAt at h
  rw [hb] at h
  exact beq_eq_false_iff_ne.mp h

/-- A claim of no own block gives its SHARED copy up without a completion. -/
theorem State.startDrop_cplq (h : (u.claim c).homedAt u.own = false) (k : GiveCause) :
    (u.startDrop c k).cplq = u.cplq := by
  cases hb : (u.claim c).block with
  | some b =>
    cases hg : (u.claim c).gen with
    | some g => exact (State.startDrop_spec u c k b g hb hg (Claim.home_ne hb h)).2.1
    | none =>
      unfold State.startDrop
      dsimp only
      rw [State.claim_modClaim]
      dsimp only
      rw [hb, hg]
      rfl
  | none =>
    unfold State.startDrop
    dsimp only
    rw [State.claim_modClaim]
    dsimp only
    rw [hb]
    rfl

/-- Nor does the return of an EXCLUSIVE copy complete anything as it begins. -/
theorem State.startReturn_cplq (h : (u.claim c).homedAt u.own = false) (kept : Bool) (k : GiveCause) :
    (u.startReturn c kept k).cplq = u.cplq := by
  cases hb : (u.claim c).block with
  | some b =>
    cases hg : (u.claim c).gen with
    | some g => exact (State.startReturn_spec u c kept k b g hb hg (Claim.home_ne hb h)).2.1
    | none =>
      unfold State.startReturn
      dsimp only
      rw [State.claim_modClaim, show ((u.claim c).givingBack kept k).block = some b from hb,
        show ((u.claim c).givingBack kept k).gen = none from hg]
      rfl
  | none =>
    unfold State.startReturn
    dsimp only
    rw [State.claim_modClaim, show ((u.claim c).givingBack kept k).block = none from hb]
    rfl

theorem State.letGo_cplq (h : (u.claim c).homedAt u.own = false) (k : GiveCause) : (u.letGo c k).cplq = u.cplq := by
  unfold State.letGo
  split
  · exact State.startDrop_cplq h k
  · exact State.startReturn_cplq h false k

/-- The claim as it stands once an upgrade with nothing standing is given up. -/
def Claim.upgradeGivenUp (cl : Claim) : Claim :=
  { cl with
    state := .held, sought := none, askStanding := false, wait := .off, reask := .off, cause := none,
    pendingCmd := none }

/-- The claim with nothing standing gives its request up, in `x`, and lets go of the copy that it then holds. -/
theorem State.tearClaim_waiting {k : Ticket} (hb : (u.claim c).block = some b) (hhome : b.home ≠ u.own)
    (hstate : (u.claim c).state = .asking) (hask : (u.claim c).askStanding = false)
    (hcmd : (u.claim c).pendingCmd = some k) (hcancel : (u.claim c).pendingCancel = none) :
    ∃ x : State, u.tearClaim c = (if (x.claim c).state = .held then x.letGo c .teardown else x) ∧ ClaimOnly u x c ∧
      x.cplq = u.cplq ++ [.plain k .cancelled (some c) none none] ∧
      ((u.claim c).held = none → (x.claim c).state = if u.refCount c = 0 then .free else .ended) ∧
      ((u.claim c).held ≠ none → x.claim c = (u.claim c).upgradeGivenUp ∧ x.SentAs u) := by
  refine ⟨u.giveUpAsk c .cancelled, State.tearClaim_asking (Claim.homedAt_of_block hb hhome) hstate, ?_⟩
  rw [State.giveUpAsk_waiting hask]
  have hclaim := State.claim_modClaim u c fun cl => { cl with reask := .off }
  have hbefore := ClaimOnly.modClaim u c fun cl => { cl with reask := .off }
  have hsent := u.modClaim_sent c fun cl => { cl with reask := .off }
  have hcplq : (u.modClaim c fun cl => { cl with reask := .off }).cplq = u.cplq := rfl
  generalize (u.modClaim c fun cl => { cl with reask := .off }) = v at hclaim hbefore hsent hcplq
  obtain ⟨honly, -, hfree, hshared, hdone⟩ := State.giveUp_spec v c .cancelled
  obtain ⟨-, hsentShared⟩ := State.giveUp_sent v c .cancelled
  rw [hclaim] at hfree hshared hdone hsentShared
  refine ⟨hbefore.trans honly, ?_, fun hnone => ?_, fun hheld => ⟨?_, (hsentShared hheld).trans hsent⟩⟩
  · rw [hdone, hcplq]
    dsimp only
    rw [hcmd, hcancel]
    exact List.append_nil _
  · rw [hfree hnone, hbefore.refCount c]
  · rw [hshared hheld]
    unfold Claim.upgradeGivenUp Claim.backToShared
    dsimp only
    rw [hcancel]

/-! ### The end of the detach -/

theorem State.teardownDue_iff (hstation : u.station = .detaching) : u.teardownDue = true ↔
    (∃ r ∈ u.records, (r.state = .shared ∨ r.state = .lent) ∧ r.queue = [] ∧ r.namesPeer u.own = true) ∨
      ∃ c, (u.claim c).homedAt u.own = false ∧ ((u.claim c).state = .asking ∨ (u.claim c).state = .held) := by
  unfold State.teardownDue claimIdxs
  simp only [hstation, beq_self_eq_true, Bool.true_and, Bool.or_eq_true, List.any_eq_true, DirRecord.tearable_iff,
    Claim.tearable_iff, List.mem_finRange, true_and]

theorem State.detachDone_iff : u.detachDone = true ↔
    (∀ r ∈ u.records, r.namesPeer u.own = false ∧ r.state ≠ .sending ∧ r.state ≠ .recalling) ∧
      (∀ c, (u.claim c).live = false ∨ (u.claim c).homedAt u.own = true) ∧
      u.txq = [] ∧ u.handover = [] ∧ u.rx = [] := by
  have hremote (c : ClaimIdx) : (u.claims.get c).remote u.own = false ↔
      (u.claim c).live = false ∨ (u.claim c).homedAt u.own = true := by
    show ((u.claim c).live && !(u.claim c).homedAt u.own) = false ↔ _
    rw [Bool.and_eq_false_iff, Bool.not_eq_false']
  simp only [State.detachDone, State.directoryClear, State.claimsClear, State.portClear, claimIdxs, Bool.and_eq_true,
    List.all_eq_true, Bool.not_eq_true', bne_iff_ne, List.isEmpty_iff, List.mem_finRange, true_implies, hremote, and_assoc]

theorem State.completeLife_none {s : State} (h : s.lifeCmd = none) (st : Status) : s.completeLife st = s := by
  unfold State.completeLife
  rw [h]

theorem State.completeLife_some {s : State} {t : Ticket} (h : s.lifeCmd = some t) (st : Status) :
    s.completeLife st = ({ s with lifeCmd := none } : State).complete t st none none none := by
  unfold State.completeLife
  rw [h]

/-- The state at the end of a detach, before the life command completes. -/
def State.detached (u : State) : State :=
  { u.enterBypass true with
    station := .detached, peers := (u.enterBypass true).peers.map fun p => { p with presence := .unknown } }

theorem State.detached_eq (hrx : u.rx = []) (hheld : u.heldFrame = none) :
    ∃ bufs moves, u.detached = { u.mapPausable .runOn with
      port := .bypass, fwd := [], rx := [], heldFrame := none, txq := [], handover := [], outBuf := bufs,
      moves := moves, station := .detached, peers := u.peers.map fun p => { p with presence := .unknown } } := by
  have hreleased : u.releaseReceived = u := by
    unfold State.releaseReceived
    rw [hrx, hheld]
    rfl
  unfold State.detached State.enterBypass
  rw [hreleased]
  exact ⟨_, _, rfl⟩

theorem State.endDetach_spec (hrx : u.rx = []) (hheld : u.heldFrame = none) :
    u.endDetach.station = .detached ∧ u.endDetach.port = .bypass ∧ u.endDetach.lifeCmd = none ∧
      u.endDetach.txq = [] ∧ u.endDetach.handover = [] ∧ u.endDetach.rx = [] ∧ u.endDetach.fwd = [] ∧
      u.endDetach.peers = (u.peers.map fun p => { p with presence := .unknown }) ∧
      u.endDetach.records = (u.mapPausable .runOn).records ∧ u.endDetach.claims = (u.mapPausable .runOn).claims ∧
      u.endDetach.attention = u.attention ∧
      u.endDetach.cplq = u.cplq ++ (u.lifeCmd.toList.map fun k => .plain k .ok none none none) := by
  obtain ⟨bufs, moves, hdetached⟩ := State.detached_eq hrx hheld
  have hend : u.endDetach = u.detached.completeLife .ok := rfl
  have hcmd : u.detached.lifeCmd = u.lifeCmd := by
    rw [hdetached]
    rfl
  rw [hend]
  cases hlife : u.lifeCmd with
  | none =>
    rw [State.completeLife_none (hcmd.trans hlife), hdetached]
    exact ⟨rfl, rfl, hlife, rfl, rfl, rfl, rfl, rfl, rfl, rfl, rfl, (List.append_nil _).symm⟩
  | some t =>
    rw [State.completeLife_some (hcmd.trans hlife), hdetached]
    exact ⟨rfl, rfl, rfl, rfl, rfl, rfl, rfl, rfl, rfl, rfl, rfl, rfl⟩

theorem State.settleEvent_of_no_mail (hmail : u.mail = []) (hheld : u.heldFrame = none) :
    u.settleEvent = u.teardown.testDetach.orderFrom u.cplq.length := by
  unfold State.settleEvent
  rw [State.drain_of_no_mail u hmail, State.releaseHeld_of_quiet u (Or.inl hheld), State.drain_of_no_mail u hmail]

/-- With one completion at most, its order is settled. -/
theorem State.orderFrom_option (s : State) (l : List Completion) (o : Option Completion) (h : s.cplq = l ++ o.toList) :
    s.orderFrom l.length = s := by
  cases o with
  | none =>
    rw [Option.toList_none, List.append_nil] at h
    rw [← h, State.orderFrom_length]
  | some c => exact State.orderFrom_one s l c h

theorem State.settleEvent_of_done (hstation : u.station = .detaching) (hmail : u.mail = []) (hheld : u.heldFrame = none)
    (hdue : u.teardownDue = false) (hdone : u.detachDone = true) : u.settleEvent = u.endDetach := by
  obtain ⟨-, -, -, -, hrx⟩ := State.detachDone_iff.mp hdone
  obtain ⟨-, -, -, -, -, -, -, -, -, -, -, hcplq⟩ := State.endDetach_spec hrx hheld
  rw [State.settleEvent_of_no_mail hmail hheld, State.teardown_of_not_due u hdue, State.testDetach,
    if_pos ⟨hstation, hdone⟩]
  refine State.orderFrom_option _ u.cplq (u.lifeCmd.map fun k => .plain k .ok none none none) ?_
  rw [hcplq]
  cases u.lifeCmd <;> rfl

/-! ### The obligation -/

/-- The state in which the directory has been told: DETACHING, the peers' requests denied. -/
def State.detachTold (s : State) (q : Queued) : State :=
  State.denyAllPeers { s.removeHead with station := .detaching, lifeCmd := some q.ticket }

theorem State.detachTold_spec (s : State) (q : Queued) :
    (s.detachTold q).station = .detaching ∧ (s.detachTold q).lifeCmd = some q.ticket ∧
      (s.detachTold q).claims = s.claims ∧ (s.detachTold q).peers = s.peers ∧ (s.detachTold q).cplq = s.cplq ∧
      (s.detachTold q).outside = { s.outside with cmdq := s.cmdq.tail } ∧
      (s.detachTold q).records.length = s.records.length := by
  obtain ⟨⟨r, d, t, k, o, m, heq⟩, hlength⟩ := State.foldl_denyPeers_eq s.recordIdxs
    { s.removeHead with station := .detaching, lifeCmd := some q.ticket }
  have heq : s.detachTold q = _ := heq
  have hlength : (s.detachTold q).records.length = s.records.length := hlength
  rw [heq] at hlength ⊢
  exact ⟨rfl, rfl, rfl, rfl, rfl, rfl, hlength⟩

theorem State.detachTold_record? {q : Queued} {n : Byte} {r : DirRecord} {s : State}
    (h : (s.detachTold q).record? n = some r) :
    ∃ o : DirRecord, s.record? n = some o ∧ r = { o with queue := o.queue.filter (·.station == s.own) } := by
  have hfold : (s.detachTold q).record? n =
      if n ∈ s.recordIdxs then (s.record? n).map (·.withoutPeers s.own) else s.record? n :=
    State.record?_foldl_denyPeers s.recordIdxs { s.removeHead with station := .detaching, lifeCmd := some q.ticket } n
  rw [hfold] at h
  split at h
  · obtain ⟨o, ho, rfl⟩ := Option.map_eq_some_iff.mp h
    exact ⟨o, ho, rfl⟩
  · exact absurd (State.mem_recordIdxs h) ‹_›

/-- Settles O25. -/
theorem detachEntersDetaching : Obligations.DetachEntersDetaching := by
  refine ⟨fun s q hq hcode => ⟨fun hstation hport => ?_, fun hstation hport => ?_, fun hstation => ?_, fun hstation => ?_⟩,
    fun u n r hr => ⟨fun h hstate hqueue hh hpeer => State.tearRecord_lent hr hstate hqueue hh hpeer,
      State.tearRecord_shared hr, State.tearRecord_untouched hr⟩,
    fun u c b hb hhome => ⟨fun hstate hask => ?_, fun k hstate hask hcmd hcancel => ?_, fun g hstate hg => ?_,
      State.tearClaim_untouched⟩,
    fun u hstation => ⟨State.teardownDue_iff hstation, State.detachDone_iff, fun hmail hheld =>
      ⟨fun hdue => ?_, fun hdue hdone => ?_, fun hdue hdone => ?_⟩⟩⟩
  · have hact : s.removeHead.doDetach q = (s.detachTold q).settleEvent.takenFirst s.cplq.length q.seq := by
      rw [State.doDetach, if_pos (show s.removeHead.station = .attached from hstation),
        if_neg (show ¬ s.removeHead.port = .stalled from hport)]
      rfl
    rw [exec_started rfl hq hcode (by rw [hstation]; decide), hact]
    obtain ⟨h1, h2, h3, h4, h5, h6, h7⟩ := s.detachTold_spec q
    refine ⟨s.detachTold q, rfl, h1, h2, h3, h4, h5, h6, h7, fun n r => State.detachTold_record?, fun hlen => ?_⟩
    rw [← State.foldl_denials_eq _ _ rfl]
    exact State.foldl_denyPeers_sent s.recordIdxs (State.recordIdxs_nodup hlen)
      { s.removeHead with station := .detaching, lifeCmd := some q.ticket } s ⟨rfl, rfl, rfl, rfl⟩ rfl rfl rfl
      fun _ _ => rfl
  · rw [exec_started rfl hq hcode (by rw [hstation]; decide), State.doDetach,
      if_pos (show s.removeHead.station = .attached from hstation), if_pos (show s.removeHead.port = .stalled from hport)]
  · have hother : s.station ≠ .unconfigured ∧ s.station ≠ .attached := by
      simp only [List.mem_cons, List.not_mem_nil, or_false] at hstation
      rcases hstation with h | h | h
      all_goals
        rw [h]
        decide
    rw [exec_started rfl hq hcode hother.1, State.doDetach,
      if_neg (show ¬ s.removeHead.station = .attached from hother.2)]
  · exact exec_unstarted rfl hq hcode hstation
  · rw [State.tearClaim_standing hb hhome hstate hask]
    refine ⟨(State.withdrawAsk_spec u c .cancelled).2.2, ?_⟩
    exact (State.withdrawAsk_sent u c .cancelled b hb).trans ((State.SentAs.refl u).sendHome_remote rfl hb rfl hhome)
  · obtain ⟨x, htear, hx, hcplq, hfree, hshared⟩ := State.tearClaim_waiting hb hhome hstate hask hcmd hcancel
    rw [htear]
    refine ⟨?_, fun hnone => ?_, fun g hheld hg => ?_⟩
    · by_cases hheld : (u.claim c).held = none
      · rw [if_neg (by rw [hfree hheld]; split <;> exact nofun), hcplq]
      · obtain ⟨hclaim, -⟩ := hshared hheld
        rw [if_pos (by rw [hclaim]; rfl), State.letGo_cplq
          (by rw [hclaim, hx.own]; exact Claim.homedAt_of_block hb hhome), hcplq]
    · rw [if_neg (by rw [hfree hnone]; split <;> exact nofun), hfree hnone]
    · obtain ⟨hclaim, hsent⟩ := hshared (by rw [hheld]; exact nofun)
      rw [if_pos (by rw [hclaim]; rfl), State.letGo_shared (by rw [hclaim]; exact hheld)]
      have hdrop := State.startDrop_begun x c .teardown b g (by rw [hclaim]; exact hb) (by rw [hclaim]; exact hg)
        (by rw [hx.own]; exact hhome)
      rw [hclaim] at hdrop
      exact hdrop.of_sentAs hsent hx.port
  · rw [State.tearClaim_held (Claim.homedAt_of_block hb hhome) hstate]
    refine ⟨fun hheld => ?_, fun hheld => ?_⟩
    · rw [State.letGo_shared hheld]
      exact State.startDrop_begun u c .teardown b g hb hg hhome
    · rw [State.letGo_exclusive hheld]
      exact State.startReturn_begun u c false .teardown b g hb hg hhome
  · have hround : u.teardown = State.teardownLoop 63 u.tearRecords.tearClaims.drain := by
      show (if u.teardownDue then State.teardownLoop 63 u.teardownRound else u) = _
      rw [if_pos hdue]
      rfl
    rw [State.settleEvent_of_no_mail hmail hheld, hround]
  · refine State.settleEvent_of_quiet u ⟨hmail, Or.inl hheld, hdue, fun h => ?_⟩
    cases hdone.symm.trans h.2
  · obtain ⟨-, -, -, -, hrx⟩ := State.detachDone_iff.mp hdone
    obtain ⟨h1, h2, h3, h4, h5, h6, h7, hpeers, h9, h10, h11, h12⟩ := State.endDetach_spec hrx hheld
    rw [State.settleEvent_of_done hstation hmail hheld hdue hdone]
    refine ⟨h1, h2, h3, h4, h5, h6, h7, fun p => ?_, h9, h10, h11, h12⟩
    rw [hpeers, get_eq_getElem, get_eq_getElem, Vector.getElem_map]

end Sys2Proof.Machine
end

section
/-! PROOFS. The processor window and the chunk reads: the check of an access, what its grant reads or stores, and the snapshot that
a chunk read takes. -/

namespace Sys2Proof.Machine

variable {s : State}

/-! ### The check of an access -/

/-- What the check tables answer for an access through an entry that names the claim (R143, R144). -/
def Claim.fault (cl : Claim) (write : Bool) : Option FaultKind := if write then cl.writeFault else cl.readFault

theorem Claim.fault_notReady {cl : Claim} (h : cl.state = .filling ∨
    (cl.state = .asking ∨ cl.state = .withdrawing) ∧ cl.held = none) (write : Bool) :
    cl.fault write = some .notReady := by
  unfold Claim.fault Claim.writeFault Claim.readFault
  rcases h with h | ⟨h | h, hn⟩
  · rw [h]
    cases write <;> rfl
  all_goals
    rw [h, hn]
    cases write <;> rfl

theorem Claim.fault_leaseEnded {cl : Claim} (h : cl.state ∈ [.dropping, .returning, .ended]) (write : Bool) :
    cl.fault write = some .leaseEnded := by
  simp only [List.mem_cons, List.not_mem_nil, or_false] at h
  unfold Claim.fault Claim.writeFault Claim.readFault
  rcases h with h | h | h
  all_goals
    rw [h]
    cases write <;> rfl

theorem Claim.fault_sharedOnly {cl : Claim} (h : cl.state ∈ [.held, .asking, .withdrawing])
    (hheld : cl.held = some .shared) : cl.fault true = some .sharedOnly := by
  simp only [List.mem_cons, List.not_mem_nil, or_false] at h
  unfold Claim.fault Claim.writeFault
  rcases h with h | h | h
  all_goals rw [h, hheld]; rfl

theorem Claim.fault_leaseBusy {cl : Claim} (h : cl.state = .demoting) : cl.fault true = some .leaseBusy := by
  unfold Claim.fault Claim.writeFault
  rw [h]
  rfl

theorem Claim.fault_read {cl : Claim} (h : cl.state = .held ∨ cl.state = .demoting ∨
    (cl.state = .asking ∨ cl.state = .withdrawing) ∧ cl.held = some .shared) : cl.fault false = none := by
  unfold Claim.fault Claim.readFault
  rcases h with h | h | ⟨h | h, hheld⟩
  · rw [h]; rfl
  · rw [h]; rfl
  all_goals rw [h, hheld]; rfl

theorem Claim.fault_write {cl : Claim} (h : cl.state = .held) (hheld : cl.held = some .exclusive) :
    cl.fault true = none := by
  unfold Claim.fault Claim.writeFault
  rw [h, hheld]
  rfl

/-- The limit lets the access through. -/
theorem limit_passes {l : Limit} {write : Bool} (h : write = true → l = .readWrite) :
    (write && l == .readOnly) = false := by
  cases write with
  | false => rfl
  | true =>
    rw [h rfl]
    rfl

theorem State.checkAccess_claim {e : Entry} {c : ClaimIdx} {l : Limit} {write : Bool}
    (he : e.mapping = some (.claim c, l)) (hl : write = true → l = .readWrite) :
    s.checkAccess e write = match (s.claim c).fault write with
      | some k => .inl k
      | none => .inr ((s.claim c).frame.getD 0, some (c, (s.claim c).use)) := by
  unfold State.checkAccess
  rw [he]
  dsimp only
  rw [if_neg (by rw [limit_passes hl]; decide)]
  rfl

theorem State.checkAccess_private {e : Entry} {f : Nat} {l : Limit} {write : Bool}
    (he : e.mapping = some (.privateFrame f, l)) (hl : write = true → l = .readWrite) :
    s.checkAccess e write = .inr (f, none) := by
  unfold State.checkAccess
  rw [he]
  dsimp only
  rw [if_neg (by rw [limit_passes hl]; decide)]

theorem exec_windowAccess_taken {la : BitVec 16} {lbe : BitVec 4} {ld : Word} {lwr : Bool} (haccess : s.access = none)
    (hheld : s.rstHeld = false) (hlbe : lbe ≠ 0) :
    exec (.windowAccess la lbe ld lwr) s = .next (s.takeAccess la lbe ld lwr) := by
  show Host.Outcome.next (if s.access.isSome then s
    else if s.rstHeld || lbe == 0 then s.endAtOnce lwr else s.takeAccess la lbe ld lwr) = _
  rw [haccess, hheld, if_neg (by decide), if_neg (by rwa [Bool.false_or, beq_iff_eq])]

theorem State.notice_new {x : Subject} {n : Notice} (h : s.attention.any (·.subject == x) = false) :
    s.notice x n = { s with attention := s.attention ++ [{ subject := x, notice := n, replaced := false }] } := by
  unfold State.notice
  rw [if_neg (by rw [h]; decide)]

/-- The first refusal of an entry that no item names yet. -/
theorem State.refuseAccess_eq {e : EntryIdx} (f : FaultRecord) (h : s.entryListed e = false) :
    s.refuseAccess e f = { s with
      busRead := if f.write then none else some allOnes,
      window := s.window.set e.val { mapping := (s.window.get e).mapping, fault := some f } e.isLt,
      attention := s.attention ++ [{ subject := .entry e, notice := .entry f, replaced := false }] } := by
  have hlisted : (s.setEntry e { s.window.get e with fault := some f }).attention.any (·.subject == .entry e) = false := h
  unfold State.refuseAccess
  rw [State.notice_new hlisted]
  rfl

theorem State.takeAccess_refused {la : BitVec 16} {lbe : BitVec 4} {ld : Word} {lwr : Bool} {k : FaultKind}
    (hfault : (s.window.get (accessEntry la)).fault = none)
    (hcheck : s.checkAccess (s.window.get (accessEntry la)) lwr = .inl k) :
    s.takeAccess la lbe ld lwr = s.refuseAccess (accessEntry la)
      { kind := k, offset := accessWord la * 4 + lowestLane lbe, write := lwr, width := accessWidth lbe } := by
  unfold State.takeAccess
  dsimp only
  rw [if_neg (by rw [hfault]; decide), hcheck]
  rfl

theorem State.takeAccess_allowed {la : BitVec 16} {lbe : BitVec 4} {ld : Word} {lwr : Bool} {f : Nat}
    {owner : Option (ClaimIdx × UseNum)} (hfault : (s.window.get (accessEntry la)).fault = none)
    (hcheck : s.checkAccess (s.window.get (accessEntry la)) lwr = .inr (f, owner)) :
    s.takeAccess la lbe ld lwr = s.startAccess
      { frame := f, owner := owner, word := accessWord la, lbe := lbe, data := if lwr then some ld else none } := by
  unfold State.takeAccess
  dsimp only
  rw [if_neg (by rw [hfault]; decide), hcheck]

/-- Settles O36. -/
theorem refusedAccessFaultsTheEntry : Obligations.RefusedAccessFaultsTheEntry := by
  intro s la lbe ld lwr k haccess hheld hlbe hfault hlisted hrefused
  have hcheck : s.checkAccess (s.window.get (accessEntry la)) lwr = .inl k := by
    rcases hrefused with ⟨rfl, hnone⟩ | ⟨rfl, rfl, g, hmap⟩ | ⟨c, l, hmap, hlimit, htable⟩
    · unfold State.checkAccess
      rw [hnone]
    · unfold State.checkAccess
      rw [hmap]
      exact if_pos rfl
    · have hk : (s.claim c).fault lwr = some k := by
        rcases htable with ⟨rfl, hstate⟩ | ⟨rfl, hstate⟩ | ⟨rfl, rfl, hstate, hshared⟩ | ⟨rfl, rfl, hstate⟩
        · exact Claim.fault_notReady hstate lwr
        · exact Claim.fault_leaseEnded hstate lwr
        · exact Claim.fault_sharedOnly hstate hshared
        · exact Claim.fault_leaseBusy hstate
      rw [State.checkAccess_claim hmap hlimit, hk]
  refine ⟨_, _, ?_, rfl, rfl⟩
  rw [exec_windowAccess_taken haccess hheld hlbe, State.takeAccess_refused hfault hcheck,
    State.refuseAccess_eq _ hlisted]

/-- Settles O37. -/
theorem allowedAccessWaitsOthersEndAtOnce : Obligations.AllowedAccessWaitsOthersEndAtOnce := by
  intro s la lbe ld lwr
  refine ⟨fun f owner haccess hheld hlbe hfault hallowed => ?_, fun haccess hend => ?_, fun haccess => ?_⟩
  · have hcheck : s.checkAccess (s.window.get (accessEntry la)) lwr = .inr (f, owner) := by
      rcases hallowed with ⟨l, hmap, hlimit, rfl⟩ | ⟨c, l, hmap, hframe, rfl, htable⟩
      · exact State.checkAccess_private hmap hlimit
      · rcases htable with ⟨rfl, hstate⟩ | ⟨rfl, hlimit, hstate, hexclusive⟩
        · rw [State.checkAccess_claim (write := false) hmap (fun h => nomatch h), Claim.fault_read hstate, hframe]
          rfl
        · rw [State.checkAccess_claim hmap fun _ => hlimit, Claim.fault_write hstate hexclusive, hframe]
          rfl
    rw [exec_windowAccess_taken haccess hheld hlbe, State.takeAccess_allowed hfault hcheck]
    refine ⟨_, rfl, State.arbStart_eq _, fun hidle hturn => ?_, fun c hbusy => ?_⟩
    · unfold State.startAccess State.arbStart
      dsimp only
      rw [hidle]
      dsimp only
      rcases hturn with hturn | hturn
      · rw [hturn]
        rfl
      · unfold State.waiting
        cases hmarker : s.arbTurn with
        | window => rfl
        | ring =>
          dsimp only
          rw [hturn]
          rfl
    · unfold State.startAccess State.arbStart
      dsimp only
      rw [hbusy]
  · show Host.Outcome.next (if s.access.isSome then s
      else if s.rstHeld || lbe == 0 then s.endAtOnce lwr else s.takeAccess la lbe ld lwr) = _
    rw [if_neg (show ¬ s.access.isSome = true by rw [haccess]; decide)]
    rcases hend with rfl | hheld | hfault
    · rw [if_pos (by rw [beq_self_eq_true, Bool.or_true])]
      rfl
    · rw [if_pos (by rw [hheld, Bool.true_or])]
      rfl
    · have hat : s.takeAccess la lbe ld lwr = s.endAtOnce lwr := by
        unfold State.takeAccess
        exact if_pos hfault
      rw [hat, ite_self]
      rfl
  · show Host.Outcome.next (if s.access.isSome then s else _) = _
    rw [if_pos (Option.isSome_iff_ne_none.mpr haccess)]

/-! ### The grant of a read -/

/-- The bus cycle has ended and the arbiter goes on. -/
def State.accessEnded (s : State) : State := State.arbEnd { s with access := none } .window

theorem State.endAccess_read {a : Access} (h : a.data = none) : s.endAccess a = s.accessEnded := by
  unfold State.endAccess
  rw [h]
  cases a.owner <;> rfl

theorem State.endAccess_unowned {a : Access} (h : a.owner = none) : s.endAccess a = s.accessEnded := by
  unfold State.endAccess
  rw [h]
  rfl

theorem State.endAccess_owned {a : Access} {w : Word} {c : ClaimIdx} {u : UseNum} (h : a.data = some w)
    (ho : a.owner = some (c, u)) :
    s.endAccess a = if (s.claim c).use = u then s.accessEnded.writeEnded c else s.accessEnded := by
  unfold State.endAccess
  rw [h, ho]
  rfl

theorem exec_windowGrant_granted {a : Access} (hport : s.arbPort = some .window) (haccess : s.access = some a)
    (hreach : a.frame < s.frames) : exec .windowGrant s = .next ((s.carryOut a).endAccess a).settleEvent := by
  show execWindowGrant s = _
  unfold execWindowGrant
  rw [hport, haccess]
  exact if_neg (Nat.not_le.mpr hreach)

/-- Lane `k` of what a granted read returns. -/
theorem State.lane_readAccess (a : Access) {k : Nat} (hk : k < 4) : lane (s.readAccess a) k = s.readLane a k := by
  obtain ⟨h0, h1, h2, h3⟩ := lane_ofLanes (s.readLane a 0) (s.readLane a 1) (s.readLane a 2) (s.readLane a 3)
  unfold State.readAccess
  have hlanes : k = 0 ∨ k = 1 ∨ k = 2 ∨ k = 3 := by omega
  rcases hlanes with rfl | rfl | rfl | rfl
  · exact h0
  · exact h1
  · exact h2
  · exact h3

/-- Settles O38. -/
theorem grantedReadReturnsEnabledBytes : Obligations.GrantedReadReturnsEnabledBytes := by
  intro s a hport haccess hread hreach
  have hbus : (s.carryOut a).endAccess a =
      { s with
        access := none, busRead := some (if s.accessAlive a then s.readAccess a else allOnes), arbTurn := .ring,
        arbPort := if s.moves = [] then none else some .ring } := by
    rw [State.endAccess_read hread, State.accessEnded, State.arbEnd_window, State.carryOut, hread]
  rw [exec_windowGrant_granted hport haccess hreach, hbus]
  refine ⟨_, rfl, fun halive => ⟨s.readAccess a, ?_, fun k hk => ?_⟩, fun hended => ?_, rfl⟩
  · rw [if_pos halive]
  · rw [State.lane_readAccess a hk]
    rfl
  · rw [if_neg (by rw [hended]; decide)]

/-! ### The grant of a write -/

/-- What a granted write leaves: its bytes, and the mark on its claim, unless the lease has ended. -/
theorem State.carryOut_write {a : Access} {w : Word} (h : a.data = some w) :
    (s.carryOut a).dram = (if s.accessAlive a then s.dram.setCells (a.cells w) else s.dram) ∧
      (s.carryOut a).outside = { s.outside with busRead := none, dram := (s.carryOut a).dram } ∧
      (s.carryOut a).records = s.records ∧ (s.carryOut a).moves = s.moves ∧
      (∀ d, (∀ u, a.owner ≠ some (d, u)) → (s.carryOut a).claim d = s.claim d) ∧
      ∀ c, a.owner = some (c, (s.claim c).use) → (s.claim c).live = true →
        (s.carryOut a).claim c = (s.claim c).marked s.own a.chunk := by
  unfold State.carryOut
  rw [h]
  dsimp only
  by_cases halive : s.accessAlive a = true
  · rw [if_pos halive, if_pos halive]
    unfold State.writeAccess
    dsimp only
    split
    · next hnone =>
      refine ⟨rfl, rfl, rfl, rfl, fun _ _ => rfl, fun c hc _ => ?_⟩
      rw [hnone] at hc
      cases hc
    · next c u howner =>
      refine ⟨rfl, rfl, rfl, rfl, fun d hd => ?_, fun d hd _ => ?_⟩
      · refine (ClaimOnly.modClaim { s with dram := s.dram.setCells (a.cells w) } c _).other d fun hdc => ?_
        exact hd u (by rw [hdc, howner])
      · rw [howner] at hd
        obtain ⟨rfl, -⟩ := Prod.mk.inj (Option.some.inj hd)
        exact State.claim_modClaim { s with dram := s.dram.setCells (a.cells w) } c _
  · rw [if_neg halive, if_neg halive]
    refine ⟨rfl, rfl, rfl, rfl, fun _ _ => rfl, fun c hc hlive => absurd ?_ halive⟩
    unfold State.accessAlive
    rw [hc]
    dsimp only
    rw [hlive, beq_self_eq_true]
    rfl

theorem Claim.live_of_state {cl : Claim} {x : ClaimState} (h : cl.state = x) (hfree : x ≠ .free) (hended : x ≠ .ended) :
    cl.live = true := by
  unfold Claim.live
  rw [h, bne_iff_ne.mpr hfree, bne_iff_ne.mpr hended]
  rfl

theorem Claim.marked_held {cl : Claim} {own : Station} {c : ChunkIdx} (hhome : cl.homedAt own = false)
    (hstate : cl.state = .held) (hheld : cl.held = some .exclusive) :
    cl.marked own c = { cl with dirty := ChunkSet.insert c cl.dirty } := by
  unfold Claim.marked
  rw [hhome, hstate, hheld]
  exact if_pos rfl

theorem Claim.marked_returning {cl : Claim} {own : Station} {c : ChunkIdx} {r : Return} (hhome : cl.homedAt own = false)
    (hstate : cl.state = .returning ∨ cl.state = .demoting) (hret : cl.ret = some r) (hfixed : r.fixed = false) :
    cl.marked own c = { cl with dirty := ChunkSet.insert c cl.dirty } := by
  unfold Claim.marked
  rw [hhome, hret, Option.any_some, hfixed]
  rcases hstate with h | h
  all_goals
    rw [h]
    exact if_pos rfl

theorem State.accessEnded_spec (s : State) :
    s.accessEnded.claims = s.claims ∧ s.accessEnded.records = s.records ∧ s.accessEnded.dram = s.dram ∧
      s.accessEnded.arbTurn = .ring ∧ s.accessEnded.arbPort = (if s.moves = [] then none else some .ring) ∧
      s.accessEnded.outside = { s.outside with access := none } := by
  unfold State.accessEnded
  rw [State.arbEnd_window]
  exact ⟨rfl, rfl, rfl, rfl, rfl, rfl⟩

theorem State.accessEnded_claim (s : State) (c : ClaimIdx) : s.accessEnded.claim c = s.claim c := by
  unfold State.claim
  rw [s.accessEnded_spec.1]

/-- The end of the cycle of a write changes, besides the arbiter, only the return of the claim that waited for it. -/
theorem State.endAccess_only (s : State) (a : Access) :
    (s.endAccess a = s.accessEnded) ∨ ∃ c u, a.owner = some (c, u) ∧ s.endAccess a = s.accessEnded.writeEnded c := by
  cases hdata : a.data with
  | none => exact Or.inl (State.endAccess_read hdata)
  | some w =>
    rcases howner : a.owner with _ | ⟨c, u⟩
    · exact Or.inl (State.endAccess_unowned howner)
    · rw [State.endAccess_owned hdata howner]
      split
      · exact Or.inr ⟨c, u, rfl, rfl⟩
      · exact Or.inl rfl

theorem State.endAccess_spec (s : State) (a : Access) :
    (∀ d, (∀ u, a.owner ≠ some (d, u)) → (s.endAccess a).claim d = s.claim d) ∧
      (s.endAccess a).records = s.records ∧ (s.endAccess a).arbTurn = .ring ∧
      (s.endAccess a).arbPort = (if s.moves = [] then none else some .ring) ∧
      (s.endAccess a).outside = { s.outside with access := none } := by
  obtain ⟨-, hrecords, -, hturn, hport, houtside⟩ := s.accessEnded_spec
  rcases s.endAccess_only a with h | ⟨c, u, howner, h⟩
  · rw [h]
    exact ⟨fun d _ => s.accessEnded_claim d, hrecords, hturn, hport, houtside⟩
  · have honly := (State.writeEnded_spec s.accessEnded c).1
    rw [h]
    refine ⟨fun d hd => ?_, honly.records.trans hrecords, honly.arbTurn.trans hturn, honly.arbPort.trans hport,
      honly.outside.trans houtside⟩
    exact (honly.other d fun hdc => hd u (by rw [hdc, howner])).trans (s.accessEnded_claim d)

/-- Settles O39. -/
theorem grantedWriteStoresEnabledBytes : Obligations.GrantedWriteStoresEnabledBytes := by
  intro s a w hport haccess hwrite hreach
  rw [exec_windowGrant_granted hport haccess hreach]
  obtain ⟨hdram, hwritten, hrecords, hmoves, hother, hmarked⟩ := State.carryOut_write (s := s) hwrite
  obtain ⟨hendOther, hendRecords, hturn, hendPort, houtside⟩ := (s.carryOut a).endAccess_spec a
  have hxdram : ((s.carryOut a).endAccess a).dram = (s.carryOut a).dram := congrArg Outside.dram houtside
  have hbyte (d : Nat) : ((s.carryOut a).endAccess a).readByte d = ((s.carryOut a).dram.get d).getD
      (Config.undefinedByte (s.dramEpoch.get (bandOf d)) d) := by
    unfold State.readByte
    rw [hxdram, show ((s.carryOut a).endAccess a).dramEpoch = s.dramEpoch from
      (congrArg Outside.dramEpoch houtside).trans (congrArg Outside.dramEpoch hwritten)]
  have hmark (c : ClaimIdx) (ho : a.owner = some (c, (s.claim c).use)) (hlive : (s.claim c).live = true)
      {v : Claim} (hv : (s.claim c).marked s.own a.chunk = v) (huse : v.use = (s.claim c).use) :
      (s.carryOut a).accessEnded.claim c = v ∧
        (s.carryOut a).endAccess a = (s.carryOut a).accessEnded.writeEnded c := by
    have hclaim : (s.carryOut a).claim c = v := (hmarked c ho hlive).trans hv
    refine ⟨((s.carryOut a).accessEnded_claim c).trans hclaim, ?_⟩
    rw [State.endAccess_owned hwrite ho, hclaim, if_pos huse]
  refine ⟨_, rfl, fun halive => ⟨fun k hk hlbe => ?_, fun d hd => ?_⟩, fun hended d => ?_,
    fun c ho hhome hret hstate hheld => ?_,
    fun c r ho hhome hret hfixed hstate => ?_, fun d hd => (hendOther d hd).trans (hother d hd), hendRecords.trans hrecords,
    hturn, ?_, ?_⟩
  · rw [hbyte, hdram, if_pos halive]
    exact (Memory.getD_setCells_lane s.dram a w _ _).1 k hk hlbe rfl
  · rw [hbyte, hdram, if_pos halive]
    exact (Memory.getD_setCells_lane s.dram a w
      (fun d => Config.undefinedByte (s.dramEpoch.get (bandOf d)) d) d).2 hd
  · rw [hbyte, hdram, if_neg (by rw [hended]; decide)]
    rfl
  · obtain ⟨hclaim, hend⟩ := hmark c ho (Claim.live_of_state hstate nofun nofun) (Claim.marked_held hhome hstate hheld) rfl
    rw [hend, (State.writeEnded_spec _ c).2.1 (by rw [hclaim]; exact hret), hclaim]
  · have hlive : (s.claim c).live = true := by
      rcases hstate with h | h
      all_goals exact Claim.live_of_state h nofun nofun
    obtain ⟨hclaim, hend⟩ := hmark c ho hlive (Claim.marked_returning hhome hstate hret hfixed) rfl
    rw [hend, (State.writeEnded_spec _ c).2.2 r (by rw [hclaim]; exact hret) hfixed, hclaim]
  · rw [hendPort, hmoves]
  · rw [houtside, hwritten, hxdram]

/-! ### The end of a chunk read -/

theorem exec_chunkReadMoveEnd_granted {b : Fin 4} {f : Nat} {c : ChunkIdx} {rest : List Move}
    (hport : s.arbPort = some .ring) (hmoves : s.moves = .read b f c :: rest) (hreach : f < s.frames) :
    exec .chunkReadMoveEnd s = .next ((s.payloadRead b (s.readChunk f c)).endMove).settleEvent := by
  show execChunkReadMoveEnd s = _
  unfold execChunkReadMoveEnd
  rw [hport, hmoves]
  exact if_neg (Nat.not_le.mpr hreach)

/-- A payload read changes the buffers and the transmit queue alone. -/
theorem State.payloadRead_eq (s : State) (b : Fin 4) (payload : List Byte) :
    s.payloadRead b payload =
      { s with outBuf := (s.payloadRead b payload).outBuf, txq := (s.payloadRead b payload).txq } := by
  unfold State.payloadRead
  split <;> rfl

theorem State.readChunk_getElem? (s : State) (f : Nat) (c : ChunkIdx) {j : Nat} (hj : j < Config.chunkBytes) :
    (s.readChunk f c)[j]? = some (s.readByte (chunkAddr f c + j)) := by
  unfold State.readChunk
  rw [List.getElem?_map, List.getElem?_range hj]
  rfl

/-- Settles O40. -/
theorem chunkReadTakesASnapshot : Obligations.ChunkReadTakesASnapshot := by
  intro s b f c rest hport hmoves hreach
  have htail : (s.payloadRead b (s.readChunk f c)).moves.tail = rest := by
    rw [State.payloadRead_eq]
    exact congrArg List.tail hmoves
  have haccess : (s.payloadRead b (s.readChunk f c)).access = s.access := by rw [State.payloadRead_eq]
  have hend := State.endMove_eq _ rest htail
  rw [haccess] at hend
  refine ⟨_, exec_chunkReadMoveEnd_granted hport hmoves hreach, fun hreading => ?_, fun hgone => ?_, ?_⟩
  · rw [hend]
    unfold State.payloadRead
    rw [hreading]
    refine ⟨s.readChunk f c, rfl, ?_, fun j hj => s.readChunk_getElem? f c hj, rfl⟩
    rw [State.readChunk, List.length_map, List.length_range]
  · rw [hend]
    unfold State.payloadRead
    rw [hgone]
    exact ⟨rfl, rfl⟩
  · rw [hend, State.payloadRead_eq]

end Sys2Proof.Machine
end

section
/-! PROOFS. The ends of chunk writes: the payload in DRAM, and what its completion does to the record or the claim that asked for
it. -/

namespace Sys2Proof.Machine

variable {s : State}

/-! ### The payload in DRAM -/

/-- The chunk is in DRAM, its buffer is free, and the arbiter goes on. -/
def State.chunkWritten (s : State) (b : Fin 4) (f : Nat) (c : ChunkIdx) : State :=
  ((s.writeChunk f c ((s.inBuf.get b).getD [])).setInBuf b none).endMove

theorem exec_chunkWriteMoveEnd_granted {b : Fin 4} {f : Nat} {c : ChunkIdx} {k : Asker} {report : Bool}
    {rest : List Move} (hport : s.arbPort = some .ring) (hmoves : s.moves = .write b f c k report :: rest)
    (hreach : f < s.frames) : exec .chunkWriteMoveEnd s =
      .next (if report then (s.chunkWritten b f c).reportWrite k c else s.chunkWritten b f c).settleEvent := by
  show execChunkWriteMoveEnd s = _
  unfold execChunkWriteMoveEnd
  rw [hport, hmoves]
  exact if_neg (Nat.not_le.mpr hreach)

theorem State.chunkWritten_eq {b : Fin 4} {f : Nat} {c : ChunkIdx} {k : Asker} {report : Bool} {rest : List Move}
    (hmoves : s.moves = .write b f c k report :: rest) :
    s.chunkWritten b f c = { s with
      dram := s.dram.setBytes (chunkAddr f c) (((s.inBuf.get b).getD []).take Config.chunkBytes),
      inBuf := s.inBuf.set b.val none b.isLt, moves := rest, arbTurn := .window,
      arbPort := if s.access.isSome then some .window else if rest = [] then none else some .ring } := by
  unfold State.chunkWritten
  rw [State.endMove_eq _ rest]
  · rfl
  · show s.moves.tail = rest
    rw [hmoves]
    rfl

/-- The report to the asker leaves the buffers, the moves, the arbiter and everything outside the exchanges. -/
theorem State.reportWrite_keeps (s : State) (k : Asker) (c : ChunkIdx) :
    (s.reportWrite k c).inBuf = s.inBuf ∧ (s.reportWrite k c).moves = s.moves ∧
      (s.reportWrite k c).arbTurn = s.arbTurn ∧ (s.reportWrite k c).arbPort = s.arbPort ∧
      (s.reportWrite k c).outside = s.outside := by
  unfold State.reportWrite
  cases k with
  | home n p g =>
    obtain ⟨⟨_, _, _, _, _, _, heq⟩, -, -⟩ := RecordOnly.homeWritten s n p g c
    dsimp only
    rw [heq]
    exact ⟨rfl, rfl, rfl, rfl, rfl⟩
  | claim d u g =>
    have honly := ClaimOnly.claimWritten s d u g c
    exact ⟨honly.inBuf, honly.moves, honly.arbTurn, honly.arbPort, honly.outside⟩

/-- Settles O41. -/
theorem chunkWriteStoresItsPayload : Obligations.ChunkWriteStoresItsPayload := by
  intro s b f c k r rest payload hport hmoves hreach hbuf hlength
  have hwritten := State.chunkWritten_eq hmoves
  rw [hbuf, Option.getD_some, List.take_of_length_le (Nat.le_of_eq hlength)] at hwritten
  obtain ⟨x, hx, hinBuf, hxmoves, hturn, hxport, houtside, hsilent⟩ : ∃ x : State,
      exec .chunkWriteMoveEnd s = .next x.settleEvent ∧ x.inBuf = (s.chunkWritten b f c).inBuf ∧
        x.moves = (s.chunkWritten b f c).moves ∧ x.arbTurn = (s.chunkWritten b f c).arbTurn ∧
        x.arbPort = (s.chunkWritten b f c).arbPort ∧ x.outside = (s.chunkWritten b f c).outside ∧
        (r = false → x = s.chunkWritten b f c) := by
    refine ⟨_, exec_chunkWriteMoveEnd_granted hport hmoves hreach, ?_⟩
    cases r with
    | false => exact ⟨rfl, rfl, rfl, rfl, rfl, fun _ => rfl⟩
    | true =>
      obtain ⟨h1, h2, h3, h4, h5⟩ := (s.chunkWritten b f c).reportWrite_keeps k c
      exact ⟨h1, h2, h3, h4, h5, nofun⟩
  rw [hwritten] at hinBuf hxmoves hturn hxport houtside hsilent
  have hdram : x.dram = s.dram.setBytes (chunkAddr f c) payload := congrArg Outside.dram houtside
  have hbyte (a : Nat) : x.readByte a = ((s.dram.setBytes (chunkAddr f c) payload).get a).getD
      (Config.undefinedByte (s.dramEpoch.get (bandOf a)) a) := by
    unfold State.readByte
    rw [hdram, show x.dramEpoch = s.dramEpoch from congrArg Outside.dramEpoch houtside]
  refine ⟨x, hx, fun j hj => ?_, fun a ha => ?_, hinBuf, hxmoves, hturn, hxport, fun hr => ?_, ?_⟩
  · rw [hbyte, Memory.get_setBytes_inside _ _ _ _ (by rw [hlength]; exact hj), Option.getD_some]
  · rw [hbyte, Memory.get_setBytes_outside _ _ _ _ (by rw [hlength]; exact ha)]
    rfl
  · rw [hsilent hr]
    exact ⟨rfl, rfl, rfl⟩
  · rw [houtside, hdram]
    rfl

/-! ### The record that asked -/

/-- A content served in a state of the same records, claims and surroundings. -/
theorem State.ServedAs.of_same {u v x sent : State} {n : Byte} {r : DirRecord} (h : u.ServedAs x n r sent)
    (hrecords : u.records = v.records) (hclaims : u.claims = v.claims) (houtside : u.outside = v.outside) :
    v.ServedAs x n r sent := by
  obtain ⟨y, hx, hr, hother, hsent, hyclaims, hyoutside⟩ := h
  refine ⟨y, hx, hr, fun m hm => ?_, hsent, hyclaims.trans hclaims, hyoutside.trans houtside⟩
  rw [hother m hm, State.record?, hrecords]
  rfl

theorem State.ServedAs.of_sent {u x y z : State} {n : Byte} {r : DirRecord} (h : u.ServedAs x n r y) (hsent : y.SentAs z) :
    u.ServedAs x n r z := by
  obtain ⟨w, hx, hr, hother, hw, hclaims, houtside⟩ := h
  exact ⟨w, hx, hr, hother, hw.trans hsent, hclaims, houtside⟩

theorem Holder.isFrom_iff {h : Holder} {p : Station} {g : Byte} : h.isFrom p g = true ↔ h.station = p ∧ h.gen = g := by
  unfold Holder.isFrom
  rw [Bool.and_eq_true, beq_iff_eq, beq_iff_eq]

variable {n : Byte} {r : DirRecord} {h : Holder} {p : Station} {g : Byte} {i : ChunkIdx}

/-- A write of the holder that is not the last one a held RETURNED waits for. -/
theorem State.homeWritten_counted (hr : s.record? n = some r) (hh : r.holder = some h) (hfrom : h.isFrom p g = true)
    (hmore : h.held = none ∨ 1 < h.writes) :
    s.homeWritten n p g i = s.setRecord n { r with holder := some (h.written i) } := by
  unfold State.homeWritten
  rw [hr]
  dsimp only
  rw [hh]
  dsimp only
  rw [if_pos hfrom]
  split
  · next k hk =>
    refine if_neg fun hzero => ?_
    rcases hmore with hnone | hwrites
    · cases hnone.symm.trans hk
    · have hzero : h.writes - 1 = 0 := hzero
      omega
  · rfl

theorem State.homeWritten_last {back : HeldReturn} (hr : s.record? n = some r) (hh : r.holder = some h)
    (hfrom : h.isFrom p g = true) (hback : h.held = some back) (hwrites : h.writes = 1) :
    s.homeWritten n p g i =
      (s.setRecord n { r with holder := some { h.written i with held := none } }).handleReturned n back.kept back.count := by
  unfold State.homeWritten
  rw [hr]
  dsimp only
  rw [hh]
  dsimp only
  rw [if_pos hfrom, show (h.written i).held = some back from hback]
  exact if_pos (by rw [Holder.written, hwrites])

theorem State.homeWritten_lostCounted (hr : s.record? n = some r) (hh : r.holder = none) (hl : r.lost = some h)
    (hfrom : h.isFrom p g = true) (hmore : h.held = none ∨ 1 < h.writes) :
    s.homeWritten n p g i = s.setRecord n { r with lost := some (h.written i) } := by
  unfold State.homeWritten
  rw [hr]
  dsimp only
  rw [hh, hl]
  dsimp only
  rw [if_pos hfrom]
  split
  · next k hk =>
    refine if_neg fun hzero => ?_
    rcases hmore with hnone | hwrites
    · cases hnone.symm.trans hk
    · have hzero : h.writes - 1 = 0 := hzero
      omega
  · rfl

theorem State.homeWritten_lostLast {back : HeldReturn} (hr : s.record? n = some r) (hh : r.holder = none)
    (hl : r.lost = some h) (hfrom : h.isFrom p g = true) (hback : h.held = some back) (hwrites : h.writes = 1) :
    s.homeWritten n p g i =
      (s.setRecord n { r with lost := some { h.written i with held := none } }).handleLostReturned n back.kept
        back.count := by
  unfold State.homeWritten
  rw [hr]
  dsimp only
  rw [hh, hl]
  dsimp only
  rw [if_pos hfrom, show (h.written i).held = some back from hback]
  exact if_pos (by rw [Holder.written, hwrites])

/-- The held RETURNED of the holder is handled: an agreeing count takes the holder out, any other damages the record. -/
theorem State.homeWritten_returned {back : HeldReturn} (hr : s.record? n = some r) (hh : r.holder = some h)
    (hfrom : h.isFrom p g = true) (hback : h.held = some back) (hwrites : h.writes = 1) :
    (back.count.val = (ChunkSet.insert i h.returned).length → s.ServedAs (s.homeWritten n p g i) n
      (DirRecord.overIfDone { r with
        holder := none, readers := if back.kept then [{ station := p, gen := g }] else r.readers,
        recalling := r.recalling.map fun k => { k with awaiting := k.awaiting.filter (· != p) } }) s) ∧
      (back.count.val ≠ (ChunkSet.insert i h.returned).length →
        (s.homeWritten n p g i).record? n = some { r with
          lost := some { h with returned := ChunkSet.insert i h.returned, writes := 0, held := none },
          holder := none, transfer := none, recalling := none, queue := [] } ∧
        (s.homeWritten n p g i).SentAs (s.denials n .damaged r.queue)) := by
  obtain ⟨rfl, rfl⟩ := Holder.isFrom_iff.mp hfrom
  rw [State.homeWritten_last hr hh hfrom hback hwrites]
  have hset := State.record?_setRecord_same s n { r with holder := some { h.written i with held := none } } r hr
  obtain ⟨hagrees, hdiffers⟩ := State.handleReturned_spec (u := s) (sent := s) back.kept back.count hset rfl
    (RecordOnly.setRecord s n _) ⟨rfl, rfl, rfl, rfl⟩
  refine ⟨hagrees, fun hcount => ?_⟩
  rw [hdiffers hcount, State.record?_damage _ n _ hset]
  refine ⟨by rw [Holder.written, hwrites], (State.damage_sent _ n _ hset).trans ?_⟩
  exact State.denials_congr (x := s.setRecord n _) (u := s) ⟨rfl, rfl, rfl, rfl⟩ rfl rfl n .damaged r.queue

/-- That of the lost holder: an agreeing count heals the record, any other leaves it DAMAGED. -/
theorem State.homeWritten_lostReturned {back : HeldReturn} (hr : s.record? n = some r) (hh : r.holder = none)
    (hl : r.lost = some h) (hfrom : h.isFrom p g = true) (hback : h.held = some back) (hwrites : h.writes = 1) :
    (back.count.val = (ChunkSet.insert i h.returned).length → s.ServedAs (s.homeWritten n p g i) n
      (DirRecord.overIfDone { r with
        lost := none, readers := if back.kept then [{ station := p, gen := g }] else r.readers }) s) ∧
      (back.count.val ≠ (ChunkSet.insert i h.returned).length → (s.homeWritten n p g i).record? n = some { r with
        lost := some { h with returned := ChunkSet.insert i h.returned, writes := 0, held := none } }) := by
  obtain ⟨rfl, rfl⟩ := Holder.isFrom_iff.mp hfrom
  rw [State.homeWritten_lostLast hr hh hl hfrom hback hwrites]
  have hset := State.record?_setRecord_same s n { r with lost := some { h.written i with held := none } } r hr
  obtain ⟨hagrees, hdiffers⟩ := State.handleLostReturned_spec (u := s) (sent := s) back.kept back.count hset rfl
    (RecordOnly.setRecord s n _) ⟨rfl, rfl, rfl, rfl⟩
  refine ⟨hagrees, fun hcount => ?_⟩
  rw [hdiffers hcount, State.record?_setRecord_same _ n _ _ hset, Holder.written, hwrites]

/-! ### The claim that asked -/

variable {c : ClaimIdx} {u : UseNum}

/-- The claim with chunk `i` received. -/
def Claim.receives (cl : Claim) (i : ChunkIdx) : Claim := { cl with received := ChunkSet.insert i cl.received }

theorem State.claimWritten_counted (hstate : (s.claim c).state = .filling) (huse : (s.claim c).use = u)
    (hgen : (s.claim c).gen = some g) :
    s.claimWritten c u g i = if (ChunkSet.insert i (s.claim c).received).length = 32 then
      (s.modClaim c (·.receives i)).fillEnd c else s.modClaim c (·.receives i) := by
  unfold State.claimWritten
  dsimp only
  rw [if_pos ⟨hstate, huse, hgen⟩]
  rfl

/-- The claim once its fill is complete and its command has completed. -/
def Claim.filled (cl : Claim) (hold : Timer) : Claim :=
  { cl with state := .held, held := cl.sought, sought := none, dirty := [], hold := hold, pendingCmd := none }

theorem State.completeLease_claimTurn (s : State) (c : ClaimIdx) : (s.completeLease c).claimTurn = s.claimTurn := by
  unfold State.completeLease State.completePending
  dsimp only
  split
  · split <;> rfl
  · rfl

/-- The fill ends: the claim is HELD, its command completes, and in that state `y` a deferred recall is acted on. -/
theorem State.fillEnd_spec {t : Ticket} (s : State) (c : ClaimIdx) (hcmd : (s.claim c).pendingCmd = some t) :
    ∃ y : State, s.fillEnd c = y.actDeferred c ∧ ClaimOnly s y c ∧ y.SentAs s ∧ y.claimTurn = s.claimTurn ∧
      y.claim c = (s.claim c).filled s.startHoldTimer ∧
      y.cplq = s.cplq ++ [.plain t .ok (some c) (s.claim c).gen
        (if t.code = 5 then (s.claim c).frame.map (BitVec.ofNat 32) else none)] := by
  unfold State.fillEnd
  dsimp only
  have hclaim := State.claim_modClaim s c fun cl =>
    { cl with state := .held, held := cl.sought, sought := none, dirty := [], hold := s.startHoldTimer }
  have honly := ClaimOnly.modClaim s c fun cl =>
    { cl with state := .held, held := cl.sought, sought := none, dirty := [], hold := s.startHoldTimer }
  have hsent := s.modClaim_sent c fun cl =>
    { cl with state := .held, held := cl.sought, sought := none, dirty := [], hold := s.startHoldTimer }
  have hturn : (s.modClaim c fun cl =>
    { cl with state := .held, held := cl.sought, sought := none, dirty := [], hold := s.startHoldTimer }).claimTurn =
      s.claimTurn := rfl
  have hcplq : (s.modClaim c fun cl =>
    { cl with state := .held, held := cl.sought, sought := none, dirty := [], hold := s.startHoldTimer }).cplq =
      s.cplq := rfl
  generalize (s.modClaim c fun cl =>
    { cl with state := .held, held := cl.sought, sought := none, dirty := [], hold := s.startHoldTimer }) = y
    at hclaim honly hsent hturn hcplq
  obtain ⟨hlease, -, hdone, hcompleted⟩ := State.completeLease_spec y c
  rw [hclaim] at hdone hcompleted
  refine ⟨_, rfl, honly.trans hlease, (State.completeLease_sent y c).trans hsent,
    (State.completeLease_claimTurn y c).trans hturn, hdone, ?_⟩
  rw [hcompleted, hcplq]
  dsimp only
  rw [hcmd]
  rfl

theorem State.actDeferred_waiting (h : (s.claim c).deferred = none ∨ (s.claim c).holdRunning = true) :
    s.actDeferred c = s := by
  unfold State.actDeferred
  dsimp only
  split
  · next k g hk =>
    refine if_pos (Or.inr (h.resolve_left ?_))
    rw [hk]
    exact nofun
  · rfl

theorem State.actDeferred_acts {k : RecallKind} {gr : Byte} (hdeferred : (s.claim c).deferred = some (k, gr))
    (hstate : (s.claim c).state = .held) (hhold : (s.claim c).holdRunning = false) :
    s.actDeferred c = (s.modClaim c fun cl => { cl with deferred := none }).actRecall c k := by
  unfold State.actDeferred
  dsimp only
  rw [hdeferred]
  refine if_neg fun h => ?_
  rcases h with h | h
  · cases hstate.symm.trans h
  · cases hhold.symm.trans h

/-- A recall acted on in HELD completes nothing at a claim of no own block. -/
theorem State.actRecall_cplq (hstate : (s.claim c).state = .held) (hhome : (s.claim c).homedAt s.own = false)
    (k : RecallKind) : (s.actRecall c k).cplq = s.cplq := by
  rw [State.actRecall_held s c k hstate]
  split
  · exact State.startDrop_cplq hhome _
  · exact State.startReturn_cplq hhome false _
  · exact State.startReturn_cplq hhome true _
  · rfl

theorem State.actDeferred_cplq (hstate : (s.claim c).state = .held) (h : (s.claim c).deferred = none ∨
    (s.claim c).holdRunning = true ∨ (s.claim c).homedAt s.own = false) : (s.actDeferred c).cplq = s.cplq := by
  unfold State.actDeferred
  dsimp only
  split
  · next k g hk =>
    split
    · rfl
    · next hwaits =>
      rcases h with h | h | h
      · cases h.symm.trans hk
      · exact absurd (Or.inr h) hwaits
      · exact State.actRecall_cplq (by rw [State.claim_modClaim]; exact hstate)
          (by rw [State.claim_modClaim]; exact h) k
  · rfl

/-- The deferred recall of a copy homed elsewhere, its hold period over, gives the copy up. -/
theorem State.actDeferred_begun {k : RecallKind} {gr : Byte} {b : Block}
    (hdeferred : (s.claim c).deferred = some (k, gr)) (hstate : (s.claim c).state = .held)
    (hhold : (s.claim c).holdRunning = false) (hb : (s.claim c).block = some b) (hg : (s.claim c).gen = some g)
    (hhome : b.home ≠ s.own) :
    (k = .drop → (s.claim c).held = some .shared → s.DropBegun (s.actDeferred c) c (s.claim c) b g .recalled) ∧
      (k ≠ .drop → (s.claim c).held = some .exclusive →
        s.ReturnBegun (s.actDeferred c) c (s.claim c) b g (k == .demote) .recalled) := by
  rw [State.actDeferred_acts hdeferred hstate hhold]
  have hclaim := State.claim_modClaim s c fun cl => { cl with deferred := none }
  have honly := ClaimOnly.modClaim s c fun cl => { cl with deferred := none }
  have hsent := s.modClaim_sent c fun cl => { cl with deferred := none }
  have hturn : (s.modClaim c fun cl => { cl with deferred := none }).claimTurn = s.claimTurn := rfl
  generalize (s.modClaim c fun cl => { cl with deferred := none }) = y at hclaim honly hsent hturn
  have hb' : (y.claim c).block = some b := by rw [hclaim]; exact hb
  have hg' : (y.claim c).gen = some g := by rw [hclaim]; exact hg
  have hhome' : b.home ≠ y.own := by rw [honly.own]; exact hhome
  have hheld : (y.claim c).held = (s.claim c).held := by rw [hclaim]
  have haccess : y.access = s.access := congrArg Outside.access honly.outside
  rw [State.actRecall_held y c k (by rw [hclaim]; exact hstate), hheld]
  refine ⟨fun hkind hshared => ?_, fun hkind hexclusive => ?_⟩
  · rw [hkind, hshared]
    have hdrop := (State.startDrop_begun y c .recalled b g hb' hg' hhome').of_sentAs hsent honly.port
    rw [hclaim] at hdrop
    exact ⟨hdrop.claim, hdrop.sent⟩
  · rw [hexclusive]
    have hreturn (kept : Bool) : s.ReturnBegun (y.startReturn c kept .recalled) c (s.claim c) b g kept .recalled := by
      have hbegun := (State.startReturn_begun y c kept .recalled b g hb' hg' hhome').of_sentAs hsent honly.port haccess hturn
      rw [hclaim] at hbegun
      exact ⟨hbegun.waiting, hbegun.fixed, hbegun.offered, hbegun.finished⟩
    cases k with
    | drop => exact absurd rfl hkind
    | surrender => exact hreturn false
    | demote => exact hreturn true

/-- The last chunk of a fill: what the report does to the claim, in the state before it. -/
theorem State.claimWritten_full {t : Ticket} {v : Claim} (hstate : (s.claim c).state = .filling)
    (huse : (s.claim c).use = u) (hgen : (s.claim c).gen = some g)
    (hfull : (ChunkSet.insert i (s.claim c).received).length = 32) (hcmd : (s.claim c).pendingCmd = some t)
    (hv : v = { s.claim c with
      received := ChunkSet.insert i (s.claim c).received, state := .held, held := (s.claim c).sought, sought := none,
      dirty := [], hold := s.startHoldTimer, pendingCmd := none }) :
    ((s.claim c).deferred = none ∨ v.holdRunning = true ∨ v.homedAt s.own = false →
      (s.claimWritten c u g i).cplq = s.cplq ++ [.plain t .ok (some c) (some g)
        (if t.code = 5 then (s.claim c).frame.map (BitVec.ofNat 32) else none)]) ∧
      ((s.claim c).deferred = none ∨ v.holdRunning = true → (s.claimWritten c u g i).claim c = v) ∧
      ∀ blk kind gr, (s.claim c).deferred = some (kind, gr) → v.holdRunning = false → v.block = some blk →
        blk.home ≠ s.own →
        (kind = .drop → v.held = some .shared → s.DropBegun (s.claimWritten c u g i) c v blk g .recalled) ∧
        (kind ≠ .drop → v.held = some .exclusive →
          s.ReturnBegun (s.claimWritten c u g i) c v blk g (kind == .demote) .recalled) := by
  have hreceived := State.claim_modClaim s c (·.receives i)
  have hbefore := ClaimOnly.modClaim s c (·.receives i)
  have hbeforeSent := s.modClaim_sent c (·.receives i)
  have hbeforeTurn : (s.modClaim c (·.receives i)).claimTurn = s.claimTurn := rfl
  have hbeforeCplq : (s.modClaim c (·.receives i)).cplq = s.cplq := rfl
  rw [State.claimWritten_counted hstate huse hgen, if_pos hfull]
  generalize (s.modClaim c (·.receives i)) = z at hreceived hbefore hbeforeSent hbeforeTurn hbeforeCplq
  obtain ⟨y, hy, honly, hsent, hturn, hclaim, hcplq⟩ := State.fillEnd_spec (t := t) z c (by rw [hreceived]; exact hcmd)
  have honly := hbefore.trans honly
  have hsent := hsent.trans hbeforeSent
  have hturn := hturn.trans hbeforeTurn
  have hclaim : y.claim c = v := by
    rw [hclaim, hreceived, startHoldTimer_of_outside hbefore.outside, hv]
    rfl
  rw [hreceived, hbeforeCplq] at hcplq
  have hcplq : y.cplq = s.cplq ++ [.plain t .ok (some c) (some g)
      (if t.code = 5 then (s.claim c).frame.map (BitVec.ofNat 32) else none)] := by
    rw [hcplq, Claim.receives]
    dsimp only
    rw [hgen]
  have hheldState : (y.claim c).state = .held := by rw [hclaim, hv]
  have hdeferred : (y.claim c).deferred = (s.claim c).deferred := by rw [hclaim, hv]
  have hown : y.own = s.own := honly.own
  rw [hy]
  refine ⟨fun h => ?_, fun h => ?_, fun blk kind gr hk hhold hb hhome => ?_⟩
  · rw [State.actDeferred_cplq hheldState (by rw [hdeferred, hclaim, hown]; exact h), hcplq]
  · rw [State.actDeferred_waiting (by rw [hdeferred, hclaim]; exact h), hclaim]
  · have hg : (y.claim c).gen = some g := by rw [hclaim, hv]; exact hgen
    obtain ⟨hdrop, hreturn⟩ := State.actDeferred_begun (hdeferred.trans hk) hheldState (by rw [hclaim]; exact hhold)
      (by rw [hclaim]; exact hb) hg (by rw [hown]; exact hhome)
    rw [hclaim] at hdrop hreturn
    exact ⟨fun hkind hshared => (hdrop hkind hshared).of_sentAs hsent honly.port,
      fun hkind hexclusive => (hreturn hkind hexclusive).of_sentAs hsent honly.port
        (congrArg Outside.access honly.outside) hturn⟩

/-- What a state and that with the chunk written have in common. -/
theorem State.chunkWritten_spec {b : Fin 4} {f : Nat} {k : Asker} {report : Bool} {rest : List Move}
    (hmoves : s.moves = .write b f i k report :: rest) :
    (s.chunkWritten b f i).records = s.records ∧ (s.chunkWritten b f i).claims = s.claims ∧
      (s.chunkWritten b f i).cplq = s.cplq ∧ (s.chunkWritten b f i).port = s.port ∧
      (s.chunkWritten b f i).claimTurn = s.claimTurn ∧ (s.chunkWritten b f i).own = s.own ∧
      (s.chunkWritten b f i).startHoldTimer = s.startHoldTimer ∧ (s.chunkWritten b f i).SentAs s ∧
      (s.chunkWritten b f i).outside = { s.outside with dram := (s.chunkWritten b f i).dram } := by
  rw [State.chunkWritten_eq hmoves]
  exact ⟨rfl, rfl, rfl, rfl, rfl, rfl, rfl, ⟨rfl, rfl, rfl, rfl⟩, rfl⟩

/-- Settles O42. -/
theorem completedWriteIsCounted : Obligations.CompletedWriteIsCounted := by
  intro s b f i k rest hport hmoves hreach
  obtain ⟨hrecords, hclaims, hcplq, hyport, hturn, hown, hhold, hsent, hwritten⟩ := State.chunkWritten_spec hmoves
  have hexec := exec_chunkWriteMoveEnd_granted hport hmoves hreach
  generalize s.chunkWritten b f i = y at hrecords hclaims hcplq hyport hturn hown hhold hsent hwritten hexec
  have houtside := (y.reportWrite_keeps k i).2.2.2.2
  have hrecord (n : Byte) : y.record? n = s.record? n := by
    rw [State.record?, hrecords]
    rfl
  have hclaim (c : ClaimIdx) : y.claim c = s.claim c := by
    rw [State.claim, hclaims]
    rfl
  have hdram : (y.reportWrite k i).dram = y.dram := congrArg Outside.dram houtside
  refine ⟨y.reportWrite k i, hexec, fun n p g r h hk hr hh hfrom => ?_, fun n p g r h hk hr hh hl hfrom => ?_,
    fun c u g hk hstate huse hgen => ?_, (houtside.trans hwritten).trans (by rw [hdram])⟩
  · subst hk
    have hr := (hrecord n).trans hr
    have hreport : y.reportWrite (.home n p g) i = y.homeWritten n p g i := rfl
    rw [hdram, hreport]
    refine ⟨fun hmore => ?_, fun back hback hwrites => ?_⟩
    · rw [State.homeWritten_counted hr hh hfrom hmore]
      exact State.record?_setRecord_same y n _ r hr
    · obtain ⟨hagrees, hdiffers⟩ := State.homeWritten_returned (i := i) hr hh hfrom hback hwrites
      refine ⟨fun hcount => ((hagrees hcount).of_sent hsent).of_same hrecords hclaims hwritten,
        fun hcount => ⟨(hdiffers hcount).1, (hdiffers hcount).2.trans ?_⟩⟩
      exact State.denials_congr hsent hyport hown n .damaged r.queue
  · subst hk
    have hr := (hrecord n).trans hr
    have hreport : y.reportWrite (.home n p g) i = y.homeWritten n p g i := rfl
    rw [hdram, hreport]
    refine ⟨fun hmore => ?_, fun back hback hwrites => ?_⟩
    · rw [State.homeWritten_lostCounted hr hh hl hfrom hmore]
      exact State.record?_setRecord_same y n _ r hr
    · obtain ⟨hagrees, hdiffers⟩ := State.homeWritten_lostReturned (i := i) hr hh hl hfrom hback hwrites
      exact ⟨fun hcount => ((hagrees hcount).of_sent hsent).of_same hrecords hclaims hwritten, hdiffers⟩
  · subst hk
    have hreport : y.reportWrite (.claim c u g) i = y.claimWritten c u g i := rfl
    rw [hreport]
    have hstate : (y.claim c).state = .filling := by rw [hclaim]; exact hstate
    have huse : (y.claim c).use = u := by rw [hclaim]; exact huse
    have hgen : (y.claim c).gen = some g := by rw [hclaim]; exact hgen
    refine ⟨fun hmore => ?_, fun v t hfull hcmd hv => ?_⟩
    · rw [State.claimWritten_counted hstate huse hgen, if_neg (by rw [hclaim]; exact hmore), State.claim_modClaim, hclaim]
      exact ⟨rfl, hcplq⟩
    · obtain ⟨hcompletes, hheld, hbegun⟩ := State.claimWritten_full (v := v) (t := t) hstate huse hgen
        (by rw [hclaim]; exact hfull) (by rw [hclaim]; exact hcmd) (by rw [hclaim, hhold]; exact hv)
      rw [hclaim, hown, hcplq] at hcompletes
      rw [hclaim] at hheld
      refine ⟨hcompletes, hheld, fun blk kind gr hdeferred hrunning hb hhome => ?_⟩
      obtain ⟨hdrop, hreturn⟩ := hbegun blk kind gr (by rw [hclaim]; exact hdeferred) hrunning hb (by rw [hown]; exact hhome)
      exact ⟨fun hkind hshared => (hdrop hkind hshared).of_sentAs hsent hyport,
        fun hkind hexclusive => (hreturn hkind hexclusive).of_sentAs hsent hyport
          (congrArg Outside.access hwritten) hturn⟩

end Sys2Proof.Machine
end

section
/-! PROOFS. The ring port's own events: frames taken and forwarded, the segments, the hand-over list and the chunk offers. -/

namespace Sys2Proof.Machine

variable {s : State}

/-! ### Frames taken and forwarded -/

theorem State.forward_room {f : Frame} (hhop : f.hop.toNat < 15) (hroom : s.forwardBytes + f.size ≤ 540) :
    s.forward f = { s with fwd := s.fwd ++ [{ f with hop := f.hop + 1 }] } := by
  unfold State.forward
  refine if_neg fun h => ?_
  have : Config.forwardCapacity = 540 := rfl
  omega

theorem State.forward_dropped {f : Frame} (h : 15 ≤ f.hop.toNat ∨ 540 < s.forwardBytes + f.size) : s.forward f = s := by
  unfold State.forward
  refine if_pos ?_
  have : Config.forwardCapacity = 540 := rfl
  omega

theorem exec_frameReceived_unseen {bytes : List Byte} (h : s.port = .bypass ∨ parseFrame bytes = none) :
    exec (.frameReceived bytes) s = .next s := by
  show execFrameReceived bytes s = _
  unfold execFrameReceived
  by_cases hport : s.port = .bypass
  · rw [if_pos hport]
  · rw [if_neg hport, h.resolve_left hport]

theorem exec_frameReceived_sorted {bytes : List Byte} {f : Frame} (hport : s.port ≠ .bypass)
    (hparse : parseFrame bytes = some f) : exec (.frameReceived bytes) s = .next (s.sortFrame f).settleEvent :=
  execFrameReceived_intact s bytes f hport hparse

theorem State.sortFrame_passing {f : Frame} (hsrc : f.src.toNat ≠ s.own.val)
    (h : f.dest.toNat ≠ s.own.val ∨ respCode f.resp ≠ 0) : s.sortFrame f = s.forward f := by
  unfold State.sortFrame
  rw [if_neg hsrc]
  split
  · next hdest => exact if_neg (h.resolve_left (not_not_intro hdest))
  · rfl

theorem State.sortFrame_taken {f : Frame} (hsrc : f.src.toNat ≠ s.own.val) (hdest : f.dest.toNat = s.own.val)
    (hresp : respCode f.resp = 0) : s.sortFrame f = s.takeFrame f := by
  unfold State.sortFrame
  rw [if_neg hsrc, if_pos hdest, if_pos hresp]

/-- Settles O43. -/
theorem receivedFramesAreTakenAndForwarded : Obligations.ReceivedFramesAreTakenAndForwarded := by
  refine fun s bytes => ⟨exec_frameReceived_unseen, fun g => ⟨State.forward_room, State.forward_dropped⟩,
    fun f hport hparse hsrc => ⟨fun hpass => ?_, fun hdest hresp => ⟨fun hfull => ?_, fun hroom hlen => ?_,
      fun b hroom hlen hbuf => ?_⟩⟩⟩
  · rw [exec_frameReceived_sorted hport hparse, State.sortFrame_passing hsrc hpass]
  all_goals
    rw [exec_frameReceived_sorted hport hparse, State.sortFrame_taken hsrc hdest hresp, State.takeFrame]
    dsimp only
  · by_cases hroom : s.rx.length < 8
    · obtain ⟨hlen, hbuf⟩ := hfull.resolve_left (Nat.not_le.mpr hroom)
      rw [if_pos (show s.rx.length < Config.rxCapacity from hroom), if_pos hlen, hbuf]
    · rw [if_neg (show ¬ s.rx.length < Config.rxCapacity from hroom)]
  · rw [if_pos (show s.rx.length < Config.rxCapacity from hroom), if_neg hlen]
  · rw [if_pos (show s.rx.length < Config.rxCapacity from hroom), if_pos hlen, hbuf]
    rfl

/-! ### The segments -/

theorem State.marked_iff (p : Station) : s.marked p = true ↔
    ∃ d ∈ s.txq, d.dest = p ∧ ¬ (d.st = .reading ∨ d.st = .waiting) := by
  unfold State.marked
  simp only [List.any_eq_true, Bool.and_eq_true, Bool.or_eq_true, beq_iff_eq]
  refine exists_congr fun d => and_congr_right fun _ => and_congr_right fun _ => ?_
  cases d.st with
  | due r => cases r <;> simp
  | _ => simp

theorem State.ready_iff (e : TxEntry) : s.ready e = true ↔ (∃ r, e.st = .due r) ∨
    (e.st = .waiting ∧ ∀ d ∈ s.txq, d.dest = e.dest → d.st = .reading ∨ d.st = .waiting) := by
  have hmarked : (!s.marked e.dest) = true ↔ ∀ d ∈ s.txq, d.dest = e.dest → d.st = .reading ∨ d.st = .waiting := by
    rw [Bool.not_eq_true', ← Bool.not_eq_true, State.marked_iff]
    exact ⟨fun h d hd hdest => Classical.byContradiction fun hst => h ⟨d, hd, hdest, hst⟩,
      fun h ⟨d, hd, hdest, hst⟩ => hst (h d hd hdest)⟩
  unfold State.ready
  rw [Bool.or_eq_true, Bool.or_eq_true, Bool.and_eq_true, beq_iff_eq, beq_iff_eq, beq_iff_eq, hmarked]
  constructor
  · rintro ((h | h) | h)
    · exact Or.inr h
    · exact Or.inl ⟨true, h⟩
    · exact Or.inl ⟨false, h⟩
  · rintro (⟨_ | _, h⟩ | h)
    · exact Or.inr h
    · exact Or.inl (Or.inr h)
    · exact Or.inl (Or.inl h)

/-- Settles O47. -/
theorem segmentsCarryForwardedThenOwnFrames : Obligations.SegmentsCarryForwardedThenOwnFrames := by
  refine fun s outIdle inIdle => ⟨fun f rest hfwd hidle hport => ?_, fun hno => ?_,
    fun i e hport hfwd hout hin hready he => ?_, fun hno => ?_, State.ready_iff⟩
  · show execForwardSend outIdle s = _
    unfold execForwardSend
    rw [hfwd, hidle]
    dsimp only
    rw [if_pos (by rw [Bool.true_and]; exact bne_iff_ne.mpr hport)]
  · show execForwardSend outIdle s = _
    unfold execForwardSend
    split
    · next f rest hfwd =>
      refine congrArg _ (if_neg fun hgo => ?_)
      rw [Bool.and_eq_true, bne_iff_ne] at hgo
      rcases hno with h | h | h
      · cases hfwd.symm.trans h
      · cases hgo.1.symm.trans h
      · exact hgo.2 h
    · rfl
  · show execOwnFrameSend outIdle inIdle s = _
    unfold execOwnFrameSend State.mayStart
    rw [if_pos (by rw [hport, hfwd, hout, hin]; rfl), hready]
    dsimp only
    rw [State.sendEntry, he]
  · show execOwnFrameSend outIdle inIdle s = _
    unfold execOwnFrameSend State.mayStart
    split
    · next hgo =>
      simp only [Bool.and_eq_true, beq_iff_eq, List.isEmpty_iff] at hgo
      obtain ⟨⟨⟨hport, hfwd⟩, hout⟩, hin⟩ := hgo
      rcases hno with h | h | h | h | h
      · exact absurd hport h
      · exact absurd hfwd h
      · cases hout.symm.trans h
      · cases hin.symm.trans h
      · rw [h]
    · rfl

/-! ### The hand-over list -/

theorem State.canAccept_iff (p : Station) : s.canAccept p = true ↔
    s.txq.length < 16 ∧ ∀ e ∈ s.txq, e.dest = p → e.st ≠ .reading := by
  unfold State.canAccept
  simp only [Bool.and_eq_true, Bool.not_eq_true', List.any_eq_false, beq_iff_eq, decide_eq_true_eq, not_and]
  rfl

theorem State.canAccept_false {p : Station} (h : 16 ≤ s.txq.length ∨ ∃ e ∈ s.txq, e.dest = p ∧ e.st = .reading) :
    s.canAccept p = false := by
  rw [← Bool.not_eq_true, State.canAccept_iff]
  rintro ⟨hroom, hnone⟩
  rcases h with h | ⟨e, he, hdest, hst⟩
  · omega
  · exact hnone e he hdest hst

theorem State.handOver_listed {dest : Station} {msg : Lease} {owner : Owner} (hport : s.port ≠ .bypass)
    (hroom : s.handover.length < 64)
    (h : s.handover ≠ [] ∨ 16 ≤ s.txq.length ∨ ∃ e ∈ s.txq, e.dest = dest ∧ e.st = .reading) :
    s.handOver dest msg owner =
      { s with handover := s.handover ++ [{ dest := dest, msg := msg, owner := owner }] } := by
  unfold State.handOver
  rw [if_neg hport, if_neg, if_pos (show s.handover.length < Config.handoverCapacity from hroom)]
  rw [Bool.and_eq_true, List.isEmpty_iff]
  rintro ⟨hempty, haccept⟩
  have hfull := State.canAccept_false (h.resolve_left (not_not_intro hempty))
  cases hfull.symm.trans haccept

theorem State.handOver_overflow {dest : Station} {msg : Lease} {owner : Owner} (hport : s.port ≠ .bypass)
    (hfull : 64 ≤ s.handover.length) :
    s.handOver dest msg owner = s.failAll dest .unresponsive [{ owner := owner, msg := msg, sent := false }] := by
  unfold State.handOver
  rw [if_neg hport, if_neg, if_neg (show ¬ s.handover.length < Config.handoverCapacity from Nat.not_lt.mpr hfull)]
  rw [Bool.and_eq_true, List.isEmpty_iff]
  rintro ⟨hempty, -⟩
  rw [hempty] at hfull
  exact absurd hfull (by decide)

/-! ### The chunk offers -/

theorem exec_handoverAccept_cons {h : Handed} {rest : List Handed} (hlist : s.handover = h :: rest) :
    exec .handoverAccept s = .next (if s.canAccept h.dest then
      State.settleEvent { s with handover := rest, txq := s.txq ++ [TxEntry.fresh h.dest h.msg h.owner none .waiting] }
      else s) := by
  show execHandoverAccept s = _
  unfold execHandoverAccept
  rw [hlist]

theorem State.chunkRoom_none (h : s.handover ≠ [] ∨ 16 ≤ s.txq.length ∨ s.port = .bypass ∨ s.freeOutBuf = none) :
    s.chunkRoom = none := by
  unfold State.chunkRoom
  split
  · next hroom =>
    simp only [Bool.and_eq_true, List.isEmpty_iff, decide_eq_true_eq, bne_iff_ne] at hroom
    obtain ⟨⟨hempty, hlength⟩, hport⟩ := hroom
    rcases h with h | h | h | h
    · exact absurd hempty h
    · exact absurd hlength (Nat.not_lt.mpr h)
    · exact absurd h hport
    · exact h
  · rfl

theorem State.chunkRoom_some {b : Fin 4} (hlist : s.handover = []) (hroom : s.txq.length < 16) (hport : s.port ≠ .bypass)
    (hbuf : s.freeOutBuf = some b) : s.chunkRoom = some b := by
  unfold State.chunkRoom
  refine (if_pos ?_).trans hbuf
  rw [hlist, decide_eq_true (show s.txq.length < Config.txCapacity from hroom)]
  exact bne_iff_ne.mpr hport

/-- A chunk accepted: an entry, a buffer and a read move of its own, and the marker. -/
theorem State.acceptChunk_eq (s : State) (dest : Station) (msg : Lease) (owner : Owner) (b : Fin 4) (f : Nat)
    (c : ChunkIdx) (next : Offerer) : ∃ port, s.acceptChunk dest msg owner b f c next = { s with
      outBuf := s.outBuf.set b.val .reading b.isLt,
      txq := s.txq ++ [TxEntry.fresh dest msg owner (some b) .reading], chunkTurn := next,
      moves := s.moves ++ [.read b f c], arbPort := port } := by
  unfold State.acceptChunk
  dsimp only
  rw [State.raiseMove_eq]
  exact ⟨_, rfl⟩

theorem State.dirAccepted_eq {n : Nat} {r : DirRecord} {t : Transfer} (hn : n < 256) (hr : s.records[n]? = some r)
    (ht : r.transfer = some t) : ∃ turn, s.dirAccepted n = { s with
      records := s.records.set n { r with transfer := some { t with next := t.next + 1 } }, dirTurn := turn } := by
  have hindex : (BitVec.ofNat 8 n).toNat = n := by
    rw [BitVec.toNat_ofNat]
    omega
  have hrecord : s.record? (BitVec.ofNat 8 n) = some r := by
    unfold State.record?
    rwa [hindex]
  unfold State.dirAccepted State.modRecord
  rw [hrecord]
  dsimp only
  unfold State.setRecord
  rw [hindex, ht]
  split
  · exact ⟨_, rfl⟩
  · exact ⟨_, rfl⟩

/-- The directory's chunk on offer, accepted. -/
theorem State.acceptDirChunk_eq {n : Nat} {r : DirRecord} {t : Transfer} (b : Fin 4) (hn : n < 256)
    (hr : s.records[n]? = some r) (ht : r.transfer = some t) : ∃ port turn, s.acceptDirChunk n b = { s with
      outBuf := s.outBuf.set b.val .reading b.isLt,
      txq := s.txq ++ [TxEntry.fresh t.target
        (.chunk (s.ownBlock (BitVec.ofNat 8 n)) r.gen (Fin.ofNat 32 t.next)) .directory (some b) .reading],
      chunkTurn := .claims, moves := s.moves ++ [.read b n (Fin.ofNat 32 t.next)], arbPort := port,
      records := s.records.set n { r with transfer := some { t with next := t.next + 1 } }, dirTurn := turn } := by
  obtain ⟨port, haccept⟩ := s.acceptChunk_eq t.target
    (.chunk (s.ownBlock (BitVec.ofNat 8 n)) r.gen (Fin.ofNat 32 t.next)) .directory b n (Fin.ofNat 32 t.next) .claims
  unfold State.acceptDirChunk
  rw [hr]
  dsimp only
  rw [ht]
  dsimp only
  rw [haccept]
  obtain ⟨turn, hturn⟩ := State.dirAccepted_eq (s := { s with
    outBuf := s.outBuf.set b.val .reading b.isLt,
    txq := s.txq ++ [TxEntry.fresh t.target
      (.chunk (s.ownBlock (BitVec.ofNat 8 n)) r.gen (Fin.ofNat 32 t.next)) .directory (some b) .reading],
    chunkTurn := .claims, moves := s.moves ++ [.read b n (Fin.ofNat 32 t.next)], arbPort := port }) hn hr ht
  exact ⟨port, turn, hturn⟩

/-- The claim whose next chunk has been accepted. -/
def Claim.offered (cl : Claim) : Claim := { cl with ret := cl.ret.map fun r => { r with todo := r.todo.tail } }

theorem State.claimAccepted_eq (s : State) (c : ClaimIdx) : s.claimAccepted c =
    if ((s.claim c).offered.ret.any (·.todo.isEmpty)) then (s.modClaim c Claim.offered).sendReturned c
    else (s.modClaim c Claim.offered).setClaimTurn (s.claimTurn.serve c.val) := by
  unfold State.claimAccepted
  dsimp only
  rw [State.claim_modClaim]
  rfl

theorem State.claimAccepted_only (s : State) (c : ClaimIdx) : ClaimOnly s (s.claimAccepted c) c := by
  rw [State.claimAccepted_eq]
  split
  · exact (ClaimOnly.modClaim s c _).trans (.sendReturned _ c)
  · exact (ClaimOnly.modClaim s c _).trans (.setClaimTurn _ c _)

theorem State.claimAccepted_claim (s : State) (c : ClaimIdx) : (s.claimAccepted c).claim c = (s.claim c).offered := by
  rw [State.claimAccepted_eq]
  split
  · rw [State.sendReturned_claim, State.claim_modClaim]
  · exact State.claim_modClaim s c _

/-- The RETURNED follows the last chunk. -/
theorem State.claimAccepted_sent {c : ClaimIdx} {blk : Block} {g : Byte} {ret : Return} {i : ChunkIdx} {todo : List ChunkIdx}
    (hb : (s.claim c).block = some blk) (hg : (s.claim c).gen = some g) (hret : (s.claim c).ret = some ret)
    (htodo : ret.todo = i :: todo) (hhome : blk.home ≠ s.own) :
    (s.claimAccepted c).SentAs (if todo = [] then
      s.handOver blk.home (.returned blk g ret.kept (Fin.ofNat 33 ret.count)) (.claims (some (c, (s.claim c).use))) else s) := by
  have hoffered : (s.claim c).offered.ret = some { ret with todo := todo } := by
    rw [Claim.offered, hret, Option.map_some, htodo]
    rfl
  have hclaim := State.claim_modClaim s c Claim.offered
  rw [State.claimAccepted_eq, hoffered]
  by_cases hlast : todo = []
  · rw [if_pos hlast, if_pos (by rw [hlast]; rfl)]
    refine (State.sendReturned_sent _ c blk g { ret with todo := todo } (by rw [hclaim]; exact hb)
      (by rw [hclaim]; exact hg) (by rw [hclaim, hoffered])).trans ?_
    exact (s.modClaim_sent c _).sendHome_remote rfl (by rw [hclaim]; exact hb) (by rw [hclaim]; rfl) hhome
  · rw [if_neg hlast, if_neg (by rwa [Option.any_some, List.isEmpty_iff])]
    exact ⟨rfl, rfl, rfl, rfl⟩

/-- With the chunk of the same entry still being read, the RETURNED waits on the hand-over list. -/
theorem State.claimAccepted_listed {c : ClaimIdx} {blk : Block} {g : Byte} {ret : Return} {i : ChunkIdx}
    {todo : List ChunkIdx} (hb : (s.claim c).block = some blk) (hg : (s.claim c).gen = some g)
    (hret : (s.claim c).ret = some ret) (htodo : ret.todo = i :: todo) (hhome : blk.home ≠ s.own)
    (hport : s.port ≠ .bypass) (hlist : s.handover = []) (hreading : ∃ e ∈ s.txq, e.dest = blk.home ∧ e.st = .reading) :
    (s.claimAccepted c).txq = s.txq ∧ (s.claimAccepted c).outBuf = s.outBuf ∧
      (s.claimAccepted c).handover = if todo = [] then [{
        dest := blk.home, msg := .returned blk g ret.kept (Fin.ofNat 33 ret.count),
        owner := .claims (some (c, (s.claim c).use)) }] else [] := by
  obtain ⟨htxq, hhandover, houtBuf, -⟩ := State.claimAccepted_sent hb hg hret htodo hhome
  rw [htxq, hhandover, houtBuf]
  split
  · rw [State.handOver_listed hport (by rw [hlist]; decide) (Or.inr (Or.inr hreading)), hlist]
    exact ⟨rfl, rfl, rfl⟩
  · exact ⟨rfl, rfl, hlist⟩

theorem State.claimAccepted_chunkTurn (s : State) (c : ClaimIdx) : (s.claimAccepted c).chunkTurn = s.chunkTurn := by
  rw [State.claimAccepted_eq]
  split
  · unfold State.sendReturned
    dsimp only
    split
    · exact State.sendHome_chunkTurn _ _ _
    · rfl
  · rfl

theorem exec_chunkOfferAccept_dir {b : Fin 4} {n : Nat} (hroom : s.chunkRoom = some b) (hoffer : s.dirOffer = some n)
    (hturn : s.claimOffer = none ∨ s.chunkTurn = .directory) :
    exec .chunkOfferAccept s = .next (s.acceptDirChunk n b).settleEvent := by
  have hserved : s.servedOfferer = some .directory := by
    unfold State.servedOfferer
    rw [hoffer]
    rcases hturn with h | h
    · rw [h]
    · cases s.claimOffer with
      | none => rfl
      | some c =>
        dsimp only
        rw [h]
  show execChunkOfferAccept s = _
  unfold execChunkOfferAccept
  rw [hroom, hserved]
  dsimp only
  rw [hoffer]
  rfl

theorem exec_chunkOfferAccept_claim {b : Fin 4} {c : ClaimIdx} (hroom : s.chunkRoom = some b)
    (hoffer : s.claimOffer = some c.val) (hturn : s.dirOffer = none ∨ s.chunkTurn = .claims) :
    exec .chunkOfferAccept s = .next (s.acceptClaimChunk c b).settleEvent := by
  have hserved : s.servedOfferer = some .claims := by
    unfold State.servedOfferer
    rw [hoffer]
    rcases hturn with h | h
    · rw [h]
    · cases s.dirOffer with
      | none => rfl
      | some n =>
        dsimp only
        rw [h]
  have hindex : Fin.ofNat 32 c.val = c := Fin.ext (Nat.mod_eq_of_lt c.isLt)
  show execChunkOfferAccept s = _
  unfold execChunkOfferAccept
  rw [hroom, hserved]
  dsimp only
  rw [hoffer, Option.map_some, hindex]
  rfl

/-- Settles O48. -/
theorem portAcceptsWhatIsHandedOver : Obligations.PortAcceptsWhatIsHandedOver := by
  refine fun s => ⟨fun dest msg owner => ⟨fun hport => ?_, fun hport hlist hroom hnone => ?_, State.handOver_listed,
    State.handOver_overflow, rfl, rfl, fun c b hb => ?_⟩, fun h rest hlist hroom hnone => ?_, fun hno => ?_,
    fun h rest hlist hreading => ?_, fun hno => ?_,
    fun b hlist hlength hport hbuf => ⟨fun n r t hoffer hturn hn hr ht => ?_,
      fun c blk g f ret i todo hoffer hturn hb hg hf hret htodo hhome => ?_⟩⟩
  · rw [State.handOver, if_pos hport]
  · exact State.handOver_accepted s dest msg owner hport hlist ((State.canAccept_iff dest).mpr ⟨hroom, hnone⟩)
  · unfold State.sendHome
    rw [hb]
  · rw [exec_handoverAccept_cons hlist, if_pos ((State.canAccept_iff h.dest).mpr ⟨hroom, hnone⟩)]
  · cases hlist : s.handover with
    | nil =>
      show execHandoverAccept s = _
      unfold execHandoverAccept
      rw [hlist]
    | cons h rest =>
      have hfull : 16 ≤ s.txq.length := hno.resolve_left (by rw [hlist]; exact nofun)
      rw [exec_handoverAccept_cons hlist, if_neg (by rw [State.canAccept_false (Or.inl hfull)]; decide)]
  · rw [exec_handoverAccept_cons hlist, if_neg (by rw [State.canAccept_false (Or.inr hreading)]; decide)]
  · show execChunkOfferAccept s = _
    unfold execChunkOfferAccept
    have hnone : s.chunkRoom = none ∨ s.servedOfferer = none := by
      rcases hno with h | h | h | h | ⟨hdir, hclaim⟩
      · exact Or.inl (State.chunkRoom_none (Or.inl h))
      · exact Or.inl (State.chunkRoom_none (Or.inr (Or.inl h)))
      · exact Or.inl (State.chunkRoom_none (Or.inr (Or.inr (Or.inl h))))
      · exact Or.inl (State.chunkRoom_none (Or.inr (Or.inr (Or.inr h))))
      · refine Or.inr ?_
        unfold State.servedOfferer
        rw [hdir, hclaim]
    rcases hnone with h | h
    · rw [h]
    · rw [h]
      cases s.chunkRoom <;> rfl
  · rw [exec_chunkOfferAccept_dir (State.chunkRoom_some hlist hlength hport hbuf) hoffer hturn]
    obtain ⟨port, turn, heq⟩ := State.acceptDirChunk_eq b hn hr ht
    rw [heq]
    exact ⟨_, rfl, rfl, rfl, rfl, rfl, rfl, rfl, rfl⟩
  · rw [exec_chunkOfferAccept_claim (State.chunkRoom_some hlist hlength hport hbuf) hoffer hturn]
    obtain ⟨arb, haccept⟩ := s.acceptChunk_eq blk.home (.chunk blk g i) (.claims (some (c, (s.claim c).use))) b f i
      .directory
    have heq : s.acceptClaimChunk c b =
        (s.acceptChunk blk.home (.chunk blk g i) (.claims (some (c, (s.claim c).use))) b f i .directory).claimAccepted c := by
      unfold State.acceptClaimChunk
      dsimp only
      rw [hb, hg, hf, hret]
      dsimp only
      rw [htodo]
    rw [heq]
    generalize hy : s.acceptChunk blk.home (.chunk blk g i) (.claims (some (c, (s.claim c).use))) b f i .directory = y
      at haccept
    have hclaim : y.claim c = s.claim c := by rw [haccept]; rfl
    have honly := y.claimAccepted_only c
    have hmine : TxEntry.fresh blk.home (.chunk blk g i) (.claims (some (c, (s.claim c).use))) (some b) .reading ∈ y.txq := by
      rw [haccept]
      exact List.mem_append_right _ List.mem_cons_self
    obtain ⟨htxq, houtBuf, hlisted⟩ := State.claimAccepted_listed (s := y) (c := c) (by rw [hclaim]; exact hb)
      (by rw [hclaim]; exact hg) (by rw [hclaim]; exact hret) htodo (by rw [haccept]; exact hhome)
      (by rw [haccept]; exact hport) (by rw [haccept]; exact hlist) ⟨_, hmine, rfl, rfl⟩
    rw [hclaim] at hlisted
    refine ⟨_, rfl, htxq.trans (by rw [haccept]), honly.moves.trans (by rw [haccept]), houtBuf.trans (by rw [haccept]), ?_,
      fun d hd => (honly.other d hd).trans (by rw [haccept]; rfl), hlisted,
      (y.claimAccepted_chunkTurn c).trans (by rw [haccept]), honly.records.trans (by rw [haccept]),
      honly.outside.trans (by rw [haccept]; rfl)⟩
    rw [y.claimAccepted_claim, hclaim, Claim.offered, hret, Option.map_some, htodo]
    rfl

end Sys2Proof.Machine
end

section
/-! PROOFS. The outcome of a frame that has come back: what a TAKEN does to the block that sent it and to the peer. -/

namespace Sys2Proof.Machine

variable {s : State}

/-! ### Items -/

theorem State.mem_notice (s : State) (x : Subject) (n : Notice) :
    ∃ k ∈ (s.notice x n).attention, k.subject = x ∧ k.notice = n := by
  unfold State.notice
  split
  · next h =>
    obtain ⟨i, hi, hx⟩ := List.any_eq_true.mp h
    refine ⟨_, List.mem_map_of_mem hi, ?_⟩
    rw [if_pos (eq_of_beq hx)]
    exact ⟨rfl, rfl⟩
  · exact ⟨_, List.mem_append_right _ List.mem_cons_self, rfl, rfl⟩

theorem State.notice_unlisted {x : Subject} {n : Notice} (h : ∀ k ∈ s.attention, k.subject ≠ x) :
    (s.notice x n).attention = s.attention ++ [{ subject := x, notice := n, replaced := false }] := by
  rw [State.notice_new (List.any_eq_false.mpr fun k hk => by rw [beq_iff_eq]; exact h k hk)]

/-! ### The peer that took a frame -/

theorem State.peerTaken_eq {p : Station} (hp : p ≠ s.own) :
    s.peerTaken p = { s with peers := (s.peerTaken p).peers, attention := (s.peerTaken p).attention } :=
  (s.peerTaken_spec p hp).2

/-- The peer is PRESENT, and the others are as they were. -/
theorem State.peerTaken_peers {p : Station} (hp : p ≠ s.own) :
    (s.peerTaken p).peers.get p = { s.peers.get p with presence := .present } ∧
      ∀ d, d ≠ p → (s.peerTaken p).peers.get d = s.peers.get d := by
  unfold State.peerTaken
  dsimp only
  split
  · next h =>
    have hpresent := h.resolve_left hp
    refine ⟨?_, fun _ _ => rfl⟩
    rw [← hpresent]
  · rw [State.notice_eq]
    refine ⟨(get_set s.peers p p _).trans (if_pos rfl), fun d hd => ?_⟩
    exact (get_set s.peers p d _).trans (if_neg (Ne.symm hd))

theorem State.peerTaken_attention {p : Station} (hp : p ≠ s.own) (h : (s.peers.get p).presence ≠ .present) :
    ∃ u : State, u.attention = s.attention ∧
      s.peerTaken p = u.notice (.peer p) (.peer .present (s.peers.get p).inc) := by
  unfold State.peerTaken
  exact ⟨s.setPeer p { s.peers.get p with presence := .present }, rfl, if_neg fun h' => h'.elim hp h⟩

/-! ### The claim that handed a frame over -/

variable {c : ClaimIdx} {u : UseNum} {m : Lease} {blk : Block} {g : Byte}

theorem State.claimTaken_idle
    (h : (s.claim c).use ≠ u ∨ (∀ b g, m ≠ .dropped b g) ∧ (∀ b g k n, m ≠ .returned b g k n)) :
    s.claimTaken c u m = s := by
  unfold State.claimTaken
  dsimp only
  split
  · next huse =>
    obtain ⟨hdropped, hreturned⟩ := h.resolve_left (not_not_intro huse)
    split
    · exact absurd rfl (hdropped _ _)
    · exact absurd rfl (hreturned _ _ _ _)
    · rfl
  · rfl

theorem State.claimTaken_dropped (huse : (s.claim c).use = u) (hgen : (s.claim c).gen = some g)
    (hstate : (s.claim c).state = .dropping) : s.claimTaken c u (.dropped blk g) = s.finishGive c := by
  unfold State.claimTaken
  dsimp only
  rw [if_pos huse, if_pos ⟨hstate, hgen⟩]

theorem State.claimTaken_returned {kept : Bool} {n : Fin 33} (huse : (s.claim c).use = u)
    (hgen : (s.claim c).gen = some g) (hstate : (s.claim c).state = .returning ∨ (s.claim c).state = .demoting) :
    s.claimTaken c u (.returned blk g kept n) = s.finishGive c := by
  unfold State.claimTaken
  dsimp only
  rw [if_pos huse, if_pos ⟨hstate, hgen⟩]

/-- Either nothing follows, or the giving up is finished. -/
theorem State.claimTaken_cases (s : State) (c : ClaimIdx) (u : UseNum) (m : Lease) :
    s.claimTaken c u m = s ∨ s.claimTaken c u m = s.finishGive c := by
  unfold State.claimTaken
  dsimp only
  split
  · split
    · split
      · exact Or.inr rfl
      · exact Or.inl rfl
    · split
      · exact Or.inr rfl
      · exact Or.inl rfl
    · exact Or.inl rfl
  · exact Or.inl rfl

theorem State.claimTaken_only (s : State) (c : ClaimIdx) (u : UseNum) (m : Lease) :
    ClaimOnly s (s.claimTaken c u m) c ∧ NothingSent s (s.claimTaken c u m) c := by
  rcases s.claimTaken_cases c u m with h | h
  · rw [h]
    exact ⟨.refl s c, .refl s c⟩
  · rw [h]
    exact ⟨.finishGive s c, .finishGive s c⟩

theorem State.completePending_attention (s : State) (c : ClaimIdx) (st : Status) (g : Option Byte) (w : Option Word) :
    (s.completePending c st g w).attention = s.attention := by
  unfold State.completePending
  split <;> rfl

theorem State.completeCancel_attention (s : State) (c : ClaimIdx) (st : Status) :
    (s.completeCancel c st).attention = s.attention := by
  unfold State.completeCancel
  split <;> rfl

theorem State.removeItem_unlisted {x : Subject} (h : ∀ k ∈ s.attention, k.subject ≠ x) :
    (s.removeItem x).attention = s.attention := List.filter_eq_self.mpr fun k hk => bne_iff_ne.mpr (h k hk)

/-- The end of a lease takes out the claim's item alone. -/
theorem State.endLease_attention (r : EndReason) (a b : Status) (h : ∀ k ∈ s.attention, k.subject ≠ .claim c) :
    (s.endLease c r a b).attention = s.attention := by
  have hcompleted : (((s.completePending c a none none).completeCancel c b).freeBorrow c).attention = s.attention :=
    (State.completeCancel_attention _ c b).trans (s.completePending_attention c a none none)
  unfold State.endLease
  generalize (((s.completePending c a none none).completeCancel c b).freeBorrow c) = v at hcompleted
  dsimp only
  split
  · refine (State.removeItem_unlisted ?_).trans hcompleted
    intro k hk
    exact h k (hcompleted ▸ hk)
  · exact hcompleted

/-- The item of a claim that has finished giving up a recalled copy. -/
theorem State.finishGive_attention (hstate : (s.claim c).state = .dropping ∨ (s.claim c).state = .returning ∨
    (s.claim c).state = .demoting) (hgiving : (s.claim c).giving = some .recalled)
    (h : ∀ k ∈ s.attention, k.subject ≠ .claim c) :
    (s.finishGive c).attention = s.attention ++ [{
      subject := .claim c, replaced := false,
      notice := .claim (if (s.claim c).state = .demoting then .demoted else .revoked) (s.claim c).use (s.claim c).block }] := by
  have hended : ((s.endLease c .revoked .ok .ok).claimNotice c (s.claim c) .revoked).attention = s.attention ++ [{
      subject := .claim c, replaced := false, notice := .claim .revoked (s.claim c).use (s.claim c).block }] := by
    have hitems := State.endLease_attention .revoked .ok .ok h
    unfold State.claimNotice
    rw [State.notice_unlisted (by rw [hitems]; exact h), hitems]
  unfold State.finishGive
  dsimp only
  rcases hstate with hs | hs | hs
  · rw [hs, hgiving, if_neg nofun]
    exact hended
  · rw [hs, hgiving, if_neg nofun]
    exact hended
  · rw [hs, if_pos rfl]
    exact State.notice_unlisted h

/-! ### The record that handed a frame over -/

variable {p : Station} {r : DirRecord}

theorem State.dirTaken_other (h : ∀ b g, m ≠ .chunk b g 31) : s.dirTaken p m = s := by
  unfold State.dirTaken
  split
  · next b gen i =>
    split
    · refine if_neg fun hlast => ?_
      simp only [Bool.and_eq_true, decide_eq_true_eq] at hlast
      exact h b gen (by rw [hlast.1.1])
    · rfl
  · rfl

theorem State.dirTaken_idle (hr : s.record? blk.index = some r) (h : r.transfer.any (·.target == p) = false) :
    s.dirTaken p (.chunk blk r.gen 31) = s := by
  unfold State.dirTaken
  dsimp only
  rw [hr]
  exact if_neg (by rw [h, Bool.and_false]; decide)

theorem State.dirTaken_last (hr : s.record? blk.index = some r) (h : r.transfer.any (·.target == p) = true) :
    s.dirTaken p (.chunk blk r.gen 31) = s.settle blk.index := by
  unfold State.dirTaken
  dsimp only
  rw [hr]
  exact if_pos (by rw [h, beq_self_eq_true]; rfl)

theorem State.dirTaken_cases (s : State) (p : Station) (m : Lease) :
    s.dirTaken p m = s ∨ ∃ n, s.dirTaken p m = s.settle n := by
  unfold State.dirTaken
  split
  · split
    · split
      · exact Or.inr ⟨_, rfl⟩
      · exact Or.inl rfl
    · exact Or.inl rfl
  · exact Or.inl rfl

/-- A record that settles with no request waiting sends nothing. -/
theorem State.settle_sent_of_no_request {n : Byte} (hr : s.record? n = some r) (hq : r.queue = []) :
    (s.settle n).SentAs s := by
  unfold State.settle
  rw [State.serve_of_no_request _ n { r with transfer := none, recalling := none } _ hq]
  · exact (State.modRecord_sent _ n _).trans (State.endTransfer_sent s n)
  · rw [State.record?_modRecord, State.record?_endTransfer s n r hr]
    rfl

/-! ### The announcements -/

/-- An announcement counted changes nothing but the station controller and the completions. -/
theorem State.announceDone_keeps (s : State) : s.announceDone.txq = s.txq ∧ s.announceDone.outBuf = s.outBuf ∧
    s.announceDone.records = s.records ∧ s.announceDone.claims = s.claims ∧ s.announceDone.peers = s.peers ∧
    s.announceDone.attention = s.attention := by
  unfold State.announceDone State.endJoining State.completeLife
  dsimp only
  split
  · split
    · split <;> exact ⟨rfl, rfl, rfl, rfl, rfl, rfl⟩
    · exact ⟨rfl, rfl, rfl, rfl, rfl, rfl⟩
  · exact ⟨rfl, rfl, rfl, rfl, rfl, rfl⟩

theorem State.announceDone_more {k : Nat} (hstation : s.station = .joining) (hawaited : s.announceAwaited = k + 2) :
    s.announceDone = { s with announceAwaited := k + 1 } := by
  unfold State.announceDone
  rw [if_pos ⟨hstation, by omega⟩, if_neg (by omega), hawaited]
  rfl

/-- The last announcement ends joining. -/
theorem State.announceDone_last (hstation : s.station = .joining) (hawaited : s.announceAwaited = 1) :
    s.announceDone = State.endJoining { s with announceAwaited := 0 } := by
  unfold State.announceDone
  rw [if_pos ⟨hstation, by omega⟩, if_pos hawaited]

theorem State.endJoining_station (s : State) : s.endJoining.station = .attached := by
  unfold State.endJoining State.completeLife
  dsimp only
  split <;> rfl

theorem State.endJoining_some {t : Ticket} (h : s.lifeCmd = some t) : s.endJoining = State.complete
    { s with
      station := .attached, prevInc := if t.code = 1 then some s.inc else s.prevInc, lifeCmd := none } t .ok none none
        none := by
  unfold State.endJoining
  rw [h]
  dsimp only
  refine (State.completeLife_some (t := t) rfl .ok).trans ?_
  simp only [Option.any_some, beq_iff_eq]

/-! ### The outcome of an entry -/

variable {e : TxEntry} {i : Nat}

theorem State.removeEntry_only (s : State) (n : Byte) (i : Nat) (e : TxEntry) : RecordOnly s (s.removeEntry i e) n := by
  obtain ⟨o, h⟩ := s.removeEntry_eq i e
  rw [h]
  exact ⟨⟨_, _, _, _, _, _, rfl⟩, rfl, fun _ _ => rfl⟩

theorem State.reportTaken_claim (h : e.owner = .claims (some (c, u))) : s.reportTaken e = s.claimTaken c u e.msg := by
  unfold State.reportTaken
  rw [h]

theorem State.reportTaken_disowned (h : e.owner = .claims none) : s.reportTaken e = s := by
  unfold State.reportTaken
  rw [h]

theorem State.reportTaken_directory (h : e.owner = .directory) : s.reportTaken e = s.dirTaken e.dest e.msg := by
  unfold State.reportTaken
  rw [h]

theorem State.reportTaken_station (h : e.owner = .station) : s.reportTaken e = s.announceDone := by
  unfold State.reportTaken
  rw [h]

theorem State.reportTaken_peers (s : State) (e : TxEntry) : (s.reportTaken e).peers = s.peers := by
  unfold State.reportTaken
  split
  · rcases s.dirTaken_cases e.dest e.msg with h | ⟨n, h⟩
    · rw [h]
    · rw [h]
      exact (RecordOnly.settle s n).peers
  · exact (s.claimTaken_only _ _ _).1.peers
  · rfl
  · exact s.announceDone_keeps.2.2.2.2.1

theorem State.reportTaken_outside (s : State) (e : TxEntry) : (s.reportTaken e).outside = s.outside := by
  unfold State.reportTaken
  split
  · exact (Within.refl s).dirTaken.outside
  · exact (Within.refl s).claimTaken.outside
  · rfl
  · exact (Within.refl s).announceDone.outside

/-- Of the buffers, what a claim or the station learns changes none. -/
theorem State.reportTaken_outBuf (h : e.owner ≠ .directory) : (s.reportTaken e).outBuf = s.outBuf := by
  unfold State.reportTaken
  split
  · exact absurd ‹_› h
  · exact (s.claimTaken_only _ _ _).2.outBuf
  · rfl
  · exact s.announceDone_keeps.2.1

theorem State.awaits_sent {f : Frame} (h : s.awaits f e = true) : e.st ≠ .reading := by
  unfold State.awaits at h
  intro hst
  rw [hst] at h
  cases h

theorem State.strip_awaited {f : Frame} (hi : s.txq.findIdx? (s.awaits f) = some i) (he : s.txq[i]? = some e) :
    s.strip f = s.outcome i e (respCode f.resp) := by
  unfold State.strip
  rw [hi]
  dsimp only
  rw [he]

theorem State.findIdx?_awaits {f : Frame} (hi : s.txq.findIdx? (s.awaits f) = some i) (he : s.txq[i]? = some e) :
    s.awaits f e = true := by
  obtain ⟨hlt, h, -⟩ := List.findIdx?_eq_some_iff_getElem.mp hi
  obtain ⟨-, rfl⟩ := List.getElem?_eq_some_iff.mp he
  exact h

theorem State.outcome_busy {resp : Fin 4} (h : 2 ≤ resp.val) : s.outcome i e resp = s.outcomeBusy i e := by
  unfold State.outcome
  split
  · exact absurd h (by decide)
  · exact absurd h (by decide)
  · rfl

theorem State.sortFrame_own {f : Frame} (hsrc : f.src.toNat = s.own.val) (hinc : f.inc = s.inc) :
    s.sortFrame f = s.strip f := by
  unfold State.sortFrame
  rw [if_pos hsrc, if_pos hinc]

/-- The state after a TAKEN: the block that sent the frame has learnt of it, then the station controller. -/
theorem State.outcomeTaken_peer (h : e.dest ≠ s.own) :
    s.outcomeTaken i e = ((s.removeEntry i e).reportTaken e).peerTaken e.dest := by
  have hown : (s.removeEntry i e).own = s.own := (RecordOnly.outside (s.removeEntry_only 0 i e)) |> own_of_outside
  unfold State.outcomeTaken
  dsimp only
  rw [if_neg (by rw [hown]; exact h)]

/-- What a claim learns of a frame of its own that was taken, with the item it gives before the peer's. -/
theorem State.claimTaken_finishes (huse : (s.claim c).use = u) (hgen : (s.claim c).gen = some g)
    (h : m = .dropped blk g ∧ (s.claim c).state = .dropping ∨ ∃ kept n, m = .returned blk g kept n ∧
      ((s.claim c).state = .returning ∨ (s.claim c).state = .demoting)) : s.claimTaken c u m = s.finishGive c := by
  rcases h with ⟨rfl, hstate⟩ | ⟨kept, n, rfl, hstate⟩
  · exact State.claimTaken_dropped huse hgen hstate
  · exact State.claimTaken_returned huse hgen hstate

theorem eraseIdx_of_map {α β : Type} (f : α → β) (l : List α) (n : Nat) :
    (l.map f).eraseIdx n = (l.eraseIdx n).map f := by
  refine List.ext_getElem? fun k => ?_
  rw [List.getElem?_eraseIdx, List.getElem?_map, List.getElem?_map, List.getElem?_map, List.getElem?_eraseIdx]
  by_cases hk : k < n
  · rw [if_pos hk, if_pos hk]
  · rw [if_neg hk, if_neg hk]

/-- Settles O44. -/
theorem strippedCopyIsTheOutcome : Obligations.StrippedCopyIsTheOutcome := by
  intro s bytes f hport hparse hsrc hinc
  rw [exec_frameReceived_sorted hport hparse, State.sortFrame_own hsrc hinc]
  refine ⟨fun hnone hprobe => ?_, fun i e hi he hdest => ?_⟩
  · unfold State.strip
    rw [hnone, hprobe]
    rfl
  rw [State.strip_awaited hi he]
  refine ⟨fun hresp => ?_, fun hresp hbusy => ?_, fun hresp hbusy => ?_, fun hresp => ?_⟩
  · rw [hresp]
    rfl
  · rw [State.outcome_busy hresp, State.outcomeBusy, if_pos (show e.busy < Config.busyLimit from hbusy)]
  · rw [State.outcome_busy hresp, State.outcomeBusy,
      if_neg (show ¬ e.busy < Config.busyLimit from Nat.not_lt.mpr hbusy)]
  have hreading := State.awaits_sent (State.findIdx?_awaits hi he)
  have houtcome : s.outcome i e (respCode f.resp) = ((s.removeEntry i e).reportTaken e).peerTaken e.dest := by
    rw [hresp]
    exact State.outcomeTaken_peer hdest
  have hbuffer (b : Fin 4) (hb : e.buf = some b) := s.removeEntry_outBuf i e b hb hreading
  have hremoved (n : Byte) := s.removeEntry_only n i e
  obtain ⟨o, hz⟩ := s.removeEntry_eq i e
  rw [houtcome]
  generalize s.removeEntry i e = z at hz hbuffer hremoved
  have hzout : z.outside = s.outside := (hremoved 0).outside
  have hy : (z.reportTaken e).outside = s.outside := (z.reportTaken_outside e).trans hzout
  have hpeers : (z.reportTaken e).peers = s.peers := by
    rw [z.reportTaken_peers, hz]
  have howner := @State.reportTaken_outBuf z e
  have hzclaim (c : ClaimIdx) : z.claim c = s.claim c := by rw [hz]; rfl
  have hpeerOwn : e.dest ≠ (z.reportTaken e).own := by rw [own_of_outside hy]; exact hdest
  obtain ⟨hpresent, hother⟩ := State.peerTaken_peers hpeerOwn
  have hx := State.peerTaken_eq hpeerOwn
  have hitem (h : (s.peers.get e.dest).presence ≠ .present) := State.peerTaken_attention hpeerOwn (by rw [hpeers]; exact h)
  rw [hpeers] at hpresent hother hitem
  refine ⟨_, rfl, by rw [hx]; exact hy, hpresent, hother, fun h => ?_, fun b hown hb => ?_, fun hown => ?_, fun c u hown => ?_,
    fun hown => ?_, fun blk r hown hmsg hr => ?_, fun hown => ?_⟩
  · obtain ⟨v, -, hv⟩ := hitem h
    rw [hv]
    exact v.mem_notice _ _
  · rw [hx]
    exact (congrArg (fun v => Vector.get v b) (howner hown)).trans (hbuffer b hb)
  · rw [hx, State.reportTaken_disowned hown, hz]
    exact ⟨rfl, rfl, rfl⟩
  · have hreport := State.reportTaken_claim (s := z) hown
    obtain ⟨honly, hnothing⟩ := z.claimTaken_only c u e.msg
    rw [← hreport] at honly hnothing
    have hrefs : z.refCount c = s.refCount c := refCount_of_outside hzout c
    have hzitems : z.attention = s.attention := by rw [hz]
    have hclaims (d : ClaimIdx) : ((z.reportTaken e).peerTaken e.dest).claim d = (z.reportTaken e).claim d := by
      rw [hx]
      rfl
    refine ⟨?_, ?_, ?_, fun hidle => ?_, fun g blk huse hgen => ⟨fun hmsg hstate => ?_,
      fun kept n hmsg => ⟨fun hstate => ?_, fun hstate => ?_⟩, fun hfinishes hgiving hpresence hnone => ?_⟩⟩
    · rw [hx]
      refine (show _ = ((z.reportTaken e).disown c).txq from rfl).trans (hnothing.txq.trans ?_)
      rw [hz]
      exact (eraseIdx_of_map _ _ _).symm
    · rw [hx]
      refine (show _ = ((z.reportTaken e).disown c).handover from rfl).trans (hnothing.handover.trans ?_)
      rw [hz]
      rfl
    · rw [hx]
      exact honly.records.trans (by rw [hz])
    · rw [hx, hreport, State.claimTaken_idle (by rw [hzclaim]; exact hidle), hz]
      exact ⟨rfl, rfl⟩
    all_goals
      have huse : (z.claim c).use = u := by rw [hzclaim]; exact huse
      have hgen : (z.claim c).gen = some g := by rw [hzclaim]; exact hgen
    · rw [hclaims, hreport, hmsg, State.claimTaken_dropped huse hgen (by rw [hzclaim]; exact hstate),
        State.finishGive_state z c (by rw [hzclaim, hstate]; exact nofun), hrefs]
    · rw [hclaims, hreport, hmsg, State.claimTaken_returned huse hgen (by rw [hzclaim]; exact Or.inl hstate),
        State.finishGive_state z c (by rw [hzclaim, hstate]; exact nofun), hrefs]
    · rw [hclaims, hreport, hmsg, State.claimTaken_returned huse hgen (by rw [hzclaim]; exact Or.inr hstate),
        State.finishGive_demoting z c (by rw [hzclaim]; exact hstate), hzclaim]
    · have hfinished := State.claimTaken_finishes (m := e.msg) (blk := blk) huse hgen (by rw [hzclaim]; exact hfinishes)
      have hstate : (z.claim c).state = .dropping ∨ (z.claim c).state = .returning ∨ (z.claim c).state = .demoting := by
        rw [hzclaim]
        rcases hfinishes with ⟨-, h⟩ | ⟨-, -, -, h⟩
        · exact Or.inl h
        · exact Or.inr h
      have hitems := State.finishGive_attention hstate (by rw [hzclaim]; exact hgiving)
        (by rw [hzitems]; exact fun k hk => (hnone k hk).1)
      rw [← hfinished, ← hreport, hzitems, huse, hzclaim] at hitems
      obtain ⟨v, hv, hpeer⟩ := hitem hpresence
      rw [hpeer, State.notice_unlisted, hv, hitems, List.append_assoc]
      · rfl
      · rw [hv, hitems]
        intro k hk
        rcases List.mem_append.mp hk with hk | hk
        · exact (hnone k hk).2
        · rw [List.mem_singleton.mp hk]
          exact nofun
  · have hreport := State.reportTaken_directory (s := z) hown
    refine ⟨?_, fun hother => ?_⟩
    · rw [hx]
      rcases z.dirTaken_cases e.dest e.msg with h | ⟨n, h⟩
      · exact (congrArg State.claims (hreport.trans h)).trans (by rw [hz])
      · exact (congrArg State.claims (hreport.trans h)).trans ((RecordOnly.settle z n).claims.trans (by rw [hz]))
    · rw [hx, hreport, State.dirTaken_other hother, hz]
      exact ⟨rfl, rfl⟩
  · have hreport := State.reportTaken_directory (s := z) hown
    have hzr : z.record? blk.index = some r := by
      rw [hz]
      exact hr
    rw [hmsg] at hreport
    refine ⟨fun hidle => ?_, fun hlast hqueue hrecall => ?_, fun hlast => ?_⟩
    · rw [hx, hreport, State.dirTaken_idle hzr hidle, hz]
      exact ⟨rfl, rfl⟩
    · rw [State.dirTaken_last hzr hlast] at hreport
      have hsent := State.settle_sent_of_no_request hzr hqueue
      refine ⟨?_, ?_, fun b hb => ?_⟩
      · rw [hx]
        show (z.reportTaken e).record? blk.index = _
        rw [hreport, State.record?_settle z blk.index r hzr hqueue, hrecall]
      · rw [hx]
        show (z.reportTaken e).txq = _
        rw [hreport, hsent.1, hz]
      · rw [hx]
        show (z.reportTaken e).outBuf.get b = _
        rw [hreport, hsent.2.2.1]
        exact hbuffer b hb
    · rw [State.dirTaken_last hzr hlast] at hreport
      refine ⟨z.reportTaken e, ?_, by rw [hx], by rw [hx]; exact ⟨rfl, rfl, rfl, rfl⟩⟩
      rw [hreport]
      exact State.settle_servedAs hzr (hremoved blk.index) (.refl z)
  · have hreport := State.reportTaken_station (s := z) hown
    obtain ⟨htxq, -, hrecords, hclaims, -, -⟩ := z.announceDone_keeps
    rw [hx]
    refine ⟨?_, ?_, ?_, fun k hstation hawaited => ?_, fun t hstation hawaited hlife => ?_⟩
    · exact (congrArg State.txq hreport).trans (htxq.trans (by rw [hz]))
    · exact (congrArg State.records hreport).trans (hrecords.trans (by rw [hz]))
    · exact (congrArg State.claims hreport).trans (hclaims.trans (by rw [hz]))
    · rw [hreport, State.announceDone_more (k := k) (by rw [hz]; exact hstation) (by rw [hz]; exact hawaited), hz]
      exact ⟨rfl, hstation, rfl, rfl⟩
    · rw [hreport, State.announceDone_last (by rw [hz]; exact hstation) (by rw [hz]; exact hawaited),
        State.endJoining_some (t := t) (by rw [hz]; exact hlife), hz]
      exact ⟨rfl, rfl, rfl, rfl, rfl⟩

end Sys2Proof.Machine
end

section
/-! PROOFS. Failed deliveries: the frames that leave, the claims that end, the peer that is ABSENT, and what the loss of a peer does
to each record. -/

namespace Sys2Proof.Machine

variable {s : State}

/-! ### The claims that handed the failed frames over -/

/-- Claim `c` of `s` is live and handed one of the failed frames over. -/
def State.failsClaim (s : State) (frames : List FailedFrame) (c : ClaimIdx) : Bool :=
  (s.claim c).live && frames.any fun f => f.owner == .claims (some (c, (s.claim c).use))

theorem State.failClaims_eq (s : State) (frames : List FailedFrame) :
    s.failClaims frames = claimIdxs.foldl (fun t c => if t.failsClaim frames c then t.homeAbsent c else t) s := rfl

/-- The claims of `l` ended one after the other: each that fails ends, and the rest stand as they were. -/
theorem State.foldl_homeAbsent (frames : List FailedFrame) (l : List ClaimIdx) (hl : l.Nodup) (s : State) :
    let t := l.foldl (fun t c => if t.failsClaim frames c then t.homeAbsent c else t) s
    t.records = s.records ∧ t.peers = s.peers ∧ t.outside = s.outside ∧
      (∀ c ∈ l, s.failsClaim frames c = true → (t.claim c).state = if s.refCount c = 0 then .free else .ended) ∧
      ∀ c, c ∉ l ∨ s.failsClaim frames c = false → t.claim c = s.claim c := by
  induction l generalizing s with
  | nil => exact ⟨rfl, rfl, rfl, nofun, fun _ _ => rfl⟩
  | cons d l ih =>
    obtain ⟨hd, hl⟩ := List.nodup_cons.mp hl
    have hstep : ∃ u : State, (if s.failsClaim frames d then s.homeAbsent d else s) = u ∧ ClaimOnly s u d ∧
        (s.failsClaim frames d = true → (u.claim d).state = if s.refCount d = 0 then .free else .ended) ∧
        (s.failsClaim frames d = false → u = s) := by
      refine ⟨_, rfl, ?_⟩
      by_cases h : s.failsClaim frames d = true
      · rw [if_pos h]
        obtain ⟨honly, hstate⟩ := State.homeAbsent_spec s d
        exact ⟨honly, fun _ => hstate, fun h' => by cases h.symm.trans h'⟩
      · rw [if_neg h]
        exact ⟨.refl s d, fun h' => absurd h' h, fun _ => rfl⟩
    obtain ⟨u, hu, honly, hends, hstays⟩ := hstep
    obtain ⟨hrecords, hpeers, houtside, hended, hkept⟩ := ih hl u
    have hfails (c : ClaimIdx) (hc : c ≠ d) : u.failsClaim frames c = s.failsClaim frames c := by
      unfold State.failsClaim
      rw [honly.other c hc]
    intro t
    have ht : t = l.foldl (fun t c => if t.failsClaim frames c then t.homeAbsent c else t) u := by
      show List.foldl _ (if s.failsClaim frames d then s.homeAbsent d else s) l = _
      rw [hu]
    rw [ht]
    refine ⟨hrecords.trans honly.records, hpeers.trans honly.peers, houtside.trans honly.outside, fun c hc hfail => ?_,
      fun c hc => ?_⟩
    · by_cases hcd : c = d
      · rw [hkept c (Or.inl (hcd ▸ hd)), hcd]
        exact hends (hcd ▸ hfail)
      · rw [← honly.refCount c]
        exact hended c ((List.mem_cons.mp hc).resolve_left hcd) (by rw [hfails c hcd]; exact hfail)
    · by_cases hcd : c = d
      · rw [hkept c (Or.inl (hcd ▸ hd)), hstays (hcd ▸ hc.resolve_left fun h => h (hcd ▸ List.mem_cons_self))]
      · rw [← honly.other c hcd]
        refine hkept c (hc.imp (fun h hmem => h (List.mem_cons_of_mem d hmem)) fun h => ?_)
        rw [hfails c hcd]
        exact h

theorem State.failClaims_spec (s : State) (frames : List FailedFrame) :
    (s.failClaims frames).records = s.records ∧ (s.failClaims frames).peers = s.peers ∧
      (∀ c, s.failsClaim frames c = true →
        ((s.failClaims frames).claim c).state = if s.refCount c = 0 then .free else .ended) ∧
      ∀ c, s.failsClaim frames c = false → (s.failClaims frames).claim c = s.claim c := by
  obtain ⟨hrecords, hpeers, -, hended, hkept⟩ := State.foldl_homeAbsent frames claimIdxs (List.nodup_finRange 32) s
  rw [s.failClaims_eq frames]
  exact ⟨hrecords, hpeers, fun c => hended c (List.mem_finRange c), fun c h => hkept c (Or.inr h)⟩

/-! ### The peer -/

/-- The peer is marked ABSENT, with its item where it was not. -/
def State.peerAbsent (s : State) (p : Station) : State :=
  if (s.peers.get p).presence = .absent then s
  else (s.setPeer p { s.peers.get p with presence := .absent }).notice (.peer p) (.peer .absent (s.peers.get p).inc)

theorem State.peerFailed_eq (s : State) (p : Station) (frames : List FailedFrame) :
    s.peerFailed p frames = (s.peerAbsent p).losePeer p false frames := rfl

theorem State.peerAbsent_spec (s : State) (p : Station) :
    (s.peerAbsent p).records = s.records ∧ (s.peerAbsent p).claims = s.claims ∧
      (s.peers.get p).inc = ((s.peerAbsent p).peers.get p).inc ∧ ((s.peerAbsent p).peers.get p).presence = .absent ∧
      ((s.peers.get p).presence ≠ .absent → ∃ k ∈ (s.peerAbsent p).attention, k.subject = .peer p ∧
        k.notice = .peer .absent (s.peers.get p).inc) := by
  unfold State.peerAbsent
  split
  · next h => exact ⟨rfl, rfl, rfl, h, absurd h⟩
  · have hpeer := (get_set s.peers p p { s.peers.get p with presence := .absent }).trans (if_pos rfl)
    refine ⟨?_, ?_, ?_, ?_, fun _ => State.mem_notice _ _ _⟩
    · rw [State.notice_eq]
      rfl
    · rw [State.notice_eq]
      rfl
    · rw [State.notice_eq]
      exact (congrArg Peer.inc hpeer).symm
    · rw [State.notice_eq]
      exact congrArg Peer.presence hpeer

theorem State.announceFailed_keeps (s : State) (f : Failure) :
    (s.announceFailed f).claims = s.claims ∧ (s.announceFailed f).peers = s.peers := by
  unfold State.announceFailed
  split
  · obtain ⟨-, -, -, hclaims, hpeers, -⟩ := s.announceDone_keeps
    exact ⟨hclaims, hpeers⟩
  · exact ⟨rfl, rfl⟩

/-! ### The records -/

variable {p : Station} {purge : Bool} {frames : List FailedFrame} {n : Byte} {r : DirRecord}

theorem State.modRecord_of_record {f : DirRecord → DirRecord} (hr : s.record? n = some r) :
    s.modRecord n f = s.setRecord n (f r) := by
  unfold State.modRecord
  rw [hr]

theorem State.loseRequest_found {q : Request} (hr : s.record? n = some r)
    (hq : r.queue.find? (·.station == p) = some q) :
    s.loseRequest p purge n = if purge then s.setRecord n { r with queue := r.queue.filter (·.station != p) }
      else (s.setRecord n { r with queue := r.queue.filter (·.station != p) }).dirSend p
        (.deny (s.ownBlock n) .full q.tag) := by
  unfold State.loseRequest
  rw [hr]
  dsimp only
  rw [hq]
  rfl

theorem State.loseRequest_none (hr : s.record? n = some r) (hq : r.queue.find? (·.station == p) = none) :
    s.loseRequest p purge n = s := by
  unfold State.loseRequest
  rw [hr]
  dsimp only
  rw [hq]

/-- Record `r` without the copy in transit to `p`. -/
def DirRecord.dropTarget (r : DirRecord) (p : Station) (mode : Mode) : DirRecord :=
  match mode with
  | .shared => r.dropReader p
  | .exclusive => { r with holder := none }

theorem State.loseTransfer_damaged {t : Transfer} (hr : s.record? n = some r) (ht : r.transfer = some t)
    (htarget : t.target = p) (hmode : t.mode = .exclusive) (hlast : lastChunkFailed frames (s.ownBlock n) r.gen = true) :
    s.loseTransfer p false frames n =
      (s.setRecord n { r with transfer := none }).setDirTurn (s.dirTurn.leave n.toNat) := by
  unfold State.loseTransfer
  rw [hr]
  dsimp only
  rw [ht]
  dsimp only
  rw [if_pos htarget, if_pos (by rw [hmode, hlast]; rfl), State.endTransfer, State.modRecord_of_record hr]
  rfl

theorem State.loseTransfer_eq {t : Transfer} (hr : s.record? n = some r) (ht : r.transfer = some t) (htarget : t.target = p)
    (h : t.mode = .shared ∨ purge = true ∨ lastChunkFailed frames (s.ownBlock n) r.gen = false) :
    s.loseTransfer p purge frames n =
      let u := (s.endTransfer n).modRecord n (·.dropTarget p t.mode)
      (if purge then u else u.dirSend p (.deny (u.ownBlock n) .full t.tag)).settle n := by
  have hnotLast : ¬ (decide (t.mode = .exclusive) && !purge && lastChunkFailed frames (s.ownBlock n) r.gen) = true := by
    simp only [Bool.and_eq_true, decide_eq_true_eq, Bool.not_eq_true']
    rintro ⟨⟨hmode, hpurge⟩, hlast⟩
    rcases h with h | h | h
    · cases hmode.symm.trans h
    · cases hpurge.symm.trans h
    · cases hlast.symm.trans h
  unfold State.loseTransfer
  rw [hr]
  dsimp only
  rw [ht]
  dsimp only
  rw [if_pos htarget, if_neg hnotLast]
  rfl

theorem State.loseTransfer_abandoned {t : Transfer} (hr : s.record? n = some r) (ht : r.transfer = some t)
    (htarget : t.target = p)
    (h : t.mode = .shared ∨ purge = true ∨ lastChunkFailed frames (s.ownBlock n) r.gen = false) :
    s.ServedAs (s.loseTransfer p purge frames n) n
      { r with
        transfer := none, recalling := none,
        readers := if t.mode = .shared then r.readers.filter (·.station != p) else r.readers,
        holder := if t.mode = .exclusive then none else r.holder }
      (if purge then s else s.dirSend p (.deny (s.ownBlock n) .full t.tag)) := by
  rw [State.loseTransfer_eq hr ht htarget h]
  have hrecord : ((s.endTransfer n).modRecord n (·.dropTarget p t.mode)).record? n =
      some (({ r with transfer := none } : DirRecord).dropTarget p t.mode) := by
    rw [State.record?_modRecord, State.record?_endTransfer s n r hr]
    rfl
  have honly : RecordOnly s ((s.endTransfer n).modRecord n (·.dropTarget p t.mode)) n :=
    (RecordOnly.endTransfer s n).trans (RecordOnly.modRecord _ n _)
  have hsent : ((s.endTransfer n).modRecord n (·.dropTarget p t.mode)).SentAs s :=
    (State.modRecord_sent _ n _).trans (State.endTransfer_sent s n)
  generalize (s.endTransfer n).modRecord n (·.dropTarget p t.mode) = u at hrecord honly hsent
  have hown : u.own = s.own := own_of_outside honly.outside
  have hresult : ({ r with
        transfer := none, recalling := none,
        readers := if t.mode = .shared then r.readers.filter (·.station != p) else r.readers,
        holder := if t.mode = .exclusive then none else r.holder } : DirRecord) =
      { ({ r with transfer := none } : DirRecord).dropTarget p t.mode with transfer := none, recalling := none } := by
    cases t.mode <;> rfl
  rw [hresult]
  dsimp only
  rw [State.ownBlock, hown]
  cases purge with
  | true => exact State.settle_servedAs hrecord honly hsent
  | false =>
    exact State.settle_servedAs ((State.record?_dirSend u p _ n).trans hrecord)
      (honly.trans (RecordOnly.dirSend u p _ n)) (hsent.dirSend honly.port hown p _)

theorem State.loseTransfer_elsewhere (hr : s.record? n = some r) (h : ∀ t, r.transfer = some t → t.target ≠ p) :
    s.loseTransfer p purge frames n = s := by
  unfold State.loseTransfer
  rw [hr]
  dsimp only
  split
  · rfl
  · next t ht => rw [if_neg (h t ht)]

theorem DirRecord.holderIs_false (h : ∀ d, r.holder = some d → d.station ≠ p) : ¬ r.holderIs p = true := by
  unfold DirRecord.holderIs
  cases hd : r.holder with
  | none => nofun
  | some d => simpa using h d hd

theorem State.loseCopy_reader (hr : s.record? n = some r) (hholder : ∀ d, r.holder = some d → d.station ≠ p)
    (hreader : ∃ d ∈ r.readers, d.station = p) :
    s.ServedAs (s.loseCopy p purge frames n) n (r.dropReader p).overIfDone s := by
  have hhas : r.hasReader p = true := by
    obtain ⟨d, hd, hstation⟩ := hreader
    exact List.any_eq_true.mpr ⟨d, hd, beq_iff_eq.mpr hstation⟩
  unfold State.loseCopy
  rw [hr]
  dsimp only
  rw [if_neg (DirRecord.holderIs_false hholder), if_pos hhas]
  refine State.afterAnswer_servedAs ?_ (RecordOnly.modRecord s n _) (State.modRecord_sent s n _)
  rw [State.record?_modRecord, hr]
  rfl

theorem State.loseCopy_elsewhere (hr : s.record? n = some r) (hholder : ∀ d, r.holder = some d → d.station ≠ p)
    (hreader : ∀ d ∈ r.readers, d.station ≠ p) : s.loseCopy p purge frames n = s := by
  have hnot : ¬ r.hasReader p = true := by
    intro h
    obtain ⟨d, hd, hstation⟩ := List.any_eq_true.mp h
    exact hreader d hd (beq_iff_eq.mp hstation)
  unfold State.loseCopy
  rw [hr]
  dsimp only
  rw [if_neg (DirRecord.holderIs_false hholder), if_neg hnot]

theorem State.damage_spec (hr : s.record? n = some r) :
    (s.damage n).record? n = some r.damaged ∧ (s.damage n).SentAs (s.denials n .damaged r.queue) ∧
      (s.damage n).claims = s.claims ∧ ∀ m, m ≠ n → (s.damage n).record? m = s.record? m :=
  ⟨State.record?_damage s n r hr, State.damage_sent s n r hr, (RecordOnly.damage s n).claims, (RecordOnly.damage s n).other⟩

theorem grantFailed_iff {b : Block} {gen : Byte} : grantFailed frames b gen = true ↔
    ∃ x ∈ frames, x.owner = .directory ∧ ∃ mode data tag, x.msg = .grant b gen mode data tag := by
  unfold grantFailed
  simp only [List.any_eq_true, Bool.and_eq_true, beq_iff_eq]
  refine exists_congr fun x => and_congr_right fun _ => and_congr_right fun _ => ?_
  cases x.msg with
  | grant b' g mode data tag =>
    simp only [Bool.and_eq_true, beq_iff_eq]
    constructor
    · rintro ⟨rfl, rfl⟩
      exact ⟨mode, data, tag, rfl⟩
    · rintro ⟨_, _, _, h⟩
      cases h
      exact ⟨rfl, rfl⟩
  | _ => exact ⟨nofun, fun ⟨_, _, _, h⟩ => nomatch h⟩

theorem grantFailed_false_iff {b : Block} {gen : Byte} : grantFailed frames b gen = false ↔
    ∀ x ∈ frames, x.owner = .directory → ∀ mode data tag, x.msg ≠ .grant b gen mode data tag := by
  rw [← Bool.not_eq_true, grantFailed_iff]
  simp only [not_exists, not_and, ne_eq]

theorem State.losePeer_range (s : State) (p : Station) (purge : Bool) (frames : List FailedFrame) :
    s.losePeer p purge frames = (List.range s.records.length).foldl (fun (t : State) (i : Nat) =>
      t.loseInRecord p purge frames (BitVec.ofNat 8 i)) s := by
  unfold State.losePeer State.recordIdxs
  rw [List.foldl_map]

theorem State.failAll_parts (s : State) (dest : Station) (kind : FailureKind) (extra : List FailedFrame) :
    (s.failAll dest kind extra).txq = s.txq.filter (·.dest != dest) ∧
      (s.failAll dest kind extra).handover = s.handover.filter (·.dest != dest) ∧
      (s.failAll dest kind extra).mail = s.mail ++ [.failed {
        dest := dest, kind := kind,
        frames := extra ++
          (s.txq.filter (·.dest == dest)).map (fun e => { owner := e.owner, msg := e.msg, sent := e.outstanding }) ++
          (s.handover.filter (·.dest == dest)).map (fun h => { owner := h.owner, msg := h.msg, sent := false }) }] ∧
      (s.failAll dest kind extra).records = s.records ∧ (s.failAll dest kind extra).claims = s.claims := by
  obtain ⟨o, h⟩ := s.failAll_spec dest kind extra
  rw [h]
  exact ⟨rfl, rfl, rfl, rfl, rfl⟩

/-- What a failure report does outside the records: the claims that end, the peer, the announcement's outcome. -/
theorem State.handleMail_failed {f : Failure} (hdest : f.dest ≠ s.own) :
    s.handleMail (.failed f) =
      (((s.failClaims f.frames).peerAbsent f.dest).losePeer f.dest false f.frames).announceFailed f := by
  show s.handleFailure f = _
  unfold State.handleFailure
  rw [if_neg hdest, State.peerFailed_eq]

theorem State.handleMail_failed_keeps {f : Failure} (hdest : f.dest ≠ s.own) :
    (s.handleMail (.failed f)).claims = (s.failClaims f.frames).claims ∧
      (s.handleMail (.failed f)).peers = ((s.failClaims f.frames).peerAbsent f.dest).peers := by
  rw [State.handleMail_failed hdest]
  obtain ⟨hclaims, hpeers⟩ := State.announceFailed_keeps
    (((s.failClaims f.frames).peerAbsent f.dest).losePeer f.dest false f.frames) f
  obtain ⟨hclaims', hpeers'⟩ := State.losePeer_keeps ((s.failClaims f.frames).peerAbsent f.dest) f.dest false f.frames
  obtain ⟨-, habsent, -, -, -⟩ := State.peerAbsent_spec (s.failClaims f.frames) f.dest
  exact ⟨(hclaims.trans hclaims').trans habsent, hpeers.trans hpeers'⟩

theorem State.announceFailed_none {f : Failure}
    (h : f.frames.any (fun x => x.owner == .station && x.msg == .announce) = false) : s.announceFailed f = s := by
  unfold State.announceFailed
  rw [h]
  rfl

theorem State.announceFailed_some {f : Failure}
    (h : f.frames.any (fun x => x.owner == .station && x.msg == .announce) = true) : s.announceFailed f = s.announceDone := by
  unfold State.announceFailed
  rw [if_pos h]

/-- Settles O45: the report empties both queues of the destination; its handling ends claim after claim, marks the peer, and takes
the loss into each record in three steps. -/
theorem deliveryFailureEndsTheDestination : Obligations.DeliveryFailureEndsTheDestination := by
  unfold Obligations.DeliveryFailureEndsTheDestination
  refine fun s => ⟨s.failAll_parts, fun f hdest => ?_, fun f => ⟨State.announceFailed_none, fun hany hstation => ?_⟩,
    fun p purge frames => ⟨s.losePeer_range p purge frames, fun n r hr =>
      ⟨fun q hq => State.loseRequest_found hr hq, State.loseRequest_none hr, fun t ht htarget => ⟨?_, fun h => ?_⟩,
        State.loseTransfer_elsewhere hr, fun d hd hstation => ⟨fun hpurge hgrant => ?_, fun hlost => ?_⟩,
        State.loseCopy_reader hr, State.loseCopy_elsewhere hr⟩⟩⟩
  · obtain ⟨hclaims, hpeers⟩ := State.handleMail_failed_keeps hdest
    obtain ⟨hrecords, hpeers', hended, hkept⟩ := s.failClaims_spec f.frames
    obtain ⟨hrecords', -, hinc, habsent, hnotice⟩ := State.peerAbsent_spec (s.failClaims f.frames) f.dest
    rw [hpeers'] at hinc hnotice
    have hclaim (c : ClaimIdx) : (s.handleMail (.failed f)).claim c = (s.failClaims f.frames).claim c := by
      unfold State.claim
      rw [hclaims]
    refine ⟨by rw [hpeers]; exact habsent, fun c hlive hany => ?_, fun c hnot => ?_, _, State.handleMail_failed hdest,
      hrecords'.trans hrecords, hinc, habsent, hnotice⟩
    · rw [hclaim]
      exact hended c (Bool.and_eq_true_iff.mpr ⟨hlive, hany⟩)
    · rw [hclaim]
      exact hkept c (Bool.and_eq_false_iff.mpr hnot)
  · rw [State.announceFailed_some hany]
    refine ⟨fun k => State.announceDone_more hstation, fun hlast => ?_⟩
    rw [State.announceDone_last hstation hlast]
    exact State.endJoining_station _
  · rintro ⟨hmode, rfl, hlast⟩
    exact State.loseTransfer_damaged hr ht htarget hmode hlast
  · exact State.loseTransfer_abandoned hr ht htarget h
  · subst hpurge
    exact State.loseCopy_granted hr hd hstation (grantFailed_iff.mpr hgrant)
  · rw [State.loseCopy_damaged hr hd hstation (hlost.imp id grantFailed_false_iff.mpr)]
    exact State.damage_spec hr

end Sys2Proof.Machine
end

section
/-! PROOFS. The outcome of the self probe: the announcements with outcome NONE, the way off the ring once another station has
taken it, and what happens to the probes of others. -/

namespace Sys2Proof.Machine

variable {s : State}

/-! ### The announcements -/

/-- The announcements that go out from this station, in order, as entries of the transmit queue. -/
def State.announceEntries (s : State) : List TxEntry :=
  (List.range 15).map fun i => TxEntry.fresh (Fin.ofNat 16 (s.own.val + 1 + i)) .announce .station none .waiting

theorem State.foldl_handOver (l : List Station) (s : State) (hport : s.port ≠ .bypass) (hlist : s.handover = [])
    (hroom : s.txq.length + l.length ≤ 16) (hreading : ∀ e ∈ s.txq, e.st ≠ .reading) :
    l.foldl (fun t p => t.handOver p .announce .station) s =
      { s with txq := s.txq ++ l.map fun p => TxEntry.fresh p .announce .station none .waiting } := by
  induction l generalizing s with
  | nil =>
    rw [List.map_nil, List.append_nil]
    rfl
  | cons p l ih =>
    rw [List.length_cons] at hroom
    have haccept : s.canAccept p = true := State.canAccept_iff p |>.mpr ⟨by omega, fun e he _ => hreading e he⟩
    rw [List.foldl_cons, State.handOver_accepted s p .announce .station hport hlist haccept]
    rw [ih { s with txq := s.txq ++ [TxEntry.fresh p .announce .station none .waiting] } hport hlist]
    · exact congrArg (fun q => ({ s with txq := q } : State)) (List.append_assoc s.txq [_] _)
    · show (s.txq ++ [_]).length + l.length ≤ 16
      rw [List.length_append, List.length_singleton]
      omega
    · intro e he
      rcases List.mem_append.mp he with he | he
      · exact hreading e he
      · rw [List.mem_singleton.mp he]
        nofun

/-- The state once the self probe has outcome NONE. -/
def State.probed (s : State) : State :=
  { s with probeOutstanding := false, announceAwaited := 15, txq := s.announceEntries }

theorem State.probeNone_eq (hport : s.port ≠ .bypass) (hlist : s.handover = []) (htxq : s.txq = [])
    (hprobe : s.probeOutstanding = true) : s.probeNone = s.probed := by
  unfold State.probeNone
  rw [if_pos hprobe, State.foldl_handOver _ { s with probeOutstanding := false, announceAwaited := 15 } hport hlist]
  · unfold State.probed State.announceEntries State.announceOrder
    rw [htxq, List.nil_append, List.map_map]
    rfl
  · show s.txq.length + s.announceOrder.length ≤ 16
    rw [htxq, State.announceOrder, List.length_map, List.length_range, List.length_nil]
    omega
  · intro e he
    cases (show e ∈ s.txq from he) |> (htxq ▸ ·)

/-- The report that the self probe failed brings the announcements, and no further mail. -/
theorem State.drain_probeFailed {f : Failure} (hmail : s.mail = [.failed f]) (hdest : f.dest = s.own)
    (hport : s.port ≠ .bypass) (hlist : s.handover = []) (htxq : s.txq = []) (hprobe : s.probeOutstanding = true) :
    s.drain = ({ s with mail := [] } : State).probed := by
  have hhandled : State.handleMail { s with mail := [] } (.failed f) = ({ s with mail := [] } : State).probed := by
    show State.handleFailure { s with mail := [] } f = _
    unfold State.handleFailure
    rw [if_pos (show f.dest = State.own { s with mail := [] } from hdest)]
    exact State.probeNone_eq (s := { s with mail := [] }) hport hlist htxq hprobe
  unfold State.drain
  rw [show Config.exchangeFuel = 4095 + 1 from rfl, State.drainLoop, hmail]
  dsimp only
  rw [hhandled]
  exact State.drainLoop_of_no_mail _ _ rfl

/-- The entry of the self probe was the only one, and its delivery failed. -/
theorem State.probe_failed {e : TxEntry} {kind : FailureKind} (htxq : s.txq = [e]) (hdest : e.dest = s.own)
    (hlist : s.handover = []) (hmail : s.mail = []) :
    ∃ bufs f, f.dest = s.own ∧
      s.failAll s.own kind [] = { s with outBuf := bufs, txq := [], handover := [], mail := [.failed f] } := by
  obtain ⟨bufs, h⟩ := s.failAll_spec s.own kind []
  have hgone : s.txq.filter (·.dest != s.own) = [] := by
    rw [htxq, List.filter_cons_of_neg (by rw [hdest, bne_self_eq_false]; nofun)]
    rfl
  rw [hgone, hlist, hmail] at h
  exact ⟨bufs, _, rfl, h⟩

/-- NONE, or BUSY past the last retry, is a failed delivery. -/
theorem State.outcome_failed {i : Nat} {e : TxEntry} {resp : Fin 4}
    (h : resp = 0 ∨ 2 ≤ resp.val ∧ 32 ≤ e.busy) : ∃ kind, s.outcome i e resp = s.failAll e.dest kind [] := by
  rcases h with rfl | ⟨hresp, hbusy⟩
  · exact ⟨.absent, rfl⟩
  · refine ⟨.unresponsive, ?_⟩
    rw [State.outcome_busy hresp, State.outcomeBusy]
    have hlimit : Config.busyLimit = 32 := rfl
    rw [if_neg (by omega)]

/-- The self probe fails: the announcements stand in the transmit queue before anything held is handled. -/
theorem State.probe_outcome {f : Frame} {e : TxEntry} (hport : s.port ≠ .bypass) (hsrc : f.src.toNat = s.own.val)
    (hinc : f.inc = s.inc) (htxq : s.txq = [e]) (hawaits : s.awaits f e = true) (hdest : e.dest = s.own)
    (hresp : respCode f.resp = 0 ∨ 2 ≤ (respCode f.resp).val ∧ 32 ≤ e.busy) (hlist : s.handover = [])
    (hmail : s.mail = []) (hprobe : s.probeOutstanding = true) :
    ∃ bufs, (s.sortFrame f).cplq = s.cplq ∧
      (s.sortFrame f).drain = ({ s with outBuf := bufs, handover := [], mail := [] } : State).probed := by
  have hi : s.txq.findIdx? (s.awaits f) = some 0 := by
    rw [htxq, List.findIdx?_cons, if_pos hawaits]
  have he : s.txq[0]? = some e := by
    rw [htxq]
    rfl
  obtain ⟨kind, hfailed⟩ := State.outcome_failed (s := s) (i := 0) hresp
  obtain ⟨bufs, m, hm, hstate⟩ := State.probe_failed (kind := kind) htxq hdest hlist hmail
  rw [State.sortFrame_own hsrc hinc, State.strip_awaited hi he, hfailed, hdest, hstate]
  exact ⟨bufs, rfl, State.drain_probeFailed rfl hm hport rfl rfl hprobe⟩

/-! ### What the leaving order removes -/

/-- Claims have ended: the claims stand with their use numbers, and of the rest only turn, pool, items and completions changed. -/
def State.ClaimsEnded (s t : State) : Prop :=
  ∃ claims turn borrow items cplq flying,
    t = { s with
      claims := claims, claimTurn := turn, borrow := borrow, attention := items, cplq := cplq, inFlight := flying } ∧
      (∀ j ∈ items, j ∈ s.attention) ∧ ∀ c, (t.claim c).use = (s.claim c).use

theorem State.ClaimsEnded.trans {t u : State} (h : s.ClaimsEnded t) (k : t.ClaimsEnded u) : s.ClaimsEnded u := by
  obtain ⟨_, _, _, _, _, _, rfl, hitems, huse⟩ := h
  obtain ⟨_, _, _, _, _, _, hu, hitems', huse'⟩ := k
  exact ⟨_, _, _, _, _, _, hu, fun j hj => hitems j (hitems' j hj), fun c => (huse' c).trans (huse c)⟩

theorem State.completePending_form (s : State) (c : ClaimIdx) (st : Status) (g : Option Byte) (w : Option Word) :
    ∃ claims cplq flying, s.completePending c st g w = { s with claims := claims, cplq := cplq, inFlight := flying } := by
  unfold State.completePending
  split
  · exact ⟨_, _, _, rfl⟩
  · exact ⟨_, _, _, rfl⟩

theorem State.completeCancel_form (s : State) (c : ClaimIdx) (st : Status) :
    ∃ claims cplq flying, s.completeCancel c st = { s with claims := claims, cplq := cplq, inFlight := flying } := by
  unfold State.completeCancel
  split
  · exact ⟨_, _, _, rfl⟩
  · exact ⟨_, _, _, rfl⟩

theorem State.endLease_form (c : ClaimIdx) (r : EndReason) (a b : Status) (htxq : s.txq = []) (hlist : s.handover = []) :
    s.ClaimsEnded (s.endLease c r a b) := by
  obtain ⟨honly, -, hclaim, -⟩ := State.endLease_spec s c r a b
  have huse (d : ClaimIdx) : ((s.endLease c r a b).claim d).use = (s.claim d).use := by
    by_cases hd : d = c
    · rw [hd, hclaim]
      split <;> rfl
    · rw [honly.other d hd]
  obtain ⟨claims, cplq, flying, hpending⟩ := s.completePending_form c a none none
  obtain ⟨claims', cplq', flying', hcancel⟩ := (s.completePending c a none none).completeCancel_form c b
  have hdisowned : ((((s.completePending c a none none).completeCancel c b).freeBorrow c).disown c) =
      { s with
        claims := claims', borrow := s.borrow.map (fun o => if o = some c then none else o), cplq := cplq',
        inFlight := flying' } := by
    rw [hcancel, hpending]
    unfold State.freeBorrow State.disown
    dsimp only
    rw [htxq, hlist]
    rfl
  have hform : ∃ claims turn borrow items cplq flying, s.endLease c r a b =
      { s with
      claims := claims, claimTurn := turn, borrow := borrow, attention := items, cplq := cplq, inFlight := flying } ∧
        ∀ j ∈ items, j ∈ s.attention := by
    unfold State.endLease
    rw [hdisowned]
    dsimp only
    split
    · exact ⟨_, _, _, _, _, _, rfl, fun j hj => (List.mem_filter.mp hj).1⟩
    · exact ⟨_, _, _, _, _, _, rfl, fun j hj => hj⟩
  obtain ⟨_, _, _, _, _, _, h, hitems⟩ := hform
  exact ⟨_, _, _, _, _, _, h, hitems, huse⟩

/-- The live claims of `l` end CANCELLED, one after the other. -/
theorem State.foldl_endLease (l : List ClaimIdx) (s : State) (htxq : s.txq = []) (hlist : s.handover = []) :
    s.ClaimsEnded (l.foldl (fun t c => if (t.claim c).live then t.endLease c .cancelled .cancelled .ok else t) s) := by
  induction l generalizing s with
  | nil => exact ⟨_, _, _, _, _, _, rfl, fun _ h => h, fun _ => rfl⟩
  | cons c l ih =>
    rw [List.foldl_cons]
    have hstep : s.ClaimsEnded (if (s.claim c).live then s.endLease c .cancelled .cancelled .ok else s) := by
      split
      · exact State.endLease_form c .cancelled .cancelled .ok htxq hlist
      · exact ⟨_, _, _, _, _, _, rfl, fun _ h => h, fun _ => rfl⟩
    refine hstep.trans (ih _ ?_ ?_)
    · obtain ⟨_, _, _, _, _, _, h, -⟩ := hstep
      rw [h]
      exact htxq
    · obtain ⟨_, _, _, _, _, _, h, -⟩ := hstep
      rw [h]
      exact hlist

/-- Every claim FREE with its use number, and no item of a claim. -/
theorem State.cancelClaims_spec (htxq : s.txq = []) (hlist : s.handover = []) :
    s.ClaimsEnded s.cancelClaims ∧ (∀ c, s.cancelClaims.claim c = .free (s.claim c).use) ∧
      ∀ j ∈ s.cancelClaims.attention, ∀ c, j.subject ≠ .claim c := by
  have hended := State.foldl_endLease claimIdxs s htxq hlist
  unfold State.cancelClaims
  generalize List.foldl _ s claimIdxs = u at hended
  obtain ⟨claims, turn, borrow, items, cplq, flying, rfl, hitems, huse⟩ := hended
  have hfree (c : ClaimIdx) : (claims.map fun d => Claim.free d.use).get c = .free (s.claim c).use := by
    rw [← huse c, get_eq_getElem, Vector.getElem_map]
    rfl
  refine ⟨⟨_, _, _, _, _, _, rfl, fun j hj => hitems j (List.mem_filter.mp hj).1, fun c => ?_⟩, hfree,
    fun j hj c hc => ?_⟩
  · exact (congrArg Claim.use (hfree c) :)
  · have := (List.mem_filter.mp hj).2
    rw [hc] at this
    cases this

theorem State.enterBypass_form (s : State) : ∃ inBuf bufs moves, s.enterBypass false = { s.mapPausable .runOn with
    inBuf := inBuf, port := .bypass, fwd := [], rx := [], heldFrame := none, txq := [], handover := [], outBuf := bufs,
    moves := moves } := by
  obtain ⟨v, hv, -⟩ := Within.releaseIns_eq (s.rx ++ s.heldFrame.toList) s
  unfold State.enterBypass State.releaseReceived
  rw [hv]
  exact ⟨_, _, _, rfl⟩

/-- The state at step 6 of the leaving order: everything but the station itself has been removed. -/
def State.leftRing (s : State) : State := (s.enterBypass false).emptyWindow.cancelClaims.removePartition.forgetPeers

theorem State.leftRing_form (s : State) : ∃ inBuf bufs moves claims items cplq flying, s.leftRing = { s with
      records := [], claims := claims, borrow := [], homeCount := 0, borrowCount := 0, dirTurn := .empty,
      claimTurn := .empty, peers := Vector.replicate 16 .initial, window := Vector.replicate 32 .empty, attention := items,
      cplq := cplq, inFlight := flying, inBuf := inBuf, port := .bypass, fwd := [], rx := [], heldFrame := none, txq := [],
      handover := [], outBuf := bufs, moves := moves } ∧
    (∀ c, claims.get c = .free (s.claim c).use) ∧ ∀ j ∈ items, j.subject = .station := by
  obtain ⟨inBuf, bufs, moves, hbypass⟩ := s.enterBypass_form
  have hclaim (c : ClaimIdx) : ((s.enterBypass false).emptyWindow.claim c).use = (s.claim c).use := by
    rw [hbypass]
    exact (congrArg Claim.use (State.claim_mapPausable (s := s) .runOn c) :)
  have hempty : (s.enterBypass false).emptyWindow.txq = [] ∧ (s.enterBypass false).emptyWindow.handover = [] := by
    rw [hbypass]
    exact ⟨rfl, rfl⟩
  obtain ⟨⟨claims, turn, borrow, items, cplq, flying, hended, hitems, -⟩, hfree, hnoClaim⟩ :=
    State.cancelClaims_spec hempty.1 hempty.2
  have hsubject (j : Item) (hj : j ∈ items) : (∀ e, j.subject ≠ .entry e) ∧ ∀ c, j.subject ≠ .claim c := by
    refine ⟨fun e he => ?_, fun c => hnoClaim j (by rw [hended]; exact hj) c⟩
    have := (List.mem_filter.mp (hitems j hj)).2
    rw [he] at this
    cases this
  refine ⟨inBuf, bufs, moves, claims, items.filter (fun i => match i.subject with
      | .peer _ => false
      | _ => true), cplq, flying, ?_, fun c => ?_, fun j hj => ?_⟩
  · unfold State.leftRing
    rw [hended, hbypass]
    rfl
  · rw [← hclaim c, ← hfree c, hended]
    rfl
  · obtain ⟨hmem, hpeer⟩ := List.mem_filter.mp hj
    obtain ⟨hentry, hclaim⟩ := hsubject j hmem
    cases hs : j.subject with
    | entry e => exact absurd hs (hentry e)
    | claim c => exact absurd hs (hclaim c)
    | peer p =>
      rw [hs] at hpeer
      cases hpeer
    | station => rfl

theorem State.notice_form (s : State) (x : Subject) (n : Notice) : ∃ items, s.notice x n = { s with attention := items } ∧
    ((∀ j ∈ s.attention, j.subject = x) → ∀ j ∈ items, j.subject = x ∧ j.notice = n) := by
  unfold State.notice
  split
  · refine ⟨_, rfl, fun h j hj => ?_⟩
    obtain ⟨i, hi, rfl⟩ := List.mem_map.mp hj
    rw [if_pos (h i hi)]
    exact ⟨rfl, rfl⟩
  · next hnone =>
    refine ⟨_, rfl, fun h j hj => ?_⟩
    rcases List.mem_append.mp hj with hj | hj
    · exact absurd (List.any_eq_true.mpr ⟨j, hj, beq_iff_eq.mpr (h j hj)⟩ : s.attention.any (·.subject == x) = true) hnone
    · rw [List.mem_singleton.mp hj]
      exact ⟨rfl, rfl⟩

theorem State.completeLife_form (s : State) (st : Status) : ∃ cplq flying,
    s.completeLife st = { s with lifeCmd := none, cplq := cplq, inFlight := flying } ∧
      ∀ t, s.lifeCmd = some t → .plain t st none none none ∈ cplq := by
  cases hlife : s.lifeCmd with
  | none =>
    rw [State.completeLife_none hlife]
    exact ⟨s.cplq, s.inFlight, by rw [← hlife], nofun⟩
  | some t =>
    rw [State.completeLife_some hlife]
    refine ⟨_, _, rfl, fun t' ht => ?_⟩
    cases ht
    exact List.mem_append_right _ List.mem_cons_self

theorem State.leaveJoining_form (s : State) (hitems : ∀ j ∈ s.attention, j.subject = .station) :
    ∃ items cplq flying, s.leaveJoining = { s with
        station := .unconfigured, probeOutstanding := false, announceAwaited := 0, lifeCmd := none, cplq := cplq,
        inFlight := flying, attention := items } ∧
      (∀ j ∈ items, j.subject = .station ∧ j.notice = .station .numberConflict none) ∧ items ≠ [] ∧
      ∀ t, s.lifeCmd = some t → .plain t .numberConflict none none none ∈ cplq := by
  obtain ⟨cplq, flying, hlife, hcompleted⟩ := State.completeLife_form
    { s with station := .unconfigured, probeOutstanding := false, announceAwaited := 0 } .numberConflict
  unfold State.leaveJoining
  rw [hlife]
  obtain ⟨k, hk, -⟩ := State.mem_notice { s with
    station := .unconfigured, probeOutstanding := false, announceAwaited := 0, lifeCmd := none, cplq := cplq,
    inFlight := flying } .station (.station .numberConflict none)
  obtain ⟨items, hnotice, hall⟩ := State.notice_form { s with
    station := .unconfigured, probeOutstanding := false, announceAwaited := 0, lifeCmd := none, cplq := cplq,
    inFlight := flying } .station (.station .numberConflict none)
  rw [hnotice] at hk ⊢
  exact ⟨items, cplq, flying, rfl, hall hitems, List.ne_nil_of_mem hk, hcompleted⟩

/-- The station after the leaving order: nothing in its queues, tables or partition, and one item. -/
theorem State.leaveRing_spec (s : State) :
    s.leaveRing.station = .unconfigured ∧ s.leaveRing.port = .bypass ∧ s.leaveRing.txq = [] ∧ s.leaveRing.handover = [] ∧
      s.leaveRing.rx = [] ∧ s.leaveRing.heldFrame = none ∧ s.leaveRing.fwd = [] ∧ s.leaveRing.records = [] ∧
      s.leaveRing.borrow = [] ∧ (∀ c, s.leaveRing.claim c = .free (s.claim c).use) ∧
      (∀ p, s.leaveRing.peers.get p = .initial) ∧ s.leaveRing.prevInc = s.prevInc ∧
      (∀ j ∈ s.leaveRing.attention, j.subject = .station ∧ j.notice = .station .numberConflict none) ∧
      s.leaveRing.attention ≠ [] ∧ s.leaveRing.lifeCmd = none ∧
      (∀ t, s.lifeCmd = some t → (.plain t .numberConflict none none none) ∈ s.leaveRing.cplq) ∧
      s.leaveRing.outside = { s.outside with homeCount := 0, borrowCount := 0, window := Vector.replicate 32 .empty } := by
  obtain ⟨_, _, _, claims, items, _, _, hleft, hfree, hstation⟩ := s.leftRing_form
  obtain ⟨items', cplq, _, hleave, hitem, hsome, hcompleted⟩ :=
    s.leftRing.leaveJoining_form (by rw [hleft]; exact hstation)
  have hpeer (p : Station) : (Vector.replicate 16 Peer.initial).get p = .initial := by
    rw [get_eq_getElem, Vector.getElem_replicate]
  rw [hleft] at hleave hcompleted
  rw [show s.leaveRing = s.leftRing.leaveJoining from rfl, hleft, hleave]
  exact ⟨rfl, rfl, rfl, rfl, rfl, rfl, rfl, rfl, rfl, hfree, hpeer, rfl, hitem, hsome, rfl, hcompleted, rfl⟩

/-- The held frame goes on once the self probe has its outcome. -/
theorem State.releaseHeld_some {e : RxEntry} (hheld : s.heldFrame = some e) (hprobe : s.probeOutstanding = false) :
    s.releaseHeld = State.handleFrame { s with heldFrame := none } e := by
  unfold State.releaseHeld
  rw [hheld]
  dsimp only
  rw [if_neg (by rw [hprobe]; nofun)]

theorem State.settleEvent_of_drained {u v : State} (hdrain : u.drain = v) (hcplq : u.cplq = v.cplq) (hquiet : v.Quiet) :
    u.settleEvent = v := by
  rw [← State.settleEvent_of_quiet v hquiet]
  unfold State.settleEvent
  rw [hdrain, hcplq, State.drain_of_no_mail v hquiet.1]

/-- Settles O46: the outcome of the self probe brings the announcements, or the leaving order. -/
theorem selfProbeOutcomes : Obligations.SelfProbeOutcomes := by
  unfold Obligations.SelfProbeOutcomes
  intro s bytes f hport hparse hsrc
  have hexec : exec (.frameReceived bytes) s = .next (s.sortFrame f).settleEvent := exec_frameReceived_sorted hport hparse
  refine ⟨fun e hinc htxq hawaits hdest hresp hlist hmail hheld hprobe hstation => ?_,
    fun e held hinc htxq hawaits hdest hresp hlist hmail hheld hprobe hstation => ?_,
    fun i e hinc hi he hdest hresp => ?_, fun hisProbe h => ?_, fun hisProbe hinc => ?_⟩
  · obtain ⟨bufs, hcplq, hdrain⟩ := State.probe_outcome hport hsrc hinc htxq hawaits hdest hresp hlist hmail hprobe
    refine ⟨({ s with outBuf := bufs, handover := [], mail := [] } : State).probed,
      hexec.trans (congrArg Host.Outcome.next ?_), rfl, rfl, rfl⟩
    exact State.settleEvent_of_drained hdrain hcplq
      (State.quiet_of_no_mail _ rfl (Or.inl hheld) fun h => nomatch hstation.symm.trans h)
  · obtain ⟨bufs, hcplq, hdrain⟩ := State.probe_outcome hport hsrc hinc htxq hawaits hdest hresp hlist hmail hprobe
    refine ⟨{ ({ s with outBuf := bufs, handover := [], mail := [] } : State).probed with heldFrame := none }, rfl, rfl, rfl,
      rfl, rfl, rfl, rfl, rfl, rfl, rfl, hexec.trans (congrArg Host.Outcome.next ?_), fun hnone => ?_,
      fun p hp => ⟨fun hnone => ?_, fun m hm => ?_⟩⟩
    · unfold State.settleEvent
      rw [hdrain, hcplq]
      refine congrArg (fun x : State => x.drain.teardown.testDetach.orderFrom s.cplq.length) ?_
      exact State.releaseHeld_some (s := State.probed { s with outBuf := bufs, handover := [], mail := [] }) hheld rfl
    · unfold State.handleFrame
      rw [hnone]
    · unfold State.handleFrame
      rw [hp]
      dsimp only
      rw [hnone]
    · unfold State.handleFrame
      rw [hp]
      dsimp only
      rw [hm]
  · obtain ⟨bufs, hremoved⟩ := s.removeEntry_eq i e
    have hsort : s.sortFrame f = (s.removeEntry i e).leaveRing := by
      rw [State.sortFrame_own hsrc hinc, State.strip_awaited hi he, hresp]
      show s.outcomeTaken i e = _
      unfold State.outcomeTaken
      dsimp only
      rw [if_pos (by rw [hremoved]; exact hdest)]
    have hspec := (s.removeEntry i e).leaveRing_spec
    refine ⟨_, hexec.trans (by rw [hsort]), ?_⟩
    rw [hremoved] at hspec ⊢
    exact hspec
  · refine hexec.trans (congrArg (fun x : State => Host.Outcome.next x.settleEvent) ?_)
    unfold State.sortFrame
    rw [if_pos hsrc]
    by_cases hinc : f.inc = s.inc
    · obtain ⟨hnone, hout⟩ := h.resolve_left (not_not_intro hinc)
      rw [if_pos hinc, State.strip, hnone, hisProbe, hout]
      rfl
    · rw [if_neg hinc, if_pos hisProbe]
      rfl
  · refine hexec.trans (congrArg (fun x : State => Host.Outcome.next x.settleEvent) ?_)
    unfold State.sortFrame
    rw [if_pos hsrc, if_neg hinc, if_neg (by rw [hisProbe]; nofun)]

end Sys2Proof.Machine
end

section
/-! PROOFS. The timers of the transmit queue and of the recalls. -/

namespace Sys2Proof.Machine

variable {s : State}

/-! ### The timers of the transmit queue -/

section SendTimers

variable {j : Fin 16} {e : TxEntry}

theorem exec_returnTimer_running (he : s.txq[j.val]? = some e) (hst : e.st = .circulating)
    (hrun : e.returnTimer.mode = .running) : exec (.returnTimerExpiry j) s = .next (s.returnExpired j e) := by
  show execReturnTimerExpiry j s = _
  unfold execReturnTimerExpiry
  rw [he]
  dsimp only
  rw [if_pos ⟨hst, hrun⟩]

theorem exec_returnTimer_idle (h : ∀ e, s.txq[j.val]? = some e → e.st ≠ .circulating ∨ e.returnTimer.mode ≠ .running) :
    exec (.returnTimerExpiry j) s = .next s := by
  show execReturnTimerExpiry j s = _
  unfold execReturnTimerExpiry
  split
  · next e he =>
    rw [if_neg]
    rintro ⟨hst, hrun⟩
    exact (h e he).elim (· hst) (· hrun)
  · rfl

theorem exec_retryTimer_running (he : s.txq[j.val]? = some e) (hst : e.st = .retry) (hrun : e.retryTimer.mode = .running) :
    exec (.retryTimerExpiry j) s = .next { s with txq := s.txq.set j { e with st := .due false, retryTimer := .off } } := by
  show execRetryTimerExpiry j s = _
  unfold execRetryTimerExpiry
  rw [he]
  dsimp only
  rw [if_pos ⟨hst, hrun⟩]

theorem exec_retryTimer_idle (h : ∀ e, s.txq[j.val]? = some e → e.st ≠ .retry ∨ e.retryTimer.mode ≠ .running) :
    exec (.retryTimerExpiry j) s = .next s := by
  show execRetryTimerExpiry j s = _
  unfold execRetryTimerExpiry
  split
  · next e he =>
    rw [if_neg]
    rintro ⟨hst, hrun⟩
    exact (h e he).elim (· hst) (· hrun)
  · rfl

/-- Entering STALLED touches the port, the pausable timers and the station's item. -/
theorem State.enterStalled_eq (s : State) : s.enterStalled =
    { s.mapPausable .pause with port := .stalled, attention := s.enterStalled.attention } := by
  unfold State.enterStalled State.notice
  split <;> rfl

/-- Settles O49: by the port's state, and in ACTIVE by the count of expiries. -/
theorem sendTimersMakeEntriesDue : Obligations.SendTimersMakeEntriesDue := by
  unfold Obligations.SendTimersMakeEntriesDue
  have hlimit : Config.expiryLimit = 8 := rfl
  refine fun s j => ⟨fun e he => ⟨fun hst hrun => ⟨fun hport hfew => ?_, fun hport hmany => ?_, fun hport => ?_⟩, fun h => ?_,
    exec_retryTimer_running he, fun h => ?_⟩, fun hnone => ⟨?_, ?_⟩⟩
  · rw [exec_returnTimer_running he hst hrun, State.returnExpired, if_pos hport]
    dsimp only
    rw [if_neg (by omega)]
  · rw [exec_returnTimer_running he hst hrun, State.returnExpired, if_pos hport]
    dsimp only
    rw [if_pos (by omega)]
    have hstalled := State.enterStalled_eq
      { s with txq := s.txq.set j { e with st := .due true, expiry := e.expiry + 1, returnTimer := .off } }
    have hitem := State.mem_notice (State.mapPausable { s with
        txq := s.txq.set j { e with st := .due true, expiry := e.expiry + 1, returnTimer := .off }, port := .stalled } .pause)
      .station (.station .stalled none)
    refine ⟨_, rfl, ?_, ?_, fun c => ?_, ?_, hitem, ?_⟩
    · rw [hstalled]
    · rw [hstalled]
      rfl
    · rw [hstalled]
      exact State.claim_mapPausable (s := s) .pause c
    · rw [hstalled]
      rfl
    · rw [hstalled]
      rfl
  · rw [exec_returnTimer_running he hst hrun, State.returnExpired, if_neg hport]
  · exact exec_returnTimer_idle fun e' he' => by
      cases he.symm.trans he'
      exact h
  · exact exec_retryTimer_idle fun e' he' => by
      cases he.symm.trans he'
      exact h
  · exact exec_returnTimer_idle fun e he => by cases hnone.symm.trans he
  · exact exec_retryTimer_idle fun e he => by cases hnone.symm.trans he

end SendTimers

/-! ### The recall timer -/

variable {n : Byte} {r : DirRecord} {k : Recall}

/-- The record with its recall resent once more. -/
def State.resent (s : State) (r : DirRecord) (k : Recall) : DirRecord :=
  { r with recalling := some { k with sends := k.sends + 1, timer := s.startPausable } }

theorem State.recallExpired_resends (hr : s.record? n = some r) (hk : r.recalling = some k)
    (hrun : k.timer.mode = .running) (hfew : k.sends < 4) :
    s.recallExpired n = (s.setRecord n (s.resent r k)).sendRecalls n := by
  unfold State.recallExpired
  rw [hr]
  dsimp only
  rw [hk]
  dsimp only
  rw [if_pos hrun, if_pos (show k.sends < Config.recallSends from hfew)]
  rfl

theorem State.recallExpired_damages (hr : s.record? n = some r) (hk : r.recalling = some k)
    (hrun : k.timer.mode = .running) (hmany : 4 ≤ k.sends)
    (hholder : r.holder.any (fun h => k.awaiting.contains h.station) = true) : s.recallExpired n = s.damage n := by
  unfold State.recallExpired
  rw [hr]
  dsimp only
  rw [hk]
  dsimp only
  rw [if_pos hrun, if_neg (show ¬ k.sends < Config.recallSends from Nat.not_lt.mpr hmany), if_pos hholder]

/-- The record whose awaited readers have left. -/
def DirRecord.exhausted (r : DirRecord) (k : Recall) : DirRecord :=
  { r with
    readers := r.readers.filter fun d => !k.awaiting.contains d.station,
    recalling := some { k with awaiting := [] } }

theorem State.recallExpired_exhausts (hr : s.record? n = some r) (hk : r.recalling = some k)
    (hrun : k.timer.mode = .running) (hmany : 4 ≤ k.sends)
    (hholder : r.holder.any (fun h => k.awaiting.contains h.station) = false) :
    s.recallExpired n = (s.setRecord n (r.exhausted k)).afterAnswer n := by
  unfold State.recallExpired
  rw [hr]
  dsimp only
  rw [hk]
  dsimp only
  rw [if_pos hrun, if_neg (show ¬ k.sends < Config.recallSends from Nat.not_lt.mpr hmany),
    if_neg (by rw [hholder]; nofun)]
  rfl

theorem State.resent_spec (hr : s.record? n = some r) (k : Recall) :
    ((s.setRecord n (s.resent r k)).sendRecalls n).record? n = some (s.resent r k) ∧
      RecordOnly s ((s.setRecord n (s.resent r k)).sendRecalls n) n ∧
      ((s.setRecord n (s.resent r k)).sendRecalls n).SentAs (s.recallsTo n k.kind (r.copiesOf k.kind k.awaiting)) := by
  have hrecord := State.record?_setRecord_same s n (s.resent r k) r hr
  have honly := RecordOnly.setRecord s n (s.resent r k)
  have hsent : (s.setRecord n (s.resent r k)).SentAs s := ⟨rfl, rfl, rfl, rfl⟩
  refine ⟨(State.record?_sendRecalls _ n n).trans hrecord, honly.trans (RecordOnly.sendRecalls _ n), ?_⟩
  rw [State.sendRecalls_sent _ n (s.resent r k) { k with sends := k.sends + 1, timer := s.startPausable } hrecord rfl]
  exact State.recallsTo_congr hsent honly.port (own_of_outside honly.outside) n k.kind _

/-- Settles O50: a resend, the damage of a held record, or the readers that leave. -/
theorem recallTimerResendsThenExhausts : Obligations.RecallTimerResendsThenExhausts := by
  unfold Obligations.RecallTimerResendsThenExhausts
  refine fun s n r k hr hk hrun => ⟨fun hfew => ?_, fun hmany hholder => ?_, fun hmany hholder => ?_⟩
  · obtain ⟨hrecord, honly, hsent⟩ := State.resent_spec hr k
    refine ⟨_, congrArg (fun x : State => Host.Outcome.next x.settleEvent) (State.recallExpired_resends hr hk hrun hfew),
      hrecord, hsent, honly.other, honly.claims, honly.outside⟩
  · obtain ⟨hrecord, hsent, hclaims, hother⟩ := State.damage_spec hr
    exact ⟨_, congrArg (fun x : State => Host.Outcome.next x.settleEvent)
      (State.recallExpired_damages hr hk hrun hmany hholder), hrecord, hsent, hother, hclaims, (RecordOnly.damage s n).outside⟩
  · have hrecord := State.record?_setRecord_same s n (r.exhausted k) r hr
    have honly := RecordOnly.setRecord s n (r.exhausted k)
    have hafter := honly.trans (RecordOnly.afterAnswer (s.setRecord n (r.exhausted k)) n)
    exact ⟨_, congrArg (fun x : State => Host.Outcome.next x.settleEvent)
      (State.recallExpired_exhausts hr hk hrun hmany hholder),
      State.afterAnswer_servedAs hrecord honly ⟨rfl, rfl, rfl, rfl⟩,
      fun hqueue => State.record?_afterAnswer _ n _ hrecord hqueue, hafter.claims, hafter.outside⟩

end Sys2Proof.Machine
end

section
/-! PROOFS. The timers of a claim: the wait that gives a request up, the re-ask, and the hold period with the recall
deferred for it. -/

namespace Sys2Proof.Machine

variable {s : State} {c : ClaimIdx}

/-! ### The wait timer -/

/-- The claim's request given up by cause `k`, its wait timer off. -/
def State.waitOver (s : State) (c : ClaimIdx) : State := s.modClaim c fun cl => { cl with wait := .off }

theorem State.waitOver_claim (s : State) (c : ClaimIdx) : (s.waitOver c).claim c = { s.claim c with wait := .off } :=
  State.claim_modClaim s c _

theorem State.waitExpired_running (hstate : (s.claim c).state = .asking) (hrun : (s.claim c).wait.mode = .running) :
    s.waitExpired c = (s.waitOver c).giveUpAsk c .timedOut := by
  unfold State.waitExpired
  dsimp only
  rw [if_pos ⟨hstate, hrun⟩]
  rfl

/-- What giving up does to a request that stands: a WITHDRAW. -/
theorem State.waitOver_standing (hask : (s.claim c).askStanding = true) :
    let x := (s.waitOver c).giveUpAsk c .timedOut
    x.claim c = { s.claim c with state := .withdrawing, wait := .off, cause := some .timedOut } ∧ x.cplq = s.cplq ∧
      ClaimOnly s x c ∧
      ∀ b, (s.claim c).block = some b → x.SentAs (s.sendHome c (.withdraw b { claim := c, use := (s.claim c).use })) := by
  have hclaim := s.waitOver_claim c
  have hbefore : ClaimOnly s (s.waitOver c) c := ClaimOnly.modClaim s c _
  have hsent : (s.waitOver c).SentAs s := s.modClaim_sent c _
  have hcplq : (s.waitOver c).cplq = s.cplq := rfl
  generalize s.waitOver c = y at hclaim hbefore hsent hcplq
  obtain ⟨honly, hdone, hwithdrawn⟩ := State.withdrawAsk_spec y c .timedOut
  dsimp only
  rw [State.giveUpAsk_standing (by rw [hclaim]; exact hask), hwithdrawn, hclaim]
  refine ⟨rfl, hdone.trans hcplq, hbefore.trans honly, fun b hb => ?_⟩
  have hwithdraw := State.withdrawAsk_sent y c .timedOut b (by rw [hclaim]; exact hb)
  rw [hclaim] at hwithdraw
  exact hwithdraw.trans (hsent.sendHome hbefore.port hbefore.own c _ (by rw [hclaim]) (by rw [hclaim]))

/-- What giving up does to a request that does not stand: the attempt ends at once. -/
theorem State.waitOver_waiting (hask : (s.claim c).askStanding = false) :
    let x := (s.waitOver c).giveUpAsk c .timedOut
    ClaimOnly s x c ∧
      x.cplq = s.cplq ++ ((s.claim c).pendingCmd.toList.map fun t => .plain t .timedOut (some c) none none) ++
        ((s.claim c).pendingCancel.toList.map fun t => .plain t .ok (some c) none none) ∧
      ((s.claim c).held = none → (x.claim c).state = (if s.refCount c = 0 then .free else .ended) ∧ x.SentAs (s.disown c)) ∧
      ((s.claim c).held ≠ none → (x.claim c).state = .held ∧ (x.claim c).held = (s.claim c).held ∧
        (x.claim c).gen = (s.claim c).gen ∧ x.SentAs s) := by
  have hclaim : ((s.waitOver c).modClaim c fun cl => { cl with reask := .off }).claim c =
      { s.claim c with wait := .off, reask := .off } := by
    rw [State.claim_modClaim, s.waitOver_claim c]
  have hbefore : ClaimOnly s ((s.waitOver c).modClaim c fun cl => { cl with reask := .off }) c :=
    (ClaimOnly.modClaim s c _).trans (.modClaim _ c _)
  have hsent : ((s.waitOver c).modClaim c fun cl => { cl with reask := .off }).SentAs s := ⟨rfl, rfl, rfl, rfl⟩
  have hcplq : ((s.waitOver c).modClaim c fun cl => { cl with reask := .off }).cplq = s.cplq := rfl
  dsimp only
  rw [State.giveUpAsk_waiting (by rw [s.waitOver_claim c]; exact hask)]
  generalize ((s.waitOver c).modClaim c fun cl => { cl with reask := .off }) = y at hclaim hbefore hsent hcplq
  obtain ⟨honly, -, hfree, hshared, hdone⟩ := State.giveUp_spec y c .timedOut
  obtain ⟨hsentFree, hsentShared⟩ := State.giveUp_sent y c .timedOut
  rw [hclaim] at hfree hshared hdone hsentFree hsentShared
  refine ⟨hbefore.trans honly, ?_, fun hnone => ⟨?_, (hsentFree hnone).trans (hsent.disown c)⟩, fun hheld => ?_⟩
  · rw [hdone, hcplq]
    rfl
  · rw [hfree hnone, hbefore.refCount c]
  · rw [hshared hheld]
    exact ⟨rfl, rfl, rfl, (hsentShared hheld).trans hsent⟩

/-! ### The re-ask timer -/

theorem State.reaskExpired_running {mode : Mode} (hstate : (s.claim c).state = .asking)
    (hrun : (s.claim c).reask.mode = .running) (hsought : (s.claim c).sought = some mode) :
    s.reaskExpired c = s.claimAsk c mode false := by
  unfold State.reaskExpired
  dsimp only
  rw [if_pos ⟨hstate, hrun⟩, hsought]

/-- An asking claim asks again: its ASK stands. -/
theorem State.claimAsk_again {mode : Mode} (hstate : (s.claim c).state = .asking) (hsought : (s.claim c).sought = some mode) :
    ClaimOnly s (s.claimAsk c mode false) c ∧ (s.claimAsk c mode false).cplq = s.cplq ∧
      (s.claimAsk c mode false).claim c = { s.claim c with askStanding := true, reask := .off } ∧
      ∀ b, (s.claim c).block = some b →
        (s.claimAsk c mode false).SentAs (s.sendHome c (.ask b mode { claim := c, use := (s.claim c).use })) := by
  have hasked : ({ s.claim c with
      state := .asking, sought := some mode, askStanding := true, wait := (s.claim c).wait, reask := .off } : Claim) =
      { s.claim c with askStanding := true, reask := .off } := by
    rw [← hstate, ← hsought]
  have hspec : ClaimOnly s (s.claimAsk c mode false) c ∧ (s.claimAsk c mode false).cplq = s.cplq ∧
      (s.claimAsk c mode false).claim c = { s.claim c with
        state := .asking, sought := some mode, askStanding := true, wait := (s.claim c).wait, reask := .off } := by
    unfold State.claimAsk
    dsimp only
    split
    · exact ⟨(ClaimOnly.modClaim s c _).trans (ClaimOnly.sendHome _ c _), State.sendHome_cplq _ _ _,
        (State.sendHome_claim _ _ _ _).trans (State.claim_modClaim s c _)⟩
    · exact ⟨ClaimOnly.modClaim s c _, rfl, State.claim_modClaim s c _⟩
  obtain ⟨honly, hcplq, hclaim⟩ := hspec
  refine ⟨honly, hcplq, hclaim.trans hasked, fun b hb => ?_⟩
  rw [State.claimAsk_eq s c mode false b hb]
  exact (s.setClaim_sent c _).sendHome rfl rfl c _ (by rw [State.claim_setClaim_same]) (by rw [State.claim_setClaim_same])

/-! ### The hold timer -/

/-- The hold period of claim `c` is over. -/
def State.holdOver (s : State) (c : ClaimIdx) : State := s.modClaim c fun cl => { cl with hold := .off }

theorem State.holdOver_claim (s : State) (c : ClaimIdx) : (s.holdOver c).claim c = { s.claim c with hold := .off } :=
  State.claim_modClaim s c _

theorem State.holdExpired_running (hrun : (s.claim c).hold.mode = .running) :
    s.holdExpired c = (s.holdOver c).actDeferred c := by
  unfold State.holdExpired
  have hholds : (s.claim c).holdRunning = true := beq_iff_eq.mpr hrun
  rw [if_pos hholds]
  rfl

/-- The recall deferred is acted on once the claim neither fills nor is held. -/
theorem State.actDeferred_due {k : RecallKind} {g : Byte} (hdeferred : (s.claim c).deferred = some (k, g))
    (hstate : (s.claim c).state ≠ .filling) (hhold : (s.claim c).holdRunning = false) :
    s.actDeferred c = (s.modClaim c fun cl => { cl with deferred := none }).actRecall c k := by
  unfold State.actDeferred
  dsimp only
  rw [hdeferred]
  refine if_neg fun h => ?_
  rcases h with h | h
  · exact hstate h
  · cases hhold.symm.trans h

/-- A SHARED copy is recalled from a claim that asks for more: it is dropped, and the request stays. -/
theorem State.actRecall_dropCopy (hstate : (s.claim c).state = .asking ∨ (s.claim c).state = .withdrawing)
    (hheld : (s.claim c).held = some .shared) : s.actRecall c .drop = s.dropCopy c := by
  have hfits : (s.claim c).fits .drop = true := by
    unfold Claim.fits
    rw [if_neg (by rcases hstate with h | h <;> rw [h] <;> nofun), hheld]
  unfold State.actRecall
  dsimp only
  rw [if_pos hfits]
  rcases hstate with h | h <;> rw [h]

/-- An own claim gives its SHARED copy back at once. -/
theorem State.startDrop_own_state {k : GiveCause} {b : Block} {g : Byte} (hb : (s.claim c).block = some b)
    (hg : (s.claim c).gen = some g) (hhome : b.home = s.own) :
    ((s.startDrop c k).claim c).state = if s.refCount c = 0 then .free else .ended := by
  unfold State.startDrop
  dsimp only
  have hclaim := State.claim_modClaim s c fun cl => { cl with state := .dropping, deferred := none, giving := some k }
  have honly := ClaimOnly.modClaim s c fun cl => { cl with state := .dropping, deferred := none, giving := some k }
  generalize (s.modClaim c fun cl => { cl with state := .dropping, deferred := none, giving := some k }) = y at hclaim honly
  have hsent := honly.trans (ClaimOnly.sendHome y c (.dropped b g))
  rw [hclaim]
  dsimp only
  rw [hb, hg]
  dsimp only
  rw [if_pos (by rw [hsent.own]; exact hhome), State.finishGive_state, hsent.refCount c]
  rw [State.sendHome_claim, hclaim]
  nofun

theorem State.startReturn_own {kept : Bool} {k : GiveCause} {b : Block} {g : Byte} (hb : (s.claim c).block = some b)
    (hg : (s.claim c).gen = some g) (hhome : b.home = s.own) :
    s.startReturn c kept k = ((s.modClaim c (·.givingBack kept k)).sendHome c (.returned b g kept 0)).finishGive c := by
  have hclaim := State.claim_modClaim s c (·.givingBack kept k)
  have hown : (s.modClaim c (·.givingBack kept k)).own = s.own := rfl
  unfold State.startReturn
  dsimp only
  rw [hclaim, show ((s.claim c).givingBack kept k).block = some b from hb,
    show ((s.claim c).givingBack kept k).gen = some g from hg]
  dsimp only
  rw [if_pos (hhome.trans hown.symm)]

/-- An own claim gives its EXCLUSIVE copy back at once. -/
theorem State.startReturn_own_state {k : GiveCause} {b : Block} {g : Byte} (hb : (s.claim c).block = some b)
    (hg : (s.claim c).gen = some g) (hhome : b.home = s.own) :
    ((s.startReturn c false k).claim c).state = if s.refCount c = 0 then .free else .ended := by
  have honly := (ClaimOnly.modClaim s c (·.givingBack false k)).trans (ClaimOnly.sendHome _ c (.returned b g false 0))
  rw [State.startReturn_own hb hg hhome, State.finishGive_state, honly.refCount c]
  rw [State.sendHome_claim, State.claim_modClaim]
  nofun

/-- An own claim is demoted at once. -/
theorem State.startReturn_own_demoted {k : GiveCause} {b : Block} {g : Byte} (hb : (s.claim c).block = some b)
    (hg : (s.claim c).gen = some g) (hhome : b.home = s.own) :
    (s.startReturn c true k).claim c = { s.claim c with
      deferred := none, state := .held, held := some .shared, sought := none, dirty := [], giving := none, ret := none } := by
  have hclaim : ((s.modClaim c (·.givingBack true k)).sendHome c (.returned b g true 0)).claim c =
      (s.claim c).givingBack true k := (State.sendHome_claim _ _ _ _).trans (State.claim_modClaim s c _)
  rw [State.startReturn_own hb hg hhome, State.finishGive_demoting, hclaim]
  · rfl
  · rw [hclaim]
    rfl

section Deferred

variable {k : RecallKind} {g gr : Byte} {b : Block}

/-- What the deferred recall does to an own claim: its copy goes back to the directory at once. -/
theorem State.actDeferred_own (hdeferred : (s.claim c).deferred = some (k, gr)) (hstate : (s.claim c).state = .held)
    (hhold : (s.claim c).holdRunning = false) (hb : (s.claim c).block = some b) (hg : (s.claim c).gen = some g)
    (hhome : b.home = s.own) :
    ((s.claim c).held = some .shared → k = .drop →
      ((s.actDeferred c).claim c).state = (if s.refCount c = 0 then .free else .ended) ∧
      (s.actDeferred c).SentAs ((s.disown c).pushMail (.toDirectory (.dropped b g)))) ∧
    ((s.claim c).held = some .exclusive → k = .surrender →
      ((s.actDeferred c).claim c).state = (if s.refCount c = 0 then .free else .ended) ∧
      (s.actDeferred c).SentAs ((s.disown c).pushMail (.toDirectory (.returned b g false 0)))) ∧
    ((s.claim c).held = some .exclusive → k = .demote →
      (s.actDeferred c).claim c = { s.claim c with
        deferred := none, state := .held, held := some .shared, sought := none, dirty := [], giving := none, ret := none } ∧
      (s.actDeferred c).SentAs (s.pushMail (.toDirectory (.returned b g true 0)))) := by
  rw [State.actDeferred_acts hdeferred hstate hhold]
  have hclaim := State.claim_modClaim s c fun cl => { cl with deferred := none }
  have honly := ClaimOnly.modClaim s c fun cl => { cl with deferred := none }
  have hsent := s.modClaim_sent c fun cl => { cl with deferred := none }
  generalize (s.modClaim c fun cl => { cl with deferred := none }) = y at hclaim honly hsent
  have hb' : (y.claim c).block = some b := by rw [hclaim]; exact hb
  have hg' : (y.claim c).gen = some g := by rw [hclaim]; exact hg
  have hhome' : b.home = y.own := by rw [honly.own]; exact hhome
  have hheld : (y.claim c).held = (s.claim c).held := by rw [hclaim]
  rw [State.actRecall_held y c k (by rw [hclaim]; exact hstate), hheld]
  refine ⟨fun hmode hk => ?_, fun hmode hk => ?_, fun hmode hk => ?_⟩
  · rw [hmode, hk, ← honly.refCount c]
    exact ⟨State.startDrop_own_state hb' hg' hhome',
      (State.startDrop_own_sent y c .recalled b g hb' hg' hhome').trans ((hsent.disown c).pushMail _)⟩
  · rw [hmode, hk, ← honly.refCount c]
    exact ⟨State.startReturn_own_state hb' hg' hhome',
      ((State.startReturn_own_sent y c false .recalled b g hb' hg' hhome').1 rfl).trans ((hsent.disown c).pushMail _)⟩
  · rw [hmode, hk]
    refine ⟨(State.startReturn_own_demoted hb' hg' hhome').trans ?_,
      ((State.startReturn_own_sent y c true .recalled b g hb' hg' hhome').2 rfl).trans (hsent.pushMail _)⟩
    rw [hclaim]

/-- What the deferred recall does to an upgrading claim: it loses its copy, and keeps its request. -/
theorem State.actDeferred_upgrading (hdeferred : (s.claim c).deferred = some (.drop, gr))
    (hstate : (s.claim c).state = .asking ∨ (s.claim c).state = .withdrawing) (hheld : (s.claim c).held = some .shared)
    (hhold : (s.claim c).holdRunning = false) (hb : (s.claim c).block = some b) (hg : (s.claim c).gen = some g) :
    (s.actDeferred c).claim c = { s.claim c with deferred := none, held := none } ∧
      (s.actDeferred c).SentAs (s.sendHome c (.dropped b g)) ∧
      ∃ i ∈ (s.actDeferred c).attention, i.subject = .claim c ∧
        i.notice = .claim .copyDropped (s.claim c).use (s.claim c).block := by
  have hnotFilling : (s.claim c).state ≠ .filling := by
    rcases hstate with h | h <;> rw [h] <;> nofun
  rw [State.actDeferred_due hdeferred hnotFilling hhold]
  have hclaim := State.claim_modClaim s c fun cl => { cl with deferred := none }
  have honly := ClaimOnly.modClaim s c fun cl => { cl with deferred := none }
  have hsent := s.modClaim_sent c fun cl => { cl with deferred := none }
  generalize (s.modClaim c fun cl => { cl with deferred := none }) = y at hclaim honly hsent
  obtain ⟨hdropped, hdrop, hitem⟩ := State.dropCopy_spec y c b g (by rw [hclaim]; exact hb) (by rw [hclaim]; exact hg)
  rw [State.actRecall_dropCopy (by rw [hclaim]; exact hstate) (by rw [hclaim]; exact hheld)]
  rw [hclaim] at hdropped hitem
  exact ⟨hdropped, hdrop.trans (hsent.sendHome honly.port honly.own c _ (by rw [hclaim]) (by rw [hclaim])), hitem⟩

end Deferred

/-- Settles O51: each timer's expiry is one action on the claim. -/
theorem claimTimersAct : Obligations.ClaimTimersAct := by
  unfold Obligations.ClaimTimersAct
  refine fun s c => ⟨fun hstate hrun => ?_, fun hstate hrun mode hsought => ?_, fun hrun => ?_⟩
  · refine ⟨_, congrArg (fun x : State => Host.Outcome.next x.settleEvent) (State.waitExpired_running hstate hrun), ?_⟩
    cases hask : (s.claim c).askStanding with
    | true =>
      obtain ⟨hclaim, hcplq, honly, hsent⟩ := State.waitOver_standing hask
      exact ⟨fun _ => ⟨hclaim, hcplq, hsent⟩, nofun, honly.other, honly.records, honly.outside⟩
    | false =>
      obtain ⟨honly, hcplq, hfree, hshared⟩ := State.waitOver_waiting hask
      refine ⟨nofun, fun _ t hcmd hcancel => ⟨?_, hfree, hshared⟩, honly.other, honly.records, honly.outside⟩
      rw [hcplq, hcmd, hcancel]
      exact List.append_nil _
  · obtain ⟨honly, hcplq, hclaim, hsent⟩ := State.claimAsk_again hstate hsought
    refine ⟨_, congrArg (fun x : State => Host.Outcome.next x.settleEvent) (State.reaskExpired_running hstate hrun hsought),
      hclaim, hsent, fun blk hb hhome hport hlist haccept => ?_, honly.other, honly.records, hcplq, honly.outside⟩
    have hasked := hsent blk hb
    rw [State.sendHome_remote s c _ blk hb hhome] at hasked
    exact hasked.accepted hport hlist haccept
  · refine ⟨_, congrArg (fun x : State => Host.Outcome.next x.settleEvent) (State.holdExpired_running hrun), ?_⟩
    have hclaim := s.holdOver_claim c
    have honly : ClaimOnly s (s.holdOver c) c := ClaimOnly.modClaim s c _
    have hsent : (s.holdOver c).SentAs s := s.modClaim_sent c _
    have hturn : (s.holdOver c).claimTurn = s.claimTurn := rfl
    generalize s.holdOver c = y at hclaim honly hsent hturn
    have hafter := honly.trans (ClaimOnly.actDeferred y c)
    have hhold : (y.claim c).holdRunning = false := by
      rw [hclaim]
      rfl
    refine ⟨fun hnone => ?_, fun kind g blk gen hdeferred hb hg => ?_, hafter.other, hafter.records, hafter.outside⟩
    · rw [State.actDeferred_waiting (Or.inl (by rw [hclaim]; exact hnone))]
      exact ⟨hclaim, hsent⟩
    · have hdeferred' : (y.claim c).deferred = some (kind, g) := by rw [hclaim]; exact hdeferred
      have hb' : (y.claim c).block = some blk := by rw [hclaim]; exact hb
      have hg' : (y.claim c).gen = some gen := by rw [hclaim]; exact hg
      have haccess : y.access = s.access := congrArg Outside.access honly.outside
      refine ⟨fun hstate hhome => ?_, fun hstate hhome => ?_, fun hstate hheld hkind => ?_⟩
      · obtain ⟨hdrop, hreturn⟩ := State.actDeferred_begun hdeferred' (by rw [hclaim]; exact hstate) hhold hb' hg'
          (by rw [honly.own]; exact hhome)
        rw [hclaim] at hdrop hreturn
        refine ⟨fun hheld hkind => (hdrop hkind hheld).of_sentAs hsent honly.port, fun hheld hkind => ?_,
          fun hheld hkind => ?_⟩
        · subst hkind
          exact (hreturn nofun hheld).of_sentAs hsent honly.port haccess hturn
        · subst hkind
          exact (hreturn nofun hheld).of_sentAs hsent honly.port haccess hturn
      · obtain ⟨hshared, hsurrender, hdemote⟩ := State.actDeferred_own hdeferred' (by rw [hclaim]; exact hstate) hhold hb'
          hg' (by rw [honly.own]; exact hhome)
        rw [hclaim, honly.refCount c] at hshared hsurrender
        rw [hclaim] at hdemote
        refine ⟨fun hheld hkind => ?_, fun hheld hkind => ?_, fun hheld hkind => ?_⟩
        · obtain ⟨hended, hdropped⟩ := hshared hheld hkind
          exact ⟨hended, hdropped.trans ((hsent.disown c).pushMail _)⟩
        · obtain ⟨hended, hreturned⟩ := hsurrender hheld hkind
          exact ⟨hended, hreturned.trans ((hsent.disown c).pushMail _)⟩
        · obtain ⟨hdemoted, hreturned⟩ := hdemote hheld hkind
          exact ⟨hdemoted, hreturned.trans (hsent.pushMail _)⟩
      · subst hkind
        obtain ⟨hdropped, hdrop, hitem⟩ := State.actDeferred_upgrading hdeferred' (by rw [hclaim]; exact hstate)
          (by rw [hclaim]; exact hheld) hhold hb' hg'
        rw [hclaim] at hdropped hitem
        exact ⟨hdropped, hdrop.trans (hsent.sendHome honly.port honly.own c _ (by rw [hclaim]) (by rw [hclaim])), hitem⟩

end Sys2Proof.Machine
end

section
/-! PROOFS. The frame formats: a frame from its bytes, and a message from its frame. -/

namespace Sys2Proof.Machine

/-! ### Bytes -/

/-- A word of two bytes from its high and its low byte. -/
theorem extract_append_bytes (c : BitVec 16) : (c.extractLsb' 8 8 ++ c.extractLsb' 0 8 : BitVec 16) = c := by
  apply BitVec.eq_of_getLsbD_eq
  intro i hi
  rw [BitVec.getLsbD_append, BitVec.getLsbD_extractLsb', BitVec.getLsbD_extractLsb']
  by_cases h : i < 8
  · simp [h]
  · have : 8 + (i - 8) = i := by omega
    simp [h, this]
    omega

theorem Frame.body_length (f : Frame) : f.body.length = 12 + f.payload.length := by
  unfold Frame.body
  rw [List.length_append]
  rfl

theorem Frame.bytes_length (f : Frame) : f.bytes.length = 14 + f.payload.length := by
  unfold Frame.bytes
  dsimp only
  rw [List.length_append, f.body_length]
  simp only [List.length_cons, List.length_nil]
  omega

/-- The check value stands after the body. -/
theorem Frame.bytes_check (f : Frame) :
    f.bytes.take (f.bytes.length - 2) = f.body ∧
      (f.bytes.getD (f.bytes.length - 2) 0 ++ f.bytes.getD (f.bytes.length - 1) 0 : BitVec 16) = crc16 f.body := by
  have hlast : f.bytes.length - 2 = f.body.length := by
    rw [f.bytes_length, f.body_length]
    omega
  have hend : f.bytes.length - 1 = f.body.length + 1 := by
    rw [f.bytes_length, f.body_length]
    omega
  rw [hlast, hend]
  unfold Frame.bytes
  dsimp only
  refine ⟨List.take_left, ?_⟩
  rw [List.getD_eq_getElem?_getD, List.getD_eq_getElem?_getD, List.getElem?_append_right (Nat.le_refl _),
    List.getElem?_append_right (Nat.le_add_right _ 1), Nat.sub_self, Nat.add_sub_cancel_left]
  exact extract_append_bytes _

theorem Frame.bytes_len (f : Frame) : f.bytes.getD 11 0 = f.len := rfl

theorem Frame.ofBytes_bytes (f : Frame) : Frame.ofBytes f.bytes = f := by
  have hpayload : (f.bytes.drop 12).take (f.bytes.length - 14) = f.payload := by
    rw [f.bytes_length, Nat.add_sub_cancel_left]
    exact List.take_left
  unfold Frame.ofBytes
  rw [hpayload]
  rfl

/-- A frame whose length agrees with its length code is intact as sent. -/
theorem parseFrame_bytes {f : Frame}
    (h : (f.len = 0 ∧ f.payload = []) ∨ (f.len = 1 ∧ f.payload.length = Config.chunkBytes)) :
    parseFrame f.bytes = some f := by
  obtain ⟨hbody, hcheck⟩ := f.bytes_check
  have hintact : intact f.bytes = true := by
    unfold intact
    rw [hbody, hcheck, beq_self_eq_true, Bool.and_true, f.bytes_length, f.bytes_len]
    rcases h with ⟨hlen, hpayload⟩ | ⟨hlen, hpayload⟩
    · rw [hlen, hpayload]
      rfl
    · rw [hlen, hpayload]
      rfl
  unfold parseFrame
  rw [if_pos hintact, f.ofBytes_bytes]

/-! ### Messages -/

section Messages

variable {own dest : Station} {inc : Byte} {m : Lease} {payload : List Byte}

theorem Mode.code_le (m : Mode) : m.code ≤ 2 := by cases m <;> decide
theorem DenyReason.code_le (r : DenyReason) : r.code ≤ 5 := by cases r <;> decide
theorem RecallKind.code_le (k : RecallKind) : k.code ≤ 3 := by cases k <;> decide

theorem Lease.arg1Value_lt (m : Lease) : m.arg1Value < 128 := by
  cases m with
  | ask b mode t => exact Nat.lt_of_le_of_lt mode.code_le (by decide)
  | grant b g mode data t =>
    have := mode.code_le
    show mode.code + (if data then 0 else 4) < 128
    split <;> omega
  | deny b reason t => exact Nat.lt_of_le_of_lt reason.code_le (by decide)
  | chunk b g i => exact Nat.lt_trans i.isLt (by decide)
  | recallCopy b g k => exact Nat.lt_of_le_of_lt k.code_le (by decide)
  | returned b g kept n =>
    show (if kept then 1 else 0) < 128
    split <;> omega
  | _ => exact (by decide : 0 < 128)

theorem modeOfCode_code (m : Mode) : modeOfCode m.code = some m := by cases m <;> rfl
theorem denyOfCode_code (r : DenyReason) : denyOfCode r.code = some r := by cases r <;> rfl
theorem recallOfCode_code (k : RecallKind) : recallOfCode k.code = some k := by cases k <;> rfl

/-- A message without a tag has its own value alone in argument 1. -/
theorem Lease.arg1_toNat (h : m.tag? = none) : m.arg1.toNat = m.arg1Value := by
  have := m.arg1Value_lt
  unfold Lease.arg1
  rw [h, BitVec.toNat_ofNat]
  simp only [Option.any_none, Bool.false_eq_true, if_false]
  omega

/-- A message with a tag: its own value, and the tag from its two parts. -/
theorem Lease.arg1_tagged {t : Tag} (h : m.tag? = some t) :
    m.arg1.toNat % 128 = m.arg1Value ∧ Tag.ofParts (m.arg1.getLsbD 7) t.low = t := by
  obtain ⟨hhigh, hvalue⟩ := arg1_parts m.arg1Value t.high m.arg1Value_lt
  have harg : m.arg1 = BitVec.ofNat 8 (m.arg1Value + if t.high then 128 else 0) := by
    unfold Lease.arg1
    rw [h]
    rfl
  rw [harg, hhigh]
  exact ⟨hvalue, t.ofParts_parts⟩

theorem decodeBody_encodeLease {b : Block} (hring : m.onRing = true) (hb : m.block? = some b) :
    decodeBody (encodeLease own inc dest m payload) b = some m := by
  cases m with
  | announce => cases hb
  | ask b' mode t =>
    cases hb
    obtain ⟨hvalue, htag⟩ := Lease.arg1_tagged (m := .ask b mode t) rfl
    show (modeOfCode ((Lease.ask b mode t).arg1.toNat % 128)).map
      (fun x => Lease.ask b x (Tag.ofParts ((Lease.ask b mode t).arg1.getLsbD 7) t.low)) = _
    rw [hvalue, htag, show (Lease.ask b mode t).arg1Value = mode.code from rfl, modeOfCode_code]
    rfl
  | withdraw b' t =>
    cases hb
    obtain ⟨hvalue, htag⟩ := Lease.arg1_tagged (m := .withdraw b t) rfl
    show (if (Lease.withdraw b t).arg1.toNat % 128 = 0
      then some (Lease.withdraw b (Tag.ofParts ((Lease.withdraw b t).arg1.getLsbD 7) t.low)) else none) = _
    rw [hvalue, htag]
    rfl
  | withdrawn b' t =>
    cases hb
    obtain ⟨hvalue, htag⟩ := Lease.arg1_tagged (m := .withdrawn b t) rfl
    show (if (Lease.withdrawn b t).arg1.toNat % 128 = 0
      then some (Lease.withdrawn b (Tag.ofParts ((Lease.withdrawn b t).arg1.getLsbD 7) t.low)) else none) = _
    rw [hvalue, htag]
    rfl
  | grant b' g mode data t =>
    cases hb
    obtain ⟨hvalue, htag⟩ := Lease.arg1_tagged (m := .grant b g mode data t) rfl
    have hcode : grantOfCode (Lease.grant b g mode data t).arg1Value = some (mode, data) := by
      cases mode with
      | shared => cases data with
        | true => rfl
        | false => cases hring
      | exclusive => cases data <;> rfl
    show (grantOfCode ((Lease.grant b g mode data t).arg1.toNat % 128)).map
      (fun x => Lease.grant b g x.1 x.2 (Tag.ofParts ((Lease.grant b g mode data t).arg1.getLsbD 7) t.low)) = _
    rw [hvalue, htag, hcode]
    rfl
  | deny b' reason t =>
    cases hb
    obtain ⟨hvalue, htag⟩ := Lease.arg1_tagged (m := .deny b reason t) rfl
    show (denyOfCode ((Lease.deny b reason t).arg1.toNat % 128)).map
      (fun x => Lease.deny b x (Tag.ofParts ((Lease.deny b reason t).arg1.getLsbD 7) t.low)) = _
    rw [hvalue, htag, show (Lease.deny b reason t).arg1Value = reason.code from rfl, denyOfCode_code]
    rfl
  | chunk b' g i =>
    cases hb
    have hvalue : (Lease.chunk b g i).arg1.toNat = i.val := Lease.arg1_toNat rfl
    show (if h : (Lease.chunk b g i).arg1.toNat < 32 then some (Lease.chunk b g ⟨(Lease.chunk b g i).arg1.toNat, h⟩)
      else none) = _
    rw [dif_pos (by rw [hvalue]; exact i.isLt)]
    exact congrArg (fun x => some (Lease.chunk b g x)) (Fin.ext hvalue)
  | recallCopy b' g k =>
    cases hb
    show (recallOfCode (Lease.recallCopy b g k).arg1.toNat).map (fun x => Lease.recallCopy b g x) = _
    rw [Lease.arg1_toNat rfl, show (Lease.recallCopy b g k).arg1Value = k.code from rfl, recallOfCode_code]
    rfl
  | dropped b' g =>
    cases hb
    rfl
  | returned b' g kept n =>
    cases hb
    have hkept : (Lease.returned b g kept n).arg1.toNat = if kept then 1 else 0 := Lease.arg1_toNat rfl
    have hcount : (BitVec.ofNat 8 n.val).toNat = n.val := by
      rw [BitVec.toNat_ofNat]
      omega
    have hrange : (Lease.returned b g kept n).arg1.toNat < 2 ∧ (BitVec.ofNat 8 n.val).toNat < 33 := by
      rw [hkept, hcount]
      refine ⟨?_, n.isLt⟩
      split <;> omega
    have hflag : ((Lease.returned b g kept n).arg1.toNat == 1) = kept := by
      rw [hkept]
      cases kept <;> rfl
    show (if h : (Lease.returned b g kept n).arg1.toNat < 2 ∧ (BitVec.ofNat 8 n.val).toNat < 33
      then some (Lease.returned b g ((Lease.returned b g kept n).arg1.toNat == 1) ⟨(BitVec.ofNat 8 n.val).toNat, h.2⟩)
      else none) = _
    rw [dif_pos hrange, hflag]
    exact congrArg (fun x => some (Lease.returned b g kept x)) (Fin.ext hcount)
  | notHeld b' g =>
    cases hb
    rfl

theorem Lease.kindCode_announce (m : Lease) : m.kindCode = 1 ↔ m.block? = none := by
  cases m <;> simp [Lease.kindCode, Lease.block?]

theorem Lease.kindCode_chunk (m : Lease) : (if m.hasPayload then (1 : Byte) else 0) = 1 ↔ m.kindCode = 7 := by
  cases m <;> simp [Lease.kindCode, Lease.hasPayload]

theorem decodeLease_encodeLease (hring : m.onRing = true) : decodeLease (encodeLease own inc dest m payload) = some m := by
  cases hb : m.block? with
  | none =>
    cases m with
    | announce => rfl
    | _ => cases hb
  | some b =>
    have hkind : ¬ (encodeLease own inc dest m payload).kind = 1 := fun h => by
      cases hb.symm.trans (m.kindCode_announce.mp h)
    have hlen : (encodeLease own inc dest m payload).len = 1 ↔ (encodeLease own inc dest m payload).kind = 7 :=
      m.kindCode_chunk
    have hhome : byteStation (encodeLease own inc dest m payload).home = some b.home := by
      unfold encodeLease
      rw [hb]
      exact byteStation_ofNat b.home
    have hindex : (encodeLease own inc dest m payload).index = b.index := by
      unfold encodeLease
      rw [hb]
      rfl
    unfold decodeLease
    rw [if_neg hkind, if_pos hlen, hhome, hindex]
    exact decodeBody_encodeLease hring hb

end Messages

/-- Settles O60: bytes and check value first, then each kind of message. -/
theorem framesAndMessagesReadBack : Obligations.FramesAndMessagesReadBack := by
  unfold Obligations.FramesAndMessagesReadBack
  refine ⟨fun f => parseFrame_bytes, fun own dest inc m payload hring hpayload => ⟨decodeLease_encodeLease hring, ?_, ?_⟩⟩
  · refine parseFrame_bytes ?_
    unfold encodeLease
    cases hm : m.hasPayload with
    | false => exact Or.inl ⟨rfl, rfl⟩
    | true => exact Or.inr ⟨rfl, hpayload hm⟩
  · rw [Frame.bytes_length]
    unfold encodeLease
    cases hm : m.hasPayload with
    | false => rfl
    | true => exact congrArg (14 + ·) (hpayload hm)

end Sys2Proof.Machine
end

section
/-! PROOFS. The head of the receive queue: which row takes it, the peer checks, and the purge of a peer that has restarted. -/

namespace Sys2Proof.Machine

variable {s : State}

/-! ### The row of the head -/

section Rows

variable {e : RxEntry} {row : Frame → Bool} {p : Station}

theorem State.handable_iff : s.handable = some e ↔
    s.txq.length < 16 ∧ s.handover = [] ∧ s.heldFrame = none ∧ s.rx.head? = some e := by
  have hroom : Config.txCapacity = 16 := rfl
  unfold State.handable State.canHandOnward
  rw [Option.ite_none_right_eq_some, hroom]
  simp only [Bool.and_eq_true, decide_eq_true_eq, List.isEmpty_iff, Option.isNone_iff_eq_none, and_assoc]

theorem State.handRow_none (h : s.handable = none) : s.handRow row = s := by
  unfold State.handRow
  rw [h]

theorem State.handRow_other (h : s.handable = some e) (hrow : row e.frame = false) : s.handRow row = s := by
  unfold State.handRow
  rw [h]
  dsimp only
  rw [if_neg (by rw [hrow]; nofun)]

theorem State.handRow_taken (h : s.handable = some e) (hrow : row e.frame = true) : s.handRow row = s.handOnward e := by
  unfold State.handRow
  rw [h]
  dsimp only
  rw [if_pos hrow]

theorem State.handOnward_held (hprobe : s.probeOutstanding = true) :
    s.handOnward e = { s with rx := s.rx.tail, heldFrame := some e } := by
  unfold State.handOnward
  dsimp only
  rw [if_pos hprobe]

theorem State.handOnward_handled (hprobe : s.probeOutstanding = false) :
    s.handOnward e = (State.handleFrame { s with rx := s.rx.tail } e).settleEvent := by
  unfold State.handOnward
  dsimp only
  rw [if_neg (by rw [hprobe]; nofun)]

theorem State.handleFrame_sourceless (h : sourceOf s.own e.frame.src = none) : s.handleFrame e = s.releaseIn e.buf := by
  unfold State.handleFrame
  rw [h]

theorem State.handleFrame_invalid (h : sourceOf s.own e.frame.src = some p) (hm : decodeLease e.frame = none) :
    s.handleFrame e = (s.checked p e.frame.inc).releaseIn e.buf := by
  unfold State.handleFrame
  rw [h]
  dsimp only
  rw [hm]

theorem State.handleFrame_valid {m : Lease} (h : sourceOf s.own e.frame.src = some p) (hm : decodeLease e.frame = some m) :
    s.handleFrame e = (s.checked p e.frame.inc).dispatch p m e.buf := by
  unfold State.handleFrame
  rw [h]
  dsimp only
  rw [hm]

/-- The rows that hand a frame onward, each with the frames that are its own. -/
def State.frameRows (s : State) : List (Instr × (Frame → Bool)) :=
  [(.announce, isKind 1), (.ask, isKind 2), (.withdraw, isKind 3), (.withdrawn, isKind 4), (.grant, isKind 5),
    (.deny, isKind 6), (.chunkAtHome, fun f => isKind 7 f && s.isHomeHere f),
    (.chunkAtClaim, fun f => isKind 7 f && !s.isHomeHere f), (.recallCopy, isKind 8), (.dropped, isKind 9),
    (.returned, isKind 10), (.notHeld, isKind 11), (.unknownKindFrame, fun f => f.kind == 0 || decide (11 < f.kind.toNat))]

theorem exec_frameRow : ∀ row ∈ s.frameRows, exec row.1 s = .next (s.handRow row.2) := by
  unfold State.frameRows
  simp only [List.forall_mem_cons]
  exact ⟨rfl, rfl, rfl, rfl, rfl, rfl, rfl, rfl, rfl, rfl, rfl, rfl, rfl, nofun⟩

end Rows

/-! ### The peer checks -/

section Checks

variable {p : Station} {inc : Byte}

theorem State.setPeer_get (s : State) (p : Station) (v : Peer) : (s.setPeer p v).peers.get p = v :=
  (get_set s.peers p p v).trans (if_pos rfl)

theorem State.notice_peers (s : State) (x : Subject) (n : Notice) : (s.notice x n).peers = s.peers := by
  rw [State.notice_eq]

theorem State.peerChecks_restarted {i : Byte} (hinc : (s.peers.get p).inc = some i) (h : i ≠ inc) :
    s.peerChecks p inc =
      (((s.losePeer p true []).purgeClaims p).setPeer p { presence := .present, inc := some inc }).notice (.peer p)
        (.peer .restarted (some inc)) := by
  have hpurge : (s.peers.get p).inc.any (· != inc) = true := by
    rw [hinc]
    exact bne_iff_ne.mpr h
  unfold State.peerChecks
  dsimp only
  rw [if_pos hpurge, if_pos hpurge]

theorem State.peerChecks_known (h : ∀ i, (s.peers.get p).inc = some i → i = inc) :
    s.peerChecks p inc =
      if (s.peers.get p).presence = .present then s.setPeer p { presence := .present, inc := some inc }
      else (s.setPeer p { presence := .present, inc := some inc }).notice (.peer p) (.peer .present (some inc)) := by
  have hpurge : ¬ (s.peers.get p).inc.any (· != inc) = true := by
    cases hinc : (s.peers.get p).inc with
    | none => nofun
    | some i => exact fun hne => bne_iff_ne.mp hne (h i hinc)
  unfold State.peerChecks
  dsimp only
  rw [if_neg hpurge, if_neg hpurge]

theorem State.peerChecks_peer (s : State) (p : Station) (inc : Byte) :
    (s.peerChecks p inc).peers.get p = { presence := .present, inc := some inc } := by
  by_cases h : ∃ i, (s.peers.get p).inc = some i ∧ i ≠ inc
  · obtain ⟨i, hi, hne⟩ := h
    rw [State.peerChecks_restarted hi hne, State.notice_peers, State.setPeer_get]
  · rw [State.peerChecks_known fun i hi => Classical.byContradiction fun hne => h ⟨i, hi, hne⟩]
    split
    · exact State.setPeer_get s p _
    · rw [State.notice_peers, State.setPeer_get]

end Checks

/-! ### The purge -/

section Purge

variable {c d : ClaimIdx} {p : Station} {i : Item}

theorem State.mem_notice_of_mem {x : Subject} {n : Notice} (hi : i ∈ s.attention) (hx : i.subject ≠ x) :
    i ∈ (s.notice x n).attention := by
  unfold State.notice
  split
  · exact List.mem_map.mpr ⟨i, hi, if_neg hx⟩
  · exact List.mem_append_left _ hi

/-- The end of a lease removes no item but the claim's own. -/
theorem State.mem_endLease_of_mem (r : EndReason) (a b : Status) (hi : i ∈ s.attention) (hx : i.subject ≠ .claim c) :
    i ∈ (s.endLease c r a b).attention := by
  have hcompleted : (((s.completePending c a none none).completeCancel c b).freeBorrow c).attention = s.attention :=
    (State.completeCancel_attention _ c b).trans (s.completePending_attention c a none none)
  unfold State.endLease
  generalize (((s.completePending c a none none).completeCancel c b).freeBorrow c) = v at hcompleted
  have hv : i ∈ v.attention := hcompleted ▸ hi
  dsimp only
  split
  · exact List.mem_filter.mpr ⟨hv, bne_iff_ne.mpr hx⟩
  · exact hv

theorem State.mem_loseClaim_of_mem (hi : i ∈ s.attention) (hx : i.subject ≠ .claim c) : i ∈ (s.loseClaim c).attention :=
  State.mem_notice_of_mem (State.mem_endLease_of_mem .lost .lost .lost hi hx) hx

/-- The completions that the loss of claim `c` brings. -/
def State.lostCompletions (s : State) (c : ClaimIdx) : List Completion :=
  ((s.claim c).pendingCmd.toList ++ (s.claim c).pendingCancel.toList).map fun t => .plain t .lost (some c) none none

theorem State.loseClaim_spec (s : State) (c : ClaimIdx) :
    ClaimOnly s (s.loseClaim c) c ∧
      ((s.loseClaim c).claim c).state = (if s.refCount c = 0 then .free else .ended) ∧
      ((s.loseClaim c).claim c).endReason = (if s.refCount c = 0 then none else some .lost) ∧
      (s.loseClaim c).cplq = s.cplq ++ s.lostCompletions c ∧
      ∃ i ∈ (s.loseClaim c).attention, i.subject = .claim c ∧
        i.notice = .claim .lost (s.claim c).use (s.claim c).block := by
  obtain ⟨honly, -, hclaim, hcplq⟩ := State.endLease_spec s c .lost .lost .lost
  unfold State.loseClaim
  dsimp only
  refine ⟨honly.trans (ClaimOnly.claimNotice _ c _ _), ?_, ?_, ?_, State.mem_notice _ _ _⟩
  · rw [State.claimNotice_claim, hclaim]
    split <;> rfl
  · rw [State.claimNotice_claim, hclaim]
    split <;> rfl
  · rw [State.claimNotice_cplq, hcplq, State.lostCompletions, List.map_append, List.append_assoc]

/-- Claim `c` of `s` is live and homed at `p`. -/
def State.purges (s : State) (p : Station) (c : ClaimIdx) : Bool := (s.claim c).live && (s.claim c).homedAt p

theorem State.purgeClaims_eq (s : State) (p : Station) :
    s.purgeClaims p = claimIdxs.foldl (fun t c => if t.purges p c then t.loseClaim c else t) s := rfl

/-- The LOST item of claim `c`, as it stood in `s`, is on the list of `t`. -/
def State.LostItem (s t : State) (c : ClaimIdx) : Prop :=
  ∃ i ∈ t.attention, i.subject = .claim c ∧ i.notice = .claim .lost (s.claim c).use (s.claim c).block

/-- Claim `c`, purged from `s`, has ended LOST in `t`. -/
def State.EndedLost (s t : State) (c : ClaimIdx) : Prop :=
  (t.claim c).state = (if s.refCount c = 0 then .free else .ended) ∧
    (t.claim c).endReason = (if s.refCount c = 0 then none else some .lost) ∧ s.LostItem t c

/-- The claims of `l` purged one after the other. -/
theorem State.foldl_loseClaim (p : Station) (l : List ClaimIdx) (hl : l.Nodup) (s : State) :
    let t := l.foldl (fun t c => if t.purges p c then t.loseClaim c else t) s
    t.records = s.records ∧
      t.cplq = s.cplq ++ l.flatMap (fun c => if s.purges p c then s.lostCompletions c else []) ∧
      (∀ c ∈ l, s.purges p c = true → s.EndedLost t c) ∧
      (∀ c, c ∉ l ∨ s.purges p c = false → t.claim c = s.claim c) ∧
      ∀ i ∈ s.attention, (∀ c ∈ l, i.subject ≠ .claim c) → i ∈ t.attention := by
  induction l generalizing s with
  | nil => exact ⟨rfl, (List.append_nil _).symm, nofun, fun _ _ => rfl, fun _ hi _ => hi⟩
  | cons d l ih =>
    obtain ⟨hd, hl⟩ := List.nodup_cons.mp hl
    have hstep : ∃ u : State, (if s.purges p d then s.loseClaim d else s) = u ∧ ClaimOnly s u d ∧
        u.cplq = s.cplq ++ (if s.purges p d then s.lostCompletions d else []) ∧
        (s.purges p d = true → s.EndedLost u d) ∧ (s.purges p d = false → u.claim d = s.claim d) ∧
        ∀ i ∈ s.attention, i.subject ≠ .claim d → i ∈ u.attention := by
      refine ⟨_, rfl, ?_⟩
      by_cases h : s.purges p d = true
      · obtain ⟨honly, hstate, hreason, hcplq, hitem⟩ := s.loseClaim_spec d
        rw [if_pos h, if_pos h]
        exact ⟨honly, hcplq, fun _ => ⟨hstate, hreason, hitem⟩, fun h' => (nomatch h.symm.trans h'),
          fun i hi hx => State.mem_loseClaim_of_mem hi hx⟩
      · rw [if_neg h, if_neg h]
        exact ⟨.refl s d, (List.append_nil _).symm, fun h' => absurd h' h, fun _ => rfl, fun i hi _ => hi⟩
    obtain ⟨u, hu, honly, hcplq, hends, hstays, hitems⟩ := hstep
    obtain ⟨hrecords, hcplq', hended, hkept, hitems'⟩ := ih hl u
    have hother (c : ClaimIdx) (hc : c ∈ l) : u.claim c = s.claim c := honly.other c fun h => hd (h ▸ hc)
    have hpurges (c : ClaimIdx) (hc : u.claim c = s.claim c) : u.purges p c = s.purges p c := by
      unfold State.purges
      rw [hc]
    intro t
    have ht : t = l.foldl (fun t c => if t.purges p c then t.loseClaim c else t) u := by
      show List.foldl _ (if s.purges p d then s.loseClaim d else s) l = _
      rw [hu]
    rw [ht]
    refine ⟨hrecords.trans honly.records, ?_, fun c hc hpurge => ?_, fun c hc => ?_, fun i hi hx => ?_⟩
    · have hsame : l.flatMap (fun c => if u.purges p c then u.lostCompletions c else []) =
          l.flatMap (fun c => if s.purges p c then s.lostCompletions c else []) := by
        refine congrArg List.flatten (List.map_congr_left fun c hc => ?_)
        rw [hpurges c (hother c hc), State.lostCompletions, hother c hc]
        rfl
      rw [hcplq', hcplq, hsame, List.flatMap_cons, List.append_assoc]
    · rcases List.mem_cons.mp hc with rfl | hc
      · obtain ⟨hstate, hreason, i, hi, hsubject, hnotice⟩ := hends hpurge
        have hclaim := hkept c (Or.inl hd)
        exact ⟨(congrArg Claim.state hclaim).trans hstate, (congrArg Claim.endReason hclaim).trans hreason, i,
          hitems' i hi (fun c' hc' h => hd (by cases hsubject.symm.trans h; exact hc')), hsubject, hnotice⟩
      · have hsame := hother c hc
        have := hended c hc ((hpurges c hsame).trans hpurge)
        unfold State.EndedLost State.LostItem at this ⊢
        rw [honly.refCount c, hsame] at this
        exact this
    · by_cases hcd : c = d
      · subst hcd
        rw [hkept c (Or.inl hd), hstays (hc.resolve_left fun h => h List.mem_cons_self)]
      · have hsame := honly.other c hcd
        rw [← hsame]
        exact hkept c (hc.imp (fun h hmem => h (List.mem_cons_of_mem d hmem)) fun h => (hpurges c hsame).trans h)
    · exact hitems' i (hitems i hi (hx d List.mem_cons_self)) fun c hc => hx c (List.mem_cons_of_mem d hc)

theorem State.purgeClaims_spec (s : State) (p : Station) :
    (s.purgeClaims p).records = s.records ∧
      (s.purgeClaims p).cplq = s.cplq ++ claimIdxs.flatMap (fun c => if s.purges p c then s.lostCompletions c else []) ∧
      (∀ c, s.purges p c = true → s.EndedLost (s.purgeClaims p) c) ∧
      ∀ c, s.purges p c = false → (s.purgeClaims p).claim c = s.claim c := by
  obtain ⟨hrecords, hcplq, hended, hkept, -⟩ := State.foldl_loseClaim p claimIdxs (List.nodup_finRange 32) s
  rw [s.purgeClaims_eq p]
  exact ⟨hrecords, hcplq, fun c => hended c (List.mem_finRange c), fun c h => hkept c (Or.inr h)⟩

end Purge

/-- Settles O52: the row of the head alone hands it onward, and a restarted peer is purged. -/
theorem headOfReceiveQueueIsHandedOnward : Obligations.HeadOfReceiveQueueIsHandedOnward := by
  unfold Obligations.HeadOfReceiveQueueIsHandedOnward
  refine fun s => ⟨fun row hrow => ?_, fun e => State.handable_iff, fun p inc => ⟨s.peerChecks_peer p inc,
    fun i hi hne => State.peerChecks_restarted hi hne, fun h hpresent => ?_, fun h habsent => ?_⟩, fun p => ?_⟩
  · rw [exec_frameRow (s := s) row hrow]
    refine ⟨fun hnone => by rw [State.handRow_none hnone], fun e he => ⟨fun hother => by rw [State.handRow_other he hother],
      fun htaken => ?_⟩⟩
    rw [State.handRow_taken he htaken]
    refine ⟨fun hprobe => by rw [State.handOnward_held hprobe], fun hprobe hsource => ?_, fun p hprobe hsource =>
      ⟨fun hinvalid => ?_, fun hannounce => ?_⟩⟩
    · rw [State.handOnward_handled hprobe, State.handleFrame_sourceless (s := { s with rx := s.rx.tail }) hsource]
    · rw [State.handOnward_handled hprobe, State.handleFrame_invalid (s := { s with rx := s.rx.tail }) hsource hinvalid]
      rfl
    · rw [State.handOnward_handled hprobe, State.handleFrame_valid (s := { s with rx := s.rx.tail }) hsource hannounce]
      rfl
  · rw [State.peerChecks_known h, if_pos hpresent]
  · rw [State.peerChecks_known h, if_neg habsent]
  · obtain ⟨hrecords, hcplq, hended, hkept⟩ := s.purgeClaims_spec p
    exact ⟨fun c hlive hhome => hended c (Bool.and_eq_true_iff.mpr ⟨hlive, hhome⟩),
      fun c hc => hkept c (Bool.and_eq_false_iff.mpr hc), hcplq, hrecords⟩

end Sys2Proof.Machine
end

section
/-! PROOFS. The requests that reach a record: an ASK by the table of cases, and a WITHDRAW. -/

namespace Sys2Proof.Machine

variable {s v : State} {e : RxEntry} {p : Station} {b : Block} {m : Lease} {mode : Mode} {tag : Tag} {r : DirRecord}

/-! ### Dispatch -/

/-- A message handed onward by the row of its kind is dispatched after the peer checks, and nothing outside changes. -/
theorem State.handRow_dispatch {row : Frame → Bool} (h : s.Handing e p m) (hrow : row e.frame = true) :
    s.handRow row = ((s.afterChecks e p).dispatch p m e.buf).settleEvent ∧
      ((s.afterChecks e p).dispatch p m e.buf).outside = s.outside :=
  ⟨State.handRow_of_handing h row hrow, (Within.refl _).dispatch.outside.trans (s.afterChecks_outside e p)⟩

theorem isKind_of_handing {k : Byte} (h : s.Handing e p m) (hk : m.kindCode = k) : isKind k e.frame = true := by
  unfold isKind
  rw [h.kind, hk]
  exact beq_self_eq_true k

/-! ### An ASK -/

theorem State.dirAsk_noBlock (hr : v.record? b.index = none) :
    v.dirAsk p b mode tag = v.dirSend p (.deny b .noBlock tag) := by
  unfold State.dirAsk
  dsimp only
  rw [hr]

theorem State.dirAsk_damaged (hr : v.record? b.index = some r) (hstate : r.state = .damaged) :
    v.dirAsk p b mode tag = v.dirSend p (.deny b .damaged tag) := by
  unfold State.dirAsk
  dsimp only
  rw [hr]
  dsimp only
  rw [if_pos hstate]

theorem State.dirAsk_leaving (hr : v.record? b.index = some r) (hstate : r.state ≠ .damaged)
    (hstation : v.station = .detaching) (hp : p ≠ v.own) :
    v.dirAsk p b mode tag = v.dirSend p (.deny b .leaving tag) := by
  unfold State.dirAsk
  dsimp only
  rw [hr]
  dsimp only
  rw [if_neg hstate, if_pos (Bool.and_eq_true_iff.mpr ⟨decide_eq_true hstation, bne_iff_ne.mpr hp⟩)]

/-- The request of a station that has one waiting. -/
theorem State.dirAsk_waiting {q : Request} (hr : v.record? b.index = some r) (hstate : r.state ≠ .damaged)
    (hstation : v.station ≠ .detaching) (hq : r.queue.find? (·.station == p) = some q) :
    v.dirAsk p b mode tag = if q.tag = tag then v else (v.setRecord b.index { r with
      queue := replaceRequest p { station := p, mode := mode, tag := tag } r.queue }).serve b.index := by
  unfold State.dirAsk
  dsimp only
  rw [hr]
  dsimp only
  rw [if_neg hstate, if_neg fun h => hstation (of_decide_eq_true (Bool.and_eq_true_iff.mp h).1), hq]

/-- The request of a station that has none waiting. -/
theorem State.dirAsk_new (hr : v.record? b.index = some r) (hstate : r.state ≠ .damaged)
    (hstation : v.station ≠ .detaching) (hq : ∀ q ∈ r.queue, q.station ≠ p) :
    v.dirAsk p b mode tag = if v.poolUsed ≥ 24 then v.dirSend p (.deny b .full tag) else (v.setRecord b.index { r with
      queue := r.queue ++ [{ station := p, mode := mode, tag := tag }] }).serve b.index := by
  have hfind : r.queue.find? (·.station == p) = none :=
    List.find?_eq_none.mpr fun q hmem => by rw [beq_iff_eq]; exact hq q hmem
  unfold State.dirAsk
  dsimp only
  rw [hr]
  dsimp only
  rw [if_neg hstate, if_neg fun h => hstation (of_decide_eq_true (Bool.and_eq_true_iff.mp h).1), hfind]
  rfl

/-! ### A WITHDRAW -/

theorem State.dirWithdraw_none (hr : v.record? b.index = none) : v.dirWithdraw p b tag = v := by
  unfold State.dirWithdraw
  rw [hr]

theorem State.dirWithdraw_some (hr : v.record? b.index = some r) (h : ∃ q ∈ r.queue, q.station = p ∧ q.tag = tag) :
    v.dirWithdraw p b tag = (v.setRecord b.index { r with
      queue := r.queue.filter fun q => !(q.station == p && q.tag == tag) }).dirSend p (.withdrawn b tag) := by
  obtain ⟨q, hmem, hstation, htag⟩ := h
  have hany : r.queue.any (fun q => q.station == p && q.tag == tag) = true :=
    List.any_eq_true.mpr ⟨q, hmem, Bool.and_eq_true_iff.mpr ⟨beq_iff_eq.mpr hstation, beq_iff_eq.mpr htag⟩⟩
  unfold State.dirWithdraw
  rw [hr]
  dsimp only
  rw [if_pos hany]

theorem State.dirWithdraw_unknown (hr : v.record? b.index = some r) (h : ∀ q ∈ r.queue, ¬ (q.station = p ∧ q.tag = tag)) :
    v.dirWithdraw p b tag = v := by
  have hany : ¬ r.queue.any (fun q => q.station == p && q.tag == tag) = true := by
    intro h'
    obtain ⟨q, hmem, hq⟩ := List.any_eq_true.mp h'
    obtain ⟨hstation, htag⟩ := Bool.and_eq_true_iff.mp hq
    exact h q hmem ⟨beq_iff_eq.mp hstation, beq_iff_eq.mp htag⟩
  unfold State.dirWithdraw
  rw [hr]
  dsimp only
  rw [if_neg hany]

theorem exec_ask_handing (h : s.Handing e p (.ask b mode tag)) : ∃ x : State, exec .ask s = .next x.settleEvent ∧
    x.outside = s.outside ∧
    x = if b.home = s.own then (s.afterChecks e p).dirAsk p b mode tag else s.afterChecks e p := by
  obtain ⟨hrow, houtside⟩ := State.handRow_dispatch h (isKind_of_handing h rfl)
  refine ⟨_, congrArg Host.Outcome.next hrow, houtside, ?_⟩
  rw [← s.afterChecks_own e p]
  rfl

theorem exec_withdraw_handing (h : s.Handing e p (.withdraw b tag)) : ∃ x : State, exec .withdraw s = .next x.settleEvent ∧
    x.outside = s.outside ∧
    x = if b.home = s.own then (s.afterChecks e p).dirWithdraw p b tag else s.afterChecks e p := by
  obtain ⟨hrow, houtside⟩ := State.handRow_dispatch h (isKind_of_handing h rfl)
  refine ⟨_, congrArg Host.Outcome.next hrow, houtside, ?_⟩
  rw [← s.afterChecks_own e p]
  rfl

/-- Settles O53: the cases of the two requests in the order of the table. -/
theorem requestsFollowTheTableOfCases : Obligations.RequestsFollowTheTableOfCases := by
  unfold Obligations.RequestsFollowTheTableOfCases
  refine fun s e p b mode tag => ⟨fun h => ?_, fun h => ?_⟩
  · obtain ⟨x, hexec, houtside, hx⟩ := exec_ask_handing h
    have hp : p ≠ (s.afterChecks e p).own := by
      rw [s.afterChecks_own e p]
      exact sourceOf_ne_own h.source
    refine ⟨x, hexec, houtside, fun hhome => hx.trans (if_neg hhome), fun hhome hr => ?_, fun r hhome hr =>
      ⟨fun hstate => ?_, fun hstate hstation => ?_, fun hstate hstation => ⟨fun q hq => ⟨fun htag => ?_, fun htag => ?_⟩,
        fun hq => ⟨fun hfull => ?_, fun hroom => ?_⟩⟩⟩⟩ <;> rw [if_pos hhome] at hx
    · exact hx.trans (State.dirAsk_noBlock hr)
    · exact hx.trans (State.dirAsk_damaged hr hstate)
    · exact hx.trans (State.dirAsk_leaving hr hstate hstation hp)
    · exact hx.trans ((State.dirAsk_waiting hr hstate hstation hq).trans (if_pos htag))
    · exact hx.trans ((State.dirAsk_waiting hr hstate hstation hq).trans (if_neg htag))
    · exact hx.trans ((State.dirAsk_new hr hstate hstation hq).trans (if_pos hfull))
    · exact hx.trans ((State.dirAsk_new hr hstate hstation hq).trans (if_neg (Nat.not_le.mpr hroom)))
  · obtain ⟨x, hexec, houtside, hx⟩ := exec_withdraw_handing h
    refine ⟨x, hexec, houtside, fun h => ?_, fun r hhome hr => ⟨fun hsome => ?_, fun hnone => ?_⟩⟩
    · by_cases hhome : b.home = s.own
      · rw [if_pos hhome] at hx
        exact hx.trans (State.dirWithdraw_none (h.resolve_left (not_not_intro hhome)))
      · exact hx.trans (if_neg hhome)
    · rw [if_pos hhome] at hx
      exact hx.trans (State.dirWithdraw_some hr hsome)
    · rw [if_pos hhome] at hx
      exact hx.trans (State.dirWithdraw_unknown hr hnone)

end Sys2Proof.Machine
end

section
/-! PROOFS. The service of a record's requests, round after round. -/

namespace Sys2Proof.Machine

variable {s : State} {n : Byte} {r : DirRecord} {q : Request} {rest : List Request} {h : Holder}

/-! ### One round -/

theorem State.serveLoop_step (k : Nat) (hr : s.record? n = some r) (hsettled : r.settled = true) (hq : r.queue = q :: rest) :
    State.serveLoop (k + 1) n s = State.serveLoop k n (s.serveHead n r q) := by
  rw [State.serveLoop, hr]
  dsimp only
  rw [if_pos hsettled, hq]

theorem State.serveLoop_unsettled (k : Nat) (hr : s.record? n = some r) (hsettled : r.settled = false) :
    State.serveLoop k n s = s := by
  cases k with
  | zero => rfl
  | succ k =>
    rw [State.serveLoop, hr]
    dsimp only
    rw [if_neg (by rw [hsettled]; nofun)]

theorem State.serve_eq_serveLoop (hr : s.record? n = some r) : s.serve n = State.serveLoop (r.queue.length + 1) n s := by
  unfold State.serve
  rw [hr]

/-- The head answered, the next request is served; with a recall begun, none is. -/
theorem State.serve_next {r' : DirRecord} (hr : s.record? n = some r) (hsettled : r.settled = true) (hq : r.queue = q :: rest)
    (hnext : (s.serveHead n r q).record? n = some r') (h : r'.queue = rest ∨ r'.settled = false) :
    s.serve n = (s.serveHead n r q).serve n := by
  rw [State.serve_eq_serveLoop hr, State.serveLoop_step _ hr hsettled hq]
  rcases h with h | h
  · rw [State.serve_eq_serveLoop hnext, hq, h]
    rfl
  · rw [State.serveLoop_unsettled _ hnext h, State.serve_of_unsettled _ n r' hnext h]

/-! ### What a round does -/

theorem State.serveHead_holder (hh : r.holder = some h) : s.serveHead n r q =
    if h.station = q.station then s.denyHead n r q else s.beginRecall n
      (match q.mode with
        | .shared => .demote
        | .exclusive => .surrender) [h.station] := by
  unfold State.serveHead
  rw [hh]
  dsimp only
  split
  · rfl
  · cases q.mode <;> rfl

theorem State.serveHead_shared (hh : r.holder = none) (hmode : q.mode = .shared) : s.serveHead n r q =
    if r.hasReader q.station then s.denyHead n r q else s.grantHead n r q (q.station != s.own) := by
  unfold State.serveHead
  rw [hh]
  dsimp only
  rw [hmode]

/-- The readers other than `p`, in the order of the list. -/
def DirRecord.others (r : DirRecord) (p : Station) : List Station := (r.readers.map (·.station)).filter (· != p)

theorem DirRecord.others_nil_iff {p : Station} : r.others p = [] ↔ ∀ d ∈ r.readers, d.station = p := by
  unfold DirRecord.others
  rw [List.filter_eq_nil_iff, List.forall_mem_map]
  refine forall_congr' fun d => forall_congr' fun _ => ?_
  rw [bne_iff_ne, Classical.not_not]

theorem State.serveHead_exclusive (hh : r.holder = none) (hmode : q.mode = .exclusive) (hothers : r.others q.station = []) :
    s.serveHead n r q = s.grantHead n r q (q.station != s.own && r.readers.isEmpty) := by
  unfold State.serveHead
  rw [hh]
  dsimp only
  rw [hmode]
  dsimp only
  cases hreaders : r.readers with
  | nil => rw [List.isEmpty_nil, if_pos rfl, Bool.and_true]
  | cons d l =>
    unfold DirRecord.others at hothers
    rw [hreaders] at hothers
    rw [List.isEmpty_cons, if_neg nofun, hothers, Bool.and_false]

theorem State.serveHead_recall (hh : r.holder = none) (hmode : q.mode = .exclusive) (hothers : r.others q.station ≠ []) :
    s.serveHead n r q = s.beginRecall n .drop (r.others q.station) := by
  have hreaders : ¬ r.readers.isEmpty = true := by
    rw [List.isEmpty_iff]
    intro hnil
    unfold DirRecord.others at hothers
    rw [hnil] at hothers
    exact hothers rfl
  unfold State.serveHead
  rw [hh]
  dsimp only
  rw [hmode]
  dsimp only
  rw [if_neg hreaders]
  unfold DirRecord.others at hothers ⊢
  split
  · next hnil => exact absurd hnil hothers
  · rfl

/-! ### Denied, granted, recalled -/

theorem State.serve_denied (hr : s.record? n = some r) (hsettled : r.settled = true) (hq : r.queue = q :: rest)
    (hdenied : s.serveHead n r q = s.denyHead n r q) : s.serve n =
      ((s.setRecord n { r with queue := rest }).dirSend q.station (.deny (s.ownBlock n) .already q.tag)).serve n := by
  have hhead : s.denyHead n r q =
      (s.setRecord n { r with queue := rest }).dirSend q.station (.deny (s.ownBlock n) .already q.tag) := by
    unfold State.denyHead
    rw [hq]
    rfl
  have hnext : (s.serveHead n r q).record? n = some { r with queue := rest } := by
    rw [hdenied, hhead, State.record?_dirSend]
    exact State.record?_setRecord_same s n _ r hr
  rw [State.serve_next hr hsettled hq hnext (Or.inl rfl), hdenied, hhead]

theorem State.serve_recalled {kind : RecallKind} {awaiting : List Station} (hr : s.record? n = some r)
    (hsettled : r.settled = true) (hq : r.queue = q :: rest)
    (hrecall : s.serveHead n r q = s.beginRecall n kind awaiting) : s.serve n = s.beginRecall n kind awaiting := by
  have hrecord := State.record?_beginRecall s n kind awaiting r hr
  have hunsettled : ({ r with recalling := some { kind := kind, awaiting := awaiting, sends := 1, timer := s.startPausable } }
      : DirRecord).settled = false := by
    rw [← Bool.not_eq_true, DirRecord.settled_iff]
    rintro ⟨-, hnone, -⟩
    cases hnone
  rw [State.serve_next hr hsettled hq (by rw [hrecall]; exact hrecord) (Or.inr hunsettled), hrecall,
    State.serve_of_unsettled _ n _ hrecord hunsettled]

theorem State.grantHead_sent (s : State) (n : Byte) (r : DirRecord) (q : Request) (data : Bool) :
    (s.grantHead n r q data).SentAs (s.dirSend q.station (.grant (s.ownBlock n) (r.gen + 1) q.mode data q.tag)) := by
  unfold State.grantHead
  dsimp only
  split
  · exact State.SentAs.dirSend (u := s) (x := (s.setRecord n (r.granted q data)).setDirTurn _) ⟨rfl, rfl, rfl, rfl⟩ rfl rfl _ _
  · exact State.SentAs.dirSend (u := s) (x := s.setRecord n (r.granted q data)) ⟨rfl, rfl, rfl, rfl⟩ rfl rfl _ _

theorem State.serve_granted {data : Bool} (hr : s.record? n = some r) (hsettled : r.settled = true) (hq : r.queue = q :: rest)
    (hgrant : s.serveHead n r q = s.grantHead n r q data) : s.ServedAs (s.serve n) n (r.granted q data)
      (s.dirSend q.station (.grant (s.ownBlock n) (r.gen + 1) q.mode data q.tag)) := by
  have hrecord := State.record?_grantHead s n r q data hr
  have honly := RecordOnly.grantHead s n r q data
  have hqueue : (r.granted q data).queue = rest := by
    unfold DirRecord.granted
    rw [hq]
    rfl
  refine ⟨s.grantHead n r q data, ?_, hrecord, honly.other, s.grantHead_sent n r q data, honly.claims, honly.outside⟩
  rw [State.serve_next hr hsettled hq (by rw [hgrant]; exact hrecord) (Or.inl hqueue), hgrant]

theorem DirRecord.granted_shared {own : Station} (hq : r.queue = q :: rest) (hmode : q.mode = .shared) :
    r.granted q (q.station != own) = { r with
      gen := r.gen + 1, queue := rest, readers := r.readers ++ [{ station := q.station, gen := r.gen + 1 }],
      transfer := if q.station = own then none
        else some { target := q.station, mode := .shared, tag := q.tag, next := 0 } } := by
  unfold DirRecord.granted
  rw [hmode, hq]
  by_cases howned : q.station = own
  · rw [if_pos howned, if_neg (by rw [howned, bne_self_eq_false]; nofun)]
    rfl
  · rw [if_neg howned, if_pos (bne_iff_ne.mpr howned)]
    rfl

theorem DirRecord.granted_exclusive {own : Station} (hq : r.queue = q :: rest) (hmode : q.mode = .exclusive) :
    r.granted q (q.station != own && r.readers.isEmpty) = { r with
      gen := r.gen + 1, queue := rest, readers := [],
      holder := some { station := q.station, gen := r.gen + 1, returned := [], writes := 0, held := none },
      transfer := if q.station = own ∨ r.readers ≠ [] then none
        else some { target := q.station, mode := .exclusive, tag := q.tag, next := 0 } } := by
  have hdata : (q.station != own && r.readers.isEmpty) = true ↔ ¬ (q.station = own ∨ r.readers ≠ []) := by
    rw [Bool.and_eq_true, bne_iff_ne, List.isEmpty_iff, not_or, Classical.not_not]
  unfold DirRecord.granted
  rw [hmode, hq]
  by_cases hnone : q.station = own ∨ r.readers ≠ []
  · rw [if_pos hnone, if_neg fun h => hdata.mp h hnone]
    rfl
  · rw [if_neg hnone, if_pos (hdata.mpr hnone)]
    rfl

/-- Settles O54: one round at a time, and the recall that a round may begin. -/
theorem serviceFollowsTheTables : Obligations.ServiceFollowsTheTables := by
  unfold Obligations.ServiceFollowsTheTables
  refine fun s n r hr => ⟨fun h => ?_, fun q rest hsettled hq => ⟨fun d hd => ⟨fun hstation => ?_, fun hstation => ?_⟩,
    fun hnone hmode => ⟨fun hreader => ?_, fun hreader => ?_⟩, fun hnone hmode => ⟨fun hsole => ?_, fun hothers => ?_⟩⟩,
    fun kind awaiting => ?_⟩
  · rcases h with h | h
    · exact State.serve_of_unsettled s n r hr h
    · exact State.serve_of_no_request s n r hr h
  · exact State.serve_denied hr hsettled hq ((State.serveHead_holder hd).trans (if_pos hstation))
  · exact State.serve_recalled hr hsettled hq ((State.serveHead_holder hd).trans (if_neg hstation))
  · exact State.serve_denied hr hsettled hq ((State.serveHead_shared hnone hmode).trans (if_pos hreader))
  · have hserved := State.serve_granted hr hsettled hq
      ((State.serveHead_shared (s := s) (n := n) hnone hmode).trans (if_neg (by rw [hreader]; nofun)))
    rw [DirRecord.granted_shared hq hmode, hmode] at hserved
    exact hserved
  · have hserved := State.serve_granted hr hsettled hq
      (State.serveHead_exclusive (s := s) (n := n) hnone hmode (DirRecord.others_nil_iff.mpr hsole))
    rw [DirRecord.granted_exclusive hq hmode, hmode] at hserved
    exact hserved
  · refine State.serve_recalled hr hsettled hq (State.serveHead_recall hnone hmode fun hnil => ?_)
    obtain ⟨d, hd, hne⟩ := hothers
    exact hne (DirRecord.others_nil_iff.mp hnil d hd)
  · have honly := RecordOnly.beginRecall s n kind awaiting
    exact ⟨State.record?_beginRecall s n kind awaiting r hr, State.beginRecall_sent s n kind awaiting r hr, honly.other,
      honly.claims, honly.outside⟩

end Sys2Proof.Machine
end

section
/-! PROOFS. The answers that reach a record: those of a reader, and those that match no copy. -/

namespace Sys2Proof.Machine

variable {s v : State} {e : RxEntry} {p : Station} {b : Block} {n g : Byte} {r : DirRecord} {a : Answer}
  {buf : Option (Fin 4)}

theorem State.releaseIn_form (s : State) (buf : Option (Fin 4)) : ∃ w, s.releaseIn buf = { s with inBuf := w } := by
  cases buf with
  | none => exact ⟨s.inBuf, rfl⟩
  | some k => exact ⟨_, rfl⟩

theorem RecordOnly.inBuf {t : State} (h : RecordOnly s t n) : t.inBuf = s.inBuf := by
  obtain ⟨_, _, _, _, _, _, e⟩ := h.eq
  rw [e]

/-! ### Which copy the answer matches -/

theorem DirRecord.reader_any_iff : r.readers.any (fun d => d.station == p && d.gen == g) = true ↔
    ∃ d ∈ r.readers, d.station = p ∧ d.gen = g := by
  simp only [List.any_eq_true, Bool.and_eq_true, beq_iff_eq]

theorem DirRecord.reader_any_false (h : ∀ d ∈ r.readers, ¬ (d.station = p ∧ d.gen = g)) :
    ¬ r.readers.any (fun d => d.station == p && d.gen == g) = true := by
  rw [DirRecord.reader_any_iff]
  rintro ⟨d, hd, hcopy⟩
  exact h d hd hcopy

theorem State.dirAnswer_leaves (hr : v.record? n = some r) (hreader : ∃ d ∈ r.readers, d.station = p ∧ d.gen = g)
    (ha : a = .dropped ∨ a = .notHeld) : v.dirAnswer p n g a buf = v.readerLeaves n r p := by
  unfold State.dirAnswer
  rw [hr]
  dsimp only
  rw [if_pos (DirRecord.reader_any_iff.mpr hreader)]
  rcases ha with rfl | rfl <;> rfl

theorem State.dirAnswer_ignored (hr : v.record? n = some r) (hreader : ∃ d ∈ r.readers, d.station = p ∧ d.gen = g)
    (ha : a ≠ .dropped ∧ a ≠ .notHeld) : v.dirAnswer p n g a buf = v.answerIgnored n r p buf := by
  obtain ⟨hdropped, hnotHeld⟩ := ha
  unfold State.dirAnswer
  rw [hr]
  dsimp only
  rw [if_pos (DirRecord.reader_any_iff.mpr hreader)]
  split
  · exact absurd rfl hdropped
  · exact absurd rfl hnotHeld
  · rfl

theorem State.dirAnswer_holder {h : Holder} (hr : v.record? n = some r)
    (hreader : ∀ d ∈ r.readers, ¬ (d.station = p ∧ d.gen = g)) (hh : r.holder = some h) (hfrom : h.isFrom p g = true) :
    v.dirAnswer p n g a buf = v.holderAnswers n r h a buf := by
  unfold State.dirAnswer
  rw [hr]
  dsimp only
  rw [if_neg (DirRecord.reader_any_false hreader), hh]
  dsimp only
  rw [if_pos hfrom]

theorem State.dirAnswer_lost {h : Holder} (hr : v.record? n = some r)
    (hreader : ∀ d ∈ r.readers, ¬ (d.station = p ∧ d.gen = g)) (hh : r.holder = none) (hl : r.lost = some h)
    (hfrom : h.isFrom p g = true) : v.dirAnswer p n g a buf = v.lostAnswers n h a buf := by
  unfold State.dirAnswer
  rw [hr]
  dsimp only
  rw [if_neg (DirRecord.reader_any_false hreader), hh]
  dsimp only
  rw [hl]
  dsimp only
  rw [if_pos hfrom]

theorem State.dirAnswer_stale (hr : v.record? n = some r) (hreader : ∀ d ∈ r.readers, ¬ (d.station = p ∧ d.gen = g))
    (hh : ∀ h ∈ r.holder, h.isFrom p g = false) (hl : ∀ h ∈ r.lost, h.isFrom p g = false) :
    v.dirAnswer p n g a buf = v.releaseIn buf := by
  unfold State.dirAnswer
  rw [hr]
  dsimp only
  rw [if_neg (DirRecord.reader_any_false hreader)]
  split
  · next h hholder => rw [if_neg (by rw [hh h hholder]; nofun)]
  · split
    · next h hlost => rw [if_neg (by rw [hl h hlost]; nofun)]
    · rfl

/-! ### A reader leaves -/

/-- Record `r` without reader `p`, its recall perhaps left with nobody awaited. -/
def DirRecord.readerOut (r : DirRecord) (p : Station) : DirRecord :=
  { r with
    readers := r.readers.filter (·.station != p),
    transfer := r.transfer.filter (·.target != p),
    recalling := r.recalling.map fun k => { k with awaiting := k.awaiting.filter (· != p) } }

theorem DirRecord.withoutReader_eq (r : DirRecord) (p : Station) : r.withoutReader p = (r.readerOut p).overIfDone := rfl

theorem State.readerLeaves_eq (hr : v.record? n = some r) (p : Station) :
    ∃ u : State, v.readerLeaves n r p = u.afterAnswer n ∧ u.record? n = some (r.readerOut p) ∧ RecordOnly v u n ∧
      u.SentAs v := by
  unfold State.readerLeaves
  dsimp only
  refine ⟨_, rfl, ?_⟩
  by_cases htarget : r.transfer.any (·.target == p) = true
  · have hout : ({ r with transfer := none } : DirRecord).dropReader p = r.readerOut p := by
      unfold DirRecord.readerOut
      cases ht : r.transfer with
      | none => rw [ht] at htarget; cases htarget
      | some t =>
        rw [ht] at htarget
        rw [Option.filter_some, if_neg (by rw [bne_iff_ne, Classical.not_not]; exact beq_iff_eq.mp htarget)]
        rfl
    rw [if_pos htarget]
    refine ⟨?_, (RecordOnly.endTransfer v n).trans (RecordOnly.modRecord _ n _),
      (State.modRecord_sent _ n _).trans (State.endTransfer_sent v n)⟩
    rw [State.record?_modRecord, State.record?_endTransfer v n r hr, Option.map_some, hout]
  · have hout : r.dropReader p = r.readerOut p := by
      unfold DirRecord.readerOut DirRecord.dropReader
      cases ht : r.transfer with
      | none => rfl
      | some t =>
        rw [ht] at htarget
        rw [Option.filter_some, if_pos (bne_iff_ne.mpr fun h => htarget (beq_iff_eq.mpr h))]
    rw [if_neg htarget]
    refine ⟨?_, RecordOnly.modRecord v n _, State.modRecord_sent v n _⟩
    rw [State.record?_modRecord, hr, Option.map_some, hout]

theorem State.readerLeaves_served (hr : v.record? n = some r) (p : Station) :
    v.ServedAs (v.readerLeaves n r p) n (r.withoutReader p) v := by
  obtain ⟨u, hu, hrecord, honly, hsent⟩ := State.readerLeaves_eq hr p
  rw [hu]
  exact State.afterAnswer_servedAs hrecord honly hsent

theorem State.readerLeaves_record (hr : v.record? n = some r) (hq : r.queue = []) (p : Station) :
    (v.readerLeaves n r p).record? n = some (r.withoutReader p) := by
  obtain ⟨u, hu, hrecord, -, -⟩ := State.readerLeaves_eq hr p
  rw [hu]
  exact State.record?_afterAnswer u n _ hrecord hq

/-- What a recall that is over takes along, and what stays. -/
theorem DirRecord.overIfDone_parts (r : DirRecord) : r.overIfDone.readers = r.readers ∧ r.overIfDone.gen = r.gen ∧
    r.overIfDone.queue = r.queue ∧ r.overIfDone.holder = r.holder ∧ r.overIfDone.lost = r.lost ∧
    (∀ k ∈ r.overIfDone.recalling, k ∈ r.recalling) ∧ ∀ t ∈ r.overIfDone.transfer, t ∈ r.transfer := by
  unfold DirRecord.overIfDone
  split
  · exact ⟨rfl, rfl, rfl, rfl, rfl, nofun, nofun⟩
  · exact ⟨rfl, rfl, rfl, rfl, rfl, fun _ h => h, fun _ h => h⟩

theorem DirRecord.awaiting_without {k : Recall}
    (h : k ∈ r.recalling.map fun k => { k with awaiting := k.awaiting.filter (· != p) }) : p ∉ k.awaiting := by
  obtain ⟨k', -, rfl⟩ := Option.map_eq_some_iff.mp h
  intro hmem
  exact bne_iff_ne.mp (List.mem_filter.mp hmem).2 rfl

theorem DirRecord.withoutReader_parts (r : DirRecord) (p : Station) :
    (r.withoutReader p).readers = r.readers.filter (·.station != p) ∧ (r.withoutReader p).gen = r.gen ∧
      (r.withoutReader p).queue = r.queue ∧ (r.withoutReader p).holder = r.holder ∧ (r.withoutReader p).lost = r.lost ∧
      (∀ k ∈ (r.withoutReader p).recalling, p ∉ k.awaiting) ∧ ∀ t ∈ (r.withoutReader p).transfer, t.target ≠ p := by
  obtain ⟨hreaders, hgen, hqueue, hholder, hlost, hrecall, htransfer⟩ := (r.readerOut p).overIfDone_parts
  refine ⟨hreaders, hgen, hqueue, hholder, hlost, fun k hk => DirRecord.awaiting_without (hrecall k hk), fun t ht => ?_⟩
  exact bne_iff_ne.mp (Option.mem_filter_iff.mp (htransfer t ht)).2

/-! ### An answer ignored -/

theorem State.answerIgnored_plain (h : r.transfer.any (·.target == p) = false) :
    v.answerIgnored n r p buf = v.releaseIn buf := by
  unfold State.answerIgnored
  dsimp only
  rw [if_neg (by rw [h]; nofun)]

theorem State.answerIgnored_served (hr : v.record? n = some r) (h : r.transfer.any (·.target == p) = true) :
    (v.answerIgnored n r p buf).inBuf = (v.releaseIn buf).inBuf ∧
      v.ServedAs (v.answerIgnored n r p buf) n { r with transfer := none } v := by
  obtain ⟨w, hw⟩ := v.releaseIn_form buf
  have heq : v.answerIgnored n r p buf = ((v.releaseIn buf).endTransfer n).serve n := by
    unfold State.answerIgnored
    dsimp only
    rw [if_pos h]
  have hsent : (v.releaseIn buf).SentAs v := by
    rw [hw]
    exact ⟨rfl, rfl, rfl, rfl⟩
  have hr' : (v.releaseIn buf).record? n = some r := by
    rw [hw]
    exact hr
  have hserved := State.servedAs_of (State.record?_endTransfer (v.releaseIn buf) n r hr') (RecordOnly.endTransfer _ n)
    ((State.endTransfer_sent (v.releaseIn buf) n).trans hsent)
  rw [heq]
  refine ⟨((RecordOnly.endTransfer (v.releaseIn buf) n).trans (RecordOnly.serve _ n)).inBuf, hserved.of_same ?_ ?_ ?_⟩
  · rw [hw]
  · rw [hw]
  · rw [hw]
    rfl

/-! ### The obligation -/

/-- The answer row of a message of block `b` and generation `g`, with what the directory does about it. -/
theorem exec_answer {row : Instr} {m : Lease} (hb : b.home = s.own)
    (hrow : row = .dropped ∧ m = .dropped b g ∧ a = .dropped ∨ row = .notHeld ∧ m = .notHeld b g ∧ a = .notHeld ∨
      row = .returned ∧ (∃ kept k, m = .returned b g kept k ∧ a = .returned kept k) ∨
      row = .chunkAtHome ∧ ∃ i, m = .chunk b g i ∧ a = .chunk i) (h : s.Handing e p m) :
    exec row s = .next ((s.afterChecks e p).dirAnswer p b.index g a e.buf).settleEvent ∧
      ((s.afterChecks e p).dirAnswer p b.index g a e.buf).outside = s.outside := by
  obtain ⟨hdropped, hnotHeld, hreturned, hchunk⟩ := answers_reach_record (e := e) (p := p) (g := g) hb
  refine ⟨?_, (Within.refl _).dirAnswer.outside.trans (s.afterChecks_outside e p)⟩
  rcases hrow with ⟨rfl, rfl, rfl⟩ | ⟨rfl, rfl, rfl⟩ | ⟨rfl, kept, k, rfl, rfl⟩ | ⟨rfl, i, rfl, rfl⟩
  · exact hdropped h
  · exact hnotHeld h
  · exact hreturned kept k h
  · exact hchunk i h

/-- Settles O55: the reader's answer by its kind, and the stale answer. -/
theorem answersOfReadersAndStaleAnswers : Obligations.AnswersOfReadersAndStaleAnswers := by
  unfold Obligations.AnswersOfReadersAndStaleAnswers
  intro s e p b g r hb hr
  refine ⟨fun row hrow h hreader => ?_, fun row hrow m hm h hreader => ?_, fun hreader hholder hlost => ?_⟩
  · have hanswer : ∃ a, (a = .dropped ∨ a = .notHeld) ∧
        exec row.1 s = .next ((s.afterChecks e p).dirAnswer p b.index g a e.buf).settleEvent ∧
        ((s.afterChecks e p).dirAnswer p b.index g a e.buf).outside = s.outside := by
      rcases List.mem_cons.mp hrow with rfl | hrow
      · exact ⟨.dropped, Or.inl rfl, exec_answer hb (Or.inl ⟨rfl, rfl, rfl⟩) h⟩
      · rw [List.mem_singleton.mp hrow] at h ⊢
        exact ⟨.notHeld, Or.inr rfl, exec_answer hb (Or.inr (Or.inl ⟨rfl, rfl, rfl⟩)) h⟩
    obtain ⟨a, ha, hexec, houtside⟩ := hanswer
    rw [State.dirAnswer_leaves hr hreader ha] at hexec houtside
    obtain ⟨hreaders, hgen, hqueue, hheld, hlost, hrecall, htransfer⟩ := r.withoutReader_parts p
    exact ⟨⟨_, hexec, houtside, State.readerLeaves_served hr p⟩, fun hq => ⟨_, _, hexec, State.readerLeaves_record hr hq p,
      hreaders, hgen, hqueue.trans hq, hheld, hlost, hrecall, htransfer, houtside⟩⟩
  · have hanswer : ∃ a, (a ≠ .dropped ∧ a ≠ .notHeld) ∧
        exec row.1 s = .next ((s.afterChecks e p).dirAnswer p b.index g a e.buf).settleEvent := by
      rcases List.mem_cons.mp hrow with rfl | hrow
      · obtain ⟨kept, k, rfl⟩ := hm
        exact ⟨.returned kept k, ⟨nofun, nofun⟩,
          (exec_answer hb (Or.inr (Or.inr (Or.inl ⟨rfl, kept, k, rfl, rfl⟩))) h).1⟩
      · rw [List.mem_singleton.mp hrow] at hm ⊢
        obtain ⟨i, rfl⟩ := hm
        exact ⟨.chunk i, ⟨nofun, nofun⟩, (exec_answer hb (Or.inr (Or.inr (Or.inr ⟨rfl, i, rfl, rfl⟩))) h).1⟩
    obtain ⟨a, ha, hexec⟩ := hanswer
    rw [State.dirAnswer_ignored hr hreader ha] at hexec
    refine ⟨fun hplain => ?_, fun htarget => ?_⟩
    · rw [hexec, State.answerIgnored_plain hplain]
    · obtain ⟨hinBuf, hserved⟩ := State.answerIgnored_served (buf := e.buf) hr htarget
      exact ⟨_, hexec, hinBuf, hserved⟩
  · have hstale (a : Answer) : (s.afterChecks e p).dirAnswer p b.index g a e.buf = (s.afterChecks e p).releaseIn e.buf :=
      State.dirAnswer_stale hr hreader hholder hlost
    refine ⟨fun h => ?_, fun h => ?_, fun kept k h => ?_, fun i h => ?_⟩
    · rw [(exec_answer hb (Or.inl ⟨rfl, rfl, rfl⟩) h).1, hstale]
    · rw [(exec_answer hb (Or.inr (Or.inl ⟨rfl, rfl, rfl⟩)) h).1, hstale]
    · rw [(exec_answer hb (Or.inr (Or.inr (Or.inl ⟨rfl, kept, k, rfl, rfl⟩))) h).1, hstale]
    · rw [(exec_answer hb (Or.inr (Or.inr (Or.inr ⟨rfl, i, rfl, rfl⟩))) h).1, hstale]

end Sys2Proof.Machine
end

section
/-! PROOFS. The answers of a holder and of a lost holder. -/

namespace Sys2Proof.Machine

variable {s v x sent : State} {e : RxEntry} {p : Station} {b : Block} {n g : Byte} {r : DirRecord} {h : Holder}
  {buf : Option (Fin 4)}

/-! ### Served, or not yet -/

/-- A record that is not settled, or for which nobody asks, stands as it was given. -/
theorem State.ServedAs.record (hx : v.ServedAs x n r sent) (hidle : r.queue = [] ∨ r.settled = false) :
    x.record? n = some r := by
  obtain ⟨y, rfl, hy, -⟩ := hx
  rcases hidle with hq | hsettled
  · rw [State.serve_of_no_request y n r hy hq, hy]
  · rw [State.serve_of_unsettled y n r hy hsettled, hy]

theorem DirRecord.unsettled_of_recalling (h : r.recalling ≠ none) : r.settled = false := by
  rw [← Bool.not_eq_true, DirRecord.settled_iff]
  rintro ⟨-, hnone, -⟩
  exact h hnone

/-! ### The transfer that an answer ends -/

/-- The transfer of record `n`, if one runs, has ended. -/
def State.transferOver (v : State) (n : Byte) (r : DirRecord) : State := if r.transfer.isSome then v.endTransfer n else v

theorem State.transferOver_spec (hr : v.record? n = some r) :
    (v.transferOver n r).record? n = some { r with transfer := none } ∧ RecordOnly v (v.transferOver n r) n ∧
      (v.transferOver n r).SentAs v := by
  unfold State.transferOver
  by_cases hrun : r.transfer.isSome = true
  · rw [if_pos hrun]
    exact ⟨State.record?_endTransfer v n r hr, RecordOnly.endTransfer v n, State.endTransfer_sent v n⟩
  · rw [if_neg hrun]
    refine ⟨?_, .refl v n, .refl v⟩
    rw [hr, ← Option.not_isSome_iff_eq_none.mp hrun]

theorem State.holderAnswers_free {a : Answer} (hheld : h.held = none) : v.holderAnswers n r h a buf =
    let u := v.transferOver n r
    match a with
    | .dropped => u.damage n
    | .notHeld => u.damage n
    | .chunk c =>
      ((u.modRecord n fun r => { r.restartTimer u.startPausable with holder := some h.accepted }).raiseHomeWrite n c h
        buf).serve n
    | .returned kept count =>
      if h.writes = 0 then u.handleReturned n kept count
      else
        (u.modRecord n fun r =>
          { r with
            holder := some { h with held := some { kept := kept, count := count } },
            recalling := r.recalling.map fun k => { k with timer := { k.timer with mode := .stopped } } }).serve n := by
  unfold State.holderAnswers
  rw [hheld]
  rfl

theorem State.holderAnswers_waiting {a : Answer} {back : HeldReturn} (hheld : h.held = some back) :
    v.holderAnswers n r h a buf = v.answerIgnored n r h.station buf := by
  unfold State.holderAnswers
  rw [hheld]

/-- A holder that answers without its copy: the record is DAMAGED. -/
theorem State.transferOver_damage (hr : v.record? n = some r) :
    ((v.transferOver n r).damage n).record? n = some r.damaged ∧
      ((v.transferOver n r).damage n).SentAs (v.denials n .damaged r.queue) ∧
      ((v.transferOver n r).damage n).claims = v.claims ∧
      ∀ m, m ≠ n → ((v.transferOver n r).damage n).record? m = v.record? m := by
  obtain ⟨hrecord, honly, hsent⟩ := State.transferOver_spec hr
  obtain ⟨hdamaged, hdenied, hclaims, hother⟩ := State.damage_spec hrecord
  exact ⟨hdamaged, hdenied.trans (State.denials_congr hsent honly.port (own_of_outside honly.outside) n .damaged _),
    hclaims.trans honly.claims, fun m hm => (hother m hm).trans (honly.other m hm)⟩

/-! ### A CHUNK accepted -/

theorem State.raiseHomeWrite_eq (s : State) (n : Byte) (c : ChunkIdx) (h : Holder) (k : Fin 4) :
    s.raiseHomeWrite n c h (some k) = { s with
      moves := s.moves ++ [.write k n.toNat c (.home n h.station h.gen) true],
      arbPort := (s.raiseHomeWrite n c h (some k)).arbPort } := State.raiseMove_eq s _

theorem State.holderAnswers_chunk {i : ChunkIdx} {k : Fin 4} (hr : v.record? n = some r) (hheld : h.held = none) :
    (v.holderAnswers n r h (.chunk i) (some k)).moves =
        v.moves ++ [.write k n.toNat i (.home n h.station h.gen) true] ∧
      v.ServedAs (v.holderAnswers n r h (.chunk i) (some k)) n
        { r with
          holder := some { h with writes := h.writes + 1 }, transfer := none,
          recalling := r.recalling.map fun k => { k with timer := v.startPausable } } v := by
  obtain ⟨hrecord, honly, hsent⟩ := State.transferOver_spec hr
  rw [State.holderAnswers_free hheld]
  dsimp only
  have htimer : (v.transferOver n r).startPausable = v.startPausable := by
    unfold State.startPausable
    rw [honly.port]
  rw [htimer]
  have honly' := honly.trans (RecordOnly.modRecord (v.transferOver n r) n fun r =>
    { r.restartTimer v.startPausable with holder := some h.accepted })
  have hsent' := (State.modRecord_sent (v.transferOver n r) n fun r =>
    { r.restartTimer v.startPausable with holder := some h.accepted }).trans hsent
  have hrecord' := State.record?_modRecord (v.transferOver n r) n fun r =>
    { r.restartTimer v.startPausable with holder := some h.accepted }
  rw [hrecord] at hrecord'
  generalize (v.transferOver n r).modRecord n (fun r =>
    { r.restartTimer v.startPausable with holder := some h.accepted }) = u at honly' hsent' hrecord'
  have hwrite := State.raiseHomeWrite_eq u n i h k
  have hmoves := congrArg State.moves hwrite
  refine ⟨?_, u.raiseHomeWrite n i h (some k), rfl, ?_, fun m hm => ?_, ?_, ?_, ?_⟩
  · rw [(RecordOnly.serve _ n).moves, hmoves]
    exact congrArg (· ++ _) honly'.moves
  · rw [hwrite]
    exact hrecord'
  · rw [hwrite]
    exact honly'.other m hm
  · rw [hwrite]
    exact hsent'
  · rw [hwrite]
    exact honly'.claims
  · rw [hwrite]
    exact honly'.outside

/-! ### A RETURNED -/

/-- Held while writes are outstanding. -/
theorem State.holderAnswers_early {kept : Bool} {count : Fin 33} (hr : v.record? n = some r) (hheld : h.held = none)
    (hwrites : h.writes ≠ 0) : v.ServedAs (v.holderAnswers n r h (.returned kept count) buf) n
      { r with
        holder := some { h with held := some { kept := kept, count := count } }, transfer := none,
        recalling := r.recalling.map fun k => { k with timer := { k.timer with mode := .stopped } } } v := by
  obtain ⟨hrecord, honly, hsent⟩ := State.transferOver_spec hr
  rw [State.holderAnswers_free hheld]
  dsimp only
  rw [if_neg hwrites]
  refine State.servedAs_of ?_ (honly.trans (RecordOnly.modRecord _ n _)) ((State.modRecord_sent _ n _).trans hsent)
  rw [State.record?_modRecord, hrecord]
  rfl

/-- Compared once no write is outstanding. -/
theorem State.holderAnswers_compared {kept : Bool} {count : Fin 33} (hr : v.record? n = some r) (hh : r.holder = some h)
    (hheld : h.held = none) (hwrites : h.writes = 0) :
    (count.val ≠ h.returned.length → v.holderAnswers n r h (.returned kept count) buf = (v.transferOver n r).damage n) ∧
      (count.val = h.returned.length → v.ServedAs (v.holderAnswers n r h (.returned kept count) buf) n
        (DirRecord.overIfDone { r with
          holder := none, readers := if kept then [{ station := h.station, gen := h.gen }] else r.readers,
          transfer := none,
          recalling := r.recalling.map fun k => { k with awaiting := k.awaiting.filter (· != h.station) } }) v) := by
  obtain ⟨hrecord, honly, hsent⟩ := State.transferOver_spec hr
  obtain ⟨hagrees, hdiffers⟩ := State.handleReturned_spec kept count hrecord hh honly hsent
  rw [State.holderAnswers_free hheld]
  dsimp only
  rw [if_pos hwrites]
  exact ⟨hdiffers, hagrees⟩

/-! ### A lost holder -/

theorem State.lostAnswers_waiting {a : Answer} (hheld : h.held ≠ none) : v.lostAnswers n h a buf = v.releaseIn buf := by
  unfold State.lostAnswers
  split
  · rfl
  · next hnone => exact absurd hnone hheld

theorem State.lostAnswers_dropped {a : Answer} (hheld : h.held = none) (ha : a = .dropped ∨ a = .notHeld) :
    v.lostAnswers n h a buf = v := by
  unfold State.lostAnswers
  rw [hheld]
  rcases ha with rfl | rfl <;> rfl

theorem State.lostAnswers_chunk {i : ChunkIdx} {k : Fin 4} (hr : v.record? n = some r) (hheld : h.held = none) :
    (v.lostAnswers n h (.chunk i) (some k)).moves = v.moves ++ [.write k n.toNat i (.home n h.station h.gen) true] ∧
      (v.lostAnswers n h (.chunk i) (some k)).record? n = some { r with lost := some { h with writes := h.writes + 1 } } := by
  have heq : v.lostAnswers n h (.chunk i) (some k) =
      (v.modRecord n fun r => { r with lost := some h.accepted }).raiseHomeWrite n i h (some k) := by
    unfold State.lostAnswers
    rw [hheld]
  have hrecord := State.record?_modRecord v n fun r => { r with lost := some h.accepted }
  have honly := RecordOnly.modRecord v n fun r => { r with lost := some h.accepted }
  rw [hr] at hrecord
  rw [heq]
  generalize v.modRecord n (fun r => { r with lost := some h.accepted }) = u at hrecord honly
  rw [State.raiseHomeWrite_eq u n i h k]
  exact ⟨congrArg (· ++ _) honly.moves, hrecord⟩

theorem State.lostAnswers_returned {kept : Bool} {count : Fin 33} (hr : v.record? n = some r) (hl : r.lost = some h)
    (hheld : h.held = none) :
    (h.writes ≠ 0 → (v.lostAnswers n h (.returned kept count) buf).record? n =
        some { r with lost := some { h with held := some { kept := kept, count := count } } }) ∧
      (h.writes = 0 → count.val ≠ h.returned.length →
        (v.lostAnswers n h (.returned kept count) buf).record? n = some r) ∧
      (h.writes = 0 → count.val = h.returned.length → v.ServedAs (v.lostAnswers n h (.returned kept count) buf) n
        (DirRecord.overIfDone { r with
          lost := none, readers := if kept then [{ station := h.station, gen := h.gen }] else r.readers }) v) := by
  obtain ⟨hagrees, hdiffers⟩ := State.handleLostReturned_spec kept count hr hl (.refl v n) (.refl v)
  unfold State.lostAnswers
  rw [hheld]
  dsimp only
  refine ⟨fun hwrites => ?_, fun hwrites hcount => ?_, fun hwrites hcount => ?_⟩
  · rw [if_neg hwrites, State.record?_modRecord, hr]
    rfl
  · rw [if_pos hwrites, hdiffers hcount, State.record?_setRecord_same v n _ r hr]
    rw [← hheld, ← hl]
  · rw [if_pos hwrites]
    exact hagrees hcount

/-! ### The obligation -/

/-- The holder answers, and nothing of its RETURNED is held. -/
theorem State.holder_answers (hb : b.home = s.own) (hr : (s.afterChecks e p).record? b.index = some r)
    (hfrom : h.isFrom p g = true) (hh : r.holder = some h) (hreader : ∀ d ∈ r.readers, ¬ (d.station = p ∧ d.gen = g))
    {a : Answer} {row : Instr} {m : Lease}
    (hrow : row = .dropped ∧ m = .dropped b g ∧ a = .dropped ∨ row = .notHeld ∧ m = .notHeld b g ∧ a = .notHeld ∨
      row = .returned ∧ (∃ kept k, m = .returned b g kept k ∧ a = .returned kept k) ∨
      row = .chunkAtHome ∧ ∃ i, m = .chunk b g i ∧ a = .chunk i) (hm : s.Handing e p m) :
    exec row s = .next ((s.afterChecks e p).holderAnswers b.index r h a e.buf).settleEvent ∧
      ((s.afterChecks e p).holderAnswers b.index r h a e.buf).outside = s.outside := by
  rw [← State.dirAnswer_holder hr hreader hh hfrom]
  exact exec_answer hb hrow hm

/-- The lost holder answers. -/
theorem State.lost_answers (hb : b.home = s.own) (hr : (s.afterChecks e p).record? b.index = some r)
    (hfrom : h.isFrom p g = true) (hh : r.holder = none) (hl : r.lost = some h)
    (hreader : ∀ d ∈ r.readers, ¬ (d.station = p ∧ d.gen = g)) {a : Answer} {row : Instr} {m : Lease}
    (hrow : row = .dropped ∧ m = .dropped b g ∧ a = .dropped ∨ row = .notHeld ∧ m = .notHeld b g ∧ a = .notHeld ∨
      row = .returned ∧ (∃ kept k, m = .returned b g kept k ∧ a = .returned kept k) ∨
      row = .chunkAtHome ∧ ∃ i, m = .chunk b g i ∧ a = .chunk i) (hm : s.Handing e p m) :
    exec row s = .next ((s.afterChecks e p).lostAnswers b.index h a e.buf).settleEvent := by
  rw [← State.dirAnswer_lost hr hreader hh hl hfrom]
  exact (exec_answer hb hrow hm).1

/-- The two answers of a station that has no copy, as rows. -/
theorem empty_answer {row : Instr × Lease} (hrow : row ∈ [(Instr.dropped, Lease.dropped b g), (.notHeld, .notHeld b g)]) :
    ∃ a : Answer, (a = .dropped ∨ a = .notHeld) ∧
      (row.1 = .dropped ∧ row.2 = .dropped b g ∧ a = .dropped ∨
        row.1 = .notHeld ∧ row.2 = .notHeld b g ∧ a = .notHeld) := by
  rcases List.mem_cons.mp hrow with rfl | hrow
  · exact ⟨.dropped, Or.inl rfl, Or.inl ⟨rfl, rfl, rfl⟩⟩
  · rw [List.mem_singleton.mp hrow]
    exact ⟨.notHeld, Or.inr rfl, Or.inr ⟨rfl, rfl, rfl⟩⟩

/-- Settles O56: the holder's answers, free or waiting, and the lost holder's. -/
theorem answersOfTheHolder : Obligations.AnswersOfTheHolder := by
  unfold Obligations.AnswersOfTheHolder
  intro s e p b g r h hb hr hfrom
  obtain ⟨hstation, hgen⟩ := Holder.isFrom_iff.mp hfrom
  refine ⟨fun hh hreader => ⟨fun hheld => ⟨fun row hrow hm => ?_, fun i k hm hbuf => ?_, fun kept n hm => ?_⟩,
    fun back hheld row m hrow hm => ?_⟩, fun hh hl hreader => ⟨fun hheld => ⟨fun row hrow hm => ?_, fun i k hm hbuf => ?_,
    fun kept n hm => ?_⟩, fun hheld => ⟨fun row hrow hm => ?_, fun kept k hm => ?_, fun i hm => ?_⟩⟩⟩
  · obtain ⟨a, ha, hrow⟩ := empty_answer hrow
    obtain ⟨hexec, houtside⟩ := State.holder_answers hb hr hfrom hh hreader (hrow.imp_right Or.inl) hm
    have hdamage : (s.afterChecks e p).holderAnswers b.index r h a e.buf =
        ((s.afterChecks e p).transferOver b.index r).damage b.index := by
      rw [State.holderAnswers_free hheld]
      rcases ha with rfl | rfl <;> rfl
    rw [hdamage] at hexec houtside
    exact ⟨_, hexec, houtside, State.transferOver_damage hr⟩
  · obtain ⟨hexec, houtside⟩ := State.holder_answers hb hr hfrom hh hreader
      (Or.inr (Or.inr (Or.inr ⟨rfl, i, rfl, rfl⟩))) hm
    rw [hbuf] at hexec houtside
    obtain ⟨hmoves, hserved⟩ := State.holderAnswers_chunk (i := i) (k := k) hr hheld
    rw [hstation, hgen] at hmoves
    refine ⟨_, hexec, houtside, hmoves, hserved, fun hidle => hserved.record (hidle.imp_right fun hrecall => ?_)⟩
    exact DirRecord.unsettled_of_recalling fun hnone => hrecall (Option.map_eq_none_iff.mp hnone)
  · obtain ⟨hexec, houtside⟩ := State.holder_answers hb hr hfrom hh hreader
      (Or.inr (Or.inr (Or.inl ⟨rfl, kept, n, rfl, rfl⟩))) hm
    refine ⟨_, hexec, houtside, fun hwrites => ?_, fun hwrites hcount => ?_, fun hwrites hcount => ?_⟩
    · have hserved := State.holderAnswers_early (buf := e.buf) (kept := kept) (count := n) hr hheld hwrites
      refine ⟨hserved, fun hidle => hserved.record (hidle.imp_right fun hrecall => ?_)⟩
      exact DirRecord.unsettled_of_recalling fun hnone => hrecall (Option.map_eq_none_iff.mp hnone)
    · rw [(State.holderAnswers_compared hr hh hheld hwrites).1 hcount]
      exact State.transferOver_damage hr
    · have hserved := (State.holderAnswers_compared (buf := e.buf) (kept := kept) hr hh hheld hwrites).2 hcount
      rw [hstation, hgen] at hserved
      refine ⟨hserved, fun hq => ?_⟩
      obtain ⟨hreaders, hgen', hqueue, hholder, hlost, hrecall, -⟩ := DirRecord.overIfDone_parts { r with
        holder := none, readers := if kept then [{ station := p, gen := g }] else r.readers, transfer := none,
        recalling := r.recalling.map fun k => { k with awaiting := k.awaiting.filter (· != p) } }
      exact ⟨_, hserved.record (Or.inl (hqueue.trans hq)), hgen', hholder, hreaders, hlost, hqueue.trans hq,
        fun k hk => DirRecord.awaiting_without (hrecall k hk)⟩
  · have hanswer : ∃ a : Answer, row = .dropped ∧ m = .dropped b g ∧ a = .dropped ∨
        row = .notHeld ∧ m = .notHeld b g ∧ a = .notHeld ∨
        row = .returned ∧ (∃ kept k, m = .returned b g kept k ∧ a = .returned kept k) ∨
        row = .chunkAtHome ∧ ∃ i, m = .chunk b g i ∧ a = .chunk i := by
      rcases hrow with ⟨h1, h2⟩ | ⟨h1, h2⟩ | ⟨h1, kept, k, h2⟩ | ⟨h1, i, h2⟩
      · exact ⟨.dropped, Or.inl ⟨h1, h2, rfl⟩⟩
      · exact ⟨.notHeld, Or.inr (Or.inl ⟨h1, h2, rfl⟩)⟩
      · exact ⟨.returned kept k, Or.inr (Or.inr (Or.inl ⟨h1, kept, k, h2, rfl⟩))⟩
      · exact ⟨.chunk i, Or.inr (Or.inr (Or.inr ⟨h1, i, h2, rfl⟩))⟩
    obtain ⟨a, ha⟩ := hanswer
    obtain ⟨hexec, -⟩ := State.holder_answers hb hr hfrom hh hreader ha hm
    rw [State.holderAnswers_waiting hheld, hstation] at hexec
    refine ⟨fun hplain => ?_, fun htarget => ?_⟩
    · rw [hexec, State.answerIgnored_plain hplain]
    · obtain ⟨hinBuf, hserved⟩ := State.answerIgnored_served (buf := e.buf) hr htarget
      exact ⟨_, hexec, hinBuf, hserved⟩
  · obtain ⟨a, ha, hrow⟩ := empty_answer hrow
    rw [State.lost_answers hb hr hfrom hh hl hreader (hrow.imp_right Or.inl) hm, State.lostAnswers_dropped hheld ha]
  · have hexec := State.lost_answers hb hr hfrom hh hl hreader (Or.inr (Or.inr (Or.inr ⟨rfl, i, rfl, rfl⟩))) hm
    rw [hbuf] at hexec
    obtain ⟨hmoves, hrecord⟩ := State.lostAnswers_chunk (i := i) (k := k) hr hheld
    rw [hstation, hgen] at hmoves
    exact ⟨_, hexec, hmoves, hrecord⟩
  · obtain ⟨hearly, hdiffers, hagrees⟩ :=
      State.lostAnswers_returned (buf := e.buf) (kept := kept) (count := n) hr hl hheld
    rw [hstation, hgen] at hagrees
    exact ⟨_, State.lost_answers hb hr hfrom hh hl hreader (Or.inr (Or.inr (Or.inl ⟨rfl, kept, n, rfl, rfl⟩))) hm, hearly,
      hdiffers, hagrees⟩
  · obtain ⟨a, -, hrow⟩ := empty_answer hrow
    rw [State.lost_answers hb hr hfrom hh hl hreader (hrow.imp_right Or.inl) hm, State.lostAnswers_waiting hheld]
  · rw [State.lost_answers hb hr hfrom hh hl hreader (Or.inr (Or.inr (Or.inl ⟨rfl, kept, k, rfl, rfl⟩))) hm,
      State.lostAnswers_waiting hheld]
  · rw [State.lost_answers hb hr hfrom hh hl hreader (Or.inr (Or.inr (Or.inr ⟨rfl, i, rfl, rfl⟩))) hm,
      State.lostAnswers_waiting hheld]

end Sys2Proof.Machine
end

section
/-! PROOFS. The grants that reach a claim: taken, given back, or ignored as repeats. -/

namespace Sys2Proof.Machine

variable {s v : State} {e : RxEntry} {p : Station} {b : Block} {g : Byte} {mode : Mode} {data : Bool} {tag : Tag}
  {c : ClaimIdx}

/-! ### Giving back -/

/-- The message that gives a grant back. -/
def givenBack (b : Block) (g : Byte) : Mode → Lease
  | .shared => .dropped b g
  | .exclusive => .returned b g false 0

theorem State.giveBack_eq (v : State) (b : Block) (g : Byte) (mode : Mode) :
    v.giveBack b g mode = v.answerHome b.home (givenBack b g mode) := by
  cases mode <;> rfl

theorem State.answerHome_refCount (v : State) (q : Station) (m : Lease) (c : ClaimIdx) :
    (v.answerHome q m).refCount c = v.refCount c := refCount_of_outside (Within.refl v).answerHome.outside c

theorem State.waitToReask_claim (v : State) (c : ClaimIdx) :
    (v.waitToReask c).claim c = { v.claim c with askStanding := false, reask := v.startPausable } :=
  State.claim_modClaim v c _

/-- A grant without data to a claim that has no copy goes back, and an asking claim asks again later. -/
theorem State.takeGrant_refused (hdata : data = false) (hheld : (v.claim c).held = none) (hhome : b.home ≠ v.own) :
    v.takeGrant c b g mode data =
      if (v.claim c).state = .withdrawing
      then (v.answerHome b.home (givenBack b g mode)).giveUp c ((v.claim c).cause.getD .cancelled)
      else (v.answerHome b.home (givenBack b g mode)).waitToReask c := by
  unfold State.takeGrant
  dsimp only
  rw [if_pos (by rw [hdata, hheld, Bool.and_eq_true, Bool.and_eq_true]; exact ⟨⟨rfl, bne_iff_ne.mpr hhome⟩, rfl⟩),
    State.giveBack_eq]

theorem State.takeGrant_asking (hdata : data = false) (hheld : (v.claim c).held = none) (hhome : b.home ≠ v.own)
    (hstate : (v.claim c).state = .asking) :
    (v.takeGrant c b g mode data).claim c = { v.claim c with askStanding := false, reask := v.startPausable } ∧
      (v.takeGrant c b g mode data).SentAs (v.answerHome b.home (givenBack b g mode)) := by
  rw [State.takeGrant_refused hdata hheld hhome, if_neg (by rw [hstate]; nofun)]
  refine ⟨?_, State.modClaim_sent _ c _⟩
  rw [State.waitToReask_claim, State.answerHome_claim, State.startPausable, State.answerHome_port, State.startPausable]

theorem State.takeGrant_withdrawing (hdata : data = false) (hheld : (v.claim c).held = none) (hhome : b.home ≠ v.own)
    (hstate : (v.claim c).state = .withdrawing) :
    let x := v.takeGrant c b g mode data
    (x.claim c).state = (if v.refCount c = 0 then .free else .ended) ∧
      x.cplq = v.cplq ++ ((v.claim c).pendingCmd.toList.map fun t =>
          .plain t ((v.claim c).cause.getD .cancelled).status (some c) none none) ++
        ((v.claim c).pendingCancel.toList.map fun t => .plain t .ok (some c) none none) ∧
      x.SentAs ((v.answerHome b.home (givenBack b g mode)).disown c) := by
  dsimp only
  rw [State.takeGrant_refused hdata hheld hhome, if_pos hstate]
  have hclaim := State.answerHome_claim (s := v) b.home (givenBack b g mode) c
  have hcplq := State.answerHome_cplq (s := v) b.home (givenBack b g mode)
  have hrefs := v.answerHome_refCount b.home (givenBack b g mode) c
  generalize v.answerHome b.home (givenBack b g mode) = u at hclaim hcplq hrefs
  obtain ⟨-, -, hfree, -, hdone⟩ := State.giveUp_spec u c ((v.claim c).cause.getD .cancelled)
  obtain ⟨hsent, -⟩ := State.giveUp_sent u c ((v.claim c).cause.getD .cancelled)
  rw [hclaim] at hfree hdone hsent
  rw [hrefs] at hfree
  rw [hcplq] at hdone
  exact ⟨hfree hheld, hdone, hsent hheld⟩

/-! ### Taking -/

/-- The claim as it stands when a grant of generation `g` is taken. -/
def Claim.grantedGen (cl : Claim) (g : Byte) : Claim :=
  { cl with wait := .off, reask := .off, askStanding := false, gen := some g, deferred := none, cause := none }

/-- The claim as its fill begins. -/
def Claim.filling (cl : Claim) (mode : Mode) : Claim :=
  { cl with state := .filling, held := none, sought := some mode, received := [] }

/-- The claim as its hold period begins. -/
def Claim.holding (cl : Claim) (mode : Mode) (hold : Timer) : Claim :=
  { cl with state := .held, held := some mode, sought := none, dirty := [], hold := hold }

theorem State.takeGrant_accepted (h : data = true ∨ (v.claim c).held ≠ none) :
    v.takeGrant c b g mode data =
      if data then ((v.modClaim c (·.grantedGen g)).modClaim c (·.filling mode)).completeCancel c .tooLate
      else (((v.modClaim c (·.grantedGen g)).modClaim c (·.holding mode v.startHoldTimer)).completeLease c).completeCancel c
        .tooLate := by
  unfold State.takeGrant
  dsimp only
  rw [if_neg]
  · rfl
  · rw [Bool.and_eq_true, Bool.and_eq_true, Bool.not_eq_true', Option.isNone_iff_eq_none]
    rintro ⟨⟨hdata, -⟩, hheld⟩
    exact h.elim (fun h => nomatch hdata.symm.trans h) fun h => h hheld

theorem State.takeGrant_fills (hdata : data = true) :
    let x := v.takeGrant c b g mode data
    x.claim c = { v.claim c with
        state := .filling, held := none, sought := some mode, received := [], wait := .off, reask := .off,
        askStanding := false, gen := some g, deferred := none, cause := none, pendingCancel := none } ∧
      x.cplq = v.cplq ++ ((v.claim c).pendingCancel.toList.map fun t => .plain t .tooLate (some c) none none) ∧
      x.SentAs v := by
  dsimp only
  rw [State.takeGrant_accepted (Or.inl hdata), if_pos hdata]
  have hclaim : ((v.modClaim c (·.grantedGen g)).modClaim c (·.filling mode)).claim c =
      ((v.claim c).grantedGen g).filling mode := by
    rw [State.claim_modClaim, State.claim_modClaim]
  have hcplq : ((v.modClaim c (·.grantedGen g)).modClaim c (·.filling mode)).cplq = v.cplq := rfl
  have hsent : ((v.modClaim c (·.grantedGen g)).modClaim c (·.filling mode)).SentAs v := ⟨rfl, rfl, rfl, rfl⟩
  generalize (v.modClaim c (·.grantedGen g)).modClaim c (·.filling mode) = u at hclaim hcplq hsent
  obtain ⟨-, -, hdone, hcancelled⟩ := State.completeCancel_spec u c .tooLate
  rw [hclaim] at hdone hcancelled
  rw [hcplq] at hcancelled
  exact ⟨hdone, hcancelled, (State.completeCancel_sent u c .tooLate).trans hsent⟩

theorem State.takeGrant_holds (hdata : data = false) (hheld : (v.claim c).held ≠ none) :
    let x := v.takeGrant c b g mode data
    x.claim c = { v.claim c with
        state := .held, held := some mode, sought := none, dirty := [], hold := v.startHoldTimer, wait := .off,
        reask := .off, askStanding := false, gen := some g, deferred := none, cause := none, pendingCmd := none,
        pendingCancel := none } ∧
      x.cplq = v.cplq ++ ((v.claim c).pendingCmd.toList.map fun t => .plain t .ok (some c) (some g)
          (if t.code = 5 then (v.claim c).frame.map (BitVec.ofNat 32) else none)) ++
        ((v.claim c).pendingCancel.toList.map fun t => .plain t .tooLate (some c) none none) ∧
      x.SentAs v := by
  dsimp only
  rw [State.takeGrant_accepted (Or.inr hheld), if_neg (by rw [hdata]; nofun)]
  have hclaim : ((v.modClaim c (·.grantedGen g)).modClaim c (·.holding mode v.startHoldTimer)).claim c =
      ((v.claim c).grantedGen g).holding mode v.startHoldTimer := by
    rw [State.claim_modClaim, State.claim_modClaim]
  have hcplq : ((v.modClaim c (·.grantedGen g)).modClaim c (·.holding mode v.startHoldTimer)).cplq = v.cplq := rfl
  have hsent : ((v.modClaim c (·.grantedGen g)).modClaim c (·.holding mode v.startHoldTimer)).SentAs v :=
    ⟨rfl, rfl, rfl, rfl⟩
  generalize (v.modClaim c (·.grantedGen g)).modClaim c (·.holding mode v.startHoldTimer) = u at hclaim hcplq hsent
  obtain ⟨-, -, hleased, hcompleted⟩ := State.completeLease_spec u c
  obtain ⟨-, -, hdone, hcancelled⟩ := State.completeCancel_spec (u.completeLease c) c .tooLate
  rw [hleased, hclaim] at hdone hcancelled
  rw [hcompleted, hclaim, hcplq] at hcancelled
  exact ⟨hdone, hcancelled,
    (State.completeCancel_sent _ c .tooLate).trans ((State.completeLease_sent u c).trans hsent)⟩

/-! ### The obligation -/

theorem State.claimGrant_taken (htag : v.tagged b tag = true)
    (hstate : (v.claim tag.claim).state = .asking ∨ (v.claim tag.claim).state = .withdrawing) :
    v.claimGrant b g mode data tag = v.takeGrant tag.claim b g mode data := by
  unfold State.claimGrant
  dsimp only
  rw [if_pos htag, if_pos hstate]

theorem State.claimGrant_repeated (htag : v.tagged b tag = true)
    (hstate : ¬ ((v.claim tag.claim).state = .asking ∨ (v.claim tag.claim).state = .withdrawing))
    (hgen : (v.claim tag.claim).gen = some g) : v.claimGrant b g mode data tag = v := by
  unfold State.claimGrant
  dsimp only
  rw [if_pos htag, if_neg hstate, if_pos hgen]

theorem State.claimGrant_unclaimed (h : v.tagged b tag = false ∨ (v.claim tag.claim).state ≠ .asking ∧
      (v.claim tag.claim).state ≠ .withdrawing ∧ (v.claim tag.claim).gen ≠ some g) :
    v.claimGrant b g mode data tag = v.answerHome b.home (givenBack b g mode) := by
  rw [← State.giveBack_eq]
  unfold State.claimGrant
  dsimp only
  split
  · next htag =>
    obtain ⟨hasking, hwithdrawing, hgen⟩ := h.resolve_left (by rw [htag]; nofun)
    rw [if_neg (not_or.mpr ⟨hasking, hwithdrawing⟩), if_neg hgen]
  · rfl

/-- The row of a message to a claim, from the home of the block it names. -/
theorem exec_grant_handing (h : s.Handing e p (.grant b g mode data tag)) : ∃ x : State,
    exec .grant s = .next x.settleEvent ∧ x.outside = s.outside ∧
      x = if b.home = p then (s.afterChecks e p).claimGrant b g mode data tag else s.afterChecks e p := by
  obtain ⟨hrow, houtside⟩ := State.handRow_dispatch h (isKind_of_handing h rfl)
  exact ⟨_, congrArg Host.Outcome.next hrow, houtside, rfl⟩

/-- Settles O57: taken with data or to a copy held, refused without, a repeat, or unclaimed. -/
theorem grantsAreAcceptedOrGivenBack : Obligations.GrantsAreAcceptedOrGivenBack := by
  unfold Obligations.GrantsAreAcceptedOrGivenBack
  intro s e p b g mode data tag cl back h hcl hback
  have hback' : back = givenBack b g mode := by
    rw [hback]
    cases mode <;> rfl
  subst hcl
  rw [hback']
  obtain ⟨x, hexec, houtside, hx⟩ := exec_grant_handing h
  have hp : p ≠ (s.afterChecks e p).own := by
    rw [s.afterChecks_own e p]
    exact sourceOf_ne_own h.source
  have hhold := startHoldTimer_of_outside (s.afterChecks_outside e p)
  refine ⟨x, hexec, houtside, fun hhome => hx.trans (if_neg hhome), ?_⟩
  by_cases hhome : b.home = p
  · rw [if_pos hhome] at hx
    subst hhome
    refine ⟨fun _ htag hstate => ?_, fun _ htag hasking hwithdrawing hgen => ?_, fun _ hnone => ?_⟩
    · rw [State.claimGrant_taken htag hstate] at hx
      subst hx
      rw [← hhold]
      refine ⟨State.takeGrant_fills, State.takeGrant_holds, fun hdata hheld hasking =>
        State.takeGrant_asking hdata hheld hp hasking, fun hdata hheld hwithdrawing => ?_⟩
      obtain ⟨hfree, hcplq, hsent⟩ := State.takeGrant_withdrawing (g := g) (mode := mode) hdata hheld hp hwithdrawing
      refine ⟨hfree, fun t cause hcmd hcause => ?_, hsent⟩
      rw [hcplq, hcmd, hcause]
      rfl
    · exact hx.trans (State.claimGrant_repeated htag (not_or.mpr ⟨hasking, hwithdrawing⟩) hgen)
    · exact hx.trans (State.claimGrant_unclaimed hnone)
  · exact ⟨fun h => absurd h hhome, fun h => absurd h hhome, fun h => absurd h hhome⟩

end Sys2Proof.Machine
end

section
/-! PROOFS. The denials and the WITHDRAWNs that reach a claim. -/

namespace Sys2Proof.Machine

variable {s v : State} {e : RxEntry} {p : Station} {b : Block} {tag : Tag} {reason : DenyReason} {c : ClaimIdx}

/-! ### A request denied -/

theorem State.denied_spec (v : State) (c : ClaimIdx) (reason : DenyReason) :
    ClaimOnly v (v.denied c reason) c ∧
      ((v.claim c).held = none →
        ((v.denied c reason).claim c).state = (if v.refCount c = 0 then .free else .ended) ∧
        (v.denied c reason).cplq = v.cplq ++
            ((v.claim c).pendingCmd.toList.map fun t => .plain t reason.status (some c) none none) ++
          ((v.claim c).pendingCancel.toList.map fun t => .plain t .ok (some c) none none)) ∧
      ((v.claim c).held ≠ none →
        (v.denied c reason).claim c = { (v.claim c).backToShared with pendingCmd := none } ∧
        (v.denied c reason).cplq = v.cplq ++
          ((v.claim c).pendingCmd.toList.map fun t => .plain t reason.status (some c) none none)) := by
  unfold State.denied
  cases hheld : (v.claim c).held with
  | none =>
    obtain ⟨honly, -, -, hcplq⟩ := State.endLease_spec v c .denied reason.status .ok
    exact ⟨honly, fun _ => ⟨State.endLease_state v c _ _ _, hcplq⟩, fun h => absurd rfl h⟩
  | some m =>
    dsimp only
    have hclaim := State.claim_modClaim v c Claim.backToShared
    have hbefore := ClaimOnly.modClaim v c Claim.backToShared
    have hcplq : (v.modClaim c Claim.backToShared).cplq = v.cplq := rfl
    generalize v.modClaim c Claim.backToShared = u at hclaim hbefore hcplq
    obtain ⟨honly, -, hdone, hcompleted⟩ := State.completePending_spec u c reason.status none none
    rw [hclaim] at hdone hcompleted
    rw [hcplq] at hcompleted
    exact ⟨hbefore.trans honly, fun h => (nomatch h), fun _ => ⟨hdone, hcompleted⟩⟩

theorem State.fillAbandoned_claim (v : State) (c : ClaimIdx) : (v.fillAbandoned c).claim c = { v.claim c with
    state := .asking, held := none, received := [], gen := none, deferred := none, askStanding := false,
    wait := v.startWaitTimer, reask := v.startPausable } := by
  unfold State.fillAbandoned
  dsimp only
  rw [State.waitToReask_claim, State.claim_modClaim]
  rfl

theorem State.claimDeny_ignored (h : v.tagged b tag = false ∨ (v.claim tag.claim).state ≠ .asking ∧
      (v.claim tag.claim).state ≠ .withdrawing ∧ (v.claim tag.claim).state ≠ .filling) : v.claimDeny b reason tag = v := by
  unfold State.claimDeny
  dsimp only
  split
  · next htag =>
    obtain ⟨hasking, hwithdrawing, hfilling⟩ := h.resolve_left (by rw [htag]; nofun)
    split
    · next hstate => exact absurd hstate hasking
    · next hstate => exact absurd hstate hwithdrawing
    · next hstate => exact absurd hstate hfilling
    · rfl
  · rfl

theorem State.claimDeny_asking (htag : v.tagged b tag = true) (hstate : (v.claim tag.claim).state = .asking) :
    v.claimDeny b reason tag = if reason = .full then v.waitToReask tag.claim else v.denied tag.claim reason := by
  unfold State.claimDeny
  dsimp only
  rw [if_pos htag, hstate]

theorem State.claimDeny_withdrawing (htag : v.tagged b tag = true) (hstate : (v.claim tag.claim).state = .withdrawing) :
    v.claimDeny b reason tag = v.giveUp tag.claim ((v.claim tag.claim).cause.getD .cancelled) := by
  unfold State.claimDeny
  dsimp only
  rw [if_pos htag, hstate]

theorem State.claimDeny_filling (htag : v.tagged b tag = true) (hstate : (v.claim tag.claim).state = .filling) :
    v.claimDeny b reason tag = v.fillAbandoned tag.claim := by
  unfold State.claimDeny
  dsimp only
  rw [if_pos htag, hstate]

theorem ClaimOnly.waitToReask (v : State) (c : ClaimIdx) : ClaimOnly v (v.waitToReask c) c := by
  unfold State.waitToReask
  exact ClaimOnly.modClaim v c _

/-- Only the claim that the tag names is touched. -/
theorem State.claimDeny_only (v : State) (b : Block) (reason : DenyReason) (tag : Tag) :
    ClaimOnly v (v.claimDeny b reason tag) tag.claim := by
  unfold State.claimDeny
  dsimp only
  split
  · split
    · split
      · exact ClaimOnly.waitToReask v _
      · exact (v.denied_spec tag.claim reason).1
    · exact (State.giveUp_spec v tag.claim _).1
    · unfold State.fillAbandoned
      exact (ClaimOnly.modClaim v tag.claim _).trans (ClaimOnly.waitToReask _ tag.claim)
    · exact .refl v _
  · exact .refl v _

theorem exec_deny_handing (h : s.Handing e p (.deny b reason tag)) : ∃ x : State,
    exec .deny s = .next x.settleEvent ∧ x.outside = s.outside ∧
      x = if b.home = p then (s.afterChecks e p).claimDeny b reason tag else s.afterChecks e p := by
  obtain ⟨hrow, houtside⟩ := State.handRow_dispatch h (isKind_of_handing h rfl)
  exact ⟨_, congrArg Host.Outcome.next hrow, houtside, rfl⟩

/-! ### A WITHDRAWN -/

theorem State.claimWithdrawn_ignored (h : v.tagged b tag = false ∨ (v.claim tag.claim).state ≠ .withdrawing) :
    v.claimWithdrawn b tag = v := by
  unfold State.claimWithdrawn
  rw [if_neg]
  rintro ⟨htag, hstate⟩
  exact h.elim (fun h => nomatch h.symm.trans htag) fun h => h hstate

theorem State.claimWithdrawn_taken (htag : v.tagged b tag = true) (hstate : (v.claim tag.claim).state = .withdrawing) :
    v.claimWithdrawn b tag = v.giveUp tag.claim ((v.claim tag.claim).cause.getD .cancelled) := by
  unfold State.claimWithdrawn
  rw [if_pos ⟨htag, hstate⟩]

theorem exec_withdrawn_handing (h : s.Handing e p (.withdrawn b tag)) : ∃ x : State,
    exec .withdrawn s = .next x.settleEvent ∧ x.outside = s.outside ∧
      x = if b.home = p then (s.afterChecks e p).claimWithdrawn b tag else s.afterChecks e p := by
  obtain ⟨hrow, houtside⟩ := State.handRow_dispatch h (isKind_of_handing h rfl)
  exact ⟨_, congrArg Host.Outcome.next hrow, houtside, rfl⟩

/-- Settles O58: by the state of the claim that the tag names. -/
theorem denialsAndWithdrawnsEndTheAttempt : Obligations.DenialsAndWithdrawnsEndTheAttempt := by
  unfold Obligations.DenialsAndWithdrawnsEndTheAttempt
  intro s e p b tag cl hcl
  subst hcl
  refine ⟨fun reason h => ?_, fun h => ?_⟩
  · obtain ⟨x, hexec, houtside, hx⟩ := exec_deny_handing h
    refine ⟨x, hexec, houtside, fun d hd => ?_, fun hignored => ?_, fun hhome htag =>
      ⟨fun hstate hfull => ?_, fun hstate hreason t hcmd hcancel => ?_, fun hstate hheld => ?_, fun hstate => ?_⟩⟩
    · rw [hx]
      split
      · exact (State.claimDeny_only _ b reason tag).other d hd
      · rfl
    · by_cases hhome : b.home = p
      · rw [if_pos hhome] at hx
        exact hx.trans (State.claimDeny_ignored (hignored.resolve_left (not_not_intro hhome)))
      · exact hx.trans (if_neg hhome)
    · rw [hx, if_pos hhome, State.claimDeny_asking htag hstate, if_pos hfull, State.waitToReask_claim]
    · obtain ⟨-, hfree, hshared⟩ := State.denied_spec (s.afterChecks e p) tag.claim reason
      rw [hx, if_pos hhome, State.claimDeny_asking htag hstate, if_neg hreason]
      refine ⟨?_, fun hnone => (hfree hnone).1, fun hheld => (hshared hheld).1⟩
      by_cases hnone : ((s.afterChecks e p).claim tag.claim).held = none
      · rw [(hfree hnone).2, hcmd, hcancel]
        exact List.append_nil _
      · rw [(hshared hnone).2, hcmd]
        rfl
    · rw [hx, if_pos hhome, State.claimDeny_withdrawing htag hstate]
      obtain ⟨-, -, hfree, -, -⟩ := State.giveUp_spec (s.afterChecks e p) tag.claim
        (((s.afterChecks e p).claim tag.claim).cause.getD .cancelled)
      exact hfree hheld
    · rw [hx, if_pos hhome, State.claimDeny_filling htag hstate, State.fillAbandoned_claim]
  · obtain ⟨x, hexec, houtside, hx⟩ := exec_withdrawn_handing h
    refine ⟨x, hexec, houtside, fun hignored => ?_, fun hhome htag hstate => ?_⟩
    · by_cases hhome : b.home = p
      · rw [if_pos hhome] at hx
        exact hx.trans (State.claimWithdrawn_ignored (hignored.resolve_left (not_not_intro hhome)))
      · exact hx.trans (if_neg hhome)
    · rw [hx, if_pos hhome, State.claimWithdrawn_taken htag hstate]
      obtain ⟨-, -, hfree, hshared, hcplq⟩ := State.giveUp_spec (s.afterChecks e p) tag.claim
        (((s.afterChecks e p).claim tag.claim).cause.getD .cancelled)
      refine ⟨fun t cause hcmd hcause => ?_, hfree, hshared⟩
      rw [hcplq, hcmd, hcause]
      rfl

end Sys2Proof.Machine
end

section
/-! PROOFS. The recalls that reach a claim, and the chunks of its fill. -/

namespace Sys2Proof.Machine

variable {s v : State} {e : RxEntry} {p : Station} {b : Block} {g : Byte} {kind : RecallKind} {c : ClaimIdx}

/-! ### A RECALL -/

theorem Claim.fits_iff (cl : Claim) (kind : RecallKind) :
    cl.fits kind = true ↔ ((if cl.state = .filling then cl.sought else cl.held) = some .shared ∧ kind = .drop) ∨
      ((if cl.state = .filling then cl.sought else cl.held) = some .exclusive ∧ (kind = .surrender ∨ kind = .demote)) := by
  unfold Claim.fits
  generalize (if cl.state = .filling then cl.sought else cl.held) = m
  cases m with
  | none => simp
  | some m => cases m <;> cases kind <;> simp

/-- A claim that does not fill is recalled by the copy it holds. -/
theorem Claim.fits_of_held {cl : Claim} (hstate : cl.state ≠ .filling)
    (h : cl.held = some .shared ∧ kind = .drop ∨ cl.held = some .exclusive ∧ (kind = .surrender ∨ kind = .demote)) :
    cl.fits kind = true := by
  rw [Claim.fits_iff, if_neg hstate]
  exact h

theorem State.recalled_spec (h : v.recalled b g = some c) : (v.claim c).block = some b ∧ (v.claim c).gen = some g := by
  have hfound := List.find?_some h
  simp only [Bool.and_eq_true, beq_iff_eq] at hfound
  obtain ⟨⟨hblock, -⟩, hgen⟩ := hfound
  exact ⟨hblock, hgen⟩

theorem State.claimRecall_unmatched (h : v.recalled b g = none) :
    v.claimRecall b g kind = v.answerHome b.home (.notHeld b g) := by
  unfold State.claimRecall
  rw [h]

/-- The recall of a claim, by the order of the tests it makes. -/
theorem State.claimRecall_matched (h : v.recalled b g = some c) : v.claimRecall b g kind =
    if (v.claim c).state ∈ [.dropping, .returning, .demoting] ∨ (v.claim c).fits kind = false then v
    else if (v.claim c).state = .filling ∨ (v.claim c).hold.mode = .running then
      if (v.claim c).deferred = none then v.setClaim c { v.claim c with deferred := some (kind, g) } else v
    else v.actRecall c kind := by
  have hgiving : (v.claim c).state ∈ [.dropping, .returning, .demoting] ↔
      (v.claim c).state = .dropping ∨ (v.claim c).state = .returning ∨ (v.claim c).state = .demoting := by
    simp only [List.mem_cons, List.not_mem_nil, or_false]
  have hholds : (v.claim c).holdRunning = true ↔ (v.claim c).hold.mode = .running := beq_iff_eq
  unfold State.claimRecall
  rw [h]
  dsimp only
  by_cases hgives : (v.claim c).state = .dropping ∨ (v.claim c).state = .returning ∨ (v.claim c).state = .demoting
  · rw [if_pos hgives, if_pos (Or.inl (hgiving.mpr hgives))]
  · cases hfits : (v.claim c).fits kind with
    | false => rw [if_neg hgives, Bool.not_false, if_pos rfl, if_pos (Or.inr rfl)]
    | true =>
      rw [if_neg hgives, Bool.not_true, if_neg nofun, if_neg (not_or.mpr ⟨fun h => hgives (hgiving.mp h), nofun⟩)]
      refine ite_congr (propext (or_congr Iff.rfl hholds)) (fun _ => ?_) fun _ => rfl
      cases hdeferred : (v.claim c).deferred with
      | none =>
        rw [if_pos rfl]
        rfl
      | some d => rfl

/-- A recall that fits and need not wait is acted on. -/
theorem State.claimRecall_acts (h : v.recalled b g = some c)
    (hgives : (v.claim c).state ∉ [.dropping, .returning, .demoting]) (hstate : (v.claim c).state ≠ .filling)
    (hhold : (v.claim c).hold.mode ≠ .running)
    (hheld : (v.claim c).held = some .shared ∧ kind = .drop ∨
      (v.claim c).held = some .exclusive ∧ (kind = .surrender ∨ kind = .demote)) :
    v.claimRecall b g kind = v.actRecall c kind := by
  rw [State.claimRecall_matched h, if_neg, if_neg (not_or.mpr ⟨hstate, hhold⟩)]
  refine not_or.mpr ⟨hgives, ?_⟩
  rw [Claim.fits_of_held hstate hheld]
  nofun

theorem exec_recallCopy_handing (h : s.Handing e p (.recallCopy b g kind)) : ∃ x : State,
    exec .recallCopy s = .next x.settleEvent ∧ x.outside = s.outside ∧
      x = if b.home = p then (s.afterChecks e p).claimRecall b g kind else s.afterChecks e p := by
  obtain ⟨hrow, houtside⟩ := State.handRow_dispatch h (isKind_of_handing h rfl)
  exact ⟨_, congrArg Host.Outcome.next hrow, houtside, rfl⟩

/-- What a recall does to a claim that is HELD and out of its hold period. -/
theorem State.claimRecall_held (h : v.recalled b g = some c) (hhome : b.home ≠ v.own) (hstate : (v.claim c).state = .held)
    (hhold : (v.claim c).hold.mode ≠ .running) :
    (kind = .drop → (v.claim c).held = some .shared →
      v.DropBegun (v.claimRecall b g kind) c (v.claim c) b g .recalled) ∧
    (kind = .surrender → (v.claim c).held = some .exclusive →
      v.ReturnBegun (v.claimRecall b g kind) c (v.claim c) b g false .recalled) ∧
    (kind = .demote → (v.claim c).held = some .exclusive →
      v.ReturnBegun (v.claimRecall b g kind) c (v.claim c) b g true .recalled) := by
  obtain ⟨hb, hg⟩ := State.recalled_spec h
  have hgives : (v.claim c).state ∉ [.dropping, .returning, .demoting] := by
    rw [hstate]
    decide
  have hnotFilling : (v.claim c).state ≠ .filling := by
    rw [hstate]
    nofun
  refine ⟨fun hkind hheld => ?_, fun hkind hheld => ?_, fun hkind hheld => ?_⟩
  · rw [State.claimRecall_acts h hgives hnotFilling hhold (Or.inl ⟨hheld, hkind⟩), State.actRecall_held v c kind hstate,
      hheld, hkind]
    exact State.startDrop_begun v c .recalled b g hb hg hhome
  · rw [State.claimRecall_acts h hgives hnotFilling hhold (Or.inr ⟨hheld, Or.inl hkind⟩),
      State.actRecall_held v c kind hstate, hheld, hkind]
    exact State.startReturn_begun v c false .recalled b g hb hg hhome
  · rw [State.claimRecall_acts h hgives hnotFilling hhold (Or.inr ⟨hheld, Or.inr hkind⟩),
      State.actRecall_held v c kind hstate, hheld, hkind]
    exact State.startReturn_begun v c true .recalled b g hb hg hhome

/-- What a recall does to an upgrading claim. -/
theorem State.claimRecall_upgrading (h : v.recalled b g = some c) (hhome : b.home ≠ v.own)
    (hstate : (v.claim c).state = .asking ∨ (v.claim c).state = .withdrawing) (hheld : (v.claim c).held = some .shared)
    (hhold : (v.claim c).hold.mode ≠ .running) :
    (v.claimRecall b g .drop).claim c = { v.claim c with held := none } ∧
      (v.claimRecall b g .drop).SentAs (v.handOver b.home (.dropped b g) (.claims (some (c, (v.claim c).use)))) ∧
      ∃ i ∈ (v.claimRecall b g .drop).attention, i.subject = .claim c ∧
        i.notice = .claim .copyDropped (v.claim c).use (v.claim c).block := by
  obtain ⟨hb, hg⟩ := State.recalled_spec h
  have hgives : (v.claim c).state ∉ [.dropping, .returning, .demoting] := by
    rcases hstate with h | h <;> rw [h] <;> decide
  have hnotFilling : (v.claim c).state ≠ .filling := by
    rcases hstate with h | h <;> rw [h] <;> nofun
  rw [State.claimRecall_acts h hgives hnotFilling hhold (Or.inl ⟨hheld, rfl⟩), State.actRecall_dropCopy hstate hheld,
    ← State.sendHome_remote v c _ b hb hhome]
  exact State.dropCopy_spec v c b g hb hg

/-! ### A CHUNK of a fill -/

theorem State.claimChunk_unmatched {i : ChunkIdx} {buf : Option (Fin 4)} (h : v.filler b g = none) :
    v.claimChunk b g i buf = v.releaseIn buf := by
  unfold State.claimChunk
  rw [h]

theorem State.claimChunk_accepted {i : ChunkIdx} {k : Fin 4} {f : Nat} (h : v.filler b g = some c)
    (hf : (v.claim c).frame = some f) :
    v.claimChunk b g i (some k) = v.raiseMove (.write k f i (.claim c (v.claim c).use g) true) := by
  unfold State.claimChunk
  rw [h]
  dsimp only
  rw [hf]

theorem exec_chunkAtClaim_handing {i : ChunkIdx} (hb : b.home ≠ s.own) (h : s.Handing e p (.chunk b g i)) : ∃ x : State,
    exec .chunkAtClaim s = .next x.settleEvent ∧
      x = if b.home = p then (s.afterChecks e p).claimChunk b g i e.buf else (s.afterChecks e p).releaseIn e.buf := by
  obtain ⟨hkind, hhere⟩ := State.chunk_frame h
  have haway : s.isHomeHere e.frame = false := by
    rw [hhere, beq_eq_false_iff_ne]
    exact fun h => hb (Fin.ext h)
  obtain ⟨hrow, -⟩ := State.handRow_dispatch (row := fun f => isKind 7 f && !s.isHomeHere f) h (by rw [hkind, haway]; rfl)
  refine ⟨_, congrArg Host.Outcome.next hrow, ?_⟩
  show (if b.home = (s.afterChecks e p).own then _ else _) = _
  rw [if_neg (by rw [s.afterChecks_own e p]; exact hb)]
  rfl

/-- Settles O59: the recall by the state of the claim it matches, and the chunk by the claim that fills. -/
theorem recallsAndFillChunks : Obligations.RecallsAndFillChunks := by
  unfold Obligations.RecallsAndFillChunks
  refine ⟨fun cl kind m hm => by rw [hm]; exact cl.fits_iff kind, fun s e p b g => ⟨fun kind h => ?_, fun i h hb => ?_⟩⟩
  · obtain ⟨x, hexec, houtside, hx⟩ := exec_recallCopy_handing h
    have hp : p ≠ (s.afterChecks e p).own := by
      rw [s.afterChecks_own e p]
      exact sourceOf_ne_own h.source
    refine ⟨x, hexec, houtside, fun hhome => hx.trans (if_neg hhome), fun hhome hnone => ?_, fun c cl hhome hmatch hcl => ?_⟩
    · rw [if_pos hhome] at hx
      rw [hx, State.claimRecall_unmatched hnone, hhome]
    · rw [if_pos hhome] at hx
      subst hhome hcl
      have hmatched := hx.trans (State.claimRecall_matched hmatch)
      refine ⟨fun hgives => ?_, fun hfits => ?_, fun hfits hgives hwaits => ?_, fun hstate hhold => ?_,
        fun hkind hstate hheld hhold => ?_⟩
      · rw [hmatched, if_pos (Or.inl hgives)]
      · rw [hmatched, if_pos (Or.inr hfits)]
      · rw [if_neg (not_or.mpr ⟨hgives, by rw [hfits]; nofun⟩), if_pos hwaits] at hmatched
        exact ⟨fun hnone => hmatched.trans (if_pos hnone), fun hsome => hmatched.trans (if_neg hsome)⟩
      · rw [hx]
        exact State.claimRecall_held hmatch hp hstate hhold
      · rw [hx, hkind]
        exact State.claimRecall_upgrading hmatch hp hstate hheld hhold
  · obtain ⟨x, hexec, hx⟩ := exec_chunkAtClaim_handing hb h
    refine ⟨x, hexec, fun hignored => ?_, fun c k f hhome hfiller hbuf hf => ?_⟩
    · by_cases hhome : b.home = p
      · rw [if_pos hhome] at hx
        exact hx.trans (State.claimChunk_unmatched (hignored.resolve_left (not_not_intro hhome)))
      · exact hx.trans (if_neg hhome)
    · rw [if_pos hhome, hbuf, State.claimChunk_accepted hfiller hf] at hx
      have hraised := State.raiseMove_eq (s.afterChecks e p) (.write k f i (.claim c ((s.afterChecks e p).claim c).use g) true)
      rw [← hx] at hraised
      exact ⟨congrArg State.moves hraised, by rw [congrArg State.moves hraised]; exact hraised⟩

end Sys2Proof.Machine
end
